-- ==== Sys2Proof/Word.lean ====
section
/-! DEFINITION. The fixed-width values of the Ariel CPU, under the spec's own names (`00_scope.md` rule R5 and
its glossary): a Byte is 8 bits, a Word is 16 bits, a Double Word is 32 bits. -/

namespace Sys2Proof

/-- A Byte: 8 bits. -/
abbrev Byte := BitVec 8

/-- A Word: 16 bits (the spec's Word, not the register width). -/
abbrev Word := BitVec 16

/-- A Double Word: 32 bits, the width of every register and of an address (rule R5). -/
abbrev DWord := BitVec 32

/-- The number of a normal register R0 to R15 (rules R11, R12). -/
abbrev Reg := Fin 16

end Sys2Proof
end

