-- ==== Sys2Proof/Syntax.lean ====
section
/-! DEFINITION. The instructions of the Ariel CPU as syntax: the operand forms of `30_encoding.md` rule R51 and one
inductive `Instr` with a constructor for every mnemonic of `spec/opcode_table.json`. A mnemonic whose rows differ only in
the kind of one operand (the third operand of formats RC and CP, the memory-address mode, the size of a branch offset)
carries that kind as data; a mnemonic with several rules (POP, PUSH, MOV, MOVT, SWP) has a constructor for each rule. -/

namespace Sys2Proof

/-- One of the 21 registers a 5-bit number names (rule R12). -/
inductive AnyReg where
  | r (n : Reg)
  | pc
  | sr
  | sp
  | fp
  | lr
  deriving DecidableEq, Repr

/-- The third operand of formats RC and CP (rule R55): a normal register or an immediate of one of three sizes. -/
inductive Opt where
  | reg (o : Reg)
  | imm8 (v : Byte)
  | imm16 (v : Word)
  | imm32 (v : DWord)
  deriving DecidableEq, Repr

/-- When the base register of an indexed mode is written (rules R128, R129, R130). -/
inductive Indexing where
  | plain
  | pre
  | post
  deriving DecidableEq, Repr

/-- The offset of an indexed mode: Register, Signed Byte or Signed Word (rules R127 to R130). -/
inductive Offset where
  | reg (o : Reg)
  | byte (off : Byte)
  | word (off : Word)
  deriving DecidableEq, Repr

/-- The memory-address modes other than `$04` (rule R57). -/
inductive Mode where
  | rel16 (off : Word)
  | rel32 (off : DWord)
  | absolute (addr : DWord)
  | indirect (addr : DWord)
  | base (b : Reg)
  | indexed (ix : Indexing) (b : Reg) (off : Offset)
  deriving DecidableEq, Repr

/-- The three address types of JMP (rules R58, R226): modes `$02`, `$03` and `$04`. -/
inductive JmpTarget where
  | absolute (addr : DWord)
  | indirect (addr : DWord)
  | reg (d : Reg)
  deriving DecidableEq, Repr

/-- The offset of a branch or call in one of its two sizes (rule R60). -/
inductive BrOff where
  | short (off : Word)
  | far (off : DWord)
  deriving DecidableEq, Repr

/-- The conditions of rules R205 to R219. -/
inductive Cond where
  | eq | ne | cs | cc | mi | pl | vs | vc | hi | ls | ge | lt | gt | le
  | always
  deriving DecidableEq, Repr

/-- The instructions (rules R2, R62). -/
inductive Instr where
  /-- `NOP` (rule R80). -/
  | nop
  /-- `AFH` (rule R81). -/
  | afh
  /-- `HALT` (rule R82). -/
  | halt
  /-- `WAIT` (rule R83). -/
  | wait
  /-- `EI` (rule R84). -/
  | ei
  /-- `DI` (rule R85). -/
  | di
  /-- `SEC` (rule R86). -/
  | sec
  /-- `CLC` (rule R87). -/
  | clc
  /-- `NEC` (rule R88). -/
  | nec
  /-- `SEV` (rule R89). -/
  | sev
  /-- `CLV` (rule R90). -/
  | clv
  /-- `NEV` (rule R91). -/
  | nev
  /-- `RTS` (rule R92). -/
  | rts
  /-- `RTL` (rule R93). -/
  | rtl
  /-- `RTI` (rule R94). -/
  | rti
  /-- `POP r` (rule R101). -/
  | pop (r : AnyReg)
  /-- `POP Ra-Rb` (rule R102). -/
  | popRange (a b : Reg)
  /-- `PUSH r` (rule R103). -/
  | push (r : AnyReg)
  /-- `PUSH Ra-Rb` (rule R104). -/
  | pushRange (a b : Reg)
  /-- `CLR Ra-Rb` (rule R105). -/
  | clr (a b : Reg)
  /-- `MOV Rd, Rs` (rule R106). -/
  | movReg (d r : Reg)
  /-- `MOV Rd, #imm16` (rule R107). -/
  | movImm16 (d : Reg) (v : Word)
  /-- `MOV Rd, #imm32` (rule R108). -/
  | movImm32 (d : Reg) (v : DWord)
  /-- `MOV x, y` with any two of the 21 registers (rule R109). -/
  | movAny (x y : AnyReg)
  /-- `MOVB Rd, Rs, opt` (rule R110). -/
  | movb (d r : Reg) (o : Opt)
  /-- `MOVW Rd, Rs, opt` (rule R111). -/
  | movw (d r : Reg) (o : Opt)
  /-- `MOVT Rd, Rs` (rule R112). -/
  | movtReg (d r : Reg)
  /-- `MOVT Rd, #imm16` (rule R113). -/
  | movtImm (d : Reg) (v : Word)
  /-- `SWP Rd, Rs` (rule R114). -/
  | swpReg (d r : Reg)
  /-- `LDR Rd, <address>` (rule R137). -/
  | ldr (d : Reg) (m : Mode)
  /-- `LDRB Rd, <address>` (rule R138). -/
  | ldrb (d : Reg) (m : Mode)
  /-- `LDRW Rd, <address>` (rule R139). -/
  | ldrw (d : Reg) (m : Mode)
  /-- `LDRBS Rd, <address>` (rule R140). -/
  | ldrbs (d : Reg) (m : Mode)
  /-- `LDRWS Rd, <address>` (rule R141). -/
  | ldrws (d : Reg) (m : Mode)
  /-- `STR Rd, <address>` (rule R142). -/
  | str (d : Reg) (m : Mode)
  /-- `STRB Rd, <address>` (rule R143). -/
  | strb (d : Reg) (m : Mode)
  /-- `STRW Rd, <address>` (rule R144). -/
  | strw (d : Reg) (m : Mode)
  /-- `STRBS Rd, <address>` (rule R145). -/
  | strbs (d : Reg) (m : Mode)
  /-- `STRWS Rd, <address>` (rule R146). -/
  | strws (d : Reg) (m : Mode)
  /-- `ADR Rd, <address>` (rule R136). -/
  | adr (d : Reg) (m : Mode)
  /-- `SWP Rd, <address>` (rule R135). -/
  | swpMem (d : Reg) (m : Mode)
  /-- `JMP <address>` (rule R226). -/
  | jmp (t : JmpTarget)
  /-- `LSL Rd, Rs, opt` (rule R150). -/
  | lsl (d r : Reg) (o : Opt)
  /-- `LSR Rd, Rs, opt` (rule R151). -/
  | lsr (d r : Reg) (o : Opt)
  /-- `ROL Rd, Rs, opt` (rule R152). -/
  | rol (d r : Reg) (o : Opt)
  /-- `ROR Rd, Rs, opt` (rule R153). -/
  | ror (d r : Reg) (o : Opt)
  /-- `RCL Rd, Rs, opt` (rule R154). -/
  | rcl (d r : Reg) (o : Opt)
  /-- `RCR Rd, Rs, opt` (rule R155). -/
  | rcr (d r : Reg) (o : Opt)
  /-- `ASR Rd, Rs, opt` (rule R156). -/
  | asr (d r : Reg) (o : Opt)
  /-- `AND Rd, Rs, opt` (rule R157). -/
  | and (d r : Reg) (o : Opt)
  /-- `ORR Rd, Rs, opt` (rule R158). -/
  | orr (d r : Reg) (o : Opt)
  /-- `EOR Rd, Rs, opt` (rule R159). -/
  | eor (d r : Reg) (o : Opt)
  /-- `NOT Rd, Rs` (rule R160). -/
  | not (d r : Reg)
  /-- `CLZ Rd, Rs` (rule R161). -/
  | clz (d r : Reg)
  /-- `CTZ Rd, Rs` (rule R162). -/
  | ctz (d r : Reg)
  /-- `RBIT Rd, Rs` (rule R163). -/
  | rbit (d r : Reg)
  /-- `REVB Rd, Rs` (rule R164). -/
  | revb (d r : Reg)
  /-- `REVV Rd, Rs` (rule R165). -/
  | revv (d r : Reg)
  /-- `ADD Rd, Rs, opt` (rule R170). -/
  | add (d r : Reg) (o : Opt)
  /-- `ADC Rd, Rs, opt` (rule R171). -/
  | adc (d r : Reg) (o : Opt)
  /-- `SUB Rd, Rs, opt` (rule R172). -/
  | sub (d r : Reg) (o : Opt)
  /-- `SBC Rd, Rs, opt` (rule R173). -/
  | sbc (d r : Reg) (o : Opt)
  /-- `RSB Rd, Rs, opt` (rule R174). -/
  | rsb (d r : Reg) (o : Opt)
  /-- `RSC Rd, Rs, opt` (rule R175). -/
  | rsc (d r : Reg) (o : Opt)
  /-- `DIV Rd, Rs, opt` (rule R176). -/
  | div (d r : Reg) (o : Opt)
  /-- `DIVS Rd, Rs, opt` (rule R177). -/
  | divs (d r : Reg) (o : Opt)
  /-- `REM Rd, Rs, opt` (rule R178). -/
  | rem (d r : Reg) (o : Opt)
  /-- `REMS Rd, Rs, opt` (rule R179). -/
  | rems (d r : Reg) (o : Opt)
  /-- `MUL Rd, Rs, opt` (rule R180). -/
  | mul (d r : Reg) (o : Opt)
  /-- `MULS Rd, Rs, opt` (rule R181). -/
  | muls (d r : Reg) (o : Opt)
  /-- `ABS Rd, Rs` (rule R182). -/
  | abs (d r : Reg)
  /-- `NEG Rd, Rs` (rule R183). -/
  | neg (d r : Reg)
  /-- `INC Rd, #k` (rule R184). -/
  | inc (d : Reg) (k : BitVec 4)
  /-- `DEC Rd, #k` (rule R185). -/
  | dec (d : Reg) (k : BitVec 4)
  /-- `CFB Rd, Rs` (rule R190). -/
  | cfb (d r : Reg)
  /-- `CFBS Rd, Rs` (rule R191). -/
  | cfbs (d r : Reg)
  /-- `CFW Rd, Rs` (rule R192). -/
  | cfw (d r : Reg)
  /-- `CFWS Rd, Rs` (rule R193). -/
  | cfws (d r : Reg)
  /-- `CFBCD Rd, Rs` (rule R194). -/
  | cfbcd (d r : Reg)
  /-- `CTB Rd, Rs` (rule R195). -/
  | ctb (d r : Reg)
  /-- `CTBS Rd, Rs` (rule R196). -/
  | ctbs (d r : Reg)
  /-- `CTW Rd, Rs` (rule R197). -/
  | ctw (d r : Reg)
  /-- `CTWS Rd, Rs` (rule R198). -/
  | ctws (d r : Reg)
  /-- `CTBCD Rd, Rs` (rule R199). -/
  | ctbcd (d r : Reg)
  /-- `BEQ Label` (rule R221, condition of rule R205). -/
  | beq (off : BrOff)
  /-- `BNE Label` (rule R221, condition of rule R206). -/
  | bne (off : BrOff)
  /-- `BCS Label` (rule R221, condition of rule R207). -/
  | bcs (off : BrOff)
  /-- `BCC Label` (rule R221, condition of rule R208). -/
  | bcc (off : BrOff)
  /-- `BMI Label` (rule R221, condition of rule R209). -/
  | bmi (off : BrOff)
  /-- `BPL Label` (rule R221, condition of rule R210). -/
  | bpl (off : BrOff)
  /-- `BVS Label` (rule R221, condition of rule R211). -/
  | bvs (off : BrOff)
  /-- `BVC Label` (rule R221, condition of rule R212). -/
  | bvc (off : BrOff)
  /-- `BHI Label` (rule R221, condition of rule R213). -/
  | bhi (off : BrOff)
  /-- `BLS Label` (rule R221, condition of rule R214). -/
  | bls (off : BrOff)
  /-- `BGE Label` (rule R221, condition of rule R215). -/
  | bge (off : BrOff)
  /-- `BLT Label` (rule R221, condition of rule R216). -/
  | blt (off : BrOff)
  /-- `BGT Label` (rule R221, condition of rule R217). -/
  | bgt (off : BrOff)
  /-- `BLE Label` (rule R221, condition of rule R218). -/
  | ble (off : BrOff)
  /-- `BRA Label` (rule R220). -/
  | bra (off : BrOff)
  /-- `JEQ Label` (rule R223, condition of rule R205). -/
  | jeq (off : BrOff)
  /-- `JNE Label` (rule R223, condition of rule R206). -/
  | jne (off : BrOff)
  /-- `JCS Label` (rule R223, condition of rule R207). -/
  | jcs (off : BrOff)
  /-- `JCC Label` (rule R223, condition of rule R208). -/
  | jcc (off : BrOff)
  /-- `JMI Label` (rule R223, condition of rule R209). -/
  | jmi (off : BrOff)
  /-- `JPL Label` (rule R223, condition of rule R210). -/
  | jpl (off : BrOff)
  /-- `JVS Label` (rule R223, condition of rule R211). -/
  | jvs (off : BrOff)
  /-- `JVC Label` (rule R223, condition of rule R212). -/
  | jvc (off : BrOff)
  /-- `JHI Label` (rule R223, condition of rule R213). -/
  | jhi (off : BrOff)
  /-- `JLS Label` (rule R223, condition of rule R214). -/
  | jls (off : BrOff)
  /-- `JGE Label` (rule R223, condition of rule R215). -/
  | jge (off : BrOff)
  /-- `JLT Label` (rule R223, condition of rule R216). -/
  | jlt (off : BrOff)
  /-- `JGT Label` (rule R223, condition of rule R217). -/
  | jgt (off : BrOff)
  /-- `JLE Label` (rule R223, condition of rule R218). -/
  | jle (off : BrOff)
  /-- `JSR Label` (rule R222). -/
  | jsr (off : BrOff)
  /-- `LEQ Label` (rule R225, condition of rule R205). -/
  | leq (off : BrOff)
  /-- `LNE Label` (rule R225, condition of rule R206). -/
  | lne (off : BrOff)
  /-- `LCS Label` (rule R225, condition of rule R207). -/
  | lcs (off : BrOff)
  /-- `LCC Label` (rule R225, condition of rule R208). -/
  | lcc (off : BrOff)
  /-- `LMI Label` (rule R225, condition of rule R209). -/
  | lmi (off : BrOff)
  /-- `LPL Label` (rule R225, condition of rule R210). -/
  | lpl (off : BrOff)
  /-- `LVS Label` (rule R225, condition of rule R211). -/
  | lvs (off : BrOff)
  /-- `LVC Label` (rule R225, condition of rule R212). -/
  | lvc (off : BrOff)
  /-- `LHI Label` (rule R225, condition of rule R213). -/
  | lhi (off : BrOff)
  /-- `LLS Label` (rule R225, condition of rule R214). -/
  | lls (off : BrOff)
  /-- `LGE Label` (rule R225, condition of rule R215). -/
  | lge (off : BrOff)
  /-- `LLT Label` (rule R225, condition of rule R216). -/
  | llt (off : BrOff)
  /-- `LGT Label` (rule R225, condition of rule R217). -/
  | lgt (off : BrOff)
  /-- `LLE Label` (rule R225, condition of rule R218). -/
  | lle (off : BrOff)
  /-- `LNK Label` (rule R224). -/
  | lnk (off : BrOff)
  /-- `CMP Rs, opt` (rule R232). -/
  | cmp (r : Reg) (o : Opt)
  /-- `CMN Rs, opt` (rule R233). -/
  | cmn (r : Reg) (o : Opt)
  /-- `TST Rs, opt` (rule R234). -/
  | tst (r : Reg) (o : Opt)
  /-- `TEQ Rs, opt` (rule R235). -/
  | teq (r : Reg) (o : Opt)
  /-- `BRK #imm16` (rule R240). -/
  | brk (v : Word)
  /-- `DBG #imm16` (rule R241). -/
  | dbg (v : Word)
  /-- `SVC #imm16` (rule R242). -/
  | svc (v : Word)
  /-- `SWI #n` (rule R243). -/
  | swi (n : BitVec 5)
  /-- `RAND Rd, Rs` (rule R250). -/
  | rand (d r : Reg)
  /-- `SEED Rn` (rule R251). -/
  | seed (r : Reg)
  deriving DecidableEq, Repr

end Sys2Proof
end

