-- ==== Sys2Proof/Config.lean ====
section
/-! DEFINITION. The implementation parameters of `00_scope.md` rule R6 as one record of plain data, the kinds of
trap that the vector parameter ranges over, and the free values (`draw_1()`, `draw_32()` of rule R6's notation).

The spec gives a model a record `Cfg`; the machine here carries it in its state, where no step changes it, so that a
statement about every state is a statement about every setting of the parameters. -/

namespace Sys2Proof

/-- `BYTE_ORDER` (rule R32): the order of the bytes of data and of instruction immediates. -/
inductive ByteOrder where
  | little
  | big
  deriving DecidableEq, Repr

/-- `DATA_ALIGN` (rule R38): a misaligned data access is a model fault, or is allowed. -/
inductive DataAlign where
  | fault
  | allow
  deriving DecidableEq, Repr

/-- `ALU_FLAGS` (rule R23): what a data-processing instruction does to N, Z, C, V. -/
inductive AluFlags where
  | draw
  | set
  | keep
  deriving DecidableEq, Repr

/-- `MUL_OVERFLOW` (rules R180, R181): a product that does not fit wraps, or is arbitrary. -/
inductive MulOverflow where
  | wrap
  | draw
  deriving DecidableEq, Repr

/-- `SELF_MODIFY` (rule R43): fetching a byte the program has stored is refused, or sees the store. -/
inductive SelfModify where
  | refuse
  | coherent
  deriving DecidableEq, Repr

/-- What an operand value does for which no source states a result (rules R110, R111, R121, R147, R176 to R179,
R194, R199). -/
inductive Unstated where
  /-- the model fault the rule names: the setting of a run (`defaultCfg`) -/
  | stop
  /-- DESIGN CHOICE, `notes/assumptions/4.md`, no parameter of rule R6: the machine goes on and the one unstated value
  is a free value -/
  | free
  deriving DecidableEq, Repr

/-- `SR_LAYOUT` (rule R18): the bit of the 32-bit image of SR that holds each of the five fields. -/
structure SrLayout where
  n : Fin 32
  z : Fin 32
  c : Fin 32
  v : Fin 32
  i : Fin 32
  deriving DecidableEq, Repr

/-- The kinds of trap of rule R260. -/
inductive TrapKind where
  | abort
  | debug
  | svc
  | nmi
  | irq (line : Nat)
  | swi (n : Fin 32)
  deriving DecidableEq, Repr

/-- `VEC` (rule R263) for the kinds that every implementation has; an IRQ line carries its own vector. -/
structure Vectors where
  abort : DWord
  debug : DWord
  svc : DWord
  nmi : DWord
  swi : Vector DWord 32
  deriving DecidableEq, Repr

/-- One maskable interrupt line (`IRQ_LINES`, rule R261): whether `IrqSelect` chooses it (rule R262), and where its
interrupt goes (`VEC(Irq n)`, rule R263). -/
structure IrqLine where
  selected : Bool
  vector : DWord
  deriving DecidableEq, Repr

/-- A run of `size` byte addresses from `base`, on which `Mapped` holds (rule R31). -/
structure Region where
  base : Nat
  size : Nat
  deriving DecidableEq, Repr

/-- One entry of an `ENCODING`: an instruction and the byte string that stands for it. -/
structure EncodingRow where
  instr : Instr
  bytes : List Byte
  deriving DecidableEq, Repr

/-- `ENCODING` (rule R6, decision D1): the map from instruction forms to byte strings. -/
inductive Encoding where
  /-- the default: the encoding of `30_encoding.md` section 3 -/
  | section3
  /-- another encoding, entry by entry (`notes/assumptions/5.md`) -/
  | table (rows : List EncodingRow)
  deriving DecidableEq, Repr

/-- The record `Cfg` of rule R6, and the model's own setting `unstated`. `IntOracle` is a field of the state
(`notes/assumptions/6.md`). -/
structure Cfg where
  encoding : Encoding
  byteOrder : ByteOrder
  dataAlign : DataAlign
  aluFlags : AluFlags
  mulOverflow : MulOverflow
  selfModify : SelfModify
  unstated : Unstated
  srLayout : SrLayout
  vectors : Vectors
  irqLines : List IrqLine
  mapped : List Region
  entry : DWord
  deriving DecidableEq, Repr

/-- One answer of the environment (`IntOracle`, rule R261) at one instruction boundary: is NMI pending, and is line
`n` pending (a line beyond the end of the list is not). -/
structure IntAnswer where
  nmi : Bool
  irq : List Bool
  deriving DecidableEq, Repr, Inhabited

/-- Who answers at a boundary for which no answer is listed. -/
inductive IntSource where
  /-- these answers one after the other, over and over; nothing is pending where there are none -/
  | cycle (again : List IntAnswer)
  /-- the environment as it likes (`Config.freeAnswer`): oracle number `n`, and what was taken at each boundary so far,
  the latest first -/
  | free (n : Nat) (taken : List (Option TrapKind))
  deriving DecidableEq, Repr

/-- `IntOracle` (rule R261): the answers at the boundaries to come as far as they are listed, the next one first, and
who answers after them. -/
structure IntOracle where
  next : List IntAnswer
  source : IntSource
  deriving DecidableEq, Repr

/-- The answer of an environment that answers as it likes (rule R261): of oracle number `n` at the boundary after those
at which `taken` was taken. It has no body that a proof can use. -/
opaque Config.freeAnswer (n : Nat) (taken : List (Option TrapKind)) : IntAnswer

/-- `draw_32()`: the arbitrary 32-bit value of the draw with this number. It has no body that a proof can use. -/
opaque Config.freeDWord : Nat → DWord

/-- `draw_1()`: the arbitrary bit of the draw with this number. It has no body that a proof can use. -/
opaque Config.freeBit : Nat → Bool

end Sys2Proof
end

