-- ==== Sys2Proof/Machine/Bytes.lean ====
section
/-! DEFINITION. Bytes and multi-byte values: `Bytes` and `Word` of `20_memory.md` rule R35, used for data in memory and,
by `30_encoding.md` rule R56, for the immediates of an instruction; the nibbles of an operand byte. -/

namespace Sys2Proof

/-- The two bytes of a Word in address order (rule R35, n = 2). -/
def wordBytes (bo : ByteOrder) (v : Word) : List Byte :=
  match bo with
  | .little => [v.extractLsb' 0 8, v.extractLsb' 8 8]
  | .big => [v.extractLsb' 8 8, v.extractLsb' 0 8]

/-- The four bytes of a Double Word in address order (rule R35, n = 4). -/
def dwordBytes (bo : ByteOrder) (v : DWord) : List Byte :=
  match bo with
  | .little => [v.extractLsb' 0 8, v.extractLsb' 8 8, v.extractLsb' 16 8, v.extractLsb' 24 8]
  | .big => [v.extractLsb' 24 8, v.extractLsb' 16 8, v.extractLsb' 8 8, v.extractLsb' 0 8]

/-- The Word whose bytes in address order are these two (rule R35). -/
def wordOf (bo : ByteOrder) (b0 b1 : Byte) : Word :=
  match bo with
  | .little => b1 ++ b0
  | .big => b0 ++ b1

/-- The Double Word whose bytes in address order are these four (rule R35). -/
def dwordOf (bo : ByteOrder) (b0 b1 b2 b3 : Byte) : DWord :=
  match bo with
  | .little => b3 ++ b2 ++ b1 ++ b0
  | .big => b0 ++ b1 ++ b2 ++ b3

/-- The nibble in bits 7:4 of an operand byte, as a register number (rule R54). -/
def hiNibble (b : Byte) : Reg := (b.extractLsb' 4 4).toFin

/-- The nibble in bits 3:0 of an operand byte, as a register number (rule R54). -/
def loNibble (b : Byte) : Reg := (b.extractLsb' 0 4).toFin

/-- The operand byte `x:y` of rule R54. -/
def nibbles (x y : Reg) : Byte := BitVec.ofFin (w := 4) x ++ BitVec.ofFin (w := 4) y

end Sys2Proof
end

