-- ==== Sys2Proof/WellFormed.lean ====
section
/-! DEFINITION. Which terms of `Instr` the encoding can hold (`30_encoding.md` rules R54, R55, R63). The field types
already exclude a register number above 20, an unlisted kind or mode, condition 15 and an SWI number above 31; two checks
are left: a register range is not reversed, and the immediate of a shift, of MOVB and of MOVW is within its limit. -/

namespace Sys2Proof

/-- A register range `Ra-Rb` has `a <= b` (format RNG of rule R54; decision D35). -/
def rangeOk (a b : Reg) : Bool := a ≤ b

/-- The third operand of an instruction whose immediate rule R55 limits: a register, or an imm8 not above the
limit; kinds `$02` and `$03` are not admitted. -/
def Opt.within (limit : Nat) : Opt → Bool
  | .reg _ => true
  | .imm8 v => v.toNat ≤ limit
  | .imm16 _ => false
  | .imm32 _ => false

/-- The limits of rule R55: 31 for the seven shifts and rotates, 3 for MOVB, 1 for MOVW. -/
def shiftLimit : Nat := 31

/-- See `shiftLimit`. -/
def byteSelLimit : Nat := 3

/-- See `shiftLimit`. -/
def wordSelLimit : Nat := 1

/-- The well-formed instructions: those that have an encoding. -/
def Instr.wellFormed : Instr → Bool
  | .popRange a b => rangeOk a b
  | .pushRange a b => rangeOk a b
  | .clr a b => rangeOk a b
  | .movb _ _ o => o.within byteSelLimit
  | .movw _ _ o => o.within wordSelLimit
  | .lsl _ _ o => o.within shiftLimit
  | .lsr _ _ o => o.within shiftLimit
  | .rol _ _ o => o.within shiftLimit
  | .ror _ _ o => o.within shiftLimit
  | .rcl _ _ o => o.within shiftLimit
  | .rcr _ _ o => o.within shiftLimit
  | .asr _ _ o => o.within shiftLimit
  | .nop | .afh | .halt | .wait | .ei | .di | .sec | .clc | .nec | .sev | .clv | .nev | .rts | .rtl | .rti
  | .pop _ | .push _ | .movReg _ _ | .movImm16 _ _ | .movImm32 _ _ | .movAny _ _ | .movtReg _ _
  | .movtImm _ _ | .swpReg _ _ | .ldr _ _ | .ldrb _ _ | .ldrw _ _ | .ldrbs _ _ | .ldrws _ _ | .str _ _
  | .strb _ _ | .strw _ _ | .strbs _ _ | .strws _ _ | .adr _ _ | .swpMem _ _ | .jmp _ | .and _ _ _
  | .orr _ _ _ | .eor _ _ _ | .not _ _ | .clz _ _ | .ctz _ _ | .rbit _ _ | .revb _ _ | .revv _ _
  | .add _ _ _ | .adc _ _ _ | .sub _ _ _ | .sbc _ _ _ | .rsb _ _ _ | .rsc _ _ _ | .div _ _ _ | .divs _ _ _
  | .rem _ _ _ | .rems _ _ _ | .mul _ _ _ | .muls _ _ _ | .abs _ _ | .neg _ _ | .inc _ _ | .dec _ _
  | .cfb _ _ | .cfbs _ _ | .cfw _ _ | .cfws _ _ | .cfbcd _ _ | .ctb _ _ | .ctbs _ _ | .ctw _ _ | .ctws _ _
  | .ctbcd _ _ | .beq _ | .bne _ | .bcs _ | .bcc _ | .bmi _ | .bpl _ | .bvs _ | .bvc _ | .bhi _ | .bls _
  | .bge _ | .blt _ | .bgt _ | .ble _ | .bra _ | .jeq _ | .jne _ | .jcs _ | .jcc _ | .jmi _ | .jpl _
  | .jvs _ | .jvc _ | .jhi _ | .jls _ | .jge _ | .jlt _ | .jgt _ | .jle _ | .jsr _ | .leq _ | .lne _
  | .lcs _ | .lcc _ | .lmi _ | .lpl _ | .lvs _ | .lvc _ | .lhi _ | .lls _ | .lge _ | .llt _ | .lgt _
  | .lle _ | .lnk _ | .cmp _ _ | .cmn _ _ | .tst _ _ | .teq _ _ | .brk _ | .dbg _ | .svc _ | .swi _
  | .rand _ _ | .seed _ => true

end Sys2Proof
end

