-- ==== Sys2Proof/Decode.lean ====
section
/-! DEFINITION. The byte encoding of `30_encoding.md` section 3 (rules R52 to R61): the opcode map, the length of an
instruction, the decoder, which is total on any bytes and rejects by name, and after it the encoder. The encoding is the
spec's own design (decision D1) and the default of the parameter `ENCODING` (rule R6), whose other values are read and
written at the end of the file. -/

namespace Sys2Proof

/-- Why bytes are no instruction: the cases of rule R63 (and too few bytes, which a fetch never supplies). -/
inductive DecodeError where
  /-- fewer bytes than the instruction's length -/
  | truncated
  /-- an opcode byte that rule R61 does not list -/
  | opcode
  /-- a non-zero unassigned bit or byte (rule R52) -/
  | unassigned
  /-- a 5-bit register number 21 to 31 (rule R12) -/
  | register
  /-- a register range with first > last (rule R54) -/
  | range
  /-- a kind above `$03`, or one the instruction does not admit (rule R55) -/
  | kind
  /-- an immediate above the instruction's limit (rule R55) -/
  | immediate
  /-- an address mode not in rule R57, or one the instruction does not admit (rule R58) -/
  | mode
  /-- condition number 15 (rule R59) -/
  | condition
  /-- an SWI number above 31 (rule R54, format SW5) -/
  | swiNumber
  /-- bytes that begin with no entry of an `ENCODING` other than section 3's -/
  | unlisted
  deriving DecidableEq, Repr

/-- A format of rule R54 with the instruction its fields make. -/
inductive Shape where
  /-- IMP -/
  | imp (i : Instr)
  /-- IMP with `b1` ignored (AFH, rule R52) -/
  | impAny (i : Instr)
  /-- REG5 -/
  | reg5 (f : AnyReg → Instr)
  /-- R1 -/
  | r1 (f : Reg → Instr)
  /-- RNG -/
  | rng (f : Reg → Reg → Instr)
  /-- RR -/
  | rr (f : Reg → Reg → Instr)
  /-- RI4 -/
  | ri4 (f : Reg → BitVec 4 → Instr)
  /-- RI16 -/
  | ri16 (f : Reg → Word → Instr)
  /-- RI32 -/
  | ri32 (f : Reg → DWord → Instr)
  /-- XX -/
  | xx (f : AnyReg → AnyReg → Instr)
  /-- RC with all four kinds -/
  | rc (f : Reg → Reg → Opt → Instr)
  /-- RC with kinds `$00` and `$01` only and a limit on the imm8 (rule R55) -/
  | rcLimited (limit : Nat) (f : Reg → Reg → Opt → Instr)
  /-- CP -/
  | cp (f : Reg → Opt → Instr)
  /-- MA with every mode but `$04` -/
  | ma (f : Reg → Mode → Instr)
  /-- MA as JMP admits it (rule R58) -/
  | maJmp (f : JmpTarget → Instr)
  /-- BR16 -/
  | br16 (f : Cond → BrOff → Instr)
  /-- BR32 -/
  | br32 (f : Cond → BrOff → Instr)
  /-- T16 -/
  | t16 (f : Word → Instr)
  /-- SW5 -/
  | sw5 (f : BitVec 5 → Instr)

/-- The B family: the condition numbers of rule R59 select the mnemonic. -/
def branchInstr : Cond → BrOff → Instr
  | .eq, off => .beq off
  | .ne, off => .bne off
  | .cs, off => .bcs off
  | .cc, off => .bcc off
  | .mi, off => .bmi off
  | .pl, off => .bpl off
  | .vs, off => .bvs off
  | .vc, off => .bvc off
  | .hi, off => .bhi off
  | .ls, off => .bls off
  | .ge, off => .bge off
  | .lt, off => .blt off
  | .gt, off => .bgt off
  | .le, off => .ble off
  | .always, off => .bra off

/-- The J family: the condition numbers of rule R59 select the mnemonic. -/
def callInstr : Cond → BrOff → Instr
  | .eq, off => .jeq off
  | .ne, off => .jne off
  | .cs, off => .jcs off
  | .cc, off => .jcc off
  | .mi, off => .jmi off
  | .pl, off => .jpl off
  | .vs, off => .jvs off
  | .vc, off => .jvc off
  | .hi, off => .jhi off
  | .ls, off => .jls off
  | .ge, off => .jge off
  | .lt, off => .jlt off
  | .gt, off => .jgt off
  | .le, off => .jle off
  | .always, off => .jsr off

/-- The L family: the condition numbers of rule R59 select the mnemonic. -/
def linkInstr : Cond → BrOff → Instr
  | .eq, off => .leq off
  | .ne, off => .lne off
  | .cs, off => .lcs off
  | .cc, off => .lcc off
  | .mi, off => .lmi off
  | .pl, off => .lpl off
  | .vs, off => .lvs off
  | .vc, off => .lvc off
  | .hi, off => .lhi off
  | .ls, off => .lls off
  | .ge, off => .lge off
  | .lt, off => .llt off
  | .gt, off => .lgt off
  | .le, off => .lle off
  | .always, off => .lnk off

/-- The opcode map of rule R61. -/
def opcode : Nat → Option Shape
  | 0x00 => some (.imp .nop)
  | 0x01 => some (.imp .halt)
  | 0x02 => some (.imp .wait)
  | 0x03 => some (.imp .ei)
  | 0x04 => some (.imp .di)
  | 0x05 => some (.imp .sec)
  | 0x06 => some (.imp .clc)
  | 0x07 => some (.imp .nec)
  | 0x08 => some (.imp .sev)
  | 0x09 => some (.imp .clv)
  | 0x0A => some (.imp .nev)
  | 0x0B => some (.imp .rts)
  | 0x0C => some (.imp .rtl)
  | 0x0D => some (.imp .rti)
  | 0x10 => some (.reg5 .pop)
  | 0x11 => some (.rng .popRange)
  | 0x12 => some (.reg5 .push)
  | 0x13 => some (.rng .pushRange)
  | 0x14 => some (.rng .clr)
  | 0x15 => some (.rr .movReg)
  | 0x16 => some (.ri16 .movImm16)
  | 0x17 => some (.ri32 .movImm32)
  | 0x18 => some (.xx .movAny)
  | 0x19 => some (.rcLimited byteSelLimit .movb)
  | 0x1A => some (.rcLimited wordSelLimit .movw)
  | 0x1B => some (.rr .movtReg)
  | 0x1C => some (.ri16 .movtImm)
  | 0x1D => some (.rr .swpReg)
  | 0x20 => some (.ma .ldr)
  | 0x21 => some (.ma .ldrb)
  | 0x22 => some (.ma .ldrw)
  | 0x23 => some (.ma .ldrbs)
  | 0x24 => some (.ma .ldrws)
  | 0x25 => some (.ma .str)
  | 0x26 => some (.ma .strb)
  | 0x27 => some (.ma .strw)
  | 0x28 => some (.ma .strbs)
  | 0x29 => some (.ma .strws)
  | 0x2A => some (.ma .adr)
  | 0x2B => some (.ma .swpMem)
  | 0x2C => some (.maJmp .jmp)
  | 0x30 => some (.rcLimited shiftLimit .lsl)
  | 0x31 => some (.rcLimited shiftLimit .lsr)
  | 0x32 => some (.rcLimited shiftLimit .rol)
  | 0x33 => some (.rcLimited shiftLimit .ror)
  | 0x34 => some (.rcLimited shiftLimit .rcl)
  | 0x35 => some (.rcLimited shiftLimit .rcr)
  | 0x36 => some (.rcLimited shiftLimit .asr)
  | 0x37 => some (.rc .and)
  | 0x38 => some (.rc .orr)
  | 0x39 => some (.rc .eor)
  | 0x3A => some (.rr .not)
  | 0x3B => some (.rr .clz)
  | 0x3C => some (.rr .ctz)
  | 0x3D => some (.rr .rbit)
  | 0x3E => some (.rr .revb)
  | 0x3F => some (.rr .revv)
  | 0x41 => some (.impAny .afh)
  | 0x50 => some (.rc .add)
  | 0x51 => some (.rc .adc)
  | 0x52 => some (.rc .sub)
  | 0x53 => some (.rc .sbc)
  | 0x54 => some (.rc .rsb)
  | 0x55 => some (.rc .rsc)
  | 0x56 => some (.rc .div)
  | 0x57 => some (.rc .divs)
  | 0x58 => some (.rc .rem)
  | 0x59 => some (.rc .rems)
  | 0x5A => some (.rc .mul)
  | 0x5B => some (.rc .muls)
  | 0x5C => some (.rr .abs)
  | 0x5D => some (.rr .neg)
  | 0x5E => some (.ri4 .inc)
  | 0x5F => some (.ri4 .dec)
  | 0x60 => some (.rr .cfb)
  | 0x61 => some (.rr .cfbs)
  | 0x62 => some (.rr .cfw)
  | 0x63 => some (.rr .cfws)
  | 0x64 => some (.rr .cfbcd)
  | 0x65 => some (.rr .ctb)
  | 0x66 => some (.rr .ctbs)
  | 0x67 => some (.rr .ctw)
  | 0x68 => some (.rr .ctws)
  | 0x69 => some (.rr .ctbcd)
  | 0x70 => some (.br16 branchInstr)
  | 0x71 => some (.br32 branchInstr)
  | 0x72 => some (.br16 callInstr)
  | 0x73 => some (.br32 callInstr)
  | 0x74 => some (.br16 linkInstr)
  | 0x75 => some (.br32 linkInstr)
  | 0x80 => some (.cp .cmp)
  | 0x81 => some (.cp .cmn)
  | 0x82 => some (.cp .tst)
  | 0x83 => some (.cp .teq)
  | 0x90 => some (.t16 .brk)
  | 0x91 => some (.t16 .dbg)
  | 0x92 => some (.t16 .svc)
  | 0x93 => some (.sw5 .swi)
  | 0xA0 => some (.rr .rand)
  | 0xA1 => some (.r1 .seed)
  | _ => none

/-- How many bytes follow `b1`, or that a specifier `b2 b3` says so (rule R53). -/
inductive TailLen where
  | bytes (n : Nat)
  | specifier (f : Byte → Option Nat)

/-- The immediate bytes of each kind of formats RC and CP (rule R55). -/
def kindTail (k : Byte) : Option Nat :=
  match k.toNat with
  | 0x00 => some 0
  | 0x01 => some 0
  | 0x02 => some 2
  | 0x03 => some 4
  | _ => none

/-- The immediate bytes of each mode of format MA (rule R57). -/
def modeTail (m : Byte) : Option Nat :=
  match m.toNat with
  | 0x00 => some 2
  | 0x01 => some 4
  | 0x02 => some 4
  | 0x03 => some 4
  | 0x04 => some 0
  | 0x10 => some 0
  | 0x11 => some 0
  | 0x12 => some 0
  | 0x13 => some 0
  | 0x21 => some 0
  | 0x22 => some 0
  | 0x23 => some 0
  | 0x31 => some 2
  | 0x32 => some 2
  | 0x33 => some 2
  | _ => none

/-- The length algorithm of rule R53, after `b0` and `b1`. -/
def Shape.tail : Shape → TailLen
  | .imp _ => .bytes 0
  | .impAny _ => .bytes 0
  | .reg5 _ => .bytes 0
  | .r1 _ => .bytes 0
  | .rng _ => .bytes 0
  | .rr _ => .bytes 0
  | .ri4 _ => .bytes 0
  | .ri16 _ => .bytes 2
  | .ri32 _ => .bytes 4
  | .xx _ => .bytes 2
  | .rc _ => .specifier kindTail
  | .rcLimited _ _ => .specifier kindTail
  | .cp _ => .specifier kindTail
  | .ma _ => .specifier modeTail
  | .maJmp _ => .specifier modeTail
  | .br16 _ => .bytes 2
  | .br32 _ => .bytes 4
  | .t16 _ => .bytes 2
  | .sw5 _ => .bytes 0

/-- Rule R52: an unassigned bit or byte must be 0. -/
def mustBeZero (ok : Bool) : Except DecodeError Unit :=
  if ok then .ok () else .error .unassigned

/-- The register a byte with a 5-bit number in bits 4:0 names (rule R12, formats REG5 and XX). -/
def anyRegOf (b : Byte) : Except DecodeError AnyReg :=
  if h : b.toNat < 16 then .ok (.r ⟨b.toNat, h⟩) else
  match b.toNat with
  | 16 => .ok .pc
  | 17 => .ok .sr
  | 18 => .ok .sp
  | 19 => .ok .fp
  | 20 => .ok .lr
  | k => if k < 32 then .error .register else .error .unassigned

/-- A 16-bit immediate or offset (rule R56). -/
def takeWord (bo : ByteOrder) : List Byte → Except DecodeError (Word × List Byte)
  | b0 :: b1 :: rest => .ok (wordOf bo b0 b1, rest)
  | _ => .error .truncated

/-- A 32-bit immediate, offset or address (rule R56). -/
def takeDWord (bo : ByteOrder) : List Byte → Except DecodeError (DWord × List Byte)
  | b0 :: b1 :: b2 :: b3 :: rest => .ok (dwordOf bo b0 b1 b2 b3, rest)
  | _ => .error .truncated

/-- The specifier bytes `b2 b3` (rule R52). -/
def takeTwo : List Byte → Except DecodeError ((Byte × Byte) × List Byte)
  | b2 :: b3 :: rest => .ok ((b2, b3), rest)
  | _ => .error .truncated

/-- The third operand of formats RC and CP (rule R55). -/
def readOpt (bo : ByteOrder) (bs : List Byte) : Except DecodeError (Opt × List Byte) := do
  let ((k, v), rest) ← takeTwo bs
  match k.toNat with
  | 0x00 => do mustBeZero (hiNibble v == 0); .ok (.reg (loNibble v), rest)
  | 0x01 => .ok (.imm8 v, rest)
  | 0x02 => do mustBeZero (v == 0); let (w, rest) ← takeWord bo rest; .ok (.imm16 w, rest)
  | 0x03 => do mustBeZero (v == 0); let (w, rest) ← takeDWord bo rest; .ok (.imm32 w, rest)
  | _ => .error .kind

/-- The third operand of an instruction that admits kinds `$00` and `$01` only, up to a limit (rule R55). -/
def readOptLimited (bo : ByteOrder) (limit : Nat) (bs : List Byte) : Except DecodeError (Opt × List Byte) := do
  let (o, rest) ← readOpt bo bs
  match o with
  | .reg _ => .ok (o, rest)
  | .imm8 v => if v.toNat ≤ limit then .ok (o, rest) else .error .immediate
  | .imm16 _ => .error .kind
  | .imm32 _ => .error .kind

/-- The address operand of format MA in every mode but `$04`; `b` is the Rs nibble of `b1`, which modes `$00` to
`$03` leave 0 (rules R57, R58). -/
def readMode (bo : ByteOrder) (b : Reg) (bs : List Byte) : Except DecodeError (Mode × List Byte) := do
  let ((m, v), rest) ← takeTwo bs
  let ro (ix : Indexing) : Except DecodeError (Mode × List Byte) := do
    mustBeZero (hiNibble v == 0); .ok (.indexed ix b (.reg (loNibble v)), rest)
  let off16 (ix : Indexing) : Except DecodeError (Mode × List Byte) := do
    mustBeZero (v == 0); let (w, rest) ← takeWord bo rest; .ok (.indexed ix b (.word w), rest)
  match m.toNat with
  | 0x00 => do mustBeZero (b == 0 && v == 0); let (w, rest) ← takeWord bo rest; .ok (.rel16 w, rest)
  | 0x01 => do mustBeZero (b == 0 && v == 0); let (w, rest) ← takeDWord bo rest; .ok (.rel32 w, rest)
  | 0x02 => do mustBeZero (b == 0 && v == 0); let (w, rest) ← takeDWord bo rest; .ok (.absolute w, rest)
  | 0x03 => do mustBeZero (b == 0 && v == 0); let (w, rest) ← takeDWord bo rest; .ok (.indirect w, rest)
  | 0x10 => do mustBeZero (v == 0); .ok (.base b, rest)
  | 0x11 => ro .plain
  | 0x12 => ro .pre
  | 0x13 => ro .post
  | 0x21 => .ok (.indexed .plain b (.byte v), rest)
  | 0x22 => .ok (.indexed .pre b (.byte v), rest)
  | 0x23 => .ok (.indexed .post b (.byte v), rest)
  | 0x31 => off16 .plain
  | 0x32 => off16 .pre
  | 0x33 => off16 .post
  | _ => .error .mode

/-- The address operand of JMP: modes `$02`, `$03` with the Rd nibble 0, and `$04` (rule R58). -/
def readJmp (bo : ByteOrder) (d b : Reg) (bs : List Byte) : Except DecodeError (JmpTarget × List Byte) := do
  let ((m, v), rest) ← takeTwo bs
  match m.toNat with
  | 0x02 => do
    mustBeZero (d == 0 && b == 0 && v == 0); let (w, rest) ← takeDWord bo rest; .ok (.absolute w, rest)
  | 0x03 => do
    mustBeZero (d == 0 && b == 0 && v == 0); let (w, rest) ← takeDWord bo rest; .ok (.indirect w, rest)
  | 0x04 => do mustBeZero (b == 0 && v == 0); .ok (.reg d, rest)
  | _ => .error .mode

/-- The condition of a condition number (rule R59). -/
def condOf (c : Reg) : Except DecodeError Cond :=
  match c.val with
  | 0 => .ok .eq
  | 1 => .ok .ne
  | 2 => .ok .cs
  | 3 => .ok .cc
  | 4 => .ok .mi
  | 5 => .ok .pl
  | 6 => .ok .vs
  | 7 => .ok .vc
  | 8 => .ok .hi
  | 9 => .ok .ls
  | 10 => .ok .ge
  | 11 => .ok .lt
  | 12 => .ok .gt
  | 13 => .ok .le
  | 14 => .ok .always
  | _ => .error .condition

/-- The operand fields of one format, from `b1` and the bytes after it (rule R54). -/
def Shape.read (bo : ByteOrder) (b1 : Byte) (rest : List Byte) : Shape → Except DecodeError (Instr × List Byte)
  | .imp i => do mustBeZero (b1 == 0); .ok (i, rest)
  | .impAny i => .ok (i, rest)
  | .reg5 f => do let r ← anyRegOf b1; .ok (f r, rest)
  | .r1 f => do mustBeZero (hiNibble b1 == 0); .ok (f (loNibble b1), rest)
  | .rng f =>
    if rangeOk (hiNibble b1) (loNibble b1) then .ok (f (hiNibble b1) (loNibble b1), rest) else .error .range
  | .rr f => .ok (f (hiNibble b1) (loNibble b1), rest)
  | .ri4 f => .ok (f (hiNibble b1) (BitVec.ofFin (loNibble b1)), rest)
  | .ri16 f => do
    mustBeZero (loNibble b1 == 0); let (v, rest) ← takeWord bo rest; .ok (f (hiNibble b1) v, rest)
  | .ri32 f => do
    mustBeZero (loNibble b1 == 0); let (v, rest) ← takeDWord bo rest; .ok (f (hiNibble b1) v, rest)
  | .xx f => do
    mustBeZero (b1 == 0)
    let ((b2, b3), rest) ← takeTwo rest
    let x ← anyRegOf b2
    let y ← anyRegOf b3
    .ok (f x y, rest)
  | .rc f => do let (o, rest) ← readOpt bo rest; .ok (f (hiNibble b1) (loNibble b1) o, rest)
  | .rcLimited limit f => do
    let (o, rest) ← readOptLimited bo limit rest; .ok (f (hiNibble b1) (loNibble b1) o, rest)
  | .cp f => do
    mustBeZero (hiNibble b1 == 0); let (o, rest) ← readOpt bo rest; .ok (f (loNibble b1) o, rest)
  | .ma f => do let (m, rest) ← readMode bo (loNibble b1) rest; .ok (f (hiNibble b1) m, rest)
  | .maJmp f => do let (t, rest) ← readJmp bo (hiNibble b1) (loNibble b1) rest; .ok (f t, rest)
  | .br16 f => do
    mustBeZero (hiNibble b1 == 0)
    let c ← condOf (loNibble b1)
    let (w, rest) ← takeWord bo rest
    .ok (f c (.short w), rest)
  | .br32 f => do
    mustBeZero (hiNibble b1 == 0)
    let c ← condOf (loNibble b1)
    let (w, rest) ← takeDWord bo rest
    .ok (f c (.far w), rest)
  | .t16 f => do mustBeZero (b1 == 0); let (w, rest) ← takeWord bo rest; .ok (f w, rest)
  | .sw5 f => if b1.toNat ≤ 31 then .ok (f (b1.setWidth 5), rest) else .error .swiNumber

/-- The decoder: the instruction at the head of the bytes and the bytes after it, or the reason there is none
(rules R52 to R63). -/
def decode (bo : ByteOrder) : List Byte → Except DecodeError (Instr × List Byte)
  | b0 :: b1 :: rest =>
    match opcode b0.toNat with
    | some sh => sh.read bo b1 rest
    | none => .error .opcode
  | _ => .error .truncated

/-! ## The encoder, from the same tables -/

/-- The byte that names one of the 21 registers (rule R12). -/
def anyRegByte : AnyReg → Byte
  | .r n => nibbles 0 n
  | .pc => 16
  | .sr => 17
  | .sp => 18
  | .fp => 19
  | .lr => 20

/-- The condition number of a condition (rule R59). -/
def condNumber : Cond → Reg
  | .eq => 0
  | .ne => 1
  | .cs => 2
  | .cc => 3
  | .mi => 4
  | .pl => 5
  | .vs => 6
  | .vc => 7
  | .hi => 8
  | .ls => 9
  | .ge => 10
  | .lt => 11
  | .gt => 12
  | .le => 13
  | .always => 14

/-- Formats RC and CP (rules R54, R55). -/
def encodeRC (bo : ByteOrder) (op : Byte) (d r : Reg) : Opt → List Byte
  | .reg o => [op, nibbles d r, 0x00, nibbles 0 o]
  | .imm8 v => [op, nibbles d r, 0x01, v]
  | .imm16 v => [op, nibbles d r, 0x02, 0x00] ++ wordBytes bo v
  | .imm32 v => [op, nibbles d r, 0x03, 0x00] ++ dwordBytes bo v

/-- The mode bytes of the nine indexed modes, by offset kind and indexing (rule R57). -/
def indexedModeByte : Indexing → Offset → Byte
  | .plain, .reg _ => 0x11
  | .pre, .reg _ => 0x12
  | .post, .reg _ => 0x13
  | .plain, .byte _ => 0x21
  | .pre, .byte _ => 0x22
  | .post, .byte _ => 0x23
  | .plain, .word _ => 0x31
  | .pre, .word _ => 0x32
  | .post, .word _ => 0x33

/-- What follows the mode byte of an indexed mode (rule R57). -/
def offsetBytes (bo : ByteOrder) : Offset → List Byte
  | .reg o => [nibbles 0 o]
  | .byte off => [off]
  | .word off => 0x00 :: wordBytes bo off

/-- Format MA (rules R54, R57). -/
def encodeMA (bo : ByteOrder) (op : Byte) (d : Reg) : Mode → List Byte
  | .rel16 off => [op, nibbles d 0, 0x00, 0x00] ++ wordBytes bo off
  | .rel32 off => [op, nibbles d 0, 0x01, 0x00] ++ dwordBytes bo off
  | .absolute addr => [op, nibbles d 0, 0x02, 0x00] ++ dwordBytes bo addr
  | .indirect addr => [op, nibbles d 0, 0x03, 0x00] ++ dwordBytes bo addr
  | .base b => [op, nibbles d b, 0x10, 0x00]
  | .indexed ix b off => [op, nibbles d b, indexedModeByte ix off] ++ offsetBytes bo off

/-- JMP (rule R58). -/
def encodeJmp (bo : ByteOrder) : JmpTarget → List Byte
  | .absolute addr => [0x2C, 0x00, 0x02, 0x00] ++ dwordBytes bo addr
  | .indirect addr => [0x2C, 0x00, 0x03, 0x00] ++ dwordBytes bo addr
  | .reg d => [0x2C, nibbles d 0, 0x04, 0x00]

/-- Formats BR16 (opcode byte `op`) and BR32 (the opcode byte after it), rules R54, R60, R61. -/
def encodeBr (bo : ByteOrder) (op : Byte) (c : Cond) : BrOff → List Byte
  | .short off => [op, nibbles 0 (condNumber c)] ++ wordBytes bo off
  | .far off => [op + 1, nibbles 0 (condNumber c)] ++ dwordBytes bo off

/-- The bytes of an instruction (rules R52 to R61). -/
def encode (bo : ByteOrder) : Instr → List Byte
  | .nop => [0x00, 0x00]
  | .halt => [0x01, 0x00]
  | .wait => [0x02, 0x00]
  | .ei => [0x03, 0x00]
  | .di => [0x04, 0x00]
  | .sec => [0x05, 0x00]
  | .clc => [0x06, 0x00]
  | .nec => [0x07, 0x00]
  | .sev => [0x08, 0x00]
  | .clv => [0x09, 0x00]
  | .nev => [0x0A, 0x00]
  | .rts => [0x0B, 0x00]
  | .rtl => [0x0C, 0x00]
  | .rti => [0x0D, 0x00]
  | .pop r => [0x10, anyRegByte r]
  | .popRange a b => [0x11, nibbles a b]
  | .push r => [0x12, anyRegByte r]
  | .pushRange a b => [0x13, nibbles a b]
  | .clr a b => [0x14, nibbles a b]
  | .movReg d r => [0x15, nibbles d r]
  | .movImm16 d v => [0x16, nibbles d 0] ++ wordBytes bo v
  | .movImm32 d v => [0x17, nibbles d 0] ++ dwordBytes bo v
  | .movAny x y => [0x18, 0x00, anyRegByte x, anyRegByte y]
  | .movb d r o => encodeRC bo 0x19 d r o
  | .movw d r o => encodeRC bo 0x1A d r o
  | .movtReg d r => [0x1B, nibbles d r]
  | .movtImm d v => [0x1C, nibbles d 0] ++ wordBytes bo v
  | .swpReg d r => [0x1D, nibbles d r]
  | .ldr d m => encodeMA bo 0x20 d m
  | .ldrb d m => encodeMA bo 0x21 d m
  | .ldrw d m => encodeMA bo 0x22 d m
  | .ldrbs d m => encodeMA bo 0x23 d m
  | .ldrws d m => encodeMA bo 0x24 d m
  | .str d m => encodeMA bo 0x25 d m
  | .strb d m => encodeMA bo 0x26 d m
  | .strw d m => encodeMA bo 0x27 d m
  | .strbs d m => encodeMA bo 0x28 d m
  | .strws d m => encodeMA bo 0x29 d m
  | .adr d m => encodeMA bo 0x2A d m
  | .swpMem d m => encodeMA bo 0x2B d m
  | .jmp t => encodeJmp bo t
  | .lsl d r o => encodeRC bo 0x30 d r o
  | .lsr d r o => encodeRC bo 0x31 d r o
  | .rol d r o => encodeRC bo 0x32 d r o
  | .ror d r o => encodeRC bo 0x33 d r o
  | .rcl d r o => encodeRC bo 0x34 d r o
  | .rcr d r o => encodeRC bo 0x35 d r o
  | .asr d r o => encodeRC bo 0x36 d r o
  | .and d r o => encodeRC bo 0x37 d r o
  | .orr d r o => encodeRC bo 0x38 d r o
  | .eor d r o => encodeRC bo 0x39 d r o
  | .not d r => [0x3A, nibbles d r]
  | .clz d r => [0x3B, nibbles d r]
  | .ctz d r => [0x3C, nibbles d r]
  | .rbit d r => [0x3D, nibbles d r]
  | .revb d r => [0x3E, nibbles d r]
  | .revv d r => [0x3F, nibbles d r]
  | .afh => [0x41, 0x00]
  | .add d r o => encodeRC bo 0x50 d r o
  | .adc d r o => encodeRC bo 0x51 d r o
  | .sub d r o => encodeRC bo 0x52 d r o
  | .sbc d r o => encodeRC bo 0x53 d r o
  | .rsb d r o => encodeRC bo 0x54 d r o
  | .rsc d r o => encodeRC bo 0x55 d r o
  | .div d r o => encodeRC bo 0x56 d r o
  | .divs d r o => encodeRC bo 0x57 d r o
  | .rem d r o => encodeRC bo 0x58 d r o
  | .rems d r o => encodeRC bo 0x59 d r o
  | .mul d r o => encodeRC bo 0x5A d r o
  | .muls d r o => encodeRC bo 0x5B d r o
  | .abs d r => [0x5C, nibbles d r]
  | .neg d r => [0x5D, nibbles d r]
  | .inc d k => [0x5E, nibbles d k.toFin]
  | .dec d k => [0x5F, nibbles d k.toFin]
  | .cfb d r => [0x60, nibbles d r]
  | .cfbs d r => [0x61, nibbles d r]
  | .cfw d r => [0x62, nibbles d r]
  | .cfws d r => [0x63, nibbles d r]
  | .cfbcd d r => [0x64, nibbles d r]
  | .ctb d r => [0x65, nibbles d r]
  | .ctbs d r => [0x66, nibbles d r]
  | .ctw d r => [0x67, nibbles d r]
  | .ctws d r => [0x68, nibbles d r]
  | .ctbcd d r => [0x69, nibbles d r]
  | .beq off => encodeBr bo 0x70 .eq off
  | .bne off => encodeBr bo 0x70 .ne off
  | .bcs off => encodeBr bo 0x70 .cs off
  | .bcc off => encodeBr bo 0x70 .cc off
  | .bmi off => encodeBr bo 0x70 .mi off
  | .bpl off => encodeBr bo 0x70 .pl off
  | .bvs off => encodeBr bo 0x70 .vs off
  | .bvc off => encodeBr bo 0x70 .vc off
  | .bhi off => encodeBr bo 0x70 .hi off
  | .bls off => encodeBr bo 0x70 .ls off
  | .bge off => encodeBr bo 0x70 .ge off
  | .blt off => encodeBr bo 0x70 .lt off
  | .bgt off => encodeBr bo 0x70 .gt off
  | .ble off => encodeBr bo 0x70 .le off
  | .bra off => encodeBr bo 0x70 .always off
  | .jeq off => encodeBr bo 0x72 .eq off
  | .jne off => encodeBr bo 0x72 .ne off
  | .jcs off => encodeBr bo 0x72 .cs off
  | .jcc off => encodeBr bo 0x72 .cc off
  | .jmi off => encodeBr bo 0x72 .mi off
  | .jpl off => encodeBr bo 0x72 .pl off
  | .jvs off => encodeBr bo 0x72 .vs off
  | .jvc off => encodeBr bo 0x72 .vc off
  | .jhi off => encodeBr bo 0x72 .hi off
  | .jls off => encodeBr bo 0x72 .ls off
  | .jge off => encodeBr bo 0x72 .ge off
  | .jlt off => encodeBr bo 0x72 .lt off
  | .jgt off => encodeBr bo 0x72 .gt off
  | .jle off => encodeBr bo 0x72 .le off
  | .jsr off => encodeBr bo 0x72 .always off
  | .leq off => encodeBr bo 0x74 .eq off
  | .lne off => encodeBr bo 0x74 .ne off
  | .lcs off => encodeBr bo 0x74 .cs off
  | .lcc off => encodeBr bo 0x74 .cc off
  | .lmi off => encodeBr bo 0x74 .mi off
  | .lpl off => encodeBr bo 0x74 .pl off
  | .lvs off => encodeBr bo 0x74 .vs off
  | .lvc off => encodeBr bo 0x74 .vc off
  | .lhi off => encodeBr bo 0x74 .hi off
  | .lls off => encodeBr bo 0x74 .ls off
  | .lge off => encodeBr bo 0x74 .ge off
  | .llt off => encodeBr bo 0x74 .lt off
  | .lgt off => encodeBr bo 0x74 .gt off
  | .lle off => encodeBr bo 0x74 .le off
  | .lnk off => encodeBr bo 0x74 .always off
  | .cmp r o => encodeRC bo 0x80 0 r o
  | .cmn r o => encodeRC bo 0x81 0 r o
  | .tst r o => encodeRC bo 0x82 0 r o
  | .teq r o => encodeRC bo 0x83 0 r o
  | .brk v => [0x90, 0x00] ++ wordBytes bo v
  | .dbg v => [0x91, 0x00] ++ wordBytes bo v
  | .svc v => [0x92, 0x00] ++ wordBytes bo v
  | .swi n => [0x93, n.setWidth 8]
  | .rand d r => [0xA0, nibbles d r]
  | .seed r => [0xA1, nibbles 0 r]

/-! ## Lengths (rule R53) -/

/-- The length of an RC or CP instruction with this third operand (rule R55). -/
def Opt.len : Opt → Nat
  | .reg _ => 4
  | .imm8 _ => 4
  | .imm16 _ => 6
  | .imm32 _ => 8

/-- The length of an MA instruction with this mode (rule R57). -/
def Mode.len : Mode → Nat
  | .rel16 _ => 6
  | .rel32 _ => 8
  | .absolute _ => 8
  | .indirect _ => 8
  | .base _ => 4
  | .indexed _ _ (.reg _) => 4
  | .indexed _ _ (.byte _) => 4
  | .indexed _ _ (.word _) => 6

/-- The length of a branch or call with this offset (formats BR16, BR32). -/
def BrOff.len : BrOff → Nat
  | .short _ => 4
  | .far _ => 6

/-- The length of an instruction in bytes (rules R53, R54). -/
def Instr.len : Instr → Nat
  | .nop => 2
  | .afh => 2
  | .halt => 2
  | .wait => 2
  | .ei => 2
  | .di => 2
  | .sec => 2
  | .clc => 2
  | .nec => 2
  | .sev => 2
  | .clv => 2
  | .nev => 2
  | .rts => 2
  | .rtl => 2
  | .rti => 2
  | .pop _ => 2
  | .push _ => 2
  | .popRange _ _ => 2
  | .pushRange _ _ => 2
  | .clr _ _ => 2
  | .movReg _ _ => 2
  | .movtReg _ _ => 2
  | .swpReg _ _ => 2
  | .movImm16 _ _ => 4
  | .movtImm _ _ => 4
  | .movImm32 _ _ => 6
  | .movAny _ _ => 4
  | .movb _ _ o => o.len
  | .movw _ _ o => o.len
  | .lsl _ _ o => o.len
  | .lsr _ _ o => o.len
  | .rol _ _ o => o.len
  | .ror _ _ o => o.len
  | .rcl _ _ o => o.len
  | .rcr _ _ o => o.len
  | .asr _ _ o => o.len
  | .and _ _ o => o.len
  | .orr _ _ o => o.len
  | .eor _ _ o => o.len
  | .add _ _ o => o.len
  | .adc _ _ o => o.len
  | .sub _ _ o => o.len
  | .sbc _ _ o => o.len
  | .rsb _ _ o => o.len
  | .rsc _ _ o => o.len
  | .div _ _ o => o.len
  | .divs _ _ o => o.len
  | .rem _ _ o => o.len
  | .rems _ _ o => o.len
  | .mul _ _ o => o.len
  | .muls _ _ o => o.len
  | .ldr _ m => m.len
  | .ldrb _ m => m.len
  | .ldrw _ m => m.len
  | .ldrbs _ m => m.len
  | .ldrws _ m => m.len
  | .str _ m => m.len
  | .strb _ m => m.len
  | .strw _ m => m.len
  | .strbs _ m => m.len
  | .strws _ m => m.len
  | .adr _ m => m.len
  | .swpMem _ m => m.len
  | .jmp (.absolute _) => 8
  | .jmp (.indirect _) => 8
  | .jmp (.reg _) => 4
  | .not _ _ => 2
  | .clz _ _ => 2
  | .ctz _ _ => 2
  | .rbit _ _ => 2
  | .revb _ _ => 2
  | .revv _ _ => 2
  | .abs _ _ => 2
  | .neg _ _ => 2
  | .inc _ _ => 2
  | .dec _ _ => 2
  | .cfb _ _ => 2
  | .cfbs _ _ => 2
  | .cfw _ _ => 2
  | .cfws _ _ => 2
  | .cfbcd _ _ => 2
  | .ctb _ _ => 2
  | .ctbs _ _ => 2
  | .ctw _ _ => 2
  | .ctws _ _ => 2
  | .ctbcd _ _ => 2
  | .rand _ _ => 2
  | .beq off => off.len
  | .bne off => off.len
  | .bcs off => off.len
  | .bcc off => off.len
  | .bmi off => off.len
  | .bpl off => off.len
  | .bvs off => off.len
  | .bvc off => off.len
  | .bhi off => off.len
  | .bls off => off.len
  | .bge off => off.len
  | .blt off => off.len
  | .bgt off => off.len
  | .ble off => off.len
  | .bra off => off.len
  | .jeq off => off.len
  | .jne off => off.len
  | .jcs off => off.len
  | .jcc off => off.len
  | .jmi off => off.len
  | .jpl off => off.len
  | .jvs off => off.len
  | .jvc off => off.len
  | .jhi off => off.len
  | .jls off => off.len
  | .jge off => off.len
  | .jlt off => off.len
  | .jgt off => off.len
  | .jle off => off.len
  | .jsr off => off.len
  | .leq off => off.len
  | .lne off => off.len
  | .lcs off => off.len
  | .lcc off => off.len
  | .lmi off => off.len
  | .lpl off => off.len
  | .lvs off => off.len
  | .lvc off => off.len
  | .lhi off => off.len
  | .lls off => off.len
  | .lge off => off.len
  | .llt off => off.len
  | .lgt off => off.len
  | .lle off => off.len
  | .lnk off => off.len
  | .cmp _ o => o.len
  | .cmn _ o => o.len
  | .tst _ o => o.len
  | .teq _ o => o.len
  | .brk _ => 4
  | .dbg _ => 4
  | .svc _ => 4
  | .swi _ => 2
  | .seed _ => 2

/-- How many bytes of an instruction the bytes read so far call for (the algorithm of rule R53): `b0 b1` first, then by
the format all of it or the specifier `b2 b3`, which says the rest. Bytes that are no instruction call for no more. -/
def bytesNeeded : List Byte → Nat
  | b0 :: _ :: rest =>
    match opcode b0.toNat with
    | none => 2
    | some sh =>
      match sh.tail with
      | .bytes n => 2 + n
      | .specifier f =>
        match rest with
        | b2 :: _ :: _ => 4 + (f b2).getD 0
        | _ => 4
  | _ => 2

/-! ## The parameter `ENCODING` (rule R6) -/

/-- Is it AFH, which the byte `$41` decodes to (rule R50 point 2)? -/
def Instr.isHeader (i : Instr) : Bool :=
  match i with
  | .afh => true
  | _ => false

/-- Is the entry's instruction at the head of the bytes? AFH is there when they begin with `$41`, whatever the bytes
after it are (rule R50 point 2, rule R81), and has the length of its entry. -/
def EncodingRow.heads (r : EncodingRow) (bs : List Byte) : Bool :=
  if r.instr.isHeader then bs.head? == some 0x41 && r.bytes.length ≤ bs.length else r.bytes.isPrefixOf bs

/-- Do more bytes after these make the entry's instruction? -/
def EncodingRow.awaits (r : EncodingRow) (bs : List Byte) : Bool :=
  if r.instr.isHeader then bs.head? == some 0x41 && bs.length < r.bytes.length else bs.isPrefixOf r.bytes

/-- The entry of a table whose instruction is at the head of some bytes. -/
def rowOf (rows : List EncodingRow) (bs : List Byte) : Option EncodingRow :=
  rows.find? (fun r => r.heads bs)

/-- As `bytesNeeded` under a table: `b0 b1` first (rule R294), then one byte more as long as the bytes read so far are
the beginning of an entry. -/
def rowsNeeded (rows : List EncodingRow) (bs : List Byte) : Nat :=
  if bs.length < 2 then 2
  else if (rowOf rows bs).isNone && rows.any (fun r => r.awaits bs) then bs.length + 1
  else bs.length

/-- The byte string of an instruction under an encoding, if it has one. -/
def Encoding.write (e : Encoding) (bo : ByteOrder) (i : Instr) : Option (List Byte) :=
  match e with
  | .section3 => if i.wellFormed then some (encode bo i) else none
  | .table rows => (rows.find? (fun r => r.instr = i)).map (fun r => r.bytes)

/-- The instruction at the head of the bytes under an encoding and the bytes after it, or the reason there is none. -/
def Encoding.read (e : Encoding) (bo : ByteOrder) (bs : List Byte) : Except DecodeError (Instr × List Byte) :=
  match e with
  | .section3 => decode bo bs
  | .table rows =>
    match rowOf rows bs with
    | some r => .ok (r.instr, bs.drop r.bytes.length)
    | none => .error .unlisted

/-- How many bytes of an instruction the bytes read so far call for under an encoding. -/
def Encoding.needed (e : Encoding) (bs : List Byte) : Nat :=
  match e with
  | .section3 => bytesNeeded bs
  | .table rows => rowsNeeded rows bs

/-- `len`, the length of an instruction under an encoding (rule R14); an instruction that a table does not list is never
fetched, and has section 3's length. -/
def Encoding.len (e : Encoding) (i : Instr) : Nat :=
  match e with
  | .section3 => i.len
  | .table rows => ((rows.find? (fun r => r.instr = i)).map (fun r => r.bytes.length)).getD i.len

/-- What the source fixes of an instruction's bytes (rule R50): `$41` is the first byte of AFH and of no other
instruction, BRK, DBG and SVC are 4 bytes, SWI is 2. -/
def Instr.admits (i : Instr) (bs : List Byte) : Bool :=
  (bs.head? == some 0x41) == i.isHeader &&
  match i with
  | .brk _ => bs.length == 4
  | .dbg _ => bs.length == 4
  | .svc _ => bs.length == 4
  | .swi _ => bs.length == 2
  | _ => true

/-- An entry the source admits: a well-formed instruction in 2, 4, 6 or 8 bytes (rule R50). -/
def EncodingRow.wf (r : EncodingRow) : Bool :=
  r.instr.wellFormed && [2, 4, 6, 8].contains r.bytes.length && r.instr.admits r.bytes

/-- An encoding that can be decoded: AFH has an entry (rule R50 point 2), no instruction has two, no entry begins with
another. -/
def Encoding.wf (e : Encoding) : Bool :=
  match e with
  | .section3 => true
  | .table rows => rows.all EncodingRow.wf && rows.any (fun r => r.instr.isHeader) && decide (rows.Pairwise (fun r q =>
      r.instr ≠ q.instr ∧ r.bytes.isPrefixOf q.bytes = false ∧ q.bytes.isPrefixOf r.bytes = false))

/-! ## The opcode table's words -/

/-- The bytes of an instruction whose bits are numbered as `spec/opcode_table.json` numbers them: a table word is the
32-bit value `b0 b1 b2 b3` with `b0` the most significant byte, and a second word's bits count on from bit 32 in the same
way. A word shorter than 32 bits stands at the top of the first word. Bits not given are 0; eight bytes, the longest
instruction. -/
def tableBytes (nbits w : Nat) : List Byte :=
  let w := if nbits < 32 then w * 2 ^ (32 - nbits) else w
  [24, 16, 8, 0, 56, 48, 40, 32].map (fun k => BitVec.ofNat 8 (w / 2 ^ k))

/-- The instruction the decoder reads from a word of the opcode table, its immediates in the default byte order
(rule R32). -/
def decodeTableWord (nbits w : Nat) : Option Instr :=
  match decode .little (tableBytes nbits w) with
  | .ok (i, _) => some i
  | .error _ => none

end Sys2Proof
end

