-- ==== Sys2Proof/Machine/Platform.lean ====
section
/-! DEFINITION. The settings of the parameters that `State.reset` carries (`00_scope.md` rule R6), what is well-formed
about a record of parameters, and the three parameters that are functions in the spec: `Mapped`, `VEC` and
`IntOracle`. -/

namespace Sys2Proof

/-- The layout of rule R18: N 31, Z 30, C 29, V 28, I 0. -/
def defaultSrLayout : SrLayout := { n := 31, z := 30, c := 29, v := 28, i := 0 }

/-- DESIGN CHOICE (`notes/assumptions/7.md`): the spec gives `VEC` no default; these are the addresses its own vectors
use (`96_derived_vectors.md` sections 2.9 and 2.11). -/
def defaultVectors : Vectors where
  abort := 0x3000
  debug := 0x3100
  svc := 0x3200
  nmi := 0x3400
  swi := ⟨((List.range 32).map (fun k => BitVec.ofNat 32 (0x3300 + 8 * k))).toArray, rfl⟩

/-- The parameters at the start of a run from reset: the defaults of rule R6 where it gives one, and for the open
parameters DESIGN CHOICES (`notes/assumptions/7.md`, `8.md`, `9.md`, `10.md`). An operand value for which no source
states a result is the model fault its rule names (`93_implementation_defined.md` section 1). -/
def defaultCfg : Cfg where
  encoding := .section3
  byteOrder := .little
  dataAlign := .fault
  aluFlags := .draw
  mulOverflow := .wrap
  selfModify := .refuse
  unstated := .stop
  srLayout := defaultSrLayout
  vectors := defaultVectors
  irqLines := []
  mapped := [{ base := 0, size := 2 ^ 32 }]
  entry := 0x1000

/-- `Mapped` (rule R31). -/
def Cfg.isMapped (c : Cfg) (a : Nat) : Bool :=
  c.mapped.any (fun r => r.base ≤ a && a < r.base + r.size)

/-- `VEC` (rule R263). A line the configuration does not have is never taken (rule R262). -/
def Cfg.vec (c : Cfg) : TrapKind → DWord
  | .abort => c.vectors.abort
  | .debug => c.vectors.debug
  | .svc => c.vectors.svc
  | .nmi => c.vectors.nmi
  | .irq line => match c.irqLines[line]? with
    | some l => l.vector
    | none => 0
  | .swi n => c.vectors.swi.get n

/-- The five fields of SR stand at five different bits, so that an image keeps them all (rule R18). -/
def SrLayout.wf (l : SrLayout) : Bool := [l.n, l.z, l.c, l.v, l.i].Nodup

/-- An even address, as `ENTRY` (rule R281) and every `VEC(kind)` (rule R263) must be. -/
def evenAddr (a : DWord) : Bool := a.getLsbD 0 == false

/-- The record of parameters is one the spec admits: an encoding that can be decoded (rule R50), a layout of distinct
bits (rule R18), even vectors (rule R263) and an even entry (rule R281). -/
def Cfg.wf (c : Cfg) : Bool :=
  c.encoding.wf && c.srLayout.wf && evenAddr c.entry &&
  evenAddr c.vectors.abort && evenAddr c.vectors.debug && evenAddr c.vectors.svc && evenAddr c.vectors.nmi &&
  c.vectors.swi.toList.all evenAddr && c.irqLines.all (fun l => evenAddr l.vector)

/-! ## `IntOracle` -/

/-- The default `IntOracle` (rule R6): nothing is ever pending. -/
def IntOracle.never : IntOracle := { next := [], source := .cycle [] }

/-- The answers that the oracle lists for this boundary and the next ones: a cycle that is over begins again. -/
def IntOracle.listed (o : IntOracle) : List IntAnswer :=
  match o.next, o.source with
  | [], .cycle again => again
  | next, _ => next

/-- The answer with nothing pending. -/
def quietAnswer : IntAnswer := { nmi := false, irq := [] }

/-- The answer of the oracle at this boundary (rule R261). -/
def IntOracle.answer (o : IntOracle) : IntAnswer :=
  match o.listed, o.source with
  | a :: _, _ => a
  | [], .cycle _ => quietAnswer
  | [], .free n taken => Config.freeAnswer n taken

/-- The oracle once this boundary's answer has been read; it is told what was taken there (rule R261: it sees the
history of taken interrupts). -/
def IntOracle.after (o : IntOracle) (taken : Option TrapKind) : IntOracle where
  next := o.listed.tail
  source := match o.source with
    | .cycle again => .cycle again
    | .free n history => .free n (taken :: history)

end Sys2Proof
end

