-- ==== Sys2Proof/Machine/State.lean ====
section
/-! DEFINITION. The state of one Ariel CPU (`10_state.md` rule R10), the reasons a step can stop, and the state at the
start of a run. -/

namespace Sys2Proof.Machine

/-- The five fields of the status register (rule R17). -/
structure Sr where
  n : Bool
  z : Bool
  c : Bool
  v : Bool
  i : Bool
  deriving DecidableEq, Repr

/-- The state (rule R10): the sixteen normal registers (R11), the special registers PC (R13), SP, FP, LR (R15) and SR
(R17), the hidden state of rule R21 (`seed`, `halted`, `waiting`), memory as the list of the bytes that differ from what
an unlisted address reads as (R31) and the set `Written` of rule R37 as a rising list. The last three fields are the
model's own: the parameters of rule R6, which no step changes; `IntOracle` (R261), who answers at the boundaries to
come; and the number of free values drawn so far. -/
structure State where
  regs : Vector DWord 16
  pc : DWord
  sp : DWord
  fp : DWord
  lr : DWord
  sr : Sr
  seed : DWord
  halted : Bool
  waiting : Bool
  mem : List Host.Cell
  written : List Nat
  cfg : Cfg
  oracle : IntOracle
  draws : Nat
  deriving DecidableEq, Repr

/-- The model faults of `93_implementation_defined.md` section 1. A fault ends the run and is no Ariel trap (rule R267).
Every one of them is SAFE: the spec names the stop, and a run that stops satisfies no claim. `UnwrittenRegister` is not
among them: every register holds a value (`notes/assumptions/1.md`). -/
inductive Fault where
  /-- Raised by the fetch: an instruction is to be fetched at an odd address (rules R14, R39). Safe. -/
  | oddPc
  /-- Raised by the fetch: the instruction's bytes, or the address after them, pass the top of the address space
  (rule R14). Safe. -/
  | pcWrap
  /-- Raised by a fetch, load or store of a byte outside `Mapped` (rules R31, R36, R37). Safe. -/
  | unmapped (addr : Nat)
  /-- Raised by a load or store whose bytes run past the top of the address space (rules R36, R37). Safe. -/
  | addressWrap
  /-- Raised by a load or store under `DATA_ALIGN = fault` (rules R36 to R38). Safe. -/
  | misaligned (addr : Nat) (n : Nat)
  /-- Raised by the fetch of a stored byte under `SELF_MODIFY = refuse` (rule R43). Safe. -/
  | fetchOfWrittenByte
  /-- Raised by the fetch when the bytes are no instruction (rule R63). Safe. -/
  | illegalEncoding (why : DecodeError)
  /-- Raised by MOVB and MOVW under the setting `stop` (rules R110, R111). Safe. -/
  | selectorRange
  /-- Raised by the storage instructions under the setting `stop` (rule R121). Safe. -/
  | writebackSameRegister
  /-- Raised by the shifts and rotates under the setting `stop` (rule R147). Safe. -/
  | shiftRange
  /-- Raised by DIV, DIVS, REM, REMS under the setting `stop` (rules R176 to R179). Safe. -/
  | divideByZero
  /-- Raised by DIVS and REMS under the setting `stop` (rules R177, R179). Safe. -/
  | divideOverflow
  /-- Raised by CFBCD under the setting `stop` (rule R194). Safe. -/
  | invalidBcd
  /-- Raised by CTBCD under the setting `stop` (rule R199). Safe. -/
  | bcdRange
  deriving DecidableEq, Repr

/-- The refusals. -/
inductive Refusal where
  /-- Raised by `exec` for an instruction that has no meaning in the model yet; no arm does. Safe. -/
  | notModelled (mnemonic : String)
  deriving DecidableEq, Repr

/-- The outcome of a step or of an instruction. -/
abbrev Out := Host.Outcome State Fault Refusal

/-- The state at the start of a run under any parameters (rules R6, R22, R280, R281): `pc = ENTRY`, `halted` and
`waiting` 0, memory with nothing listed, the environment. The spec gives no other register, flag or
seed a value: each is 0 here, a DESIGN CHOICE (`notes/assumptions/1.md`). -/
def State.launch (c : Cfg) (oracle : IntOracle) : State where
  regs := Vector.replicate 16 0
  pc := c.entry
  sp := 0
  fp := 0
  lr := 0
  sr := { n := false, z := false, c := false, v := false, i := false }
  seed := 0
  halted := false
  waiting := false
  mem := []
  written := []
  cfg := c
  oracle := oracle
  draws := 0

/-- The start of a run under the default parameters, in which no interrupt comes (rule R6: `IntOracle` is `never`). -/
def State.reset : State := State.launch defaultCfg .never

end Sys2Proof.Machine
end

