-- ==== Sys2Proof/Machine/Memory.lean ====
section
/-! DEFINITION. Memory (`20_memory.md`): one byte, the set `Written`, and the primitives `MemRead` and `MemWrite` of
rules R36 and R37 with their checks. -/

namespace Sys2Proof.Machine

/-- What an address that no entry lists reads as. The spec leaves a byte that nothing has written unspecified
(rule R22); 0 is a DESIGN CHOICE (`notes/assumptions/2.md`). -/
def unlistedByte : Byte := 0

/-- The byte at an address. -/
def readByte : List Host.Cell → Nat → Byte
  | [], _ => unlistedByte
  | (k, b) :: t, a => if k = a then b else readByte t a

/-- Store a byte, keeping the addresses rising and no entry equal to what an unlisted address reads as. -/
def writeByte : List Host.Cell → Nat → Byte → List Host.Cell
  | [], a, v => if v = unlistedByte then [] else [(a, v)]
  | (k, b) :: t, a, v =>
    if k < a then (k, b) :: writeByte t a v
    else
      let rest := if k = a then t else (k, b) :: t
      if v = unlistedByte then rest else (a, v) :: rest

/-- Store bytes at consecutive addresses. -/
def writeBytes (m : List Host.Cell) (a : Nat) : List Byte → List Host.Cell
  | [] => m
  | b :: bs => writeBytes (writeByte m a b) (a + 1) bs

/-- Add an address to a rising list of addresses. -/
def insertAddr : List Nat → Nat → List Nat
  | [], a => [a]
  | k :: t, a => if k < a then k :: insertAddr t a else if k = a then k :: t else a :: k :: t

/-- Add `n` consecutive addresses. -/
def insertAddrs (l : List Nat) (a : Nat) : Nat → List Nat
  | 0 => l
  | n + 1 => insertAddrs (insertAddr l a) (a + 1) n

/-- Rising addresses below 2^32, each entry different from what an unlisted address reads as. -/
abbrev memWf (m : List Host.Cell) : Prop :=
  List.Pairwise (fun (p q : Host.Cell) => p.1 < q.1) m ∧ ∀ p ∈ m, p.2 ≠ unlistedByte ∧ p.1 < 2 ^ 32

/-- Rising addresses below 2^32. -/
abbrev addrsWf (l : List Nat) : Prop := List.Pairwise (· < ·) l ∧ ∀ a ∈ l, a < 2 ^ 32

/-- The byte the state's memory holds at an address. -/
def State.byte (s : State) (a : Nat) : Byte := readByte s.mem a

/-- The access widths of rule R34: Byte, Word and Double Word. -/
inductive Width where
  | byte
  | word
  | dword
  deriving DecidableEq, Repr

/-- The number of bytes of an access (rule R34). -/
def Width.bytes : Width → Nat
  | .byte => 1
  | .word => 2
  | .dword => 4

/-- The bytes of a datum in address order, from the low bits of a 32-bit value (rule R35). -/
def dataBytes (bo : ByteOrder) (w : Width) (v : DWord) : List Byte :=
  match w with
  | .byte => [v.extractLsb' 0 8]
  | .word => wordBytes bo (v.setWidth 16)
  | .dword => dwordBytes bo v

/-- The datum at an address, zero-extended to 32 bits (rule R36 step 4). -/
def State.datum (s : State) (w : Width) (a : Nat) : DWord :=
  match w with
  | .byte => (s.byte a).setWidth 32
  | .word => (wordOf s.cfg.byteOrder (s.byte a) (s.byte (a + 1))).setWidth 32
  | .dword => dwordOf s.cfg.byteOrder (s.byte a) (s.byte (a + 1)) (s.byte (a + 2)) (s.byte (a + 3))

/-- Rule R36 step 3: every one of `n` bytes from `a` is mapped. -/
def mappedAll (c : Cfg) (a : Nat) : Nat → Except Fault Unit
  | 0 => .ok ()
  | n + 1 => if c.isMapped a then mappedAll c (a + 1) n else .error (.unmapped a)

/-- The three checks of rules R36 and R37, in their order. -/
def checkAccess (c : Cfg) (w : Width) (a : DWord) : Except Fault Unit :=
  if a.toNat + w.bytes > 2 ^ 32 then .error .addressWrap
  else if c.dataAlign = .fault ∧ a.toNat % w.bytes ≠ 0 then .error (.misaligned a.toNat w.bytes)
  else mappedAll c a.toNat w.bytes

/-- `MemRead` (rule R36); a Byte or a Word comes zero-extended. -/
def memRead (s : State) (w : Width) (a : DWord) : Except Fault DWord := do
  checkAccess s.cfg w a
  .ok (s.datum w a.toNat)

/-- The state after a store whose checks passed (rule R37). -/
def State.store (s : State) (w : Width) (a : DWord) (v : DWord) : State :=
  { s with
    mem := writeBytes s.mem a.toNat (dataBytes s.cfg.byteOrder w v)
    written := insertAddrs s.written a.toNat w.bytes }

/-- `MemWrite` (rule R37), of the low bits of a 32-bit value. -/
def memWrite (s : State) (w : Width) (a : DWord) (v : DWord) : Except Fault State := do
  checkAccess s.cfg w a
  .ok (s.store w a v)

end Sys2Proof.Machine
end

