-- ==== Sys2Proof/Machine/Flags.lean ====
section
/-! DEFINITION. The status register: its 32-bit image (rule R18), the conditions (rules R205 to R219), the flag
functions (rules R230, R231), the flags of the data-processing instructions (rule R23), and the free values. -/

namespace Sys2Proof.Machine

/-- `draw_32()`: a free value, and the state in which the next draw is another one. -/
def State.drawDWord (s : State) : DWord × State := (Config.freeDWord s.draws, { s with draws := s.draws + 1 })

/-- `draw_1()`. -/
def State.drawBit (s : State) : Bool × State := (Config.freeBit s.draws, { s with draws := s.draws + 1 })

/-- A 32-bit value with one bit set where the field is, if the field is 1. -/
def fieldBit (b : Bool) (k : Fin 32) : DWord := if b then 1#32 <<< k.val else 0

/-- `SrImage()` (rule R18) under a layout: the unassigned bits read as 0. -/
def Sr.image (r : Sr) (l : SrLayout) : DWord :=
  fieldBit r.n l.n ||| fieldBit r.z l.z ||| fieldBit r.c l.c ||| fieldBit r.v l.v ||| fieldBit r.i l.i

/-- The fields a write of a 32-bit value to SR gives (rule R18): the unassigned bits are ignored. -/
def Sr.ofImage (l : SrLayout) (v : DWord) : Sr where
  n := v.getLsbD l.n
  z := v.getLsbD l.z
  c := v.getLsbD l.c
  v := v.getLsbD l.v
  i := v.getLsbD l.i

/-- `SrImage()` of the state (rule R18). -/
def State.srImage (s : State) : DWord := s.sr.image s.cfg.srLayout

/-- A write of a 32-bit value to SR (rule R18). -/
def State.writeSr (s : State) (v : DWord) : State := { s with sr := Sr.ofImage s.cfg.srLayout v }

/-- `cond(cc)` (rules R205 to R219). -/
def Sr.holds (r : Sr) : Cond → Bool
  | .eq => r.z
  | .ne => !r.z
  | .cs => r.c
  | .cc => !r.c
  | .mi => r.n
  | .pl => !r.n
  | .vs => r.v
  | .vc => !r.v
  | .hi => r.c && !r.z
  | .ls => !r.c || r.z
  | .ge => r.n == r.v
  | .lt => r.n != r.v
  | .gt => !r.z && r.n == r.v
  | .le => r.z || r.n != r.v
  | .always => true

/-- The carry and overflow a flag function yields. -/
structure CV where
  c : Bool
  v : Bool
  deriving DecidableEq, Repr

/-- Does an integer fall outside the 32-bit signed range? -/
def outsideSigned (x : Int) : Bool := x < -2 ^ 31 || x > 2 ^ 31 - 1

/-- `AddFlags(a, b, cin)` (rule R230). -/
def addFlags (a b : DWord) (cin : Bool) : CV where
  c := a.toNat + b.toNat + cin.toNat ≥ 2 ^ 32
  v := outsideSigned (a.toInt + b.toInt + cin.toNat)

/-- `SubFlags(a, b, cin)` (rule R231): for `a - b - (1 - cin)`, C set when there is no borrow. -/
def subFlags (a b : DWord) (cin : Bool) : CV where
  c := (a.toNat : Int) - b.toNat - (1 - (cin.toNat : Int)) ≥ 0
  v := outsideSigned (a.toInt - b.toInt - (1 - (cin.toNat : Int)))

/-- What a data-processing instruction's rule says of C and V under `ALU_FLAGS = set`. -/
inductive CVRule where
  /-- given by a flag function -/
  | known (f : CV)
  /-- arbitrary bits -/
  | drawn
  /-- RCL and RCR: C is the bit rotated out under every setting, V arbitrary (rule R23) -/
  | carry (c : Bool)

/-- The flags of class FA after the result `v` (rule R23), under the three settings of `ALU_FLAGS`. Each call takes
four draws, for N, Z, C and V in this order, whether or not the setting uses them. -/
def State.aluFlags (s : State) (v : DWord) (rule : CVRule) : State :=
  let bit (k : Nat) : Bool := Config.freeBit (s.draws + k)
  let sr := match s.cfg.aluFlags, rule with
    | .draw, .carry c => { s.sr with n := bit 0, z := bit 1, c := c, v := bit 3 }
    | .draw, .known _ => { s.sr with n := bit 0, z := bit 1, c := bit 2, v := bit 3 }
    | .draw, .drawn => { s.sr with n := bit 0, z := bit 1, c := bit 2, v := bit 3 }
    | .keep, .carry c => { s.sr with c := c }
    | .keep, .known _ => s.sr
    | .keep, .drawn => s.sr
    | .set, .carry c => { s.sr with n := v.msb, z := v == 0, c := c, v := bit 3 }
    | .set, .known f => { s.sr with n := v.msb, z := v == 0, c := f.c, v := f.v }
    | .set, .drawn => { s.sr with n := v.msb, z := v == 0, c := bit 2, v := bit 3 }
  { s with sr := sr, draws := s.draws + 4 }

/-- The flags a comparer writes (rules R232 to R235): N and Z from the result, C and V as given. -/
def State.compareFlags (s : State) (v : DWord) (f : CV) : State :=
  { s with sr := { s.sr with n := v.msb, z := v == 0, c := f.c, v := f.v } }

end Sys2Proof.Machine
end

