-- ==== Sys2Proof/Machine/Ops.lean ====
section
/-! DEFINITION. The operations every instruction is written over: registers (rule R11), the advance of `pc` (rule R14),
the 21 registers of rule R100, the stack (rules R44, R45), taking a trap and returning from one (rules R264 to R266,
R94), the delivery of an interrupt (rule R262), and the result no source states. -/

namespace Sys2Proof.Machine

/-- Read of normal register Rn (rule R11). -/
def State.reg (s : State) (r : Reg) : DWord := s.regs.get r

/-- Write of normal register Rn (rule R11). -/
def State.setReg (s : State) (r : Reg) (v : DWord) : State := { s with regs := s.regs.set r.val v r.isLt }

/-- `len`, the length of an instruction under the state's `ENCODING` (rules R6, R14). -/
def State.lenOf (s : State) (i : Instr) : Nat := s.cfg.encoding.len i

/-- `w32(pc + len)`, the address of the next instruction (rule R14). -/
def State.nextPc (s : State) (len : Nat) : DWord := s.pc + BitVec.ofNat 32 len

/-- The advance of `pc` by an instruction that does not transfer control (rule R14). -/
def State.advance (s : State) (len : Nat) : State := { s with pc := s.nextPc len }

/-- A meaning's outcome. -/
def finish : Except Fault State → Out
  | .ok s => .next s
  | .error f => .fault f

/-- `RdReg5(k)` (rule R100): `pc` reads as the address of the executing instruction, SR as its image. -/
def State.readAny (s : State) : AnyReg → DWord
  | .r n => s.reg n
  | .pc => s.pc
  | .sr => s.srImage
  | .sp => s.sp
  | .fp => s.fp
  | .lr => s.lr

/-- `WrReg5(k, v)` (rule R100) as the last act of an instruction of length `len`: a write of `pc` replaces the
advance, any other write is followed by it. -/
def State.writeAny (s : State) (len : Nat) (k : AnyReg) (v : DWord) : State :=
  match k with
  | .r n => (s.setReg n v).advance len
  | .pc => { s with pc := v }
  | .sr => (s.writeSr v).advance len
  | .sp => { s with sp := v }.advance len
  | .fp => { s with fp := v }.advance len
  | .lr => { s with lr := v }.advance len

/-- `Push(v)` (rule R44): SP is decremented, then the Double Word is stored at it. -/
def push (s : State) (v : DWord) : Except Fault State :=
  memWrite { s with sp := s.sp - 4 } .dword (s.sp - 4) v

/-- `Pop()` (rule R45): the Double Word at SP, then SP is incremented. -/
def pop (s : State) : Except Fault (DWord × State) := do
  let v ← memRead s .dword s.sp
  .ok (v, { s with sp := s.sp + 4 })

/-- Taking a trap, shared by BRK, DBG, SVC, NMI and IRQ (rule R264): push SR's image, push the return address, clear
I, end a wait, go to the vector. -/
def takeTrap (s : State) (kind : TrapKind) (ret : DWord) : Except Fault State := do
  let s1 ← push s s.srImage
  let s2 ← push s1 ret
  .ok { s2 with sr := { s2.sr with i := false }, waiting := false, pc := s2.cfg.vec kind }

/-- Entry for SWI (rule R266): push the return address, go to the vector; SR is not touched. -/
def takeSwi (s : State) (n : Fin 32) (ret : DWord) : Except Fault State := do
  let s1 ← push s ret
  .ok { s1 with pc := s1.cfg.vec (.swi n) }

/-- Return from a trap (rule R94): pop the return address, pop SR's image, write both. -/
def returnFromTrap (s : State) : Except Fault State := do
  let (ret, s1) ← pop s
  let (image, s2) ← pop s1
  .ok ({ s2 with pc := ret }.writeSr image)

/-- The answer of `IntOracle` at this boundary (rule R261). -/
def State.answer (s : State) : IntAnswer := s.oracle.answer

/-- Is line `n` chosen by `IrqSelect` and pending (rule R262)? -/
def lineWants (c : Cfg) (a : IntAnswer) (n : Nat) : Bool :=
  match c.irqLines[n]? with
  | some l => l.selected && a.irq.getD n false
  | none => false

/-- The interrupt to be taken at this boundary (rule R262): NMI first, then with `I = 1` the lowest-numbered line that
is selected and pending. -/
def State.pendingTrap (s : State) : Option TrapKind :=
  if s.answer.nmi then some .nmi
  else if s.sr.i then
    ((List.range s.cfg.irqLines.length).find? (lineWants s.cfg s.answer)).map TrapKind.irq
  else none

/-- The state once this boundary's answer has been read. -/
def State.afterAnswer (s : State) : State :=
  { s with oracle := s.oracle.after s.pendingTrap }

/-- The result of an operation on operand values for which no source states one: the model fault the rule names, or
under the model's own setting `free` a free value (`notes/assumptions/4.md`). -/
def State.unstatedResult (s : State) (f : Fault) : Except Fault (DWord × State) :=
  match s.cfg.unstated with
  | .stop => .error f
  | .free => .ok s.drawDWord

end Sys2Proof.Machine
end

