-- ==== Sys2Proof/Machine/Operands.lean ====
section
/-! DEFINITION. The operand forms: the third operand (`30_encoding.md` rule R55), the effective address and write-back
of the memory-address modes (`42_storage.md` rules R120 to R132), the target of a branch (`46_branch.md` rule R227), and
the register ranges. -/

namespace Sys2Proof.Machine

/-- The 32-bit value of the third operand (rule R55). -/
def State.opt (s : State) : Opt → DWord
  | .reg o => s.reg o
  | .imm8 v => v.setWidth 32
  | .imm16 v => v.signExtend 32
  | .imm32 v => v

/-- The offset of an indexed mode (rules R127 to R130): the whole register, or a sign-extended immediate. -/
def State.offset (s : State) : Offset → DWord
  | .reg o => s.reg o
  | .byte off => off.signExtend 32
  | .word off => off.signExtend 32

/-- What a memory-address operand yields (rule R120): the effective address, the state after `Pre`, the write-back
still to be done by `Post`, and whether the written-back base is also the data register (rule R121). -/
structure Access where
  ea : DWord
  st : State
  post : Option (Reg × DWord)
  clash : Bool

/-- A write-back mode whose base is the data register `d` (rule R121). -/
def writebackClash (d : Reg) : Mode → Bool
  | .indexed .pre b _ => d = b
  | .indexed .post b _ => d = b
  | _ => false

/-- The effective address of every mode and the register it writes before the action (rules R122 to R130, R132). -/
def effective (s : State) (clash : Bool) : Mode → Except Fault Access
  | .rel16 off => .ok ⟨s.pc + off.signExtend 32, s, none, clash⟩
  | .rel32 off => .ok ⟨s.pc + off, s, none, clash⟩
  | .absolute addr => .ok ⟨addr, s, none, clash⟩
  | .indirect addr => do
    let ea ← memRead s .dword addr
    .ok ⟨ea, s, none, clash⟩
  | .base b => .ok ⟨s.reg b, s, none, clash⟩
  | .indexed .plain b off => .ok ⟨s.reg b + s.offset off, s, none, clash⟩
  | .indexed .pre b off =>
    let ea := s.reg b + s.offset off
    .ok ⟨ea, s.setReg b ea, none, clash⟩
  | .indexed .post b off => .ok ⟨s.reg b, s, some (b, s.reg b + s.offset off), clash⟩

/-- The address operand of an instruction with data register `d`: rule R121's fault first (decision D19); under the
model's own setting `free` the access goes on and says that the data value is not stated. -/
def address (s : State) (d : Reg) (m : Mode) : Except Fault Access :=
  if writebackClash d m && s.cfg.unstated == .stop then .error .writebackSameRegister
  else effective s (writebackClash d m) m

/-- `Post` (rules R120, R130), on the state after the action. -/
def Access.afterPost (a : Access) (s : State) : State :=
  match a.post with
  | some (b, v) => s.setReg b v
  | none => s

/-- The write of the data register and then `Post` (rules R135 to R141); where the two write one register its final
value is not stated (rule R121) and is free. `s` is the state after the memory action. -/
def Access.intoReg (a : Access) (s : State) (d : Reg) (v : DWord) : State :=
  let s1 := a.afterPost (s.setReg d v)
  if a.clash then
    let (u, s2) := s1.drawDWord
    s2.setReg d u
  else s1

/-- The value of the data register a store or swap puts in memory, after `Pre` (rules R135, R142 to R146); free where
the register is also the written-back base (rule R121). -/
def Access.fromReg (a : Access) (d : Reg) : DWord × State :=
  if a.clash then a.st.drawDWord else (a.st.reg d, a.st)

/-- `off`, sign-extended (rule R227). -/
def branchOffset : BrOff → DWord
  | .short off => off.signExtend 32
  | .far off => off

/-- `target` (rule R227): relative to the address of the branch itself. -/
def State.target (s : State) (off : BrOff) : DWord := s.pc + branchOffset off

/-- The sixteen normal registers, rising. -/
def allRegs : List Reg := [0, 1, 2, 3, 4, 5, 6, 7, 8, 9, 10, 11, 12, 13, 14, 15]

/-- The registers of the range `Ra-Rb`, rising, the highest included (rule R51). -/
def regRange (a b : Reg) : List Reg := allRegs.filter (fun k => a ≤ k && k ≤ b)

end Sys2Proof.Machine
end

