-- ==== Sys2Proof/Machine/Arithmetic.lean ====
section
/-! DEFINITION. The arithmetic instructions (`44_arithmetic.md`, rules R166 to R185). -/

namespace Sys2Proof.Machine

/-- The end of an arithmetic instruction: Rd, the flags of class FA, `pc` (the template of `44_arithmetic.md`). -/
def arith (s : State) (len : Nat) (d : Reg) (v : DWord) (rule : CVRule) : State :=
  ((s.setReg d v).aluFlags v rule).advance len

/-- `1 - u(C)`: the borrow of rules R173 and R175. -/
def borrow (c : Bool) : DWord := if c then 0 else 1

/-- `u(C)` as a 32-bit value (rule R171). -/
def carryIn (c : Bool) : DWord := if c then 1 else 0

/-- Rule R170: `Rs + opt`. -/
def execAdd (d r : Reg) (o : Opt) (s : State) : Out :=
  let a := s.reg r
  let b := s.opt o
  .next (arith s (s.lenOf (.add d r o)) d (a + b) (.known (addFlags a b false)))

/-- Rule R171: `Rs + opt + C`. -/
def execAdc (d r : Reg) (o : Opt) (s : State) : Out :=
  let a := s.reg r
  let b := s.opt o
  .next (arith s (s.lenOf (.adc d r o)) d (a + b + carryIn s.sr.c) (.known (addFlags a b s.sr.c)))

/-- Rule R172: `Rs - opt`. -/
def execSub (d r : Reg) (o : Opt) (s : State) : Out :=
  let a := s.reg r
  let b := s.opt o
  .next (arith s (s.lenOf (.sub d r o)) d (a - b) (.known (subFlags a b true)))

/-- Rule R173: `Rs - opt - (1 - C)`. -/
def execSbc (d r : Reg) (o : Opt) (s : State) : Out :=
  let a := s.reg r
  let b := s.opt o
  .next (arith s (s.lenOf (.sbc d r o)) d (a - b - borrow s.sr.c) (.known (subFlags a b s.sr.c)))

/-- Rule R174: `opt - Rs`. -/
def execRsb (d r : Reg) (o : Opt) (s : State) : Out :=
  let a := s.reg r
  let b := s.opt o
  .next (arith s (s.lenOf (.rsb d r o)) d (b - a) (.known (subFlags b a true)))

/-- Rule R175: `opt - Rs - (1 - C)`. -/
def execRsc (d r : Reg) (o : Opt) (s : State) : Out :=
  let a := s.reg r
  let b := s.opt o
  .next (arith s (s.lenOf (.rsc d r o)) d (b - a - borrow s.sr.c) (.known (subFlags b a s.sr.c)))

/-- A division or remainder: `corner` is the fault rules R176 to R179 name for these operands, if any (decision D13);
otherwise `f` gives the result. -/
def divide (s : State) (len : Nat) (corner : DWord → DWord → Option Fault) (f : DWord → DWord → DWord) (d r : Reg)
    (o : Opt) : Out := finish do
  let a := s.reg r
  let b := s.opt o
  let (v, s1) ← match corner a b with
    | some e => s.unstatedResult e
    | none => .ok (f a b, s)
  .ok (arith s1 len d v .drawn)

/-- The corner of unsigned division: a divisor of 0 (rules R176, R178). -/
def unsignedCorner (_ b : DWord) : Option Fault := if b = 0 then some .divideByZero else none

/-- The corners of signed division: a divisor of 0, and -2^31 by -1 (rules R177, R179). -/
def signedCorner (a b : DWord) : Option Fault :=
  if b.toInt = 0 then some .divideByZero
  else if a.toInt = -2 ^ 31 ∧ b.toInt = -1 then some .divideOverflow
  else none

/-- Rule R176: the floor of the unsigned quotient. -/
def execDiv (d r : Reg) (o : Opt) (s : State) : Out :=
  divide s (s.lenOf (.div d r o)) unsignedCorner (fun a b => BitVec.ofNat 32 (a.toNat / b.toNat)) d r o

/-- Rule R177: the signed quotient rounded toward zero. -/
def execDivs (d r : Reg) (o : Opt) (s : State) : Out :=
  divide s (s.lenOf (.divs d r o)) signedCorner (fun a b => BitVec.ofInt 32 (a.toInt.tdiv b.toInt)) d r o

/-- Rule R178: the unsigned remainder. -/
def execRem (d r : Reg) (o : Opt) (s : State) : Out :=
  divide s (s.lenOf (.rem d r o)) unsignedCorner (fun a b => BitVec.ofNat 32 (a.toNat % b.toNat)) d r o

/-- Rule R179: the signed remainder, `a - b * q` for the quotient `q` of rule R177. -/
def execRems (d r : Reg) (o : Opt) (s : State) : Out :=
  divide s (s.lenOf (.rems d r o)) signedCorner
    (fun a b => BitVec.ofInt 32 (a.toInt - b.toInt * a.toInt.tdiv b.toInt)) d r o

/-- A multiplication whose exact product is `p`, whose 32-bit value is `v` when `fits` or under
`MUL_OVERFLOW = wrap`, and arbitrary otherwise (rules R180, R181). -/
def multiply (s : State) (len : Nat) (fits : Bool) (v : DWord) (d : Reg) : Out :=
  if fits || s.cfg.mulOverflow == .wrap then .next (arith s len d v .drawn)
  else
    let (u, s1) := s.drawDWord
    .next (arith s1 len d u .drawn)

/-- Rule R180: the unsigned product. -/
def execMul (d r : Reg) (o : Opt) (s : State) : Out :=
  let p := (s.reg r).toNat * (s.opt o).toNat
  multiply s (s.lenOf (.mul d r o)) (p < 2 ^ 32) (BitVec.ofNat 32 p) d

/-- Rule R181: the signed product. -/
def execMuls (d r : Reg) (o : Opt) (s : State) : Out :=
  let p := (s.reg r).toInt * (s.opt o).toInt
  multiply s (s.lenOf (.muls d r o)) (!outsideSigned p) (BitVec.ofInt 32 p) d

/-- Rule R182: the absolute value, which wraps for -2^31. -/
def execAbs (d r : Reg) (s : State) : Out :=
  .next (arith s (s.lenOf (.abs d r)) d (BitVec.ofInt 32 |(s.reg r).toInt|) .drawn)

/-- Rule R183: the negated value. -/
def execNeg (d r : Reg) (s : State) : Out :=
  .next (arith s (s.lenOf (.neg d r)) d (0 - s.reg r) (.known (subFlags 0 (s.reg r) true)))

/-- Rule R184: `Rd + k`. -/
def execInc (d : Reg) (k : BitVec 4) (s : State) : Out :=
  .next (arith s (s.lenOf (.inc d k)) d (s.reg d + k.setWidth 32) (.known (addFlags (s.reg d) (k.setWidth 32) false)))

/-- Rule R185: `Rd - k`. -/
def execDec (d : Reg) (k : BitVec 4) (s : State) : Out :=
  .next (arith s (s.lenOf (.dec d k)) d (s.reg d - k.setWidth 32) (.known (subFlags (s.reg d) (k.setWidth 32) true)))

end Sys2Proof.Machine
end

