-- ==== Sys2Proof/Machine/Bitwise.lean ====
section
/-! DEFINITION. The bitwise instructions (`43_bitwise.md`, rules R147 to R165). -/

namespace Sys2Proof.Machine

/-- The end of a bitwise instruction: Rd, the flags of class FA, `pc` (the template of `43_bitwise.md`). -/
def bitwise (s : State) (len : Nat) (d : Reg) (v : DWord) (rule : CVRule) : State :=
  ((s.setReg d v).aluFlags v rule).advance len

/-- A shift or rotate by the amount of rule R147; an amount above 32 is `fault ShiftRange` (decision D14). -/
def shift (s : State) (len : Nat) (f : DWord → Nat → DWord) (d r : Reg) (o : Opt) : Out := finish do
  let n := (s.opt o).toNat
  let (v, s1) ← if n > 32 then s.unstatedResult .shiftRange else .ok (f (s.reg r) n, s)
  .ok (bitwise s1 len d v .drawn)

/-- A rotation through Carry of the 33-bit ring `C :: R[s]` (rules R154, R155); an amount above 32 is
`fault ShiftRange` (rule R147), and under `free` neither the value nor the Carry is stated. -/
def rotateCarry (s : State) (len : Nat) (f : BitVec 33 → Nat → BitVec 33) (d r : Reg) (o : Opt) : Out := finish do
  let n := (s.opt o).toNat
  if n > 32 then
    let (v, s1) ← s.unstatedResult .shiftRange
    let (c, s2) := s1.drawBit
    .ok (bitwise s2 len d v (.carry c))
  else
    let x := f (BitVec.cons s.sr.c (s.reg r)) n
    .ok (bitwise s len d (x.setWidth 32) (.carry x.msb))

/-- Rule R150: shift left, zeros enter at bit 0. -/
def execLsl (d r : Reg) (o : Opt) (s : State) : Out :=
  shift s (s.lenOf (.lsl d r o)) (fun v n => v <<< n) d r o

/-- Rule R151: shift right, zeros enter at bit 31. -/
def execLsr (d r : Reg) (o : Opt) (s : State) : Out :=
  shift s (s.lenOf (.lsr d r o)) (fun v n => v >>> n) d r o

/-- Rule R152: rotate left. -/
def execRol (d r : Reg) (o : Opt) (s : State) : Out :=
  shift s (s.lenOf (.rol d r o)) (fun v n => v.rotateLeft n) d r o

/-- Rule R153: rotate right. -/
def execRor (d r : Reg) (o : Opt) (s : State) : Out :=
  shift s (s.lenOf (.ror d r o)) (fun v n => v.rotateRight n) d r o

/-- Rule R154: rotate left through Carry. -/
def execRcl (d r : Reg) (o : Opt) (s : State) : Out :=
  rotateCarry s (s.lenOf (.rcl d r o)) (fun x n => x.rotateLeft n) d r o

/-- Rule R155: rotate right through Carry. -/
def execRcr (d r : Reg) (o : Opt) (s : State) : Out :=
  rotateCarry s (s.lenOf (.rcr d r o)) (fun x n => x.rotateRight n) d r o

/-- Rule R156: arithmetic shift right. -/
def execAsr (d r : Reg) (o : Opt) (s : State) : Out :=
  shift s (s.lenOf (.asr d r o)) (fun v n => v.sshiftRight n) d r o

/-- Rule R157: logical and. -/
def execAnd (d r : Reg) (o : Opt) (s : State) : Out :=
  .next (bitwise s (s.lenOf (.and d r o)) d (s.reg r &&& s.opt o) .drawn)

/-- Rule R158: logical or. -/
def execOrr (d r : Reg) (o : Opt) (s : State) : Out :=
  .next (bitwise s (s.lenOf (.orr d r o)) d (s.reg r ||| s.opt o) .drawn)

/-- Rule R159: exclusive or. -/
def execEor (d r : Reg) (o : Opt) (s : State) : Out :=
  .next (bitwise s (s.lenOf (.eor d r o)) d (s.reg r ^^^ s.opt o) .drawn)

/-- The number of consecutive 0 bits from bit 31 down, 32 when there is no 1 (rule R161). -/
def leadingZeros (v : DWord) : Nat := (List.range 32).findIdx (fun k => v.getLsbD (31 - k))

/-- The number of consecutive 0 bits from bit 0 up, 32 when there is no 1 (rule R162). -/
def trailingZeros (v : DWord) : Nat := (List.range 32).findIdx (fun k => v.getLsbD k)

/-- The four bytes in the opposite order (rule R164). -/
def reverseBytes (v : DWord) : DWord :=
  v.extractLsb' 0 8 ++ v.extractLsb' 8 8 ++ v.extractLsb' 16 8 ++ v.extractLsb' 24 8

/-- The two Words exchanged (rule R165). -/
def exchangeWords (v : DWord) : DWord := v.extractLsb' 0 16 ++ v.extractLsb' 16 16

/-- Rule R160: logical not. -/
def execNot (d r : Reg) (s : State) : Out :=
  .next (bitwise s (s.lenOf (.not d r)) d (~~~(s.reg r)) .drawn)

/-- Rule R161: count leading zeros. -/
def execClz (d r : Reg) (s : State) : Out :=
  .next (bitwise s (s.lenOf (.clz d r)) d (BitVec.ofNat 32 (leadingZeros (s.reg r))) .drawn)

/-- Rule R162: count trailing zeros. -/
def execCtz (d r : Reg) (s : State) : Out :=
  .next (bitwise s (s.lenOf (.ctz d r)) d (BitVec.ofNat 32 (trailingZeros (s.reg r))) .drawn)

/-- Rule R163: reverse all bits. -/
def execRbit (d r : Reg) (s : State) : Out :=
  .next (bitwise s (s.lenOf (.rbit d r)) d ((s.reg r).reverse) .drawn)

/-- Rule R164: reverse the four bytes. -/
def execRevb (d r : Reg) (s : State) : Out :=
  .next (bitwise s (s.lenOf (.revb d r)) d (reverseBytes (s.reg r)) .drawn)

/-- Rule R165: exchange the two Words. -/
def execRevv (d r : Reg) (s : State) : Out :=
  .next (bitwise s (s.lenOf (.revv d r)) d (exchangeWords (s.reg r)) .drawn)

end Sys2Proof.Machine
end

