-- ==== Sys2Proof/Machine/Branch.lean ====
section
/-! DEFINITION. Conditional branches, calls and jumps (`46_branch.md`, rules R205 to R227). -/

namespace Sys2Proof.Machine

/-- Rules R220, R221: branch if the condition holds. -/
def branchIf (c : Cond) (off : BrOff) (len : Nat) (s : State) : Out :=
  .next { s with pc := if s.sr.holds c then s.target off else s.nextPc len }

/-- Rules R222, R223: if the condition holds push the next instruction's address and go to the target. -/
def callIf (c : Cond) (off : BrOff) (len : Nat) (s : State) : Out :=
  if s.sr.holds c then finish do
    let s1 ← push s (s.nextPc len)
    .ok { s1 with pc := s.target off }
  else .next (s.advance len)

/-- Rules R224, R225: if the condition holds put the next instruction's address in LR and go to the target. -/
def linkIf (c : Cond) (off : BrOff) (len : Nat) (s : State) : Out :=
  if s.sr.holds c then .next { s with lr := s.nextPc len, pc := s.target off }
  else .next (s.advance len)

/-- `BEQ` (rules R221, R205). -/
def execBeq (off : BrOff) (s : State) : Out := branchIf .eq off (s.lenOf (.beq off)) s

/-- `BNE` (rules R221, R206). -/
def execBne (off : BrOff) (s : State) : Out := branchIf .ne off (s.lenOf (.bne off)) s

/-- `BCS` (rules R221, R207). -/
def execBcs (off : BrOff) (s : State) : Out := branchIf .cs off (s.lenOf (.bcs off)) s

/-- `BCC` (rules R221, R208). -/
def execBcc (off : BrOff) (s : State) : Out := branchIf .cc off (s.lenOf (.bcc off)) s

/-- `BMI` (rules R221, R209). -/
def execBmi (off : BrOff) (s : State) : Out := branchIf .mi off (s.lenOf (.bmi off)) s

/-- `BPL` (rules R221, R210). -/
def execBpl (off : BrOff) (s : State) : Out := branchIf .pl off (s.lenOf (.bpl off)) s

/-- `BVS` (rules R221, R211). -/
def execBvs (off : BrOff) (s : State) : Out := branchIf .vs off (s.lenOf (.bvs off)) s

/-- `BVC` (rules R221, R212). -/
def execBvc (off : BrOff) (s : State) : Out := branchIf .vc off (s.lenOf (.bvc off)) s

/-- `BHI` (rules R221, R213). -/
def execBhi (off : BrOff) (s : State) : Out := branchIf .hi off (s.lenOf (.bhi off)) s

/-- `BLS` (rules R221, R214). -/
def execBls (off : BrOff) (s : State) : Out := branchIf .ls off (s.lenOf (.bls off)) s

/-- `BGE` (rules R221, R215). -/
def execBge (off : BrOff) (s : State) : Out := branchIf .ge off (s.lenOf (.bge off)) s

/-- `BLT` (rules R221, R216). -/
def execBlt (off : BrOff) (s : State) : Out := branchIf .lt off (s.lenOf (.blt off)) s

/-- `BGT` (rules R221, R217). -/
def execBgt (off : BrOff) (s : State) : Out := branchIf .gt off (s.lenOf (.bgt off)) s

/-- `BLE` (rules R221, R218). -/
def execBle (off : BrOff) (s : State) : Out := branchIf .le off (s.lenOf (.ble off)) s

/-- `BRA` (rule R220). -/
def execBra (off : BrOff) (s : State) : Out := branchIf .always off (s.lenOf (.bra off)) s

/-- `JEQ` (rules R223, R205). -/
def execJeq (off : BrOff) (s : State) : Out := callIf .eq off (s.lenOf (.jeq off)) s

/-- `JNE` (rules R223, R206). -/
def execJne (off : BrOff) (s : State) : Out := callIf .ne off (s.lenOf (.jne off)) s

/-- `JCS` (rules R223, R207). -/
def execJcs (off : BrOff) (s : State) : Out := callIf .cs off (s.lenOf (.jcs off)) s

/-- `JCC` (rules R223, R208). -/
def execJcc (off : BrOff) (s : State) : Out := callIf .cc off (s.lenOf (.jcc off)) s

/-- `JMI` (rules R223, R209). -/
def execJmi (off : BrOff) (s : State) : Out := callIf .mi off (s.lenOf (.jmi off)) s

/-- `JPL` (rules R223, R210). -/
def execJpl (off : BrOff) (s : State) : Out := callIf .pl off (s.lenOf (.jpl off)) s

/-- `JVS` (rules R223, R211). -/
def execJvs (off : BrOff) (s : State) : Out := callIf .vs off (s.lenOf (.jvs off)) s

/-- `JVC` (rules R223, R212). -/
def execJvc (off : BrOff) (s : State) : Out := callIf .vc off (s.lenOf (.jvc off)) s

/-- `JHI` (rules R223, R213). -/
def execJhi (off : BrOff) (s : State) : Out := callIf .hi off (s.lenOf (.jhi off)) s

/-- `JLS` (rules R223, R214). -/
def execJls (off : BrOff) (s : State) : Out := callIf .ls off (s.lenOf (.jls off)) s

/-- `JGE` (rules R223, R215). -/
def execJge (off : BrOff) (s : State) : Out := callIf .ge off (s.lenOf (.jge off)) s

/-- `JLT` (rules R223, R216). -/
def execJlt (off : BrOff) (s : State) : Out := callIf .lt off (s.lenOf (.jlt off)) s

/-- `JGT` (rules R223, R217). -/
def execJgt (off : BrOff) (s : State) : Out := callIf .gt off (s.lenOf (.jgt off)) s

/-- `JLE` (rules R223, R218). -/
def execJle (off : BrOff) (s : State) : Out := callIf .le off (s.lenOf (.jle off)) s

/-- `JSR` (rule R222). -/
def execJsr (off : BrOff) (s : State) : Out := callIf .always off (s.lenOf (.jsr off)) s

/-- `LEQ` (rules R225, R205). -/
def execLeq (off : BrOff) (s : State) : Out := linkIf .eq off (s.lenOf (.leq off)) s

/-- `LNE` (rules R225, R206). -/
def execLne (off : BrOff) (s : State) : Out := linkIf .ne off (s.lenOf (.lne off)) s

/-- `LCS` (rules R225, R207). -/
def execLcs (off : BrOff) (s : State) : Out := linkIf .cs off (s.lenOf (.lcs off)) s

/-- `LCC` (rules R225, R208). -/
def execLcc (off : BrOff) (s : State) : Out := linkIf .cc off (s.lenOf (.lcc off)) s

/-- `LMI` (rules R225, R209). -/
def execLmi (off : BrOff) (s : State) : Out := linkIf .mi off (s.lenOf (.lmi off)) s

/-- `LPL` (rules R225, R210). -/
def execLpl (off : BrOff) (s : State) : Out := linkIf .pl off (s.lenOf (.lpl off)) s

/-- `LVS` (rules R225, R211). -/
def execLvs (off : BrOff) (s : State) : Out := linkIf .vs off (s.lenOf (.lvs off)) s

/-- `LVC` (rules R225, R212). -/
def execLvc (off : BrOff) (s : State) : Out := linkIf .vc off (s.lenOf (.lvc off)) s

/-- `LHI` (rules R225, R213). -/
def execLhi (off : BrOff) (s : State) : Out := linkIf .hi off (s.lenOf (.lhi off)) s

/-- `LLS` (rules R225, R214). -/
def execLls (off : BrOff) (s : State) : Out := linkIf .ls off (s.lenOf (.lls off)) s

/-- `LGE` (rules R225, R215). -/
def execLge (off : BrOff) (s : State) : Out := linkIf .ge off (s.lenOf (.lge off)) s

/-- `LLT` (rules R225, R216). -/
def execLlt (off : BrOff) (s : State) : Out := linkIf .lt off (s.lenOf (.llt off)) s

/-- `LGT` (rules R225, R217). -/
def execLgt (off : BrOff) (s : State) : Out := linkIf .gt off (s.lenOf (.lgt off)) s

/-- `LLE` (rules R225, R218). -/
def execLle (off : BrOff) (s : State) : Out := linkIf .le off (s.lenOf (.lle off)) s

/-- `LNK` (rule R224). -/
def execLnk (off : BrOff) (s : State) : Out := linkIf .always off (s.lenOf (.lnk off)) s

/-- Rule R226: jump to an absolute address, to one loaded from memory, or to one in a register. -/
def execJmp (t : JmpTarget) (s : State) : Out :=
  match t with
  | .absolute addr => .next { s with pc := addr }
  | .indirect addr => finish do
    let ea ← memRead s .dword addr
    .ok { s with pc := ea }
  | .reg d => .next { s with pc := s.reg d }

end Sys2Proof.Machine
end

