-- ==== Sys2Proof/Machine/Compare.lean ====
section
/-! DEFINITION. The comparers (`47_compare.md`, rules R230 to R235). -/

namespace Sys2Proof.Machine

/-- Rule R232: the flags of `Rs - opt`. -/
def execCmp (r : Reg) (o : Opt) (s : State) : Out :=
  .next ((s.compareFlags (s.reg r - s.opt o) (subFlags (s.reg r) (s.opt o) true)).advance (s.lenOf (.cmp r o)))

/-- Rule R233: the flags of `Rs + opt`. -/
def execCmn (r : Reg) (o : Opt) (s : State) : Out :=
  .next ((s.compareFlags (s.reg r + s.opt o) (addFlags (s.reg r) (s.opt o) false)).advance (s.lenOf (.cmn r o)))

/-- A comparer whose C and V are arbitrary bits (rules R234, R235). -/
def testBits (s : State) (v : DWord) (len : Nat) : Out :=
  let (c, s1) := s.drawBit
  let (o, s2) := s1.drawBit
  .next ((s2.compareFlags v { c := c, v := o }).advance len)

/-- Rule R234: N and Z of `Rs & opt`. -/
def execTst (r : Reg) (o : Opt) (s : State) : Out :=
  testBits s (s.reg r &&& s.opt o) (s.lenOf (.tst r o))

/-- Rule R235: N and Z of `Rs ^ opt`. -/
def execTeq (r : Reg) (o : Opt) (s : State) : Out :=
  testBits s (s.reg r ^^^ s.opt o) (s.lenOf (.teq r o))

end Sys2Proof.Machine
end

