-- ==== Sys2Proof/Machine/Conversion.lean ====
section
/-! DEFINITION. The conversion instructions (`45_conversion.md`, rules R190 to R199). -/

namespace Sys2Proof.Machine

/-- `ToSByte(v)`: the sign bit and the low 7 bits (rule R196). -/
def toSByte (v : DWord) : Byte := v.extractLsb' 31 1 ++ v.extractLsb' 0 7

/-- `ToSWord(v)`: the sign bit and the low 15 bits (rule R198). -/
def toSWord (v : DWord) : Word := v.extractLsb' 31 1 ++ v.extractLsb' 0 15

/-- Decimal digit `i` of a packed BCD value: the nibble in bits `4i+3:4i` (rule R194). -/
def bcdDigit (v : DWord) (i : Nat) : Nat := (v.extractLsb' (4 * i) 4).toNat

/-- Are all eight nibbles decimal digits (rule R194)? -/
def isBcd (v : DWord) : Bool := (List.range 8).all (fun i => bcdDigit v i ≤ 9)

/-- The number of eight packed digits (rule R194). -/
def bcdValue (v : DWord) : Nat := ((List.range 8).map (fun i => bcdDigit v i * 10 ^ i)).sum

/-- The eight packed digits of a number (rule R199). -/
def toBcd (n : Nat) : DWord :=
  BitVec.ofNat 32 ((List.range 8).map (fun i => (n / 10 ^ i % 10) * 16 ^ i)).sum

/-- A conversion of Rs into Rd, of class FA with C and V arbitrary (the template of `45_conversion.md`). -/
def convert (s : State) (len : Nat) (d : Reg) (v : DWord) : Out :=
  .next (((s.setReg d v).aluFlags v .drawn).advance len)

/-- Rule R190: convert from a Byte, zero-extended. -/
def execCfb (d r : Reg) (s : State) : Out :=
  convert s (s.lenOf (.cfb d r)) d (((s.reg r).extractLsb' 0 8).setWidth 32)

/-- Rule R191: convert from a Byte, sign-extended. -/
def execCfbs (d r : Reg) (s : State) : Out :=
  convert s (s.lenOf (.cfbs d r)) d (((s.reg r).extractLsb' 0 8).signExtend 32)

/-- Rule R192: convert from a Word, zero-extended. -/
def execCfw (d r : Reg) (s : State) : Out :=
  convert s (s.lenOf (.cfw d r)) d (((s.reg r).extractLsb' 0 16).setWidth 32)

/-- Rule R193: convert from a Word, sign-extended. -/
def execCfws (d r : Reg) (s : State) : Out :=
  convert s (s.lenOf (.cfws d r)) d (((s.reg r).extractLsb' 0 16).signExtend 32)

/-- Rule R194: convert from packed BCD; a nibble above 9 is `fault InvalidBcd` (decision D17). -/
def execCfbcd (d r : Reg) (s : State) : Out := finish do
  let (v, s1) ← if isBcd (s.reg r) then .ok (BitVec.ofNat 32 (bcdValue (s.reg r)), s)
    else s.unstatedResult .invalidBcd
  .ok (((s1.setReg d v).aluFlags v .drawn).advance (s.lenOf (.cfbcd d r)))

/-- Rule R195: convert to a Byte: the lowest 8 bits. -/
def execCtb (d r : Reg) (s : State) : Out :=
  convert s (s.lenOf (.ctb d r)) d (((s.reg r).extractLsb' 0 8).setWidth 32)

/-- Rule R196: convert to a signed Byte. -/
def execCtbs (d r : Reg) (s : State) : Out :=
  convert s (s.lenOf (.ctbs d r)) d ((toSByte (s.reg r)).setWidth 32)

/-- Rule R197: convert to a Word: the lowest 16 bits. -/
def execCtw (d r : Reg) (s : State) : Out :=
  convert s (s.lenOf (.ctw d r)) d (((s.reg r).extractLsb' 0 16).setWidth 32)

/-- Rule R198: convert to a signed Word. -/
def execCtws (d r : Reg) (s : State) : Out :=
  convert s (s.lenOf (.ctws d r)) d ((toSWord (s.reg r)).setWidth 32)

/-- Rule R199: convert to packed BCD; a value above 99,999,999 is `fault BcdRange` (decision D17). -/
def execCtbcd (d r : Reg) (s : State) : Out := finish do
  let (v, s1) ← if (s.reg r).toNat ≤ 99999999 then .ok (toBcd (s.reg r).toNat, s)
    else s.unstatedResult .bcdRange
  .ok (((s1.setReg d v).aluFlags v .drawn).advance (s.lenOf (.ctbcd d r)))

end Sys2Proof.Machine
end

