-- ==== Sys2Proof/Machine/Implied.lean ====
section
/-! DEFINITION. The implied instructions (`40_implied.md`, rules R80 to R94). -/

namespace Sys2Proof.Machine

/-- Rule R80: no operation. -/
def execNop (s : State) : Out :=
  .next (s.advance (s.lenOf .nop))

/-- Rule R81: no operation, its second byte ignored. -/
def execAfh (s : State) : Out :=
  .next (s.advance (s.lenOf .afh))

/-- Rule R82: halt for good; `pc` keeps the address of the instruction. -/
def execHalt (s : State) : Out :=
  .next { s with halted := true }

/-- Rule R83: wait for an interrupt; the return address is the next instruction. -/
def execWait (s : State) : Out :=
  .next ({ s with waiting := true }.advance (s.lenOf .wait))

/-- The state with other fields of SR and `pc` past an instruction of length `len`. -/
def State.withSr (s : State) (len : Nat) (r : Sr) : State := { s with sr := r }.advance len

/-- Rule R84: set I. -/
def execEi (s : State) : Out :=
  .next (s.withSr (s.lenOf .ei) { s.sr with i := true })

/-- Rule R85: clear I. -/
def execDi (s : State) : Out :=
  .next (s.withSr (s.lenOf .di) { s.sr with i := false })

/-- Rule R86: set C. -/
def execSec (s : State) : Out :=
  .next (s.withSr (s.lenOf .sec) { s.sr with c := true })

/-- Rule R87: clear C. -/
def execClc (s : State) : Out :=
  .next (s.withSr (s.lenOf .clc) { s.sr with c := false })

/-- Rule R88: negate C. -/
def execNec (s : State) : Out :=
  .next (s.withSr (s.lenOf .nec) { s.sr with c := !s.sr.c })

/-- Rule R89: set V. -/
def execSev (s : State) : Out :=
  .next (s.withSr (s.lenOf .sev) { s.sr with v := true })

/-- Rule R90: clear V. -/
def execClv (s : State) : Out :=
  .next (s.withSr (s.lenOf .clv) { s.sr with v := false })

/-- Rule R91: negate V. -/
def execNev (s : State) : Out :=
  .next (s.withSr (s.lenOf .nev) { s.sr with v := !s.sr.v })

/-- Rule R92: return from a subroutine through the stack. -/
def execRts (s : State) : Out := finish do
  let (v, s1) ← pop s
  .ok { s1 with pc := v }

/-- Rule R93: return from a subroutine through the link register. -/
def execRtl (s : State) : Out :=
  .next { s with pc := s.lr }

/-- Rule R94: return from an interrupt. -/
def execRti (s : State) : Out :=
  finish (returnFromTrap s)

end Sys2Proof.Machine
end

