-- ==== Sys2Proof/Machine/Interrupt.lean ====
section
/-! DEFINITION. The interrupt instructions (`48_interrupt_instructions.md`, rules R240 to R243). -/

namespace Sys2Proof.Machine

/-- Rule R240: the Abort trap, with the return address `PC+4` of the source (rule R50). The immediate is not used by the
hardware. -/
def execBrk (_v : Word) (s : State) : Out :=
  finish (takeTrap s .abort (s.nextPc 4))

/-- Rule R241: the Debug trap. -/
def execDbg (_v : Word) (s : State) : Out :=
  finish (takeTrap s .debug (s.nextPc 4))

/-- Rule R242: the Supervisor Call trap; it changes no mode (rule R274). -/
def execSvc (_v : Word) (s : State) : Out :=
  finish (takeTrap s .svc (s.nextPc 4))

/-- Rule R243: a software interrupt, entered as a subroutine, with the return address `PC+2` of the source (rule
R50). -/
def execSwi (n : BitVec 5) (s : State) : Out :=
  finish (takeSwi s n.toFin (s.nextPc 2))

end Sys2Proof.Machine
end

