-- ==== Sys2Proof/Machine/Misc.lean ====
section
/-! DEFINITION. RAND and SEED (`49_misc.md`, rules R250, R251). -/

namespace Sys2Proof.Machine

/-- Rule R250: Rd becomes an arbitrary value and so does the seed; the value of Rs constrains neither. -/
def execRand (d r : Reg) (s : State) : Out :=
  let (v, s1) := s.drawDWord
  let (seed, s2) := s1.drawDWord
  .next ({ (s2.setReg d v) with seed := seed }.advance (s.lenOf (.rand d r)))

/-- Rule R251: the seed becomes the value of Rn. -/
def execSeed (r : Reg) (s : State) : Out :=
  .next ({ s with seed := s.reg r }.advance (s.lenOf (.seed r)))

end Sys2Proof.Machine
end

