-- ==== Sys2Proof/Machine/Storage.lean ====
section
/-! DEFINITION. The storage instructions (`42_storage.md`, rules R120 to R146). -/

namespace Sys2Proof.Machine

/-- A load (rules R137 to R141): `Pre; R[d] <- MemRead(ea) extended; Post`. -/
def load (s : State) (len : Nat) (w : Width) (extend : DWord → DWord) (d : Reg) (m : Mode) : Out := finish do
  let a ← address s d m
  let v ← memRead a.st w a.ea
  .ok ((a.intoReg a.st d (extend v)).advance len)

/-- A store (rules R142 to R146): `Pre; MemWrite(ea, narrowed R[d]); Post`. -/
def storeReg (s : State) (len : Nat) (w : Width) (narrow : DWord → DWord) (d : Reg) (m : Mode) : Out := finish do
  let a ← address s d m
  let (v, s1) := a.fromReg d
  let s2 ← memWrite s1 w a.ea (narrow v)
  .ok ((a.afterPost s2).advance len)

/-- Rule R135: exchange a Double Word of memory and a register. -/
def execSwpMem (d : Reg) (m : Mode) (s : State) : Out := finish do
  let a ← address s d m
  let t ← memRead a.st .dword a.ea
  let (v, s1) := a.fromReg d
  let s2 ← memWrite s1 .dword a.ea v
  .ok ((a.intoReg s2 d t).advance (s.lenOf (.swpMem d m)))

/-- Rule R136: the effective address itself; no access is made at it. -/
def execAdr (d : Reg) (m : Mode) (s : State) : Out := finish do
  let a ← address s d m
  .ok ((a.intoReg a.st d a.ea).advance (s.lenOf (.adr d m)))

/-- Rule R137: load a Double Word. -/
def execLdr (d : Reg) (m : Mode) (s : State) : Out :=
  load s (s.lenOf (.ldr d m)) .dword id d m

/-- Rule R138: load a Byte, zero-extended. -/
def execLdrb (d : Reg) (m : Mode) (s : State) : Out :=
  load s (s.lenOf (.ldrb d m)) .byte id d m

/-- Rule R139: load a Word, zero-extended. -/
def execLdrw (d : Reg) (m : Mode) (s : State) : Out :=
  load s (s.lenOf (.ldrw d m)) .word id d m

/-- Rule R140: load a Byte, sign-extended. -/
def execLdrbs (d : Reg) (m : Mode) (s : State) : Out :=
  load s (s.lenOf (.ldrbs d m)) .byte (fun v => (v.setWidth 8).signExtend 32) d m

/-- Rule R141: load a Word, sign-extended. -/
def execLdrws (d : Reg) (m : Mode) (s : State) : Out :=
  load s (s.lenOf (.ldrws d m)) .word (fun v => (v.setWidth 16).signExtend 32) d m

/-- Rule R142: store a Double Word. -/
def execStr (d : Reg) (m : Mode) (s : State) : Out :=
  storeReg s (s.lenOf (.str d m)) .dword id d m

/-- Rule R143: store the low Byte. -/
def execStrb (d : Reg) (m : Mode) (s : State) : Out :=
  storeReg s (s.lenOf (.strb d m)) .byte id d m

/-- Rule R144: store the low Word. -/
def execStrw (d : Reg) (m : Mode) (s : State) : Out :=
  storeReg s (s.lenOf (.strw d m)) .word id d m

/-- Rule R145: store the value as a signed Byte. -/
def execStrbs (d : Reg) (m : Mode) (s : State) : Out :=
  storeReg s (s.lenOf (.strbs d m)) .byte (fun v => (toSByte v).setWidth 32) d m

/-- Rule R146: store the value as a signed Word. -/
def execStrws (d : Reg) (m : Mode) (s : State) : Out :=
  storeReg s (s.lenOf (.strws d m)) .word (fun v => (toSWord v).setWidth 32) d m

end Sys2Proof.Machine
end

