-- ==== Sys2Proof/Machine/Transfer.lean ====
section
/-! DEFINITION. The transfer instructions (`41_transfer.md`, rules R100 to R114). -/

namespace Sys2Proof.Machine

/-- Rule R101: pop one register, which is written after SP is incremented. -/
def execPop (r : AnyReg) (s : State) : Out := finish do
  let (v, s1) ← pop s
  .ok (s1.writeAny (s.lenOf (.pop r)) r v)

/-- Pop a list of registers, the first of it first (rule R102). -/
def popRegs : List Reg → State → Except Fault State
  | [], s => .ok s
  | k :: ks, s => do
    let (v, s1) ← pop s
    popRegs ks (s1.setReg k v)

/-- Rule R102: pop `Rb` first, `Ra` last. -/
def execPopRange (a b : Reg) (s : State) : Out := finish do
  let s1 ← popRegs (regRange a b).reverse s
  .ok (s1.advance (s.lenOf (.popRange a b)))

/-- Rule R103: push one register, which is read before SP is decremented. -/
def execPush (r : AnyReg) (s : State) : Out := finish do
  let s1 ← push s (s.readAny r)
  .ok (s1.advance (s.lenOf (.push r)))

/-- Push a list of registers, the first of it first (rule R104). -/
def pushRegs : List Reg → State → Except Fault State
  | [], s => .ok s
  | k :: ks, s => do
    let s1 ← push s (s.reg k)
    pushRegs ks s1

/-- Rule R104: push `Ra` first, `Rb` last. -/
def execPushRange (a b : Reg) (s : State) : Out := finish do
  let s1 ← pushRegs (regRange a b) s
  .ok (s1.advance (s.lenOf (.pushRange a b)))

/-- Store zero into a list of registers (rule R105). -/
def clearRegs : List Reg → State → State
  | [], s => s
  | k :: ks, s => clearRegs ks (s.setReg k 0)

/-- Rule R105: store zero into every register of the range. -/
def execClr (a b : Reg) (s : State) : Out :=
  .next ((clearRegs (regRange a b) s).advance (s.lenOf (.clr a b)))

/-- Rule R106. -/
def execMovReg (d r : Reg) (s : State) : Out :=
  .next ((s.setReg d (s.reg r)).advance (s.lenOf (.movReg d r)))

/-- Rule R107: the immediate is zero-extended. -/
def execMovImm16 (d : Reg) (v : Word) (s : State) : Out :=
  .next ((s.setReg d (v.setWidth 32)).advance (s.lenOf (.movImm16 d v)))

/-- Rule R108. -/
def execMovImm32 (d : Reg) (v : DWord) (s : State) : Out :=
  .next ((s.setReg d v).advance (s.lenOf (.movImm32 d v)))

/-- Rule R109: any of the 21 registers to any of them. -/
def execMovAny (x y : AnyReg) (s : State) : Out :=
  .next (s.writeAny (s.lenOf (.movAny x y)) x (s.readAny y))

/-- Rule R110: byte `n` of Rs, zero-extended; a selector above 3 is `fault SelectorRange` (decision D16). -/
def execMovb (d r : Reg) (o : Opt) (s : State) : Out := finish do
  let n := (s.opt o).toNat
  let (v, s1) ← if n > 3 then s.unstatedResult .selectorRange
    else .ok (((s.reg r).extractLsb' (8 * n) 8).setWidth 32, s)
  .ok ((s1.setReg d v).advance (s.lenOf (.movb d r o)))

/-- Rule R111: Word `n` of Rs, zero-extended; a selector above 1 is `fault SelectorRange` (decision D16). -/
def execMovw (d r : Reg) (o : Opt) (s : State) : Out := finish do
  let n := (s.opt o).toNat
  let (v, s1) ← if n > 1 then s.unstatedResult .selectorRange
    else .ok (((s.reg r).extractLsb' (16 * n) 16).setWidth 32, s)
  .ok ((s1.setReg d v).advance (s.lenOf (.movw d r o)))

/-- A Word in the high half over the low half of a value (rules R112, R113). -/
def withHighWord (hi : Word) (v : DWord) : DWord := hi ++ v.extractLsb' 0 16

/-- Rule R112: the low Word of Rs into the high Word of Rd. -/
def execMovtReg (d r : Reg) (s : State) : Out :=
  .next ((s.setReg d (withHighWord ((s.reg r).extractLsb' 0 16) (s.reg d))).advance (s.lenOf (.movtReg d r)))

/-- Rule R113: an immediate into the high Word of Rd. -/
def execMovtImm (d : Reg) (v : Word) (s : State) : Out :=
  .next ((s.setReg d (withHighWord v (s.reg d))).advance (s.lenOf (.movtImm d v)))

/-- Rule R114: exchange two registers. -/
def execSwpReg (d r : Reg) (s : State) : Out :=
  .next (((s.setReg d (s.reg r)).setReg r (s.reg d)).advance (s.lenOf (.swpReg d r)))

end Sys2Proof.Machine
end

