-- ==== Sys2Proof/Machine/Dispatch.lean ====
section
/-! DEFINITION. One arm per constructor of `Instr`: each is one direct call of the instruction's meaning. -/

namespace Sys2Proof.Machine

def exec (i : Instr) (s : State) : Host.Outcome State Fault Refusal :=
  match i with
  | .nop => Sys2Proof.Machine.execNop s
  | .afh => Sys2Proof.Machine.execAfh s
  | .halt => Sys2Proof.Machine.execHalt s
  | .wait => Sys2Proof.Machine.execWait s
  | .ei => Sys2Proof.Machine.execEi s
  | .di => Sys2Proof.Machine.execDi s
  | .sec => Sys2Proof.Machine.execSec s
  | .clc => Sys2Proof.Machine.execClc s
  | .nec => Sys2Proof.Machine.execNec s
  | .sev => Sys2Proof.Machine.execSev s
  | .clv => Sys2Proof.Machine.execClv s
  | .nev => Sys2Proof.Machine.execNev s
  | .rts => Sys2Proof.Machine.execRts s
  | .rtl => Sys2Proof.Machine.execRtl s
  | .rti => Sys2Proof.Machine.execRti s
  | .pop r => Sys2Proof.Machine.execPop r s
  | .popRange a b => Sys2Proof.Machine.execPopRange a b s
  | .push r => Sys2Proof.Machine.execPush r s
  | .pushRange a b => Sys2Proof.Machine.execPushRange a b s
  | .clr a b => Sys2Proof.Machine.execClr a b s
  | .movReg d r => Sys2Proof.Machine.execMovReg d r s
  | .movImm16 d v => Sys2Proof.Machine.execMovImm16 d v s
  | .movImm32 d v => Sys2Proof.Machine.execMovImm32 d v s
  | .movAny x y => Sys2Proof.Machine.execMovAny x y s
  | .movb d r o => Sys2Proof.Machine.execMovb d r o s
  | .movw d r o => Sys2Proof.Machine.execMovw d r o s
  | .movtReg d r => Sys2Proof.Machine.execMovtReg d r s
  | .movtImm d v => Sys2Proof.Machine.execMovtImm d v s
  | .swpReg d r => Sys2Proof.Machine.execSwpReg d r s
  | .ldr d m => Sys2Proof.Machine.execLdr d m s
  | .ldrb d m => Sys2Proof.Machine.execLdrb d m s
  | .ldrw d m => Sys2Proof.Machine.execLdrw d m s
  | .ldrbs d m => Sys2Proof.Machine.execLdrbs d m s
  | .ldrws d m => Sys2Proof.Machine.execLdrws d m s
  | .str d m => Sys2Proof.Machine.execStr d m s
  | .strb d m => Sys2Proof.Machine.execStrb d m s
  | .strw d m => Sys2Proof.Machine.execStrw d m s
  | .strbs d m => Sys2Proof.Machine.execStrbs d m s
  | .strws d m => Sys2Proof.Machine.execStrws d m s
  | .adr d m => Sys2Proof.Machine.execAdr d m s
  | .swpMem d m => Sys2Proof.Machine.execSwpMem d m s
  | .jmp t => Sys2Proof.Machine.execJmp t s
  | .lsl d r o => Sys2Proof.Machine.execLsl d r o s
  | .lsr d r o => Sys2Proof.Machine.execLsr d r o s
  | .rol d r o => Sys2Proof.Machine.execRol d r o s
  | .ror d r o => Sys2Proof.Machine.execRor d r o s
  | .rcl d r o => Sys2Proof.Machine.execRcl d r o s
  | .rcr d r o => Sys2Proof.Machine.execRcr d r o s
  | .asr d r o => Sys2Proof.Machine.execAsr d r o s
  | .and d r o => Sys2Proof.Machine.execAnd d r o s
  | .orr d r o => Sys2Proof.Machine.execOrr d r o s
  | .eor d r o => Sys2Proof.Machine.execEor d r o s
  | .not d r => Sys2Proof.Machine.execNot d r s
  | .clz d r => Sys2Proof.Machine.execClz d r s
  | .ctz d r => Sys2Proof.Machine.execCtz d r s
  | .rbit d r => Sys2Proof.Machine.execRbit d r s
  | .revb d r => Sys2Proof.Machine.execRevb d r s
  | .revv d r => Sys2Proof.Machine.execRevv d r s
  | .add d r o => Sys2Proof.Machine.execAdd d r o s
  | .adc d r o => Sys2Proof.Machine.execAdc d r o s
  | .sub d r o => Sys2Proof.Machine.execSub d r o s
  | .sbc d r o => Sys2Proof.Machine.execSbc d r o s
  | .rsb d r o => Sys2Proof.Machine.execRsb d r o s
  | .rsc d r o => Sys2Proof.Machine.execRsc d r o s
  | .div d r o => Sys2Proof.Machine.execDiv d r o s
  | .divs d r o => Sys2Proof.Machine.execDivs d r o s
  | .rem d r o => Sys2Proof.Machine.execRem d r o s
  | .rems d r o => Sys2Proof.Machine.execRems d r o s
  | .mul d r o => Sys2Proof.Machine.execMul d r o s
  | .muls d r o => Sys2Proof.Machine.execMuls d r o s
  | .abs d r => Sys2Proof.Machine.execAbs d r s
  | .neg d r => Sys2Proof.Machine.execNeg d r s
  | .inc d k => Sys2Proof.Machine.execInc d k s
  | .dec d k => Sys2Proof.Machine.execDec d k s
  | .cfb d r => Sys2Proof.Machine.execCfb d r s
  | .cfbs d r => Sys2Proof.Machine.execCfbs d r s
  | .cfw d r => Sys2Proof.Machine.execCfw d r s
  | .cfws d r => Sys2Proof.Machine.execCfws d r s
  | .cfbcd d r => Sys2Proof.Machine.execCfbcd d r s
  | .ctb d r => Sys2Proof.Machine.execCtb d r s
  | .ctbs d r => Sys2Proof.Machine.execCtbs d r s
  | .ctw d r => Sys2Proof.Machine.execCtw d r s
  | .ctws d r => Sys2Proof.Machine.execCtws d r s
  | .ctbcd d r => Sys2Proof.Machine.execCtbcd d r s
  | .beq off => Sys2Proof.Machine.execBeq off s
  | .bne off => Sys2Proof.Machine.execBne off s
  | .bcs off => Sys2Proof.Machine.execBcs off s
  | .bcc off => Sys2Proof.Machine.execBcc off s
  | .bmi off => Sys2Proof.Machine.execBmi off s
  | .bpl off => Sys2Proof.Machine.execBpl off s
  | .bvs off => Sys2Proof.Machine.execBvs off s
  | .bvc off => Sys2Proof.Machine.execBvc off s
  | .bhi off => Sys2Proof.Machine.execBhi off s
  | .bls off => Sys2Proof.Machine.execBls off s
  | .bge off => Sys2Proof.Machine.execBge off s
  | .blt off => Sys2Proof.Machine.execBlt off s
  | .bgt off => Sys2Proof.Machine.execBgt off s
  | .ble off => Sys2Proof.Machine.execBle off s
  | .bra off => Sys2Proof.Machine.execBra off s
  | .jeq off => Sys2Proof.Machine.execJeq off s
  | .jne off => Sys2Proof.Machine.execJne off s
  | .jcs off => Sys2Proof.Machine.execJcs off s
  | .jcc off => Sys2Proof.Machine.execJcc off s
  | .jmi off => Sys2Proof.Machine.execJmi off s
  | .jpl off => Sys2Proof.Machine.execJpl off s
  | .jvs off => Sys2Proof.Machine.execJvs off s
  | .jvc off => Sys2Proof.Machine.execJvc off s
  | .jhi off => Sys2Proof.Machine.execJhi off s
  | .jls off => Sys2Proof.Machine.execJls off s
  | .jge off => Sys2Proof.Machine.execJge off s
  | .jlt off => Sys2Proof.Machine.execJlt off s
  | .jgt off => Sys2Proof.Machine.execJgt off s
  | .jle off => Sys2Proof.Machine.execJle off s
  | .jsr off => Sys2Proof.Machine.execJsr off s
  | .leq off => Sys2Proof.Machine.execLeq off s
  | .lne off => Sys2Proof.Machine.execLne off s
  | .lcs off => Sys2Proof.Machine.execLcs off s
  | .lcc off => Sys2Proof.Machine.execLcc off s
  | .lmi off => Sys2Proof.Machine.execLmi off s
  | .lpl off => Sys2Proof.Machine.execLpl off s
  | .lvs off => Sys2Proof.Machine.execLvs off s
  | .lvc off => Sys2Proof.Machine.execLvc off s
  | .lhi off => Sys2Proof.Machine.execLhi off s
  | .lls off => Sys2Proof.Machine.execLls off s
  | .lge off => Sys2Proof.Machine.execLge off s
  | .llt off => Sys2Proof.Machine.execLlt off s
  | .lgt off => Sys2Proof.Machine.execLgt off s
  | .lle off => Sys2Proof.Machine.execLle off s
  | .lnk off => Sys2Proof.Machine.execLnk off s
  | .cmp r o => Sys2Proof.Machine.execCmp r o s
  | .cmn r o => Sys2Proof.Machine.execCmn r o s
  | .tst r o => Sys2Proof.Machine.execTst r o s
  | .teq r o => Sys2Proof.Machine.execTeq r o s
  | .brk v => Sys2Proof.Machine.execBrk v s
  | .dbg v => Sys2Proof.Machine.execDbg v s
  | .svc v => Sys2Proof.Machine.execSvc v s
  | .swi n => Sys2Proof.Machine.execSwi n s
  | .rand d r => Sys2Proof.Machine.execRand d r s
  | .seed r => Sys2Proof.Machine.execSeed r s

end Sys2Proof.Machine
end

