-- ==== Sys2Proof/Machine/Fetch.lean ====
section
/-! DEFINITION. Fetching an instruction (`70_reset_and_hazards.md` rule R294 part (c), `30_encoding.md` rule R53), and
the placing of an opcode-table word where the next fetch reads. -/

namespace Sys2Proof.Machine

/-- One instruction byte: mapped, and under `SELF_MODIFY = refuse` not stored by this run (rules R31, R43, R294). -/
def fetchByte (s : State) (a : Nat) : Except Fault Byte :=
  if !s.cfg.isMapped a then .error (.unmapped a)
  else if s.cfg.selfModify == .refuse && s.written.contains a then .error .fetchOfWrittenByte
  else .ok (s.byte a)

/-- Read on from the bytes `bs` of the instruction at `pc`, byte by byte, until they call for no more, at most `fuel`
bytes. The bytes called for and the address after them may not pass the top of the address space (rule R14, decision
D32). -/
def fetchBytes (s : State) : Nat → List Byte → Except Fault (List Byte)
  | 0, bs => .ok bs
  | fuel + 1, bs =>
    let n := s.cfg.encoding.needed bs
    if n ≤ bs.length then .ok bs
    else if 2 ^ 32 ≤ s.pc.toNat + n then .error .pcWrap
    else do
      let b ← fetchByte s (s.pc.toNat + bs.length)
      fetchBytes s fuel (bs ++ [b])

/-- An instruction is at most 8 bytes (rule R50). -/
def maxInstrBytes : Nat := 8

/-- The instruction at `pc` (rule R294 part (c)). -/
def fetch (s : State) : Except Fault Instr := do
  if s.pc.getLsbD 0 then .error .oddPc
  else
    let bs ← fetchBytes s maxInstrBytes []
    match s.cfg.encoding.read s.cfg.byteOrder bs with
    | .ok (i, _) => .ok i
    | .error e => .error (.illegalEncoding e)

/-- The oracle with nothing pending at the next boundary. -/
def quietNext (o : IntOracle) : IntOracle :=
  match o.next, o.source with
  | [], .cycle [] => o
  | _, _ => { o with next := quietAnswer :: o.listed.tail }

/-- The state with some bytes in memory at `pc`, none of them counted as stored by the program, in which the next
step fetches: not halted, not waiting, nothing pending at the next boundary. -/
def placeAtPc (s : State) (bs : List Byte) : State :=
  let a := s.pc.toNat
  { s with
    mem := writeBytes s.mem a bs
    written := s.written.filter (fun k => k < a || a + bs.length ≤ k)
    halted := false
    waiting := false
    oracle := quietNext s.oracle }

end Sys2Proof.Machine
end

