-- ==== Sys2Proof/Machine/Step.lean ====
section
/-! DEFINITION. One step of the machine (`70_reset_and_hazards.md` rule R294). -/

namespace Sys2Proof.Machine

/-- One step (rule R294). A halted machine stays as it is (rules R82, R293). Otherwise the environment's answer at this
boundary is read; an interrupt to be taken is taken with the current `pc` as return address (rules R262, R265); else a
waiting machine keeps waiting; else the instruction at `pc` is fetched and executed. -/
def step (s : State) : Host.Outcome State Fault Refusal :=
  if s.halted then .next s
  else
    match s.pendingTrap with
    | some kind => finish (takeTrap s.afterAnswer kind s.pc)
    | none =>
      if s.waiting then .next s.afterAnswer
      else
        match fetch s.afterAnswer with
        | .error f => .fault f
        | .ok i => exec i s.afterAnswer

/-- The state with the instruction of an opcode-table word stored where `step` fetches next. -/
def State.withFetchWord (s : State) (nbits w : Nat) : State := placeAtPc s (tableBytes nbits w)

end Sys2Proof.Machine
end

