-- ==== Sys2Proof/Safety.lean ====
section
/-! DEFINITION. The terms that statements about the machine use: what an instruction leaves unchanged (`Frame`), the
flag classes of `10_state.md` rule R23, the address table of `42_storage.md` rule R132, the stack slots of a trap, the
invariant that every step keeps, and safe runs. Nothing here is used by the machine itself. -/

namespace Sys2Proof.Machine

/-! ## Frames -/

/-- A part of the state, other than the normal registers, `pc` and memory, that an instruction may change. `draws` is
the model's count of free values. -/
inductive Part where
  | sp | fp | lr | n | z | c | v | i | seed | halted | waiting | draws
  deriving DecidableEq, Repr

/-- An address outside every one of the stored runs of bytes (first address, number of bytes). -/
def Outside (stored : List (Nat × Nat)) (a : Nat) : Prop := ∀ p ∈ stored, a < p.1 ∨ p.1 + p.2 ≤ a

/-- From `s` to `t` nothing changes but the normal registers `regs`, the parts `parts`, the bytes (and the marks of
rule R37's set `Written`) inside `stored`, and `pc`. -/
structure Frame (regs : List Reg) (parts : List Part) (stored : List (Nat × Nat)) (s t : State) : Prop where
  regs : ∀ r, r ∉ regs → t.reg r = s.reg r
  sp : .sp ∉ parts → t.sp = s.sp
  fp : .fp ∉ parts → t.fp = s.fp
  lr : .lr ∉ parts → t.lr = s.lr
  n : .n ∉ parts → t.sr.n = s.sr.n
  z : .z ∉ parts → t.sr.z = s.sr.z
  c : .c ∉ parts → t.sr.c = s.sr.c
  v : .v ∉ parts → t.sr.v = s.sr.v
  i : .i ∉ parts → t.sr.i = s.sr.i
  seed : .seed ∉ parts → t.seed = s.seed
  halted : .halted ∉ parts → t.halted = s.halted
  waiting : .waiting ∉ parts → t.waiting = s.waiting
  draws : .draws ∉ parts → t.draws = s.draws
  byte : ∀ a, Outside stored a → t.byte a = s.byte a
  written : ∀ a, Outside stored a → (a ∈ t.written ↔ a ∈ s.written)
  cfg : t.cfg = s.cfg
  oracle : t.oracle = s.oracle

/-- The parts that a data-processing instruction may change: the four flags and the count of free values. -/
def aluParts : List Part := [.n, .z, .c, .v, .draws]

/-- `pc` moves past the instruction (rule R14). -/
def MovesOn (i : Instr) (s t : State) : Prop := t.pc = s.pc + BitVec.ofNat 32 (s.lenOf i)

/-- `pc` moves past the instruction (rule R14), which is `n` bytes under the encoding of section 3. -/
def MovesBy (n : Nat) (i : Instr) (s t : State) : Prop :=
  MovesOn i s t ∧ (s.cfg.encoding = .section3 → t.pc = s.pc + BitVec.ofNat 32 n)

/-- What rule R23 says of the flags of class FA after the result `v`; `cv` is the carry and overflow that the
instruction's rule gives under the setting `set`, `none` where they are arbitrary bits. -/
def FlagsFA (v : DWord) (cv : Option CV) (s t : State) : Prop :=
  match s.cfg.aluFlags with
  | .draw => True
  | .keep => t.sr = s.sr
  | .set => t.sr.n = v.getLsbD 31 ∧ (t.sr.z = true ↔ v = 0) ∧ ∀ f, cv = some f → t.sr.c = f.c ∧ t.sr.v = f.v

/-- A data-processing instruction completes: Rd is the result, the flags follow rule R23, `pc` moves past the
instruction, nothing else changes. -/
def DataResult (i : Instr) (s : State) (d : Reg) (v : DWord) (cv : Option CV) : Prop :=
  ∃ t, exec i s = .next t ∧ t.reg d = v ∧ FlagsFA v cv s t ∧ MovesOn i s t ∧ Frame [d] aluParts [] s t

/-- The bytes that encode an instruction in each byte order, which the decoder reads back. -/
def Encodes (i : Instr) (f : ByteOrder → List Byte) : Prop :=
  i.wellFormed = true → ∀ bo rest, encode bo i = f bo ∧ decode bo (f bo ++ rest) = .ok (i, rest)

/-! ## Flag classes (rule R23) -/

/-- The classes of rule R23; FX carries the fields the instruction's rule names. -/
inductive FlagClass where
  | f0
  | fx (fields : List Part)
  | fc
  | fa
  deriving DecidableEq, Repr

/-- The class of an instruction with this destination among the 21 registers. -/
def AnyReg.flagClass : AnyReg → FlagClass
  | .sr => .fx [.n, .z, .c, .v, .i]
  | .r _ | .pc | .sp | .fp | .lr => .f0

/-- The class of every instruction (rule R23). BRK, DBG and SVC are of class F0 and clear I (rule R264). -/
def flagClass : Instr → FlagClass
  | .sec | .clc | .nec => .fx [.c]
  | .sev | .clv | .nev => .fx [.v]
  | .ei | .di => .fx [.i]
  | .rti => .fx [.n, .z, .c, .v, .i]
  | .pop r => AnyReg.flagClass r
  | .movAny x _ => AnyReg.flagClass x
  | .nop | .afh | .halt | .wait | .rts | .rtl | .popRange _ _ | .push _ | .pushRange _ _ | .clr _ _ | .movReg _ _
  | .movImm16 _ _ | .movImm32 _ _ | .movb _ _ _ | .movw _ _ _ | .movtReg _ _ | .movtImm _ _ | .swpReg _ _
  | .ldr _ _ | .ldrb _ _ | .ldrw _ _ | .ldrbs _ _ | .ldrws _ _ | .str _ _ | .strb _ _ | .strw _ _ | .strbs _ _
  | .strws _ _ | .adr _ _ | .swpMem _ _ | .jmp _ | .beq _ | .bne _ | .bcs _ | .bcc _ | .bmi _ | .bpl _ | .bvs _
  | .bvc _ | .bhi _ | .bls _ | .bge _ | .blt _ | .bgt _ | .ble _ | .bra _ | .jeq _ | .jne _ | .jcs _ | .jcc _
  | .jmi _ | .jpl _ | .jvs _ | .jvc _ | .jhi _ | .jls _ | .jge _ | .jlt _ | .jgt _ | .jle _ | .jsr _ | .leq _
  | .lne _ | .lcs _ | .lcc _ | .lmi _ | .lpl _ | .lvs _ | .lvc _ | .lhi _ | .lls _ | .lge _ | .llt _ | .lgt _
  | .lle _ | .lnk _ | .brk _ | .dbg _ | .svc _ | .swi _ | .rand _ _ | .seed _ => .f0
  | .cmp _ _ | .cmn _ _ | .tst _ _ | .teq _ _ => .fc
  | .lsl _ _ _ | .lsr _ _ _ | .rol _ _ _ | .ror _ _ _ | .rcl _ _ _ | .rcr _ _ _ | .asr _ _ _ | .and _ _ _
  | .orr _ _ _ | .eor _ _ _ | .not _ _ | .clz _ _ | .ctz _ _ | .rbit _ _ | .revb _ _ | .revv _ _ | .add _ _ _
  | .adc _ _ _ | .sub _ _ _ | .sbc _ _ _ | .rsb _ _ _ | .rsc _ _ _ | .div _ _ _ | .divs _ _ _ | .rem _ _ _
  | .rems _ _ _ | .mul _ _ _ | .muls _ _ _ | .abs _ _ | .neg _ _ | .inc _ _ | .dec _ _ | .cfb _ _ | .cfbs _ _
  | .cfw _ _ | .cfws _ _ | .cfbcd _ _ | .ctb _ _ | .ctbs _ _ | .ctw _ _ | .ctws _ _ | .ctbcd _ _ => .fa

/-! ## Memory accesses and addresses -/

/-- An access of this width at this address passes the checks of rules R36 and R37. -/
def Accessible (s : State) (w : Width) (a : DWord) : Prop :=
  a.toNat + w.bytes ≤ 2 ^ 32 ∧ (s.cfg.dataAlign = .allow ∨ a.toNat % w.bytes = 0) ∧
  ∀ k, k < w.bytes → s.cfg.isMapped (a.toNat + k) = true

/-- The offset of an indexed mode as an integer (rules R127 to R130). -/
def offsetValue (s : State) : Offset → Int
  | .reg o => (s.reg o).toNat
  | .byte off => off.toInt
  | .word off => off.toInt

/-- The column `ea` of rule R132's table. -/
def effectiveAddress (s : State) : Mode → DWord
  | .rel16 off => BitVec.ofInt 32 (s.pc.toNat + off.toInt)
  | .rel32 off => BitVec.ofInt 32 (s.pc.toNat + off.toInt)
  | .absolute addr => addr
  | .indirect addr => s.datum .dword addr.toNat
  | .base b => s.reg b
  | .indexed .plain b off => BitVec.ofInt 32 ((s.reg b).toNat + offsetValue s off)
  | .indexed .pre b off => BitVec.ofInt 32 ((s.reg b).toNat + offsetValue s off)
  | .indexed .post b _ => s.reg b

/-- The columns `Pre` and `Post` of rule R132's table: the base register a mode writes back, and its value. -/
def writeBack (s : State) : Mode → Option (Reg × DWord)
  | .indexed .pre b off => some (b, BitVec.ofInt 32 ((s.reg b).toNat + offsetValue s off))
  | .indexed .post b off => some (b, BitVec.ofInt 32 ((s.reg b).toNat + offsetValue s off))
  | .indexed .plain _ _ => none
  | .rel16 _ | .rel32 _ | .absolute _ | .indirect _ | .base _ => none

/-- The address can be formed: the pointer of mode `$03` is readable (rule R125). -/
def PointerReadable (s : State) : Mode → Prop
  | .indirect addr => Accessible s .dword addr
  | .rel16 _ | .rel32 _ | .absolute _ | .base _ | .indexed _ _ _ => True

/-- The mode writes back a base register that is the data register `d` (rule R121). -/
def SameRegister (s : State) (d : Reg) (m : Mode) : Prop := (writeBack s m).map Prod.fst = some d

/-- The normal registers a mode writes. -/
def writtenBack (s : State) (m : Mode) : List Reg := ((writeBack s m).map Prod.fst).toList

/-- The base register holds what rule R132's table says. -/
def BaseWritten (s t : State) (m : Mode) : Prop := ∀ b v, writeBack s m = some (b, v) → t.reg b = v

/-! ## The stack -/

/-- The entry of rule R264 from `s` to `t`: the two stack slots hold SR's image and the return address, I is clear, a
wait has ended, `pc` is at the vector, and nothing else changes. -/
structure TrapTaken (s t : State) (vector ret : DWord) : Prop where
  pc : t.pc = vector
  sp : t.sp = s.sp - 8
  i : t.sr.i = false
  waiting : t.waiting = false
  savedSr : t.datum .dword (s.sp - 4).toNat = s.srImage
  savedPc : t.datum .dword (s.sp - 8).toNat = ret
  frame : Frame [] [.sp, .i, .waiting] [((s.sp - 4).toNat, 4), ((s.sp - 8).toNat, 4)] s t

/-- The two slots a trap pushes into can be stored to. -/
def TrapRoom (s : State) : Prop := Accessible s .dword (s.sp - 4) ∧ Accessible s .dword (s.sp - 8)

/-- The slot of the `k`-th value pushed (counting from 0) by a push of several registers. -/
def pushSlot (s : State) (k : Nat) : DWord := s.sp - BitVec.ofNat 32 (4 * (k + 1))

/-- The slot of the `k`-th value popped (counting from 0) by a pop of several registers. -/
def popSlot (s : State) (k : Nat) : DWord := s.sp + BitVec.ofNat 32 (4 * k)

/-! ## Fetching -/

/-- The bytes in memory from an address. -/
def State.bytesAt (s : State) (a n : Nat) : List Byte := (List.range n).map (fun k => s.byte (a + k))

/-- Every one of the `n` bytes from there may be read as a byte of an instruction (rules R31, R43). -/
def CodeReadable (s : State) (a n : Nat) : Prop :=
  ∀ k, k < n → s.cfg.isMapped (a + k) = true ∧ (s.cfg.selfModify = .coherent ∨ a + k ∉ s.written)

/-- An instruction of `n` bytes may be fetched there: neither its bytes nor the address after them pass the top of the
address space (rule R14), and each of them may be read (rules R31, R43). -/
def Fetchable (s : State) (a n : Nat) : Prop := a + n < 2 ^ 32 ∧ CodeReadable s a n

/-- Nothing diverts the step from fetching: not halted, not waiting, no interrupt to be taken (rule R294). -/
def Executes (s : State) : Prop := s.halted = false ∧ s.waiting = false ∧ s.pendingTrap = none

/-- Line `n` is chosen by `IrqSelect` and pending at this boundary (rule R262). -/
def LinePending (s : State) (n : Nat) : Prop :=
  ∃ l, s.cfg.irqLines[n]? = some l ∧ l.selected = true ∧ s.answer.irq[n]? = some true

/-! ## The invariant -/

/-- What every step keeps: memory and the set `Written` in their canonical forms and inside `Mapped` (rules R31, R37),
and a machine that is halted is not also waiting (rules R82, R83). -/
structure Inv (s : State) : Prop where
  memory : memWf s.mem
  memoryMapped : ∀ p ∈ s.mem, s.cfg.isMapped p.1 = true
  written : addrsWf s.written
  writtenMapped : ∀ a ∈ s.written, s.cfg.isMapped a = true
  haltedOrWaiting : ¬ (s.halted = true ∧ s.waiting = true)

/-! ## Safe runs -/

/-- `n` steps from `s` end in a state, with no fault and no refusal on the way. -/
def RunsSafely (n : Nat) (s : State) : Prop := ∃ t, Sys2Proof.core.run n s = .next t

end Sys2Proof.Machine
end

