-- ==== Sys2Proof/Certificates/Slice0/Obligations.lean ====
section
/-! DEFINITION. The statements for the provers. Each docstring names the rules of `spec/` it formalises. -/

open Sys2Proof Sys2Proof.Machine

/-! ## Encoding -/

/-- Decoding the encoding of any well-formed instruction gives it back, whatever follows it (rules R52 to R61). The
second clause is the model's reading of the parameter `ENCODING` of rule R6 (DEDUCED, log entry 5: which tables are
admissible, and that an entry is the bytes as stored): the same under every admissible `ENCODING`, where what it writes
has the instruction's length and calls for no further byte. -/
def Obligations.DecodeOfEncode : Prop :=
  (∀ (bo : ByteOrder) (i : Instr) (rest : List Byte), i.wellFormed = true →
    decode bo (encode bo i ++ rest) = .ok (i, rest)) ∧
  ∀ (e : Encoding) (bo : ByteOrder) (i : Instr) (bs rest : List Byte), e.wf = true → e.write bo i = some bs →
    e.read bo (bs ++ rest) = .ok (i, rest) ∧ bs.length = e.len i ∧ e.needed bs = bs.length

/-- Whatever decodes is well-formed and was its own encoding; AFH alone has 256 encodings (rules R52, R81). The second
clause is the model's reading of the parameter `ENCODING` of rule R6 (DEDUCED, log entry 5): the same under every
admissible table, where AFH is `$41` and any bytes, as many as its entry has. -/
def Obligations.EncodeOfDecode : Prop :=
  (∀ (bo : ByteOrder) (bs rest : List Byte) (i : Instr), decode bo bs = .ok (i, rest) →
    i.wellFormed = true ∧ (i ≠ .afh → bs = encode bo i ++ rest) ∧ (i = .afh → ∃ b, bs = 0x41 :: b :: rest)) ∧
  ∀ (rows : List EncodingRow) (bo : ByteOrder) (bs rest : List Byte) (i : Instr), (Encoding.table rows).wf = true →
    (Encoding.table rows).read bo bs = .ok (i, rest) →
    i.wellFormed = true ∧ ∃ w, (Encoding.table rows).write bo i = some w ∧ (i ≠ .afh → bs = w ++ rest) ∧
      (i = .afh → ∃ v, bs = 0x41 :: v ++ rest ∧ v.length + 1 = w.length)

/-- The illegal encodings of rule R63 are rejected, each by its name. -/
def Obligations.IllegalEncodings : Prop :=
  ∀ (bo : ByteOrder) (b0 b1 b2 b3 : Byte) (rest : List Byte),
    let op := b0.toNat
    let listed := op ≤ 0x0D ∨ (0x10 ≤ op ∧ op ≤ 0x1D) ∨ (0x20 ≤ op ∧ op ≤ 0x2C) ∨ (0x30 ≤ op ∧ op ≤ 0x3F) ∨
      op = 0x41 ∨ (0x50 ≤ op ∧ op ≤ 0x69) ∨ (0x70 ≤ op ∧ op ≤ 0x75) ∨ (0x80 ≤ op ∧ op ≤ 0x83) ∨
      (0x90 ≤ op ∧ op ≤ 0x93) ∨ (0xA0 ≤ op ∧ op ≤ 0xA1)
    let limited := op = 0x19 ∨ op = 0x1A ∨ (0x30 ≤ op ∧ op ≤ 0x36)
    let rc := limited ∨ (0x37 ≤ op ∧ op ≤ 0x39) ∨ (0x50 ≤ op ∧ op ≤ 0x5B)
    let cp := 0x80 ≤ op ∧ op ≤ 0x83
    let ma := 0x20 ≤ op ∧ op ≤ 0x2B
    let result := decode bo (b0 :: b1 :: b2 :: b3 :: rest)
    (¬ listed → result = .error .opcode) ∧
    (op ≤ 0x0D → b1 ≠ 0 → result = .error .unassigned) ∧
    (op = 0x10 ∨ op = 0x12 → 21 ≤ b1.toNat → b1.toNat ≤ 31 → result = .error .register) ∧
    (op = 0x10 ∨ op = 0x12 → 32 ≤ b1.toNat → result = .error .unassigned) ∧
    (op = 0x16 ∨ op = 0x17 ∨ op = 0x1C → b1.toNat % 16 ≠ 0 → result = .error .unassigned) ∧
    (op = 0x18 → b1 ≠ 0 → result = .error .unassigned) ∧
    (op = 0x18 → b1 = 0 → 32 ≤ b2.toNat → result = .error .unassigned) ∧
    (op = 0x18 → b1 = 0 → b2.toNat ≤ 20 → 32 ≤ b3.toNat → result = .error .unassigned) ∧
    (op = 0x18 → b1 = 0 → 21 ≤ b2.toNat → b2.toNat ≤ 31 → result = .error .register) ∧
    (op = 0x18 → b1 = 0 → b2.toNat ≤ 20 → 21 ≤ b3.toNat → b3.toNat ≤ 31 → result = .error .register) ∧
    (op = 0x11 ∨ op = 0x13 ∨ op = 0x14 → b1.toNat % 16 < b1.toNat / 16 → result = .error .range) ∧
    (rc → 3 < b2.toNat → result = .error .kind) ∧
    (cp → 16 ≤ b1.toNat → result = .error .unassigned) ∧
    (cp → b1.toNat < 16 → 3 < b2.toNat → result = .error .kind) ∧
    (rc ∨ (cp ∧ b1.toNat < 16) → b2 = 0 → 16 ≤ b3.toNat → result = .error .unassigned) ∧
    (rc ∨ (cp ∧ b1.toNat < 16) → b2 = 2 ∨ b2 = 3 → b3 ≠ 0 → result = .error .unassigned) ∧
    (limited → b2 = 2 → b3 = 0 → 2 ≤ rest.length → result = .error .kind) ∧
    (limited → b2 = 3 → b3 = 0 → 4 ≤ rest.length → result = .error .kind) ∧
    (0x30 ≤ op ∧ op ≤ 0x36 → b2 = 1 → 31 < b3.toNat → result = .error .immediate) ∧
    (op = 0x19 → b2 = 1 → 3 < b3.toNat → result = .error .immediate) ∧
    (op = 0x1A → b2 = 1 → 1 < b3.toNat → result = .error .immediate) ∧
    (ma → b2.toNat ∉ [0x00, 0x01, 0x02, 0x03, 0x10, 0x11, 0x12, 0x13, 0x21, 0x22, 0x23, 0x31, 0x32, 0x33] →
      result = .error .mode) ∧
    (ma → b2.toNat ≤ 3 → b1.toNat % 16 ≠ 0 ∨ b3 ≠ 0 → result = .error .unassigned) ∧
    (ma → b2.toNat ∈ [0x10, 0x31, 0x32, 0x33] → b3 ≠ 0 → result = .error .unassigned) ∧
    (ma → b2.toNat ∈ [0x11, 0x12, 0x13] → 16 ≤ b3.toNat → result = .error .unassigned) ∧
    (op = 0x2C → b2.toNat ∉ [0x02, 0x03, 0x04] → result = .error .mode) ∧
    (op = 0x2C → b2.toNat ∈ [0x02, 0x03] → b1 ≠ 0 ∨ b3 ≠ 0 → result = .error .unassigned) ∧
    (op = 0x2C → b2.toNat = 0x04 → b1.toNat % 16 ≠ 0 ∨ b3 ≠ 0 → result = .error .unassigned) ∧
    (0x70 ≤ op ∧ op ≤ 0x75 → 16 ≤ b1.toNat → result = .error .unassigned) ∧
    (0x70 ≤ op ∧ op ≤ 0x75 → b1 = 0x0F → result = .error .condition) ∧
    (0x90 ≤ op ∧ op ≤ 0x92 → b1 ≠ 0 → result = .error .unassigned) ∧
    (op = 0xA1 → 16 ≤ b1.toNat → result = .error .unassigned) ∧
    (op = 0x93 → 31 < b1.toNat → result = .error .swiNumber)

/-- A few words, written out from the spec's own examples, decode to the instructions they stand for. -/
def Obligations.DecodeWrittenWords : Prop :=
  decode .little [0x0D, 0x00] = .ok (.rti, []) ∧
  decode .little [0x41, 0x46] = .ok (.afh, []) ∧
  decode .little [0x13, 0x13] = .ok (.pushRange 1 3, []) ∧
  decode .little [0x18, 0x00, 0x14, 0x12] = .ok (.movAny .lr .sp, []) ∧
  decode .little [0x17, 0x00, 0x4E, 0x61, 0xBC, 0x00] = .ok (.movImm32 0 12345678, []) ∧
  decode .little [0x2B, 0x00, 0x02, 0x00, 0x78, 0x56, 0x34, 0x12] = .ok (.swpMem 0 (.absolute 0x12345678), []) ∧
  decode .little [0x25, 0x01, 0x23, 0x04] = .ok (.str 0 (.indexed .post 1 (.byte 4)), []) ∧
  decode .little [0x37, 0x02, 0x03, 0x00, 0x78, 0x56, 0x34, 0x12] = .ok (.and 0 2 (.imm32 0x12345678), []) ∧
  decode .little [0x50, 0x02, 0x00, 0x04] = .ok (.add 0 2 (.reg 4), []) ∧
  decode .little [0x60, 0x02] = .ok (.cfb 0 2, []) ∧
  decode .little [0x70, 0x0E, 0xF0, 0xFF] = .ok (.bra (.short (-16)), []) ∧
  decode .little [0x80, 0x00, 0x00, 0x02] = .ok (.cmp 0 (.reg 2), []) ∧
  decode .little [0x90, 0x00, 0xD2, 0x04] = .ok (.brk 1234, []) ∧
  decode .little [0x93, 0x1F] = .ok (.swi 31, []) ∧
  decode .little [0xA0, 0x02] = .ok (.rand 0 2, [])

/-- The third operand (rule R55): its 32-bit value, the length of the instruction, its two tables of limits. -/
def Obligations.OptionOperand : Prop :=
  ∀ (s : State) (d r ro : Reg) (b : Byte) (w : Word) (v : DWord) (o : Opt),
    s.opt (.reg ro) = s.reg ro ∧ (s.opt (.imm8 b)).toNat = b.toNat ∧ (s.opt (.imm16 w)).toInt = w.toInt ∧
    s.opt (.imm32 v) = v ∧
    (Instr.add d r (.reg ro)).len = 4 ∧ (Instr.add d r (.imm8 b)).len = 4 ∧ (Instr.add d r (.imm16 w)).len = 6 ∧
    (Instr.add d r (.imm32 v)).len = 8 ∧ (s.cfg.encoding = .section3 → ∀ i, s.lenOf i = i.len) ∧
    (∀ i : Instr, i = .lsl d r o ∨ i = .lsr d r o ∨ i = .rol d r o ∨ i = .ror d r o ∨ i = .rcl d r o ∨ i = .rcr d r o ∨
        i = .asr d r o →
      (i.wellFormed = true ↔ (∃ k, o = .reg k) ∨ ∃ k, o = .imm8 k ∧ k.toNat ≤ 31)) ∧
    ((Instr.movb d r o).wellFormed = true ↔ (∃ k, o = .reg k) ∨ ∃ k, o = .imm8 k ∧ k.toNat ≤ 3) ∧
    ((Instr.movw d r o).wellFormed = true ↔ (∃ k, o = .reg k) ∨ ∃ k, o = .imm8 k ∧ k.toNat ≤ 1)

/-! ## Steps -/

/-- A step runs the instruction that the bytes at `pc` encode, on the state whose interrupt answer has been read
(rule R294 part (c)); the bytes are as many as the instruction's length. Two conditions are the model's reading
(DEDUCED): which `ENCODING` is admissible (log entry 5), and that the bytes end below the top of the address space (log
entry 14), so that at `pc + n = 2^32`, which the formula of rule R14 would let run, `FetchStops` says what happens. -/
def Obligations.StepRunsDecodedInstruction : Prop :=
  ∀ (s : State) (n : Nat) (i : Instr), Executes s → s.pc.toNat % 2 = 0 → s.cfg.encoding.wf = true →
    Fetchable s s.pc.toNat n → s.cfg.encoding.read s.cfg.byteOrder (s.bytesAt s.pc.toNat n) = .ok (i, []) →
    step s = exec i s.afterAnswer ∧ n = s.lenOf i

/-- What stops a fetch (rule R294 part (c)): an odd `pc` (R39); and with the first `k` bytes read, which call for `n` in
all (rule R53), a length whose bytes or successor pass the top of the address space (R14), a next byte outside `Mapped`
(R31), a next byte that is stored under `SELF_MODIFY = refuse` (R43); and bytes that call for no more and are no
instruction (R63). Three points are the model's reading (DEDUCED), not the rules' own words: `PcWrap` at `pc + n = 2^32`
as well, where the formula of rule R14, `pc + len > 2^32`, would let the instruction run (log entry 14); the order in
which the checks exclude each other (log entry 15); which `ENCODING` is admissible (log entry 5). -/
def Obligations.FetchStops : Prop :=
  ∀ s : State, Executes s → s.cfg.encoding.wf = true →
    (s.pc.toNat % 2 = 1 → step s = .fault .oddPc) ∧
    (s.pc.toNat % 2 = 0 → ∀ k : Nat, CodeReadable s s.pc.toNat k →
      let bs := s.bytesAt s.pc.toNat k
      let n := s.cfg.encoding.needed bs
      let a := s.pc.toNat + k
      (k < n → 2 ^ 32 ≤ s.pc.toNat + n → step s = .fault .pcWrap) ∧
      (k < n → s.pc.toNat + n < 2 ^ 32 → s.cfg.isMapped a = false → step s = .fault (.unmapped a)) ∧
      (k < n → s.pc.toNat + n < 2 ^ 32 → s.cfg.isMapped a = true → s.cfg.selfModify = .refuse → a ∈ s.written →
        step s = .fault .fetchOfWrittenByte) ∧
      (∀ e, n = k → s.pc.toNat + k < 2 ^ 32 → s.cfg.encoding.read s.cfg.byteOrder bs = .error e →
        step s = .fault (.illegalEncoding e)))

/-- A halted machine stays as it is for ever (rules R82, R293; the stuttering step is the model's, log entry 11); a
waiting machine to which no interrupt comes only reads the environment's answer, and under the default `IntOracle` does
not change at all (rules R83, R294). -/
def Obligations.HaltedAndWaitingStay : Prop :=
  (∀ (n : Nat) (s : State), s.halted = true → Sys2Proof.core.run n s = .next s) ∧
  (∀ s : State, s.halted = false → s.waiting = true → s.pendingTrap = none → step s = .next s.afterAnswer) ∧
  (∀ s : State, s.halted = false → s.waiting = true → s.oracle = .never → step s = .next s)

/-- Which interrupt is taken at a boundary (rule R262): NMI first, then with I set the lowest-numbered line that is
selected and pending. What the environment answers (rule R261), in the model's form of `IntOracle` (DEDUCED, log entry
6): the answers listed, a list over and over, or as it likes, having seen what was taken; by default never anything; one
answer is read at each boundary of a machine that is not halted, and one that is held is there at every boundary of
every run. -/
def Obligations.InterruptSelection : Prop :=
  ∀ s : State,
    (s.pendingTrap = some .nmi ↔ s.answer.nmi = true) ∧
    (∀ n, s.pendingTrap = some (.irq n) ↔
      s.answer.nmi = false ∧ s.sr.i = true ∧ LinePending s n ∧ ∀ m, m < n → ¬ LinePending s m) ∧
    (s.pendingTrap = none ↔ s.answer.nmi = false ∧ (s.sr.i = false ∨ ∀ n, ¬ LinePending s n)) ∧
    (∀ k, s.pendingTrap = some k → k = .nmi ∨ ∃ n, k = .irq n) ∧
    (∀ a next source, s.oracle = ⟨a :: next, source⟩ → s.answer = a ∧ s.afterAnswer.oracle.next = next) ∧
    (∀ a again, s.oracle = ⟨[], .cycle (a :: again)⟩ →
      s.answer = a ∧ s.afterAnswer.oracle = ⟨again, .cycle (a :: again)⟩) ∧
    (∀ n taken, s.oracle = ⟨[], .free n taken⟩ →
      s.answer = Config.freeAnswer n taken ∧ s.afterAnswer.oracle = ⟨[], .free n (s.pendingTrap :: taken)⟩) ∧
    (s.oracle = .never → s.pendingTrap = none ∧ s.afterAnswer.oracle = .never) ∧
    (∀ t, s.halted = false → step s = .next t → t.oracle = s.afterAnswer.oracle) ∧
    (∀ a n t, s.oracle = ⟨[], .cycle [a]⟩ → Sys2Proof.core.run n s = .next t → t.answer = a)

/-- Taking NMI or an IRQ (rules R264, R265): the entry sequence with the `pc` of the boundary as return address, also
from a waiting machine; a halted machine takes none (rule R82). -/
def Obligations.InterruptTaken : Prop :=
  ∀ (s : State) (k : TrapKind), s.halted = false → s.pendingTrap = some k → TrapRoom s → memWf s.mem →
    ∃ t, step s = .next t ∧ TrapTaken s.afterAnswer t (s.cfg.vec k) s.pc ∧ t.oracle = s.oracle.after (some k)

/-! ## Invariants and whole-machine rules -/

/-- Every step keeps the invariant, from every state that has it. -/
def Obligations.StepKeepsInv : Prop :=
  ∀ s t : State, Inv s → step s = .next t → Inv t

/-- The state at the start of a run has the invariant, under every setting of the parameters (rule R6) and every
environment; the default parameters are admissible. That memory lists nothing there is the model's choice (log entries 2
and 17). -/
def Obligations.ResetInv : Prop :=
  (∀ (c : Cfg) (oracle : IntOracle), Inv (State.launch c oracle)) ∧ Inv State.reset ∧ State.reset.cfg.wf = true

/-- The start of a run (rules R6, R22, R280, R281), under every setting of the parameters: `pc` is `ENTRY`, which is
even where the parameters are admissible, the machine is neither halted nor waiting; reset is the start under the
default parameters. Two clauses are the model's choice and no rule's: that no byte of memory is listed, so that each
reads as 0 (log entries 2, DESIGN CHOICE, and 17, PRESUMED; by rule R22 memory is the launch image of a claim), and the
values of the registers, flags and `seed` (log entry 1, DESIGN CHOICE). -/
def Obligations.ResetValues : Prop :=
  (∀ (c : Cfg) (oracle : IntOracle),
    let s := State.launch c oracle
    s.cfg = c ∧ s.oracle = oracle ∧ s.pc = c.entry ∧ (c.wf = true → s.pc.toNat % 2 = 0) ∧ s.halted = false ∧
    s.waiting = false ∧ s.mem = [] ∧ s.written = [] ∧ (∀ r, s.reg r = 0) ∧ s.sp = 0 ∧ s.fp = 0 ∧ s.lr = 0 ∧
    s.srImage = 0 ∧ s.seed = 0) ∧
  State.reset = State.launch defaultCfg .never

/-- What each instruction may do to N, Z, C, V and I (rules R17, R23, R264): class F0 writes none of the four flags,
class FX only the fields its rule names, class FA none under `keep` but for the C of RCL and RCR; and only EI, DI, RTI,
writes of SR and the traps of BRK, DBG and SVC change I. -/
def Obligations.FlagClasses : Prop :=
  ∀ (i : Instr) (s t : State), exec i s = .next t →
    (flagClass i = .f0 → t.sr.n = s.sr.n ∧ t.sr.z = s.sr.z ∧ t.sr.c = s.sr.c ∧ t.sr.v = s.sr.v) ∧
    (∀ fields, flagClass i = .fx fields →
      (.n ∈ fields ∨ t.sr.n = s.sr.n) ∧ (.z ∈ fields ∨ t.sr.z = s.sr.z) ∧ (.c ∈ fields ∨ t.sr.c = s.sr.c) ∧
      (.v ∈ fields ∨ t.sr.v = s.sr.v) ∧ (.i ∈ fields ∨ t.sr.i = s.sr.i)) ∧
    (flagClass i = .fa → s.cfg.aluFlags = .keep →
      t.sr.n = s.sr.n ∧ t.sr.z = s.sr.z ∧ t.sr.v = s.sr.v ∧
      ((∃ d r o, i = .rcl d r o ∨ i = .rcr d r o) ∨ t.sr.c = s.sr.c)) ∧
    (t.sr.i = s.sr.i ∨ (∃ fields, flagClass i = .fx fields ∧ .i ∈ fields) ∨
      ∃ v, i = .brk v ∨ i = .dbg v ∨ i = .svc v)

/-- Who may change the other state (rules R15, R21, R82, R83): FP only POP FP and MOV FP; LR only those and LNK and a
taken L<cond>; `seed` only SEED and RAND; `halted` only HALT; `waiting` only WAIT and a trap; no instruction changes the
parameters or the environment. -/
def Obligations.OnlyNamedInstructionsWrite : Prop :=
  ∀ (i : Instr) (s t : State), exec i s = .next t →
    (t.fp = s.fp ∨ i = .pop .fp ∨ ∃ y, i = .movAny .fp y) ∧
    (t.lr = s.lr ∨ i = .pop .lr ∨ (∃ y, i = .movAny .lr y) ∨ ∃ c off, i = linkInstr c off) ∧
    (t.seed = s.seed ∨ (∃ r, i = .seed r) ∨ ∃ d r, i = .rand d r) ∧
    (t.halted = s.halted ∨ i = .halt) ∧
    (t.waiting = s.waiting ∨ i = .wait ∨ ∃ v, i = .brk v ∨ i = .dbg v ∨ i = .svc v) ∧
    t.cfg = s.cfg ∧ t.oracle = s.oracle

/-! ## The status register -/

/-- The image of SR (rule R18): bits 31, 30, 29, 28 and 0 under the default layout, the other bits 0; a write takes the
five bits and ignores the others; under every layout that keeps the five fields apart, saving and restoring SR keeps
them. -/
def Obligations.SrImage : Prop :=
  (∀ (r : Sr) (k : Nat), k < 32 → (r.image defaultSrLayout).getLsbD k =
    (if k = 31 then r.n else if k = 30 then r.z else if k = 29 then r.c else if k = 28 then r.v
      else if k = 0 then r.i else false)) ∧
  (∀ (s : State) (v : DWord), s.cfg.srLayout = defaultSrLayout →
    (s.writeSr v).sr.n = v.getLsbD 31 ∧ (s.writeSr v).sr.z = v.getLsbD 30 ∧ (s.writeSr v).sr.c = v.getLsbD 29 ∧
    (s.writeSr v).sr.v = v.getLsbD 28 ∧ (s.writeSr v).sr.i = v.getLsbD 0) ∧
  (∀ (l : SrLayout) (r : Sr), l.wf = true → Sr.ofImage l (r.image l) = r)

/-! ## Implied instructions -/

/-- NOP and AFH do nothing but move on (rules R80, R81); AFH has any second byte. Under every admissible `ENCODING` the
byte `$41` decodes to AFH (rule R50 point 2); that the bytes after it count for nothing there too, and which `ENCODING`
is admissible, is the model's reading (DEDUCED, log entry 5). -/
def Obligations.NoOperations : Prop :=
  (∀ (e : Encoding) (bo : ByteOrder) (bs : List Byte), e.wf = true → bs.head? = some 0x41 →
    e.len .afh ≤ bs.length → e.read bo bs = .ok (.afh, bs.drop (e.len .afh))) ∧
  ∀ (bo : ByteOrder) (b : Byte) (rest : List Byte),
    decode bo (0x00 :: 0x00 :: rest) = .ok (.nop, rest) ∧ decode bo (0x41 :: b :: rest) = .ok (.afh, rest) ∧
    ∀ s : State,
      (∃ t, exec .nop s = .next t ∧ MovesBy 2 .nop s t ∧ Frame [] [] [] s t) ∧
      (∃ t, exec .afh s = .next t ∧ MovesBy 2 .afh s t ∧ Frame [] [] [] s t)

/-- SEC, CLC, SEV and CLV (rules R86, R87, R89, R90). -/
def Obligations.FlagSetAndClear : Prop :=
  (∀ (bo : ByteOrder) (rest : List Byte),
    decode bo (0x05 :: 0x00 :: rest) = .ok (.sec, rest) ∧ decode bo (0x06 :: 0x00 :: rest) = .ok (.clc, rest) ∧
    decode bo (0x08 :: 0x00 :: rest) = .ok (.sev, rest) ∧ decode bo (0x09 :: 0x00 :: rest) = .ok (.clv, rest)) ∧
  ∀ s : State,
    (∃ t, exec .sec s = .next t ∧ t.sr.c = true ∧ MovesBy 2 .sec s t ∧ Frame [] [.c] [] s t) ∧
    (∃ t, exec .clc s = .next t ∧ t.sr.c = false ∧ MovesBy 2 .clc s t ∧ Frame [] [.c] [] s t) ∧
    (∃ t, exec .sev s = .next t ∧ t.sr.v = true ∧ MovesBy 2 .sev s t ∧ Frame [] [.v] [] s t) ∧
    (∃ t, exec .clv s = .next t ∧ t.sr.v = false ∧ MovesBy 2 .clv s t ∧ Frame [] [.v] [] s t)

/-- NEC and NEV negate their flag, EI and DI set and clear the interrupt enable, WAIT sets `waiting`, and each moves on;
HALT sets `halted` and keeps `pc` (rules R82 to R85, R88, R91). -/
def Obligations.ImpliedControls : Prop :=
  ∀ s : State,
    (∃ t, exec .nec s = .next t ∧ t.sr.c = !s.sr.c ∧ MovesBy 2 .nec s t ∧ Frame [] [.c] [] s t) ∧
    (∃ t, exec .nev s = .next t ∧ t.sr.v = !s.sr.v ∧ MovesBy 2 .nev s t ∧ Frame [] [.v] [] s t) ∧
    (∃ t, exec .ei s = .next t ∧ t.sr.i = true ∧ MovesBy 2 .ei s t ∧ Frame [] [.i] [] s t) ∧
    (∃ t, exec .di s = .next t ∧ t.sr.i = false ∧ MovesBy 2 .di s t ∧ Frame [] [.i] [] s t) ∧
    (∃ t, exec .wait s = .next t ∧ t.waiting = true ∧ MovesBy 2 .wait s t ∧ Frame [] [.waiting] [] s t) ∧
    (∃ t, exec .halt s = .next t ∧ t.halted = true ∧ t.pc = s.pc ∧ Frame [] [.halted] [] s t)

/-- The returns (rules R92, R93, R94, R45, R46): RTS pops `pc`, RTL copies LR to it, RTI pops the return address and
then SR's image. -/
def Obligations.Returns : Prop :=
  ∀ s : State,
    (Accessible s .dword s.sp →
      ∃ t, exec .rts s = .next t ∧ t.pc = s.datum .dword s.sp.toNat ∧ t.sp = s.sp + 4 ∧ Frame [] [.sp] [] s t) ∧
    (∃ t, exec .rtl s = .next t ∧ t.pc = s.lr ∧ Frame [] [] [] s t) ∧
    (Accessible s .dword s.sp → Accessible s .dword (s.sp + 4) →
      ∃ t, exec .rti s = .next t ∧ t.pc = s.datum .dword s.sp.toNat ∧
        t.sr = Sr.ofImage s.cfg.srLayout (s.datum .dword (s.sp + 4).toNat) ∧ t.sp = s.sp + 8 ∧
        Frame [] [.sp, .n, .z, .c, .v, .i] [] s t)

/-! ## Traps -/

/-- BRK, DBG and SVC (rules R240 to R242, R264, R265): encoding, and the entry sequence with return address `pc + 4`. -/
def Obligations.TrapEntry : Prop :=
  ∀ (v : Word),
    Encodes (.brk v) (fun bo => [0x90, 0x00] ++ wordBytes bo v) ∧
    Encodes (.dbg v) (fun bo => [0x91, 0x00] ++ wordBytes bo v) ∧
    Encodes (.svc v) (fun bo => [0x92, 0x00] ++ wordBytes bo v) ∧
    ∀ s : State, TrapRoom s → memWf s.mem →
      (∃ t, exec (.brk v) s = .next t ∧ TrapTaken s t s.cfg.vectors.abort (s.pc + 4)) ∧
      (∃ t, exec (.dbg v) s = .next t ∧ TrapTaken s t s.cfg.vectors.debug (s.pc + 4)) ∧
      (∃ t, exec (.svc v) s = .next t ∧ TrapTaken s t s.cfg.vectors.svc (s.pc + 4))

/-- SWI (rules R243, R266): one push of `pc + 2`, no field of SR touched, `pc` at the vector of its number. -/
def Obligations.SoftwareInterrupt : Prop :=
  ∀ (n : BitVec 5),
    Encodes (.swi n) (fun _ => [0x93, n.setWidth 8]) ∧
    ∀ s : State, Accessible s .dword (s.sp - 4) → memWf s.mem →
      ∃ t, exec (.swi n) s = .next t ∧ t.pc = s.cfg.vectors.swi.get n.toFin ∧ t.sp = s.sp - 4 ∧
        t.datum .dword (s.sp - 4).toNat = s.pc + 2 ∧ Frame [] [.sp] [((s.sp - 4).toNat, 4)] s t

/-- After BRK, DBG or SVC, a handler that leaves SP and the two stacked Double Words as it found them and executes RTI
returns to `pc + 4` with SR and SP as they were before the trap (rules R94, R264, R270). -/
def Obligations.TrapThenReturn : Prop :=
  ∀ (s t u : State) (i : Instr) (v : Word), i = .brk v ∨ i = .dbg v ∨ i = .svc v → memWf s.mem →
    s.cfg.srLayout.wf = true → TrapRoom s → exec i s = .next t →
    u.sp = t.sp → u.cfg = t.cfg → u.datum .dword (s.sp - 4).toNat = t.datum .dword (s.sp - 4).toNat →
    u.datum .dword (s.sp - 8).toNat = t.datum .dword (s.sp - 8).toNat →
    ∃ w, exec .rti u = .next w ∧ w.pc = s.pc + 4 ∧ w.sr = s.sr ∧ w.sp = s.sp

/-- A stack or storage access that fails, the first or a later one, stops the instruction or the entry of an interrupt
with the fault of that access (rules R36, R37, R44, R45, R94, R101 to R104, R125, R135 to R146, R222, R223, R240 to
R243, R264). -/
def Obligations.AccessFaults : Prop :=
  ∀ (s : State) (f : Fault),
    (checkAccess s.cfg .dword (s.sp - 4) = .error f →
      (∀ v, exec (.brk v) s = .fault f ∧ exec (.dbg v) s = .fault f ∧ exec (.svc v) s = .fault f) ∧
      (∀ n, exec (.swi n) s = .fault f) ∧
      (∀ c off, s.sr.holds c = true → exec (callInstr c off) s = .fault f) ∧
      (∀ r, exec (.push r) s = .fault f) ∧ ∀ a b, a ≤ b → exec (.pushRange a b) s = .fault f) ∧
    (checkAccess s.cfg .dword s.sp = .error f →
      exec .rts s = .fault f ∧ exec .rti s = .fault f ∧ (∀ r, exec (.pop r) s = .fault f) ∧
      ∀ a b, a ≤ b → exec (.popRange a b) s = .fault f) ∧
    (Accessible s .dword (s.sp - 4) → checkAccess s.cfg .dword (s.sp - 8) = .error f →
      ∀ v, exec (.brk v) s = .fault f ∧ exec (.dbg v) s = .fault f ∧ exec (.svc v) s = .fault f) ∧
    (Accessible s .dword s.sp → checkAccess s.cfg .dword (s.sp + 4) = .error f → exec .rti s = .fault f) ∧
    (∀ (a b : Reg) (k : Nat), a ≤ b → k ≤ b.val - a.val →
      ((∀ j, j < k → Accessible s .dword (pushSlot s j)) → checkAccess s.cfg .dword (pushSlot s k) = .error f →
        exec (.pushRange a b) s = .fault f) ∧
      ((∀ j, j < k → Accessible s .dword (popSlot s j)) → checkAccess s.cfg .dword (popSlot s k) = .error f →
        exec (.popRange a b) s = .fault f)) ∧
    (∀ kind, s.halted = false → s.pendingTrap = some kind →
      (checkAccess s.cfg .dword (s.sp - 4) = .error f → step s = .fault f) ∧
      (Accessible s .dword (s.sp - 4) → checkAccess s.cfg .dword (s.sp - 8) = .error f → step s = .fault f)) ∧
    ∀ (d : Reg) (m : Mode), ¬ SameRegister s d m →
      let ea := effectiveAddress s m
      (∀ addr, m = .indirect addr → checkAccess s.cfg .dword addr = .error f →
        ∀ i : Instr, i = .ldr d m ∨ i = .ldrb d m ∨ i = .ldrw d m ∨ i = .ldrbs d m ∨ i = .ldrws d m ∨ i = .str d m ∨
          i = .strb d m ∨ i = .strw d m ∨ i = .strbs d m ∨ i = .strws d m ∨ i = .adr d m ∨ i = .swpMem d m →
        exec i s = .fault f) ∧
      (PointerReadable s m →
        (checkAccess s.cfg .dword ea = .error f →
          exec (.ldr d m) s = .fault f ∧ exec (.str d m) s = .fault f ∧ exec (.swpMem d m) s = .fault f) ∧
        (checkAccess s.cfg .word ea = .error f →
          exec (.ldrw d m) s = .fault f ∧ exec (.ldrws d m) s = .fault f ∧ exec (.strw d m) s = .fault f ∧
          exec (.strws d m) s = .fault f) ∧
        (checkAccess s.cfg .byte ea = .error f →
          exec (.ldrb d m) s = .fault f ∧ exec (.ldrbs d m) s = .fault f ∧ exec (.strb d m) s = .fault f ∧
          exec (.strbs d m) s = .fault f))

/-! ## Transfer instructions -/

/-- MOV of a normal register or an immediate to a normal register (rules R106, R107, R108). -/
def Obligations.MoveToRegister : Prop :=
  ∀ (d r : Reg) (w : Word) (v : DWord),
    Encodes (.movReg d r) (fun _ => [0x15, nibbles d r]) ∧
    Encodes (.movImm16 d w) (fun bo => [0x16, nibbles d 0] ++ wordBytes bo w) ∧
    Encodes (.movImm32 d v) (fun bo => [0x17, nibbles d 0] ++ dwordBytes bo v) ∧
    ∀ s : State,
      (∃ t, exec (.movReg d r) s = .next t ∧ t.reg d = s.reg r ∧ MovesBy 2 (.movReg d r) s t ∧ Frame [d] [] [] s t) ∧
      (∃ t, exec (.movImm16 d w) s = .next t ∧ (t.reg d).toNat = w.toNat ∧ MovesBy 4 (.movImm16 d w) s t ∧
        Frame [d] [] [] s t) ∧
      (∃ t, exec (.movImm32 d v) s = .next t ∧ t.reg d = v ∧ MovesBy 6 (.movImm32 d v) s t ∧ Frame [d] [] [] s t)

/-- MOV between any two of the 21 registers (rules R100, R109), by destination. -/
def Obligations.MoveAny : Prop :=
  ∀ (s : State) (y : AnyReg) (v : DWord),
    v = (match y with
      | .r k => s.reg k | .pc => s.pc | .sr => s.srImage | .sp => s.sp | .fp => s.fp | .lr => s.lr) →
    (∀ d, ∃ t, exec (.movAny (.r d) y) s = .next t ∧ t.reg d = v ∧ MovesBy 4 (.movAny (.r d) y) s t ∧
      Frame [d] [] [] s t) ∧
    (∃ t, exec (.movAny .pc y) s = .next t ∧ t.pc = v ∧ Frame [] [] [] s t) ∧
    (∃ t, exec (.movAny .sr y) s = .next t ∧ t.sr = Sr.ofImage s.cfg.srLayout v ∧ MovesBy 4 (.movAny .sr y) s t ∧
      Frame [] [.n, .z, .c, .v, .i] [] s t) ∧
    (∃ t, exec (.movAny .sp y) s = .next t ∧ t.sp = v ∧ MovesBy 4 (.movAny .sp y) s t ∧ Frame [] [.sp] [] s t) ∧
    (∃ t, exec (.movAny .fp y) s = .next t ∧ t.fp = v ∧ MovesBy 4 (.movAny .fp y) s t ∧ Frame [] [.fp] [] s t) ∧
    (∃ t, exec (.movAny .lr y) s = .next t ∧ t.lr = v ∧ MovesBy 4 (.movAny .lr y) s t ∧ Frame [] [.lr] [] s t)

/-- CLR stores zero into every register of the range, the highest included, and changes no other (rule R105). -/
def Obligations.ClearRange : Prop :=
  ∀ (a b : Reg),
    Encodes (.clr a b) (fun _ => [0x14, nibbles a b]) ∧
    (b < a → ∀ bo rest, decode bo (0x14 :: nibbles a b :: rest) = .error .range) ∧
    ∀ s : State, ∃ t, exec (.clr a b) s = .next t ∧ (∀ k, a ≤ k → k ≤ b → t.reg k = 0) ∧
      (∀ k, ¬ (a ≤ k ∧ k ≤ b) → t.reg k = s.reg k) ∧ MovesBy 2 (.clr a b) s t ∧ Frame (regRange a b) [] [] s t

/-- MOVB and MOVW deliver the selected byte or Word, zero-extended (rules R110, R111), for every selector they admit; a
selector above it is `fault SelectorRange`. Under `free`, the model's own setting (log entry 4), Rd then holds some
value and everything else is as for an admitted selector. -/
def Obligations.ByteAndWordSelect : Prop :=
  ∀ (s : State) (d r : Reg) (o : Opt),
    let n := (s.opt o).toNat
    let x := (s.reg r).toNat
    (n ≤ 3 → ∃ t, exec (.movb d r o) s = .next t ∧ (t.reg d).toNat = x / 2 ^ (8 * n) % 2 ^ 8 ∧
      MovesOn (.movb d r o) s t ∧ Frame [d] [] [] s t) ∧
    (n ≤ 1 → ∃ t, exec (.movw d r o) s = .next t ∧ (t.reg d).toNat = x / 2 ^ (16 * n) % 2 ^ 16 ∧
      MovesOn (.movw d r o) s t ∧ Frame [d] [] [] s t) ∧
    (3 < n → s.cfg.unstated = .stop → exec (.movb d r o) s = .fault .selectorRange) ∧
    (1 < n → s.cfg.unstated = .stop → exec (.movw d r o) s = .fault .selectorRange) ∧
    (3 < n → s.cfg.unstated = .free → ∃ t, exec (.movb d r o) s = .next t ∧
      MovesOn (.movb d r o) s t ∧ Frame [d] [.draws] [] s t) ∧
    (1 < n → s.cfg.unstated = .free → ∃ t, exec (.movw d r o) s = .next t ∧
      MovesOn (.movw d r o) s t ∧ Frame [d] [.draws] [] s t)

/-- MOVT writes the high Word of Rd and keeps its low Word; SWP of two registers exchanges them (rules R112, R113,
R114). -/
def Obligations.MoveTopAndSwap : Prop :=
  ∀ (d r : Reg) (w : Word),
    Encodes (.movtReg d r) (fun _ => [0x1B, nibbles d r]) ∧
    Encodes (.movtImm d w) (fun bo => [0x1C, nibbles d 0] ++ wordBytes bo w) ∧
    Encodes (.swpReg d r) (fun _ => [0x1D, nibbles d r]) ∧
    ∀ s : State,
      (∃ t, exec (.movtReg d r) s = .next t ∧
        (t.reg d).toNat = (s.reg r).toNat % 2 ^ 16 * 2 ^ 16 + (s.reg d).toNat % 2 ^ 16 ∧ MovesBy 2 (.movtReg d r) s t ∧
        Frame [d] [] [] s t) ∧
      (∃ t, exec (.movtImm d w) s = .next t ∧ (t.reg d).toNat = w.toNat * 2 ^ 16 + (s.reg d).toNat % 2 ^ 16 ∧
        MovesBy 4 (.movtImm d w) s t ∧ Frame [d] [] [] s t) ∧
      (∃ t, exec (.swpReg d r) s = .next t ∧ t.reg d = s.reg r ∧ t.reg r = s.reg d ∧ MovesBy 2 (.swpReg d r) s t ∧
        Frame [d, r] [] [] s t)

/-- PUSH of one register (rules R44, R100, R103): the value from before the instruction, in the slot below SP. -/
def Obligations.PushOne : Prop :=
  ∀ (s : State) (r : AnyReg), Accessible s .dword (s.sp - 4) → memWf s.mem →
    ∃ t, exec (.push r) s = .next t ∧
      t.datum .dword (s.sp - 4).toNat = (match r with
        | .r k => s.reg k | .pc => s.pc | .sr => s.srImage | .sp => s.sp | .fp => s.fp | .lr => s.lr) ∧
      t.sp = s.sp - 4 ∧ MovesBy 2 (.push r) s t ∧ Frame [] [.sp] [((s.sp - 4).toNat, 4)] s t

/-- POP of one register (rules R45, R100, R101), by destination; POP SP keeps the popped value, not the increment. -/
def Obligations.PopOne : Prop :=
  ∀ s : State, Accessible s .dword s.sp →
    let v := s.datum .dword s.sp.toNat
    (∀ d, ∃ t, exec (.pop (.r d)) s = .next t ∧ t.reg d = v ∧ t.sp = s.sp + 4 ∧ MovesBy 2 (.pop (.r d)) s t ∧
      Frame [d] [.sp] [] s t) ∧
    (∃ t, exec (.pop .pc) s = .next t ∧ t.pc = v ∧ t.sp = s.sp + 4 ∧ Frame [] [.sp] [] s t) ∧
    (∃ t, exec (.pop .sr) s = .next t ∧ t.sr = Sr.ofImage s.cfg.srLayout v ∧ t.sp = s.sp + 4 ∧
      MovesBy 2 (.pop .sr) s t ∧ Frame [] [.sp, .n, .z, .c, .v, .i] [] s t) ∧
    (∃ t, exec (.pop .sp) s = .next t ∧ t.sp = v ∧ MovesBy 2 (.pop .sp) s t ∧ Frame [] [.sp] [] s t) ∧
    (∃ t, exec (.pop .fp) s = .next t ∧ t.fp = v ∧ t.sp = s.sp + 4 ∧ MovesBy 2 (.pop .fp) s t ∧
      Frame [] [.sp, .fp] [] s t) ∧
    (∃ t, exec (.pop .lr) s = .next t ∧ t.lr = v ∧ t.sp = s.sp + 4 ∧ MovesBy 2 (.pop .lr) s t ∧
      Frame [] [.sp, .lr] [] s t)

/-- PUSH of a range stores Ra in the highest slot and Rb in the lowest, where SP ends (rule R104). -/
def Obligations.PushRange : Prop :=
  ∀ (s : State) (a b : Reg), a ≤ b → memWf s.mem →
    (∀ k, k ≤ b.val - a.val → Accessible s .dword (pushSlot s k)) →
    ∃ t, exec (.pushRange a b) s = .next t ∧
      (∀ k : Reg, a ≤ k → k ≤ b → t.datum .dword (pushSlot s (k.val - a.val)).toNat = s.reg k) ∧
      t.sp = pushSlot s (b.val - a.val) ∧ MovesBy 2 (.pushRange a b) s t ∧
      Frame [] [.sp] ((List.range (b.val - a.val + 1)).map (fun k => ((pushSlot s k).toNat, 4))) s t

/-- POP of a range loads Rb first and Ra last (rule R102). -/
def Obligations.PopRange : Prop :=
  ∀ (s : State) (a b : Reg), a ≤ b → (∀ k, k ≤ b.val - a.val → Accessible s .dword (popSlot s k)) →
    ∃ t, exec (.popRange a b) s = .next t ∧
      (∀ k : Reg, a ≤ k → k ≤ b → t.reg k = s.datum .dword (popSlot s (b.val - k.val)).toNat) ∧
      t.sp = popSlot s (b.val - a.val + 1) ∧ MovesBy 2 (.popRange a b) s t ∧ Frame (regRange a b) [.sp] [] s t

/-! ## Memory -/

/-- `MemRead` (rule R36): its three checks in their order, and the value in either byte order (rule R35). -/
def Obligations.MemoryRead : Prop :=
  ∀ (s : State) (w : Width) (a : DWord),
    let n := w.bytes
    (2 ^ 32 < a.toNat + n → memRead s w a = .error .addressWrap) ∧
    (a.toNat + n ≤ 2 ^ 32 → s.cfg.dataAlign = .fault → a.toNat % n ≠ 0 →
      memRead s w a = .error (.misaligned a.toNat n)) ∧
    (∀ k, k < n → a.toNat + n ≤ 2 ^ 32 → s.cfg.dataAlign = .allow ∨ a.toNat % n = 0 →
      (∀ j, j < k → s.cfg.isMapped (a.toNat + j) = true) → s.cfg.isMapped (a.toNat + k) = false →
      memRead s w a = .error (.unmapped (a.toNat + k))) ∧
    (Accessible s w a → ∃ v, memRead s w a = .ok v ∧ v.toNat = (match s.cfg.byteOrder with
      | .little => ((List.range n).map (fun k => (s.byte (a.toNat + k)).toNat * 256 ^ k)).sum
      | .big => ((List.range n).map (fun k => (s.byte (a.toNat + k)).toNat * 256 ^ (n - 1 - k))).sum))

/-- `MemWrite` (rule R37): the same checks, then the bytes of the value in either byte order (rule R35), each added to
`Written`, and nothing else. -/
def Obligations.MemoryWrite : Prop :=
  ∀ (s : State) (w : Width) (a v : DWord),
    let n := w.bytes
    (∀ f, checkAccess s.cfg w a = .error f → memWrite s w a v = .error f) ∧
    (∀ f, memRead s w a = .error f ↔ checkAccess s.cfg w a = .error f) ∧
    (Accessible s w a → memWf s.mem → ∃ t, memWrite s w a v = .ok t ∧
      (∀ k, k < n → (t.byte (a.toNat + k)).toNat = (match s.cfg.byteOrder with
        | .little => v.toNat / 256 ^ k % 256
        | .big => v.toNat / 256 ^ (n - 1 - k) % 256)) ∧
      (∀ k, k < n → a.toNat + k ∈ t.written) ∧ t.pc = s.pc ∧ Frame [] [] [(a.toNat, n)] s t)

/-- Mixed widths (rule R33): the bytes and Words of a Double Word that has been written. -/
def Obligations.MixedWidths : Prop :=
  ∀ (s t : State) (a v : DWord), memWf s.mem → memWrite s .dword a v = .ok t →
    (∀ k, k < 4 → memRead t .byte (a + BitVec.ofNat 32 k) = .ok (match s.cfg.byteOrder with
      | .little => (v.extractLsb' (8 * k) 8).setWidth 32
      | .big => (v.extractLsb' (24 - 8 * k) 8).setWidth 32)) ∧
    (∀ j, j < 2 → memRead t .word (a + BitVec.ofNat 32 (2 * j)) = .ok (match s.cfg.byteOrder with
      | .little => (v.extractLsb' (16 * j) 16).setWidth 32
      | .big => (v.extractLsb' (16 - 16 * j) 16).setWidth 32)) ∧
    memRead t .dword a = .ok v

/-! ## Storage instructions -/

/-- LDR, LDRB, LDRW, LDRBS and LDRWS (rules R120, R132, R137 to R141) in every mode: the datum at the effective address,
extended, in Rd; the write-back of the mode; nothing else. -/
def Obligations.Loads : Prop :=
  ∀ (s : State) (d : Reg) (m : Mode), PointerReadable s m → ¬ SameRegister s d m →
    let ea := effectiveAddress s m
    let loads (i : Instr) (v : DWord) : Prop := ∃ t, exec i s = .next t ∧ t.reg d = v ∧ BaseWritten s t m ∧
      MovesOn i s t ∧ Frame (d :: writtenBack s m) [] [] s t
    (Accessible s .dword ea → loads (.ldr d m) (s.datum .dword ea.toNat)) ∧
    (Accessible s .byte ea → loads (.ldrb d m) ((s.byte ea.toNat).setWidth 32)) ∧
    (Accessible s .word ea → loads (.ldrw d m) (s.datum .word ea.toNat)) ∧
    (Accessible s .byte ea → loads (.ldrbs d m) ((s.byte ea.toNat).signExtend 32)) ∧
    (Accessible s .word ea →
      loads (.ldrws d m) (((s.datum .word ea.toNat).extractLsb' 0 16).signExtend 32))

/-- STR, STRB, STRW, STRBS and STRWS (rules R120, R132, R142 to R146) in every mode: the value of Rd, narrowed, at the
effective address; the write-back of the mode; nothing else. -/
def Obligations.Stores : Prop :=
  ∀ (s : State) (d : Reg) (m : Mode), PointerReadable s m → ¬ SameRegister s d m → memWf s.mem →
    let ea := effectiveAddress s m
    let x := (s.reg d).toNat
    let stores (i : Instr) (w : Width) (v : Nat) : Prop := Accessible s w ea → ∃ t, exec i s = .next t ∧
      (t.datum w ea.toNat).toNat = v ∧ BaseWritten s t m ∧ MovesOn i s t ∧
      Frame (writtenBack s m) [] [(ea.toNat, w.bytes)] s t
    stores (.str d m) .dword x ∧ stores (.strb d m) .byte (x % 2 ^ 8) ∧ stores (.strw d m) .word (x % 2 ^ 16) ∧
    stores (.strbs d m) .byte (x / 2 ^ 31 * 2 ^ 7 + x % 2 ^ 7) ∧
    stores (.strws d m) .word (x / 2 ^ 31 * 2 ^ 15 + x % 2 ^ 15)

/-- SWP with an address exchanges the register and the Double Word; ADR delivers the effective address itself and makes
no access at it (rules R135, R136). -/
def Obligations.SwapAndAddress : Prop :=
  ∀ (s : State) (d : Reg) (m : Mode), PointerReadable s m → ¬ SameRegister s d m →
    let ea := effectiveAddress s m
    (Accessible s .dword ea → memWf s.mem → ∃ t, exec (.swpMem d m) s = .next t ∧
      t.reg d = s.datum .dword ea.toNat ∧ t.datum .dword ea.toNat = s.reg d ∧ BaseWritten s t m ∧
      MovesOn (.swpMem d m) s t ∧ Frame (d :: writtenBack s m) [] [(ea.toNat, 4)] s t) ∧
    (∃ t, exec (.adr d m) s = .next t ∧ t.reg d = ea ∧ BaseWritten s t m ∧ MovesOn (.adr d m) s t ∧
      Frame (d :: writtenBack s m) [] [] s t)

/-- Write-back with the data register as base (rule R121): `fault WritebackSameRegister` for all twelve storage
instructions. Under `free`, the model's own setting (log entry 4), loads and ADR write some value to the register,
stores put some value at the effective address and still write the base back. -/
def Obligations.WriteBackSameRegister : Prop :=
  ∀ (s : State) (d : Reg) (m : Mode), SameRegister s d m →
    let ea := effectiveAddress s m
    (s.cfg.unstated = .stop → ∀ i, i = .ldr d m ∨ i = .ldrb d m ∨ i = .ldrw d m ∨ i = .ldrbs d m ∨ i = .ldrws d m ∨
      i = .str d m ∨ i = .strb d m ∨ i = .strw d m ∨ i = .strbs d m ∨ i = .strws d m ∨ i = .adr d m ∨
      i = .swpMem d m → exec i s = .fault .writebackSameRegister) ∧
    (s.cfg.unstated = .free →
      (∀ i w, (i = .ldr d m ∧ w = .dword) ∨ (i = .ldrb d m ∧ w = .byte) ∨ (i = .ldrw d m ∧ w = .word) ∨
          (i = .ldrbs d m ∧ w = .byte) ∨ (i = .ldrws d m ∧ w = .word) → Accessible s w ea →
        ∃ t, exec i s = .next t ∧ MovesOn i s t ∧ Frame [d] [.draws] [] s t) ∧
      (∀ i w, (i = .str d m ∧ w = .dword) ∨ (i = .strb d m ∧ w = .byte) ∨ (i = .strw d m ∧ w = .word) ∨
          (i = .strbs d m ∧ w = .byte) ∨ (i = .strws d m ∧ w = .word) → Accessible s w ea →
        ∃ t, exec i s = .next t ∧ BaseWritten s t m ∧ MovesOn i s t ∧
          Frame [d] [.draws] [(ea.toNat, w.bytes)] s t) ∧
      (Accessible s .dword ea → ∃ t, exec (.swpMem d m) s = .next t ∧ MovesOn (.swpMem d m) s t ∧
        Frame [d] [.draws] [(ea.toNat, 4)] s t) ∧
      (∃ t, exec (.adr d m) s = .next t ∧ MovesOn (.adr d m) s t ∧ Frame [d] [.draws] [] s t))

/-! ## Bitwise instructions -/

/-- LSL, LSR, ASR, ROL and ROR by every amount from 0 to 32 (rules R150 to R153, R156). -/
def Obligations.ShiftsAndRotates : Prop :=
  ∀ (d r : Reg) (o : Opt),
    Encodes (.lsl d r o) (fun bo => encodeRC bo 0x30 d r o) ∧ Encodes (.lsr d r o) (fun bo => encodeRC bo 0x31 d r o) ∧
    Encodes (.rol d r o) (fun bo => encodeRC bo 0x32 d r o) ∧ Encodes (.ror d r o) (fun bo => encodeRC bo 0x33 d r o) ∧
    Encodes (.asr d r o) (fun bo => encodeRC bo 0x36 d r o) ∧
    ∀ s : State,
      let n := (s.opt o).toNat
      let k := n % 32
      let x := (s.reg r).toNat
      n ≤ 32 →
        DataResult (.lsl d r o) s d (BitVec.ofNat 32 (x * 2 ^ n)) none ∧
        DataResult (.lsr d r o) s d (BitVec.ofNat 32 (x / 2 ^ n)) none ∧
        DataResult (.asr d r o) s d (BitVec.ofInt 32 ((s.reg r).toInt / 2 ^ n)) none ∧
        DataResult (.rol d r o) s d (if k = 0 then s.reg r
          else BitVec.ofNat 32 (x * 2 ^ k) ||| BitVec.ofNat 32 (x / 2 ^ (32 - k))) none ∧
        DataResult (.ror d r o) s d (if k = 0 then s.reg r
          else BitVec.ofNat 32 (x / 2 ^ k) ||| BitVec.ofNat 32 (x * 2 ^ (32 - k))) none

/-- RCL and RCR (rules R154, R155): `n` rotations by one place of the 33-bit ring whose bit 32 is C; the new C is bit 32
of the ring under every setting of `ALU_FLAGS`. -/
def Obligations.RotatesThroughCarry : Prop :=
  ∀ (s : State) (d r : Reg) (o : Opt),
    let n := (s.opt o).toNat
    let x0 := s.sr.c.toNat * 2 ^ 32 + (s.reg r).toNat
    let left := (fun x => x * 2 % 2 ^ 33 + x / 2 ^ 32)^[n] x0
    let right := (fun x => x / 2 + x % 2 * 2 ^ 32)^[n] x0
    let rotated (i : Instr) (x : Nat) : Prop := ∃ t, exec i s = .next t ∧ t.reg d = BitVec.ofNat 32 x ∧
      t.sr.c = x.testBit 32 ∧ MovesOn i s t ∧ Frame [d] aluParts [] s t ∧
      (s.cfg.aluFlags = .keep → t.sr = { s.sr with c := x.testBit 32 }) ∧
      (s.cfg.aluFlags = .set → t.sr.n = (t.reg d).getLsbD 31 ∧ (t.sr.z = true ↔ t.reg d = 0))
    n ≤ 32 → rotated (.rcl d r o) left ∧ rotated (.rcr d r o) right

/-- AND, ORR, EOR and NOT, bit by bit (rules R157 to R160). -/
def Obligations.LogicalOperations : Prop :=
  ∀ (d r : Reg) (o : Opt),
    Encodes (.and d r o) (fun bo => encodeRC bo 0x37 d r o) ∧ Encodes (.orr d r o) (fun bo => encodeRC bo 0x38 d r o) ∧
    Encodes (.eor d r o) (fun bo => encodeRC bo 0x39 d r o) ∧ Encodes (.not d r) (fun _ => [0x3A, nibbles d r]) ∧
    ∀ s : State, ∃ a b c e : DWord,
      DataResult (.and d r o) s d a none ∧ DataResult (.orr d r o) s d b none ∧
      DataResult (.eor d r o) s d c none ∧ DataResult (.not d r) s d e none ∧
      ∀ k, k < 32 →
        a.getLsbD k = ((s.reg r).getLsbD k && (s.opt o).getLsbD k) ∧
        b.getLsbD k = ((s.reg r).getLsbD k || (s.opt o).getLsbD k) ∧
        c.getLsbD k = ((s.reg r).getLsbD k != (s.opt o).getLsbD k) ∧
        e.getLsbD k = !(s.reg r).getLsbD k

/-- CLZ and CTZ count the zeros from bit 31 down and from bit 0 up, 32 for a value of 0 (rules R161, R162). -/
def Obligations.CountZeros : Prop :=
  ∀ (d r : Reg),
    Encodes (.clz d r) (fun _ => [0x3B, nibbles d r]) ∧ Encodes (.ctz d r) (fun _ => [0x3C, nibbles d r]) ∧
    ∀ s : State, ∃ n k : Nat,
      DataResult (.clz d r) s d (BitVec.ofNat 32 n) none ∧ DataResult (.ctz d r) s d (BitVec.ofNat 32 k) none ∧
      n ≤ 32 ∧ (∀ j, j < n → (s.reg r).getLsbD (31 - j) = false) ∧ (n < 32 → (s.reg r).getLsbD (31 - n) = true) ∧
      k ≤ 32 ∧ (∀ j, j < k → (s.reg r).getLsbD j = false) ∧ (k < 32 → (s.reg r).getLsbD k = true)

/-- RBIT, REVB and REVV (rules R163, R164, R165). -/
def Obligations.Reversals : Prop :=
  ∀ (d r : Reg),
    Encodes (.rbit d r) (fun _ => [0x3D, nibbles d r]) ∧ Encodes (.revb d r) (fun _ => [0x3E, nibbles d r]) ∧
    Encodes (.revv d r) (fun _ => [0x3F, nibbles d r]) ∧
    ∀ s : State, ∃ a b c : DWord,
      DataResult (.rbit d r) s d a none ∧ DataResult (.revb d r) s d b none ∧ DataResult (.revv d r) s d c none ∧
      (∀ k, k < 32 → a.getLsbD k = (s.reg r).getLsbD (31 - k)) ∧
      (∀ j, j < 4 → b.extractLsb' (8 * j) 8 = (s.reg r).extractLsb' (8 * (3 - j)) 8) ∧
      (∀ j, j < 2 → c.extractLsb' (16 * j) 16 = (s.reg r).extractLsb' (16 * (1 - j)) 16)

/-! ## Arithmetic instructions -/

/-- ADD, ADC, SUB, SBC, RSB, RSC, NEG, INC and DEC (rules R166, R170 to R175, R183 to R185): the true integer result
modulo 2^32, and the carry and overflow of the flag functions under `ALU_FLAGS = set`. -/
def Obligations.AdditionAndSubtraction : Prop :=
  ∀ (s : State) (d r : Reg) (o : Opt) (k : BitVec 4),
    let a := s.reg r
    let b := s.opt o
    let e := s.reg d
    let q : DWord := BitVec.ofNat 32 k.toNat
    let c : Int := s.sr.c.toNat
    DataResult (.add d r o) s d (BitVec.ofInt 32 (a.toNat + b.toNat)) (some (addFlags a b false)) ∧
    DataResult (.adc d r o) s d (BitVec.ofInt 32 (a.toNat + b.toNat + c)) (some (addFlags a b s.sr.c)) ∧
    DataResult (.sub d r o) s d (BitVec.ofInt 32 (a.toNat - b.toNat)) (some (subFlags a b true)) ∧
    DataResult (.sbc d r o) s d (BitVec.ofInt 32 (a.toNat - b.toNat - (1 - c))) (some (subFlags a b s.sr.c)) ∧
    DataResult (.rsb d r o) s d (BitVec.ofInt 32 (b.toNat - a.toNat)) (some (subFlags b a true)) ∧
    DataResult (.rsc d r o) s d (BitVec.ofInt 32 (b.toNat - a.toNat - (1 - c))) (some (subFlags b a s.sr.c)) ∧
    DataResult (.neg d r) s d (BitVec.ofInt 32 (0 - a.toNat)) (some (subFlags 0 a true)) ∧
    DataResult (.inc d k) s d (BitVec.ofInt 32 (e.toNat + k.toNat)) (some (addFlags e q false)) ∧
    DataResult (.dec d k) s d (BitVec.ofInt 32 (e.toNat - k.toNat)) (some (subFlags e q true))

/-- DIV, DIVS, REM and REMS where their rules give a result (rules R176 to R179): the floor of the unsigned quotient, the
signed quotient rounded toward zero, the remainders that match them. -/
def Obligations.Division : Prop :=
  ∀ (s : State) (d r : Reg) (o : Opt),
    let a := s.reg r
    let b := s.opt o
    (b ≠ 0 →
      ∃ q m : Nat, DataResult (.div d r o) s d (BitVec.ofNat 32 q) none ∧
        DataResult (.rem d r o) s d (BitVec.ofNat 32 m) none ∧ a.toNat = q * b.toNat + m ∧ m < b.toNat) ∧
    (b ≠ 0 → ¬ (a.toInt = -2 ^ 31 ∧ b.toInt = -1) →
      ∃ q m : Int, DataResult (.divs d r o) s d (BitVec.ofInt 32 q) none ∧
        DataResult (.rems d r o) s d (BitVec.ofInt 32 m) none ∧ a.toInt = b.toInt * q + m ∧
        |m| < |b.toInt| ∧ (m = 0 ∨ (m < 0 ↔ a.toInt < 0)) ∧ |q * b.toInt| ≤ |a.toInt|)

/-- Operands for which no source states a result: a shift or rotate by more than 32 places (rule R147), a divisor of 0
and -2^31 divided by -1 (rules R176 to R179): the instruction is the fault the rule names. Under `free`, the model's own
setting (log entry 4), Rd (and for RCL and RCR also C) holds some value and everything else is as for any other
operands. -/
def Obligations.UnstatedResults : Prop :=
  ∀ (s : State) (d r : Reg) (o : Opt),
    let a := s.reg r
    let b := s.opt o
    let rotates (i : Instr) : Prop := i = .rcl d r o ∨ i = .rcr d r o
    let shifts (i : Instr) : Prop := i = .lsl d r o ∨ i = .lsr d r o ∨ i = .rol d r o ∨ i = .ror d r o ∨ i = .asr d r o
    let divides (i : Instr) : Prop := i = .div d r o ∨ i = .divs d r o ∨ i = .rem d r o ∨ i = .rems d r o
    (s.cfg.unstated = .stop →
      (32 < b.toNat → ∀ i, shifts i ∨ rotates i → exec i s = .fault .shiftRange) ∧
      (b = 0 → ∀ i, divides i → exec i s = .fault .divideByZero) ∧
      (a.toInt = -2 ^ 31 → b.toInt = -1 →
        exec (.divs d r o) s = .fault .divideOverflow ∧ exec (.rems d r o) s = .fault .divideOverflow)) ∧
    (s.cfg.unstated = .free →
      (∀ i, shifts i ∨ divides i → ∃ v, DataResult i s d v none) ∧
      (∀ i, rotates i → ∃ t, exec i s = .next t ∧ MovesOn i s t ∧ Frame [d] aluParts [] s t ∧
        (s.cfg.aluFlags = .set → t.sr.n = (t.reg d).getLsbD 31 ∧ (t.sr.z = true ↔ t.reg d = 0)) ∧
        (s.cfg.aluFlags = .keep → t.sr = { s.sr with c := t.sr.c })))

/-- MUL and MULS (rules R180, R181): the product modulo 2^32 where it fits or under `MUL_OVERFLOW = wrap`, otherwise
some value; ABS (rule R182), which wraps for -2^31. -/
def Obligations.MultiplyAndAbsolute : Prop :=
  ∀ (s : State) (d r : Reg) (o : Opt),
    let a := s.reg r
    let b := s.opt o
    let p := a.toNat * b.toNat
    let ps := a.toInt * b.toInt
    (p < 2 ^ 32 ∨ s.cfg.mulOverflow = .wrap → DataResult (.mul d r o) s d (BitVec.ofNat 32 p) none) ∧
    ((-2 ^ 31 ≤ ps ∧ ps < 2 ^ 31) ∨ s.cfg.mulOverflow = .wrap →
      DataResult (.muls d r o) s d (BitVec.ofInt 32 ps) none) ∧
    (∃ v, DataResult (.mul d r o) s d v none) ∧ (∃ v, DataResult (.muls d r o) s d v none) ∧
    DataResult (.abs d r) s d (if a.toInt < 0 then BitVec.ofInt 32 (-a.toInt) else a) none

/-! ## Conversion instructions -/

/-- CFB, CFBS, CFW, CFWS, CTB, CTBS, CTW and CTWS (rules R190 to R193, R195 to R198). -/
def Obligations.Conversions : Prop :=
  ∀ (d r : Reg),
    Encodes (.cfb d r) (fun _ => [0x60, nibbles d r]) ∧ Encodes (.cfbs d r) (fun _ => [0x61, nibbles d r]) ∧
    Encodes (.cfw d r) (fun _ => [0x62, nibbles d r]) ∧ Encodes (.cfws d r) (fun _ => [0x63, nibbles d r]) ∧
    Encodes (.ctb d r) (fun _ => [0x65, nibbles d r]) ∧ Encodes (.ctbs d r) (fun _ => [0x66, nibbles d r]) ∧
    Encodes (.ctw d r) (fun _ => [0x67, nibbles d r]) ∧ Encodes (.ctws d r) (fun _ => [0x68, nibbles d r]) ∧
    ∀ s : State,
      let x := (s.reg r).toNat
      let v := (s.reg r).toInt
      DataResult (.cfb d r) s d (BitVec.ofNat 32 (x % 2 ^ 8)) none ∧
      DataResult (.cfbs d r) s d (BitVec.ofInt 32 ((x : Int).bmod (2 ^ 8))) none ∧
      DataResult (.cfw d r) s d (BitVec.ofNat 32 (x % 2 ^ 16)) none ∧
      DataResult (.cfws d r) s d (BitVec.ofInt 32 ((x : Int).bmod (2 ^ 16))) none ∧
      DataResult (.ctb d r) s d (BitVec.ofNat 32 (x % 2 ^ 8)) none ∧
      DataResult (.ctbs d r) s d (BitVec.ofNat 32 (x / 2 ^ 31 * 2 ^ 7 + x % 2 ^ 7)) none ∧
      DataResult (.ctw d r) s d (BitVec.ofNat 32 (x % 2 ^ 16)) none ∧
      DataResult (.ctws d r) s d (BitVec.ofNat 32 (x / 2 ^ 31 * 2 ^ 15 + x % 2 ^ 15)) none ∧
      (-128 ≤ v → v ≤ 127 → x / 2 ^ 31 * 2 ^ 7 + x % 2 ^ 7 = x % 2 ^ 8) ∧
      (-32768 ≤ v → v ≤ 32767 → x / 2 ^ 31 * 2 ^ 15 + x % 2 ^ 15 = x % 2 ^ 16)

/-- CFBCD and CTBCD (rules R194, R199): eight packed decimal digits to and from a number, each the inverse of the other;
operands outside their domains are `fault InvalidBcd` and `fault BcdRange`. Under `free`, the model's own setting (log
entry 4), Rd then holds some value. -/
def Obligations.PackedDecimal : Prop :=
  ∀ (s : State) (d r : Reg),
    let x := (s.reg r).toNat
    let digit (v i : Nat) : Nat := v / 16 ^ i % 16
    let number (v : Nat) : Nat := ((List.range 8).map (fun i => digit v i * 10 ^ i)).sum
    ((∀ i, i < 8 → digit x i ≤ 9) → DataResult (.cfbcd d r) s d (BitVec.ofNat 32 (number x)) none ∧
      number x ≤ 99999999) ∧
    (x ≤ 99999999 → ∃ v : DWord, DataResult (.ctbcd d r) s d v none ∧
      (∀ i, i < 8 → digit v.toNat i = x / 10 ^ i % 10) ∧ number v.toNat = x) ∧
    (∀ i, i < 8 → 9 < digit x i → s.cfg.unstated = .stop → exec (.cfbcd d r) s = .fault .invalidBcd) ∧
    (99999999 < x → s.cfg.unstated = .stop → exec (.ctbcd d r) s = .fault .bcdRange) ∧
    (s.cfg.unstated = .free → (∃ v, DataResult (.cfbcd d r) s d v none) ∧ ∃ v, DataResult (.ctbcd d r) s d v none)

/-! ## Branches, calls and jumps -/

/-- The conditions as functions of the flags, with their numbers in the encoding (rules R59, R205 to R219). -/
def Obligations.Conditions : Prop :=
  ∀ r : Sr,
    (r.holds .eq = true ↔ r.z = true) ∧ (r.holds .ne = true ↔ r.z = false) ∧
    (r.holds .cs = true ↔ r.c = true) ∧ (r.holds .cc = true ↔ r.c = false) ∧
    (r.holds .mi = true ↔ r.n = true) ∧ (r.holds .pl = true ↔ r.n = false) ∧
    (r.holds .vs = true ↔ r.v = true) ∧ (r.holds .vc = true ↔ r.v = false) ∧
    (r.holds .hi = true ↔ r.c = true ∧ r.z = false) ∧ (r.holds .ls = true ↔ r.c = false ∨ r.z = true) ∧
    (r.holds .ge = true ↔ r.n = r.v) ∧ (r.holds .lt = true ↔ r.n ≠ r.v) ∧
    (r.holds .gt = true ↔ r.z = false ∧ r.n = r.v) ∧ (r.holds .le = true ↔ r.z = true ∨ r.n ≠ r.v) ∧
    r.holds .always = true ∧
    [Cond.eq, .ne, .cs, .cc, .mi, .pl, .vs, .vc, .hi, .ls, .ge, .lt, .gt, .le, .always].map condNumber =
      [0, 1, 2, 3, 4, 5, 6, 7, 8, 9, 10, 11, 12, 13, 14]

/-- BRA and the fourteen B<cond> (rules R220, R221, R227): `pc` goes to the target when the condition holds, else to the
next instruction. JMP (rules R124 to R126, R226): `pc` goes to an address, to the Double Word at an address, to a
register's value; the indirect form stops with the fault of its read. Nothing else changes. -/
def Obligations.BranchesAndJumps : Prop :=
  ∀ s : State,
    (∀ (c : Cond) (off : BrOff),
      let offset : Int := match off with | .short w => w.toInt | .far w => w.toInt
      ∃ t, exec (branchInstr c off) s = .next t ∧
        t.pc = (if s.sr.holds c = true then BitVec.ofInt 32 (s.pc.toNat + offset)
          else s.pc + BitVec.ofNat 32 (s.lenOf (branchInstr c off))) ∧
        Frame [] [] [] s t) ∧
    (∀ addr, ∃ t, exec (.jmp (.absolute addr)) s = .next t ∧ t.pc = addr ∧ Frame [] [] [] s t) ∧
    (∀ addr, Accessible s .dword addr → ∃ t, exec (.jmp (.indirect addr)) s = .next t ∧
      t.pc = s.datum .dword addr.toNat ∧ Frame [] [] [] s t) ∧
    (∀ addr f, checkAccess s.cfg .dword addr = .error f → exec (.jmp (.indirect addr)) s = .fault f) ∧
    (∀ d, ∃ t, exec (.jmp (.reg d)) s = .next t ∧ t.pc = s.reg d ∧ Frame [] [] [] s t)

/-- JSR and the fourteen J<cond> (rules R222, R223, R227): when the condition holds the next instruction's address is
pushed and `pc` goes to the target; else only `pc` moves on. -/
def Obligations.Calls : Prop :=
  ∀ (s : State) (c : Cond) (off : BrOff),
    let offset : Int := match off with | .short w => w.toInt | .far w => w.toInt
    let next := s.pc + BitVec.ofNat 32 (s.lenOf (callInstr c off))
    (s.sr.holds c = true → Accessible s .dword (s.sp - 4) → memWf s.mem →
      ∃ t, exec (callInstr c off) s = .next t ∧ t.pc = BitVec.ofInt 32 (s.pc.toNat + offset) ∧
        t.sp = s.sp - 4 ∧ t.datum .dword (s.sp - 4).toNat = next ∧
        Frame [] [.sp] [((s.sp - 4).toNat, 4)] s t) ∧
    (s.sr.holds c = false → ∃ t, exec (callInstr c off) s = .next t ∧ t.pc = next ∧ Frame [] [] [] s t)

/-- LNK and the fourteen L<cond> (rules R224, R225, R227): when the condition holds the next instruction's address goes
to LR and `pc` to the target; else only `pc` moves on. -/
def Obligations.Links : Prop :=
  ∀ (s : State) (c : Cond) (off : BrOff),
    let offset : Int := match off with | .short w => w.toInt | .far w => w.toInt
    let next := s.pc + BitVec.ofNat 32 (s.lenOf (linkInstr c off))
    (s.sr.holds c = true →
      ∃ t, exec (linkInstr c off) s = .next t ∧ t.pc = BitVec.ofInt 32 (s.pc.toNat + offset) ∧ t.lr = next ∧
        Frame [] [.lr] [] s t) ∧
    (s.sr.holds c = false → ∃ t, exec (linkInstr c off) s = .next t ∧ t.pc = next ∧ Frame [] [] [] s t)

/-- Calls return (rules R92, R93, R222 to R225, R243): after a call, a subroutine that leaves SP and the stacked Double
Word as it found them and executes RTS comes back to the next instruction with SP as before; after SWI likewise; after a
link, a subroutine that leaves LR as it found it and executes RTL comes back too. -/
def Obligations.CallsReturn : Prop :=
  ∀ (s t u : State) (i : Instr),
    u.cfg = t.cfg → memWf s.mem → exec i s = .next t →
    ((∃ c off, i = callInstr c off ∧ s.sr.holds c = true) → u.sp = t.sp →
      u.datum .dword (s.sp - 4).toNat = t.datum .dword (s.sp - 4).toNat →
      ∃ w, exec .rts u = .next w ∧ w.pc = s.pc + BitVec.ofNat 32 (s.lenOf i) ∧ w.sp = s.sp) ∧
    ((∃ n, i = .swi n) → u.sp = t.sp → u.datum .dword (s.sp - 4).toNat = t.datum .dword (s.sp - 4).toNat →
      ∃ w, exec .rts u = .next w ∧ w.pc = s.pc + 2 ∧ w.sp = s.sp) ∧
    ((∃ c off, i = linkInstr c off ∧ s.sr.holds c = true) → u.lr = t.lr →
      ∃ w, exec .rtl u = .next w ∧ w.pc = s.pc + BitVec.ofNat 32 (s.lenOf i))

/-! ## Comparers and flag functions -/

/-- The flag functions (rules R230, R231): carry out of bit 31 and signed overflow in both of their forms; for
subtraction C is "no borrow", and `SubFlags` is `AddFlags` of the complement. -/
def Obligations.FlagFunctions : Prop :=
  ∀ (a b : DWord) (cin : Bool),
    let sum : Int := a.toInt + b.toInt + cin.toNat
    let diff : Int := a.toInt - b.toInt - (1 - (cin.toNat : Int))
    let rs : DWord := BitVec.ofNat 32 (a.toNat + b.toNat + cin.toNat)
    let rd : DWord := BitVec.ofInt 32 (a.toNat - b.toNat)
    ((addFlags a b cin).c = true ↔ 2 ^ 32 ≤ a.toNat + b.toNat + cin.toNat) ∧
    ((addFlags a b cin).v = true ↔ sum < -2 ^ 31 ∨ 2 ^ 31 - 1 < sum) ∧
    ((addFlags a b cin).v = true ↔ a.getLsbD 31 = b.getLsbD 31 ∧ rs.getLsbD 31 ≠ a.getLsbD 31) ∧
    ((subFlags a b cin).c = true ↔ 0 ≤ (a.toNat : Int) - b.toNat - (1 - (cin.toNat : Int))) ∧
    ((subFlags a b cin).v = true ↔ diff < -2 ^ 31 ∨ 2 ^ 31 - 1 < diff) ∧
    subFlags a b cin = addFlags a (~~~b) cin ∧
    ((subFlags a b true).c = true ↔ b.toNat ≤ a.toNat) ∧
    ((subFlags a b true).v = true ↔ a.getLsbD 31 ≠ b.getLsbD 31 ∧ rd.getLsbD 31 ≠ a.getLsbD 31)

/-- CMP, CMN, TST and TEQ (rules R232 to R235): the four flags and `pc`, no register; TST and TEQ leave C and V
arbitrary. -/
def Obligations.Comparers : Prop :=
  ∀ (r : Reg) (o : Opt),
    Encodes (.cmp r o) (fun bo => encodeRC bo 0x80 0 r o) ∧ Encodes (.cmn r o) (fun bo => encodeRC bo 0x81 0 r o) ∧
    Encodes (.tst r o) (fun bo => encodeRC bo 0x82 0 r o) ∧ Encodes (.teq r o) (fun bo => encodeRC bo 0x83 0 r o) ∧
    ∀ s : State,
      let a := s.reg r
      let b := s.opt o
      let nz (t : State) (v : DWord) : Prop := t.sr.n = v.getLsbD 31 ∧ (t.sr.z = true ↔ v = 0)
      (∃ t, exec (.cmp r o) s = .next t ∧ nz t (BitVec.ofInt 32 (a.toNat - b.toNat)) ∧
        t.sr.c = (subFlags a b true).c ∧ t.sr.v = (subFlags a b true).v ∧ MovesOn (.cmp r o) s t ∧
        Frame [] [.n, .z, .c, .v] [] s t) ∧
      (∃ t, exec (.cmn r o) s = .next t ∧ nz t (BitVec.ofNat 32 (a.toNat + b.toNat)) ∧
        t.sr.c = (addFlags a b false).c ∧ t.sr.v = (addFlags a b false).v ∧ MovesOn (.cmn r o) s t ∧
        Frame [] [.n, .z, .c, .v] [] s t) ∧
      (∃ t, exec (.tst r o) s = .next t ∧ nz t (a &&& b) ∧ MovesOn (.tst r o) s t ∧
        Frame [] [.n, .z, .c, .v, .draws] [] s t) ∧
      (∃ t, exec (.teq r o) s = .next t ∧ nz t (a ^^^ b) ∧ MovesOn (.teq r o) s t ∧
        Frame [] [.n, .z, .c, .v, .draws] [] s t)

/-- The conditions after CMP have the meanings of the source's table (rules R219, R232, R236); after CMN and TEQ, EQ has
the meaning of its rule (rules R233, R235). -/
def Obligations.ConditionsAfterCompare : Prop :=
  ∀ (s t : State) (r : Reg) (o : Opt),
    let a := s.reg r
    let b := s.opt o
    (exec (.cmp r o) s = .next t →
      (t.sr.holds .eq = true ↔ a = b) ∧ (t.sr.holds .ne = true ↔ a ≠ b) ∧
      (t.sr.holds .cs = true ↔ b.toNat ≤ a.toNat) ∧ (t.sr.holds .cc = true ↔ a.toNat < b.toNat) ∧
      (t.sr.holds .hi = true ↔ b.toNat < a.toNat) ∧ (t.sr.holds .ls = true ↔ a.toNat ≤ b.toNat) ∧
      (t.sr.holds .ge = true ↔ b.toInt ≤ a.toInt) ∧ (t.sr.holds .lt = true ↔ a.toInt < b.toInt) ∧
      (t.sr.holds .gt = true ↔ b.toInt < a.toInt) ∧ (t.sr.holds .le = true ↔ a.toInt ≤ b.toInt)) ∧
    (exec (.cmn r o) s = .next t → (t.sr.holds .eq = true ↔ a = 0 - b)) ∧
    (exec (.teq r o) s = .next t → (t.sr.holds .eq = true ↔ a = b) ∧
      (t.sr.holds .mi = true ↔ a.getLsbD 31 ≠ b.getLsbD 31))

/-! ## RAND and SEED -/

/-- RAND writes some value to Rd and to `seed`; SEED copies Rn to `seed` (rules R250, R251). -/
def Obligations.RandomAndSeed : Prop :=
  ∀ (s : State) (d r : Reg),
    (∃ t, exec (.rand d r) s = .next t ∧ MovesBy 2 (.rand d r) s t ∧ Frame [d] [.seed, .draws] [] s t) ∧
    (∃ t, exec (.seed r) s = .next t ∧ t.seed = s.reg r ∧ MovesBy 2 (.seed r) s t ∧ Frame [] [.seed] [] s t)
end

