-- ==== Sys2Proof/Laws/Bytes.lean ====
section
/-! SUPPORT. Bytes, nibbles and multi-byte values: each construction and its inverse (`20_memory.md` rule R35). -/

namespace Sys2Proof

/-- A Double Word is its four bytes. -/
theorem append_extract_dword (v : DWord) :
    (v.extractLsb' 24 8 ++ v.extractLsb' 16 8 ++ v.extractLsb' 8 8 ++ v.extractLsb' 0 8 : DWord) = v := by
  apply BitVec.eq_of_getLsbD_eq
  intro i hi
  simp only [BitVec.getLsbD_append, BitVec.getLsbD_extractLsb']
  split
  · simp_all
  split
  · have h : i - 8 < 8 := by omega
    have h' : 8 + (i - 8) = i := by omega
    simp [h, h']
  split
  · have h : i - 8 - 8 < 8 := by omega
    have h' : 16 + (i - 8 - 8) = i := by omega
    simp [h, h']
  · have h : i - 8 - 8 - 8 < 8 := by omega
    have h' : 24 + (i - 8 - 8 - 8) = i := by omega
    simp [h, h']

/-- A Word is its two bytes. -/
theorem append_extract_word (v : Word) : (v.extractLsb' 8 8 ++ v.extractLsb' 0 8 : Word) = v := by
  apply BitVec.eq_of_getLsbD_eq
  intro i hi
  simp only [BitVec.getLsbD_append, BitVec.getLsbD_extractLsb']
  split
  · simp_all
  · have h : i - 8 < 8 := by omega
    have h' : 8 + (i - 8) = i := by omega
    simp [h, h']

/-- `Word` is the inverse of `Bytes` for n = 4. -/
theorem dwordOf_of_dwordBytes (bo : ByteOrder) (v : DWord) (b0 b1 b2 b3 : Byte)
    (h : dwordBytes bo v = [b0, b1, b2, b3]) : dwordOf bo b0 b1 b2 b3 = v := by
  cases bo <;> simp only [dwordBytes, List.cons.injEq, and_true] at h <;> obtain ⟨rfl, rfl, rfl, rfl⟩ := h <;>
    exact append_extract_dword v

/-- `Word` is the inverse of `Bytes` for n = 2. -/
theorem wordOf_of_wordBytes (bo : ByteOrder) (v : Word) (b0 b1 : Byte) (h : wordBytes bo v = [b0, b1]) :
    wordOf bo b0 b1 = v := by
  cases bo <;> simp only [wordBytes, List.cons.injEq, and_true] at h <;> obtain ⟨rfl, rfl⟩ := h <;>
    exact append_extract_word v

theorem dwordBytes_length (bo : ByteOrder) (v : DWord) : (dwordBytes bo v).length = 4 := by cases bo <;> rfl

theorem wordBytes_length (bo : ByteOrder) (v : Word) : (wordBytes bo v).length = 2 := by cases bo <;> rfl

@[simp] theorem hiNibble_nibbles (x y : Reg) : hiNibble (nibbles x y) = x := by
  revert x y; decide

@[simp] theorem loNibble_nibbles (x y : Reg) : loNibble (nibbles x y) = y := by
  revert x y; decide

@[simp] theorem nibbles_hi_lo (b : Byte) : nibbles (hiNibble b) (loNibble b) = b := by
  revert b; decide

/-! ## As numbers -/

theorem toNat_append {m n : Nat} (x : BitVec m) (y : BitVec n) : (x ++ y).toNat = x.toNat * 2 ^ n + y.toNat := by
  rw [BitVec.toNat_append, Nat.shiftLeft_eq, ← Nat.shiftLeft_eq, Nat.shiftLeft_add_eq_or_of_lt y.isLt]

theorem toNat_append_dword (b0 b1 b2 b3 : Byte) : (b3 ++ b2 ++ b1 ++ b0).toNat =
    b0.toNat + b1.toNat * 256 + b2.toNat * 65536 + b3.toNat * 16777216 := by
  rw [toNat_append, toNat_append, toNat_append]; omega

theorem toNat_append_word (b0 b1 : Byte) : (b1 ++ b0).toNat = b0.toNat + b1.toNat * 256 := by
  rw [toNat_append]; omega

end Sys2Proof
end

