-- ==== Sys2Proof/Laws/State.lean ====
section
/-! SUPPORT. One lemma per field per update of the state, true by definition and for `simp`, so that no proof unfolds a
record update. -/

namespace Sys2Proof.Machine

/-! ## `setReg` -/

@[simp] theorem setReg_pc (s : State) (r : Reg) (v : DWord) : (s.setReg r v).pc = s.pc := rfl
@[simp] theorem setReg_sp (s : State) (r : Reg) (v : DWord) : (s.setReg r v).sp = s.sp := rfl
@[simp] theorem setReg_fp (s : State) (r : Reg) (v : DWord) : (s.setReg r v).fp = s.fp := rfl
@[simp] theorem setReg_lr (s : State) (r : Reg) (v : DWord) : (s.setReg r v).lr = s.lr := rfl
@[simp] theorem setReg_sr (s : State) (r : Reg) (v : DWord) : (s.setReg r v).sr = s.sr := rfl
@[simp] theorem setReg_seed (s : State) (r : Reg) (v : DWord) : (s.setReg r v).seed = s.seed := rfl
@[simp] theorem setReg_halted (s : State) (r : Reg) (v : DWord) : (s.setReg r v).halted = s.halted := rfl
@[simp] theorem setReg_waiting (s : State) (r : Reg) (v : DWord) : (s.setReg r v).waiting = s.waiting := rfl
@[simp] theorem setReg_mem (s : State) (r : Reg) (v : DWord) : (s.setReg r v).mem = s.mem := rfl
@[simp] theorem setReg_written (s : State) (r : Reg) (v : DWord) : (s.setReg r v).written = s.written := rfl
@[simp] theorem setReg_cfg (s : State) (r : Reg) (v : DWord) : (s.setReg r v).cfg = s.cfg := rfl
@[simp] theorem setReg_oracle (s : State) (r : Reg) (v : DWord) : (s.setReg r v).oracle = s.oracle := rfl
@[simp] theorem setReg_draws (s : State) (r : Reg) (v : DWord) : (s.setReg r v).draws = s.draws := rfl

/-! ## `advance` -/

@[simp] theorem advance_regs (s : State) (n : Nat) : (s.advance n).regs = s.regs := rfl
@[simp] theorem advance_sp (s : State) (n : Nat) : (s.advance n).sp = s.sp := rfl
@[simp] theorem advance_fp (s : State) (n : Nat) : (s.advance n).fp = s.fp := rfl
@[simp] theorem advance_lr (s : State) (n : Nat) : (s.advance n).lr = s.lr := rfl
@[simp] theorem advance_sr (s : State) (n : Nat) : (s.advance n).sr = s.sr := rfl
@[simp] theorem advance_seed (s : State) (n : Nat) : (s.advance n).seed = s.seed := rfl
@[simp] theorem advance_halted (s : State) (n : Nat) : (s.advance n).halted = s.halted := rfl
@[simp] theorem advance_waiting (s : State) (n : Nat) : (s.advance n).waiting = s.waiting := rfl
@[simp] theorem advance_mem (s : State) (n : Nat) : (s.advance n).mem = s.mem := rfl
@[simp] theorem advance_written (s : State) (n : Nat) : (s.advance n).written = s.written := rfl
@[simp] theorem advance_cfg (s : State) (n : Nat) : (s.advance n).cfg = s.cfg := rfl
@[simp] theorem advance_oracle (s : State) (n : Nat) : (s.advance n).oracle = s.oracle := rfl
@[simp] theorem advance_draws (s : State) (n : Nat) : (s.advance n).draws = s.draws := rfl

/-! ## `aluFlags` -/

@[simp] theorem aluFlags_regs (s : State) (v : DWord) (k : CVRule) : (s.aluFlags v k).regs = s.regs := rfl
@[simp] theorem aluFlags_pc (s : State) (v : DWord) (k : CVRule) : (s.aluFlags v k).pc = s.pc := rfl
@[simp] theorem aluFlags_sp (s : State) (v : DWord) (k : CVRule) : (s.aluFlags v k).sp = s.sp := rfl
@[simp] theorem aluFlags_fp (s : State) (v : DWord) (k : CVRule) : (s.aluFlags v k).fp = s.fp := rfl
@[simp] theorem aluFlags_lr (s : State) (v : DWord) (k : CVRule) : (s.aluFlags v k).lr = s.lr := rfl
@[simp] theorem aluFlags_seed (s : State) (v : DWord) (k : CVRule) : (s.aluFlags v k).seed = s.seed := rfl
@[simp] theorem aluFlags_halted (s : State) (v : DWord) (k : CVRule) : (s.aluFlags v k).halted = s.halted := rfl
@[simp] theorem aluFlags_waiting (s : State) (v : DWord) (k : CVRule) : (s.aluFlags v k).waiting = s.waiting := rfl
@[simp] theorem aluFlags_mem (s : State) (v : DWord) (k : CVRule) : (s.aluFlags v k).mem = s.mem := rfl
@[simp] theorem aluFlags_written (s : State) (v : DWord) (k : CVRule) : (s.aluFlags v k).written = s.written := rfl
@[simp] theorem aluFlags_cfg (s : State) (v : DWord) (k : CVRule) : (s.aluFlags v k).cfg = s.cfg := rfl
@[simp] theorem aluFlags_oracle (s : State) (v : DWord) (k : CVRule) : (s.aluFlags v k).oracle = s.oracle := rfl

/-! ## `compareFlags` -/

@[simp] theorem compareFlags_regs (s : State) (v : DWord) (f : CV) : (s.compareFlags v f).regs = s.regs := rfl
@[simp] theorem compareFlags_pc (s : State) (v : DWord) (f : CV) : (s.compareFlags v f).pc = s.pc := rfl
@[simp] theorem compareFlags_sp (s : State) (v : DWord) (f : CV) : (s.compareFlags v f).sp = s.sp := rfl
@[simp] theorem compareFlags_fp (s : State) (v : DWord) (f : CV) : (s.compareFlags v f).fp = s.fp := rfl
@[simp] theorem compareFlags_lr (s : State) (v : DWord) (f : CV) : (s.compareFlags v f).lr = s.lr := rfl
@[simp] theorem compareFlags_seed (s : State) (v : DWord) (f : CV) : (s.compareFlags v f).seed = s.seed := rfl
@[simp] theorem compareFlags_halted (s : State) (v : DWord) (f : CV) : (s.compareFlags v f).halted = s.halted := rfl
@[simp] theorem compareFlags_waiting (s : State) (v : DWord) (f : CV) : (s.compareFlags v f).waiting = s.waiting := rfl
@[simp] theorem compareFlags_mem (s : State) (v : DWord) (f : CV) : (s.compareFlags v f).mem = s.mem := rfl
@[simp] theorem compareFlags_written (s : State) (v : DWord) (f : CV) : (s.compareFlags v f).written = s.written := rfl
@[simp] theorem compareFlags_cfg (s : State) (v : DWord) (f : CV) : (s.compareFlags v f).cfg = s.cfg := rfl
@[simp] theorem compareFlags_oracle (s : State) (v : DWord) (f : CV) : (s.compareFlags v f).oracle = s.oracle := rfl
@[simp] theorem compareFlags_draws (s : State) (v : DWord) (f : CV) : (s.compareFlags v f).draws = s.draws := rfl

/-! ## `writeSr` -/

@[simp] theorem writeSr_regs (s : State) (v : DWord) : (s.writeSr v).regs = s.regs := rfl
@[simp] theorem writeSr_pc (s : State) (v : DWord) : (s.writeSr v).pc = s.pc := rfl
@[simp] theorem writeSr_sp (s : State) (v : DWord) : (s.writeSr v).sp = s.sp := rfl
@[simp] theorem writeSr_fp (s : State) (v : DWord) : (s.writeSr v).fp = s.fp := rfl
@[simp] theorem writeSr_lr (s : State) (v : DWord) : (s.writeSr v).lr = s.lr := rfl
@[simp] theorem writeSr_seed (s : State) (v : DWord) : (s.writeSr v).seed = s.seed := rfl
@[simp] theorem writeSr_halted (s : State) (v : DWord) : (s.writeSr v).halted = s.halted := rfl
@[simp] theorem writeSr_waiting (s : State) (v : DWord) : (s.writeSr v).waiting = s.waiting := rfl
@[simp] theorem writeSr_mem (s : State) (v : DWord) : (s.writeSr v).mem = s.mem := rfl
@[simp] theorem writeSr_written (s : State) (v : DWord) : (s.writeSr v).written = s.written := rfl
@[simp] theorem writeSr_cfg (s : State) (v : DWord) : (s.writeSr v).cfg = s.cfg := rfl
@[simp] theorem writeSr_oracle (s : State) (v : DWord) : (s.writeSr v).oracle = s.oracle := rfl
@[simp] theorem writeSr_draws (s : State) (v : DWord) : (s.writeSr v).draws = s.draws := rfl

/-! ## `store` -/

@[simp] theorem store_regs (s : State) (w : Width) (a v : DWord) : (s.store w a v).regs = s.regs := rfl
@[simp] theorem store_pc (s : State) (w : Width) (a v : DWord) : (s.store w a v).pc = s.pc := rfl
@[simp] theorem store_sp (s : State) (w : Width) (a v : DWord) : (s.store w a v).sp = s.sp := rfl
@[simp] theorem store_fp (s : State) (w : Width) (a v : DWord) : (s.store w a v).fp = s.fp := rfl
@[simp] theorem store_lr (s : State) (w : Width) (a v : DWord) : (s.store w a v).lr = s.lr := rfl
@[simp] theorem store_sr (s : State) (w : Width) (a v : DWord) : (s.store w a v).sr = s.sr := rfl
@[simp] theorem store_seed (s : State) (w : Width) (a v : DWord) : (s.store w a v).seed = s.seed := rfl
@[simp] theorem store_halted (s : State) (w : Width) (a v : DWord) : (s.store w a v).halted = s.halted := rfl
@[simp] theorem store_waiting (s : State) (w : Width) (a v : DWord) : (s.store w a v).waiting = s.waiting := rfl
@[simp] theorem store_cfg (s : State) (w : Width) (a v : DWord) : (s.store w a v).cfg = s.cfg := rfl
@[simp] theorem store_oracle (s : State) (w : Width) (a v : DWord) : (s.store w a v).oracle = s.oracle := rfl
@[simp] theorem store_draws (s : State) (w : Width) (a v : DWord) : (s.store w a v).draws = s.draws := rfl

/-! ## `withSr` -/

@[simp] theorem withSr_regs (s : State) (n : Nat) (r : Sr) : (s.withSr n r).regs = s.regs := rfl
@[simp] theorem withSr_sp (s : State) (n : Nat) (r : Sr) : (s.withSr n r).sp = s.sp := rfl
@[simp] theorem withSr_fp (s : State) (n : Nat) (r : Sr) : (s.withSr n r).fp = s.fp := rfl
@[simp] theorem withSr_lr (s : State) (n : Nat) (r : Sr) : (s.withSr n r).lr = s.lr := rfl
@[simp] theorem withSr_seed (s : State) (n : Nat) (r : Sr) : (s.withSr n r).seed = s.seed := rfl
@[simp] theorem withSr_halted (s : State) (n : Nat) (r : Sr) : (s.withSr n r).halted = s.halted := rfl
@[simp] theorem withSr_waiting (s : State) (n : Nat) (r : Sr) : (s.withSr n r).waiting = s.waiting := rfl
@[simp] theorem withSr_mem (s : State) (n : Nat) (r : Sr) : (s.withSr n r).mem = s.mem := rfl
@[simp] theorem withSr_written (s : State) (n : Nat) (r : Sr) : (s.withSr n r).written = s.written := rfl
@[simp] theorem withSr_cfg (s : State) (n : Nat) (r : Sr) : (s.withSr n r).cfg = s.cfg := rfl
@[simp] theorem withSr_oracle (s : State) (n : Nat) (r : Sr) : (s.withSr n r).oracle = s.oracle := rfl
@[simp] theorem withSr_draws (s : State) (n : Nat) (r : Sr) : (s.withSr n r).draws = s.draws := rfl

/-! ## `afterAnswer` -/

@[simp] theorem afterAnswer_regs (s : State) : (s.afterAnswer).regs = s.regs := rfl
@[simp] theorem afterAnswer_pc (s : State) : (s.afterAnswer).pc = s.pc := rfl
@[simp] theorem afterAnswer_sp (s : State) : (s.afterAnswer).sp = s.sp := rfl
@[simp] theorem afterAnswer_fp (s : State) : (s.afterAnswer).fp = s.fp := rfl
@[simp] theorem afterAnswer_lr (s : State) : (s.afterAnswer).lr = s.lr := rfl
@[simp] theorem afterAnswer_sr (s : State) : (s.afterAnswer).sr = s.sr := rfl
@[simp] theorem afterAnswer_seed (s : State) : (s.afterAnswer).seed = s.seed := rfl
@[simp] theorem afterAnswer_halted (s : State) : (s.afterAnswer).halted = s.halted := rfl
@[simp] theorem afterAnswer_waiting (s : State) : (s.afterAnswer).waiting = s.waiting := rfl
@[simp] theorem afterAnswer_mem (s : State) : (s.afterAnswer).mem = s.mem := rfl
@[simp] theorem afterAnswer_written (s : State) : (s.afterAnswer).written = s.written := rfl
@[simp] theorem afterAnswer_cfg (s : State) : (s.afterAnswer).cfg = s.cfg := rfl
@[simp] theorem afterAnswer_draws (s : State) : (s.afterAnswer).draws = s.draws := rfl

/-! ## `drawDWord_snd` -/

@[simp] theorem drawDWord_snd_regs (s : State) : (s.drawDWord.2).regs = s.regs := rfl
@[simp] theorem drawDWord_snd_pc (s : State) : (s.drawDWord.2).pc = s.pc := rfl
@[simp] theorem drawDWord_snd_sp (s : State) : (s.drawDWord.2).sp = s.sp := rfl
@[simp] theorem drawDWord_snd_fp (s : State) : (s.drawDWord.2).fp = s.fp := rfl
@[simp] theorem drawDWord_snd_lr (s : State) : (s.drawDWord.2).lr = s.lr := rfl
@[simp] theorem drawDWord_snd_sr (s : State) : (s.drawDWord.2).sr = s.sr := rfl
@[simp] theorem drawDWord_snd_seed (s : State) : (s.drawDWord.2).seed = s.seed := rfl
@[simp] theorem drawDWord_snd_halted (s : State) : (s.drawDWord.2).halted = s.halted := rfl
@[simp] theorem drawDWord_snd_waiting (s : State) : (s.drawDWord.2).waiting = s.waiting := rfl
@[simp] theorem drawDWord_snd_mem (s : State) : (s.drawDWord.2).mem = s.mem := rfl
@[simp] theorem drawDWord_snd_written (s : State) : (s.drawDWord.2).written = s.written := rfl
@[simp] theorem drawDWord_snd_cfg (s : State) : (s.drawDWord.2).cfg = s.cfg := rfl
@[simp] theorem drawDWord_snd_oracle (s : State) : (s.drawDWord.2).oracle = s.oracle := rfl

/-! ## `drawBit_snd` -/

@[simp] theorem drawBit_snd_regs (s : State) : (s.drawBit.2).regs = s.regs := rfl
@[simp] theorem drawBit_snd_pc (s : State) : (s.drawBit.2).pc = s.pc := rfl
@[simp] theorem drawBit_snd_sp (s : State) : (s.drawBit.2).sp = s.sp := rfl
@[simp] theorem drawBit_snd_fp (s : State) : (s.drawBit.2).fp = s.fp := rfl
@[simp] theorem drawBit_snd_lr (s : State) : (s.drawBit.2).lr = s.lr := rfl
@[simp] theorem drawBit_snd_sr (s : State) : (s.drawBit.2).sr = s.sr := rfl
@[simp] theorem drawBit_snd_seed (s : State) : (s.drawBit.2).seed = s.seed := rfl
@[simp] theorem drawBit_snd_halted (s : State) : (s.drawBit.2).halted = s.halted := rfl
@[simp] theorem drawBit_snd_waiting (s : State) : (s.drawBit.2).waiting = s.waiting := rfl
@[simp] theorem drawBit_snd_mem (s : State) : (s.drawBit.2).mem = s.mem := rfl
@[simp] theorem drawBit_snd_written (s : State) : (s.drawBit.2).written = s.written := rfl
@[simp] theorem drawBit_snd_cfg (s : State) : (s.drawBit.2).cfg = s.cfg := rfl
@[simp] theorem drawBit_snd_oracle (s : State) : (s.drawBit.2).oracle = s.oracle := rfl

/-! ## `launch`, the start of a run -/

@[simp] theorem launch_pc (c : Cfg) (o : IntOracle) : (State.launch c o).pc = c.entry := rfl
@[simp] theorem launch_sp (c : Cfg) (o : IntOracle) : (State.launch c o).sp = 0 := rfl
@[simp] theorem launch_fp (c : Cfg) (o : IntOracle) : (State.launch c o).fp = 0 := rfl
@[simp] theorem launch_lr (c : Cfg) (o : IntOracle) : (State.launch c o).lr = 0 := rfl
@[simp] theorem launch_seed (c : Cfg) (o : IntOracle) : (State.launch c o).seed = 0 := rfl
@[simp] theorem launch_halted (c : Cfg) (o : IntOracle) : (State.launch c o).halted = false := rfl
@[simp] theorem launch_waiting (c : Cfg) (o : IntOracle) : (State.launch c o).waiting = false := rfl
@[simp] theorem launch_mem (c : Cfg) (o : IntOracle) : (State.launch c o).mem = [] := rfl
@[simp] theorem launch_written (c : Cfg) (o : IntOracle) : (State.launch c o).written = [] := rfl
@[simp] theorem launch_cfg (c : Cfg) (o : IntOracle) : (State.launch c o).cfg = c := rfl
@[simp] theorem launch_oracle (c : Cfg) (o : IntOracle) : (State.launch c o).oracle = o := rfl
@[simp] theorem launch_draws (c : Cfg) (o : IntOracle) : (State.launch c o).draws = 0 := rfl
@[simp] theorem launch_sr (c : Cfg) (o : IntOracle) :
    (State.launch c o).sr = { n := false, z := false, c := false, v := false, i := false } := rfl
theorem reset_eq : State.reset = State.launch defaultCfg .never := rfl

/-! ## The length of an instruction -/

@[simp] theorem afterAnswer_lenOf (s : State) (i : Instr) : s.afterAnswer.lenOf i = s.lenOf i := rfl
theorem lenOf_congr {s t : State} (h : t.cfg = s.cfg) (i : Instr) : t.lenOf i = s.lenOf i := by
  simp only [State.lenOf, h]
theorem lenOf_section3 {s : State} (h : s.cfg.encoding = .section3) (i : Instr) : s.lenOf i = i.len := by
  simp only [State.lenOf, h, Encoding.len]

/-! ## What an update changes -/

@[simp] theorem advance_pc (s : State) (n : Nat) : (s.advance n).pc = s.nextPc n := rfl
@[simp] theorem aluFlags_draws (s : State) (v : DWord) (k : CVRule) : (s.aluFlags v k).draws = s.draws + 4 := rfl
@[simp] theorem compareFlags_sr (s : State) (v : DWord) (f : CV) :
    (s.compareFlags v f).sr = { n := v.msb, z := v == 0, c := f.c, v := f.v, i := s.sr.i } := rfl
@[simp] theorem writeSr_sr (s : State) (v : DWord) : (s.writeSr v).sr = Sr.ofImage s.cfg.srLayout v := rfl
@[simp] theorem withSr_sr (s : State) (n : Nat) (r : Sr) : (s.withSr n r).sr = r := rfl
@[simp] theorem withSr_pc (s : State) (n : Nat) (r : Sr) : (s.withSr n r).pc = s.nextPc n := rfl
@[simp] theorem afterAnswer_oracle (s : State) : s.afterAnswer.oracle = s.oracle.after s.pendingTrap := rfl
@[simp] theorem drawDWord_fst (s : State) : s.drawDWord.1 = Config.freeDWord s.draws := rfl
@[simp] theorem drawBit_fst (s : State) : s.drawBit.1 = Config.freeBit s.draws := rfl
@[simp] theorem drawDWord_draws (s : State) : s.drawDWord.2.draws = s.draws + 1 := rfl
@[simp] theorem drawBit_draws (s : State) : s.drawBit.2.draws = s.draws + 1 := rfl

/-- The interrupt enable is no business of the data-processing flags (rule R23). -/
@[simp] theorem aluFlags_sr_i (s : State) (v : DWord) (k : CVRule) : (s.aluFlags v k).sr.i = s.sr.i := by
  cases k <;> simp only [State.aluFlags] <;> cases s.cfg.aluFlags <;> rfl

/-! ## `IntOracle` -/

@[simp] theorem never_after (k : Option TrapKind) : IntOracle.never.after k = .never := rfl
@[simp] theorem never_answer : IntOracle.never.answer = quietAnswer := rfl
@[simp] theorem cons_answer (a : IntAnswer) (l : List IntAnswer) (o : IntSource) :
    (IntOracle.mk (a :: l) o).answer = a := rfl
@[simp] theorem free_answer (n : Nat) (h : List (Option TrapKind)) :
    (IntOracle.mk [] (.free n h)).answer = Config.freeAnswer n h := rfl
@[simp] theorem free_after (l : List IntAnswer) (n : Nat) (h : List (Option TrapKind)) (k : Option TrapKind) :
    (IntOracle.mk l (.free n h)).after k = ⟨l.tail, .free n (k :: h)⟩ := by cases l <;> rfl

/-- A list of answers that is given over and over, read through once (rule R261). -/
theorem cycle_after (a : IntAnswer) (l : List IntAnswer) (k : Option TrapKind) :
    (IntOracle.mk [] (.cycle (a :: l))).answer = a ∧
    (IntOracle.mk [] (.cycle (a :: l))).after k = ⟨l, .cycle (a :: l)⟩ := ⟨rfl, rfl⟩

/-- An answer that is held stays. -/
@[simp] theorem held_after (a : IntAnswer) (k : Option TrapKind) :
    (IntOracle.mk [] (.cycle [a])).after k = ⟨[], .cycle [a]⟩ := rfl

/-! ## Registers -/

@[simp] theorem launch_reg (c : Cfg) (o : IntOracle) (r : Reg) : (State.launch c o).reg r = 0 := by
  simp [State.reg, State.launch, Vector.get_eq_getElem]

theorem reg_eq (s t : State) (h : s.regs = t.regs) (r : Reg) : s.reg r = t.reg r := by rw [State.reg, State.reg, h]

theorem reg_setReg (s : State) (d r : Reg) (v : DWord) :
    (s.setReg d v).reg r = if r = d then v else s.reg r := by
  simp only [State.reg, State.setReg, Vector.get_eq_getElem, Vector.getElem_set]
  by_cases h : d = r
  · subst h; simp
  · have : d.val ≠ r.val := fun hv => h (Fin.ext hv)
    simp [this, Ne.symm h]

@[simp] theorem reg_setReg_same (s : State) (d : Reg) (v : DWord) : (s.setReg d v).reg d = v := by simp [reg_setReg]

theorem reg_setReg_ne (s : State) (d r : Reg) (v : DWord) (h : r ≠ d) : (s.setReg d v).reg r = s.reg r := by
  simp [reg_setReg, h]

@[simp] theorem setReg_reg_self (s : State) (d : Reg) : s.setReg d (s.reg d) = s := by
  simp [State.setReg, State.reg, Vector.get_eq_getElem]

@[simp] theorem advance_reg (s : State) (n : Nat) (k : Reg) : (s.advance n).reg k = s.reg k := rfl
@[simp] theorem aluFlags_reg (s : State) (v : DWord) (c : CVRule) (k : Reg) : (s.aluFlags v c).reg k = s.reg k := rfl
@[simp] theorem compareFlags_reg (s : State) (v : DWord) (f : CV) (k : Reg) : (s.compareFlags v f).reg k = s.reg k := rfl
@[simp] theorem writeSr_reg (s : State) (v : DWord) (k : Reg) : (s.writeSr v).reg k = s.reg k := rfl
@[simp] theorem store_reg (s : State) (w : Width) (a v : DWord) (k : Reg) : (s.store w a v).reg k = s.reg k := rfl
@[simp] theorem withSr_reg (s : State) (n : Nat) (r : Sr) (k : Reg) : (s.withSr n r).reg k = s.reg k := rfl
@[simp] theorem afterAnswer_reg (s : State) (k : Reg) : (s.afterAnswer).reg k = s.reg k := rfl
@[simp] theorem drawDWord_snd_reg (s : State) (k : Reg) : (s.drawDWord.2).reg k = s.reg k := rfl
@[simp] theorem drawBit_snd_reg (s : State) (k : Reg) : (s.drawBit.2).reg k = s.reg k := rfl

/-! ## Values read from the state -/

@[simp] theorem setReg_byte (s : State) (r : Reg) (v : DWord) (a : Nat) : (s.setReg r v).byte a = s.byte a := rfl
@[simp] theorem advance_byte (s : State) (n : Nat) (a : Nat) : (s.advance n).byte a = s.byte a := rfl
@[simp] theorem aluFlags_byte (s : State) (v : DWord) (c : CVRule) (a : Nat) : (s.aluFlags v c).byte a = s.byte a := rfl
@[simp] theorem compareFlags_byte (s : State) (v : DWord) (f : CV) (a : Nat) : (s.compareFlags v f).byte a = s.byte a := rfl
@[simp] theorem writeSr_byte (s : State) (v : DWord) (a : Nat) : (s.writeSr v).byte a = s.byte a := rfl
@[simp] theorem withSr_byte (s : State) (n : Nat) (r : Sr) (a : Nat) : (s.withSr n r).byte a = s.byte a := rfl
@[simp] theorem afterAnswer_byte (s : State) (a : Nat) : (s.afterAnswer).byte a = s.byte a := rfl
@[simp] theorem drawDWord_snd_byte (s : State) (a : Nat) : (s.drawDWord.2).byte a = s.byte a := rfl
@[simp] theorem drawBit_snd_byte (s : State) (a : Nat) : (s.drawBit.2).byte a = s.byte a := rfl

end Sys2Proof.Machine
end

