-- ==== Sys2Proof/Laws/Memory.lean ====
section
/-! SUPPORT. The laws of memory: what a read gives after a write, that every write keeps the canonical form, what the
primitives of rules R36 and R37 can answer, and that a stored datum reads back. -/

namespace Sys2Proof.Machine

/-! ## One byte -/

theorem readByte_eq_unlisted (m : List Host.Cell) (a : Nat) (h : ∀ p ∈ m, p.1 ≠ a) :
    readByte m a = unlistedByte := by
  induction m with
  | nil => rfl
  | cons p t ih =>
    obtain ⟨k, b⟩ := p
    have hk : k ≠ a := h (k, b) (by simp)
    simp only [readByte, hk, if_false]
    exact ih (fun p hp => h p (by simp [hp]))

/-- A write leaves every other address alone. -/
theorem readByte_writeByte_ne (m : List Host.Cell) (a x : Nat) (v : Byte) (h : x ≠ a) :
    readByte (writeByte m a v) x = readByte m x := by
  induction m with
  | nil => by_cases hv : v = unlistedByte <;> simp [writeByte, readByte, hv, Ne.symm h]
  | cons p t ih =>
    obtain ⟨k, b⟩ := p
    simp only [writeByte]
    by_cases h1 : k < a
    · simp [h1, readByte, ih]
    · by_cases h2 : k = a
      · subst h2
        by_cases hv : v = unlistedByte <;> simp [hv, readByte, Ne.symm h]
      · by_cases hv : v = unlistedByte <;> simp [h1, h2, hv, readByte, Ne.symm h]

theorem writeByte_keys (m : List Host.Cell) (a : Nat) (v : Byte) (p : Host.Cell) (hp : p ∈ writeByte m a v) :
    p ∈ m ∨ (p = (a, v) ∧ v ≠ unlistedByte) := by
  induction m with
  | nil =>
    by_cases hv : v = unlistedByte <;> simp_all [writeByte]
  | cons q t ih =>
    obtain ⟨k, b⟩ := q
    simp only [writeByte] at hp
    by_cases h1 : k < a
    · simp only [h1, if_true, List.mem_cons] at hp
      rcases hp with rfl | hp
      · simp
      · rcases ih hp with h | h
        · exact .inl (by simp [h])
        · exact .inr h
    · by_cases hv : v = unlistedByte <;> by_cases h2 : k = a <;> simp_all <;> tauto

/-- A write gives the value written. -/
theorem readByte_writeByte_same (m : List Host.Cell) (a : Nat) (v : Byte)
    (hm : List.Pairwise (fun (p q : Host.Cell) => p.1 < q.1) m) : readByte (writeByte m a v) a = v := by
  induction m with
  | nil => by_cases hv : v = unlistedByte <;> simp [writeByte, readByte, hv]
  | cons p t ih =>
    obtain ⟨k, b⟩ := p
    rw [List.pairwise_cons] at hm
    simp only [writeByte]
    by_cases h1 : k < a
    · have hk : k ≠ a := by omega
      simp [h1, readByte, ih hm.2, hk]
    · by_cases hv : v = unlistedByte
      · simp only [h1, if_false, hv, if_true]
        by_cases h2 : k = a
        · simp only [h2, if_true]
          exact readByte_eq_unlisted t a (fun p hp => by have := hm.1 p hp; simp_all; omega)
        · simp only [h2, if_false, readByte]
          exact readByte_eq_unlisted t a (fun p hp => by have := hm.1 p hp; simp at this; omega)
      · simp [h1, hv, readByte]

theorem memWf_writeByte (m : List Host.Cell) (a : Nat) (v : Byte) (hm : memWf m) (ha : a < 2 ^ 32) :
    memWf (writeByte m a v) := by
  refine ⟨?_, fun p hp => ?_⟩
  · have := hm.1
    clear hm
    induction m with
    | nil => by_cases hv : v = unlistedByte <;> simp [writeByte, hv]
    | cons q t ih =>
      obtain ⟨k, b⟩ := q
      rw [List.pairwise_cons] at this
      simp only [writeByte]
      by_cases h1 : k < a
      · simp only [h1, if_true]
        refine List.pairwise_cons.2 ⟨fun p hp => ?_, ih this.2⟩
        rcases writeByte_keys t a v p hp with h | ⟨h, -⟩
        · exact this.1 p h
        · simp [h, h1]
      · by_cases hv : v = unlistedByte <;> by_cases h2 : k = a
        · simp [hv, h2, this.2]
        · simp only [h1, h2, hv, if_false, if_true]
          exact List.pairwise_cons.2 this
        · subst h2
          simp only [h1, hv, if_false, if_true]
          exact List.pairwise_cons.2 this
        · simp only [h1, h2, hv, if_false]
          refine List.pairwise_cons.2 ⟨fun p hp => ?_, List.pairwise_cons.2 this⟩
          rcases List.mem_cons.1 hp with rfl | hp
          · simp; omega
          · have := this.1 p hp; simp at this ⊢; omega
  · rcases writeByte_keys m a v p hp with h | ⟨h, hv⟩
    · exact hm.2 p h
    · subst h; exact ⟨hv, ha⟩

/-! ## Consecutive bytes -/

/-- A store leaves every byte outside it alone. -/
theorem readByte_writeBytes_outside (bs : List Byte) (m : List Host.Cell) (a x : Nat)
    (h : x < a ∨ a + bs.length ≤ x) : readByte (writeBytes m a bs) x = readByte m x := by
  induction bs generalizing m a with
  | nil => rfl
  | cons b bs ih =>
    simp only [List.length_cons] at h
    simp only [writeBytes]
    rw [ih _ _ (by omega), readByte_writeByte_ne _ _ _ _ (by omega)]

theorem memWf_writeBytes (bs : List Byte) (m : List Host.Cell) (a : Nat) (hm : memWf m)
    (ha : a + bs.length ≤ 2 ^ 32) : memWf (writeBytes m a bs) := by
  induction bs generalizing m a with
  | nil => exact hm
  | cons b bs ih =>
    simp only [List.length_cons] at ha
    exact ih _ _ (memWf_writeByte m a b hm (by omega)) (by omega)

/-- A stored byte reads back. -/
theorem readByte_writeBytes_inside (bs : List Byte) (m : List Host.Cell) (a k : Nat) (hm : memWf m)
    (ha : a + bs.length ≤ 2 ^ 32) (hk : k < bs.length) : readByte (writeBytes m a bs) (a + k) = bs[k] := by
  induction bs generalizing m a k with
  | nil => simp at hk
  | cons b bs ih =>
    simp only [List.length_cons] at ha hk
    have hm' := memWf_writeByte m a b hm (by omega)
    simp only [writeBytes]
    cases k with
    | zero =>
      rw [readByte_writeBytes_outside _ _ _ _ (by omega)]
      simpa using readByte_writeByte_same m a b hm.1
    | succ k =>
      have := ih (writeByte m a b) (a + 1) k hm' (by omega) (by omega)
      simpa [Nat.add_assoc, Nat.add_comm 1 k] using this

/-! ## The set `Written` -/

theorem mem_insertAddr (l : List Nat) (a x : Nat) : x ∈ insertAddr l a ↔ x = a ∨ x ∈ l := by
  induction l with
  | nil => simp [insertAddr]
  | cons k t ih =>
    simp only [insertAddr]
    split
    · simp only [List.mem_cons, ih]; tauto
    · split
      · simp_all
      · simp

theorem mem_insertAddrs (n : Nat) (l : List Nat) (a x : Nat) :
    x ∈ insertAddrs l a n ↔ (a ≤ x ∧ x < a + n) ∨ x ∈ l := by
  induction n generalizing l a with
  | zero => simp only [insertAddrs]; constructor
            · exact .inr
            · rintro (h | h)
              · omega
              · exact h
  | succ n ih =>
    simp only [insertAddrs, ih, mem_insertAddr]
    constructor
    · rintro (h | rfl | h)
      · left; omega
      · left; omega
      · exact .inr h
    · rintro (h | h)
      · by_cases hx : x = a
        · exact .inr (.inl hx)
        · left; omega
      · exact .inr (.inr h)

theorem addrsWf_insertAddr (l : List Nat) (a : Nat) (hl : addrsWf l) (ha : a < 2 ^ 32) : addrsWf (insertAddr l a) := by
  refine ⟨?_, fun x hx => ?_⟩
  · have h := hl.1
    clear hl
    induction l with
    | nil => simp [insertAddr]
    | cons k t ih =>
      rw [List.pairwise_cons] at h
      simp only [insertAddr]
      split
      · refine List.pairwise_cons.2 ⟨fun x hx => ?_, ih h.2⟩
        rcases (mem_insertAddr t a x).1 hx with rfl | hx
        · assumption
        · exact h.1 x hx
      · split
        · exact List.pairwise_cons.2 h
        · refine List.pairwise_cons.2 ⟨fun x hx => ?_, List.pairwise_cons.2 h⟩
          rcases List.mem_cons.1 hx with rfl | hx
          · omega
          · have := h.1 x hx; omega
  · rcases (mem_insertAddr l a x).1 hx with rfl | h
    · exact ha
    · exact hl.2 x h

theorem addrsWf_insertAddrs (n : Nat) (l : List Nat) (a : Nat) (hl : addrsWf l) (ha : a + n ≤ 2 ^ 32) :
    addrsWf (insertAddrs l a n) := by
  induction n generalizing l a with
  | zero => exact hl
  | succ n ih => exact ih _ _ (addrsWf_insertAddr l a hl (by omega)) (by omega)

/-! ## The primitives -/

@[simp] theorem width_bytes_byte : Width.byte.bytes = 1 := rfl
@[simp] theorem width_bytes_word : Width.word.bytes = 2 := rfl
@[simp] theorem width_bytes_dword : Width.dword.bytes = 4 := rfl

theorem dataBytes_length (bo : ByteOrder) (w : Width) (v : DWord) : (dataBytes bo w v).length = w.bytes := by
  cases w <;> cases bo <;> rfl

theorem mappedAll_ok (c : Cfg) (a n : Nat) :
    mappedAll c a n = .ok () ↔ ∀ x, a ≤ x → x < a + n → c.isMapped x = true := by
  induction n generalizing a with
  | zero => simp only [mappedAll, true_iff]; omega
  | succ n ih =>
    simp only [mappedAll]
    split
    · rename_i h
      rw [ih]
      constructor
      · intro hx x h1 h2
        by_cases hxa : x = a
        · rw [hxa]; exact h
        · exact hx x (by omega) (by omega)
      · intro hx x h1 h2; exact hx x (by omega) (by omega)
    · rename_i h
      simp only [reduceCtorEq, false_iff]
      intro hx; exact h (hx a (by omega) (by omega))

/-- What the checks of rules R36 and R37 admit. -/
theorem checkAccess_ok (c : Cfg) (w : Width) (a : DWord) : checkAccess c w a = .ok () ↔
    a.toNat + w.bytes ≤ 2 ^ 32 ∧ (c.dataAlign = .allow ∨ a.toNat % w.bytes = 0) ∧
    ∀ x, a.toNat ≤ x → x < a.toNat + w.bytes → c.isMapped x = true := by
  rw [checkAccess]
  by_cases h1 : a.toNat + w.bytes > 2 ^ 32
  · rw [if_pos h1]
    simp only [reduceCtorEq, false_iff]
    exact fun h => absurd h.1 (by omega)
  · rw [if_neg h1]
    by_cases h2 : c.dataAlign = .fault ∧ a.toNat % w.bytes ≠ 0
    · rw [if_pos h2]
      simp only [reduceCtorEq, false_iff]
      rintro ⟨-, h | h, -⟩
      · rw [h] at h2; exact absurd h2.1 (by decide)
      · exact h2.2 h
    · rw [if_neg h2, mappedAll_ok]
      refine ⟨fun h => ⟨by omega, ?_, h⟩, fun h => h.2.2⟩
      cases hd : c.dataAlign with
      | allow => exact .inl rfl
      | fault => exact .inr (by by_contra h3; exact h2 ⟨hd, h3⟩)

/-- `MemRead` answers exactly when the checks pass, and then with the datum. -/
theorem memRead_ok (s : State) (w : Width) (a v : DWord) :
    memRead s w a = .ok v ↔ checkAccess s.cfg w a = .ok () ∧ v = s.datum w a.toNat := by
  rw [memRead]
  cases checkAccess s.cfg w a with
  | error e => simp [bind, Except.bind]
  | ok u => simp [bind, Except.bind, eq_comm]

/-- `MemWrite` answers exactly when the checks pass, and then with the stored state. -/
theorem memWrite_ok (s t : State) (w : Width) (a v : DWord) :
    memWrite s w a v = .ok t ↔ checkAccess s.cfg w a = .ok () ∧ t = s.store w a v := by
  rw [memWrite]
  cases checkAccess s.cfg w a with
  | error e => simp [bind, Except.bind]
  | ok u => simp [bind, Except.bind, eq_comm]

/-! ## A stored datum -/

/-- A store leaves every byte outside it alone. -/
theorem byte_store_outside (s : State) (w : Width) (a v : DWord) (x : Nat)
    (h : x < a.toNat ∨ a.toNat + w.bytes ≤ x) : (s.store w a v).byte x = s.byte x := by
  simp only [State.byte, State.store]
  exact readByte_writeBytes_outside _ _ _ _ (by rw [dataBytes_length]; exact h)

/-- The stored bytes, in address order. -/
theorem byte_store_inside (s : State) (w : Width) (a v : DWord) (k : Nat) (hm : memWf s.mem)
    (ha : a.toNat + w.bytes ≤ 2 ^ 32) (hk : k < w.bytes) :
    (s.store w a v).byte (a.toNat + k) = (dataBytes s.cfg.byteOrder w v)[k]'(by rw [dataBytes_length]; exact hk) := by
  simp only [State.byte, State.store]
  exact readByte_writeBytes_inside _ _ _ _ hm (by rw [dataBytes_length]; exact ha) (by rw [dataBytes_length]; exact hk)

theorem memWf_store (s : State) (w : Width) (a v : DWord) (hm : memWf s.mem)
    (ha : a.toNat + w.bytes ≤ 2 ^ 32) : memWf (s.store w a v).mem :=
  memWf_writeBytes _ _ _ hm (by rw [dataBytes_length]; exact ha)

theorem addrsWf_store (s : State) (w : Width) (a v : DWord) (hl : addrsWf s.written)
    (ha : a.toNat + w.bytes ≤ 2 ^ 32) : addrsWf (s.store w a v).written :=
  addrsWf_insertAddrs _ _ _ hl ha

theorem mem_written_store (s : State) (w : Width) (a v : DWord) (x : Nat) :
    x ∈ (s.store w a v).written ↔ (a.toNat ≤ x ∧ x < a.toNat + w.bytes) ∨ x ∈ s.written :=
  mem_insertAddrs _ _ _ _

/-- A stored Double Word reads back (rules R36, R37). -/
theorem datum_store_dword (s : State) (a v : DWord) (hm : memWf s.mem) (ha : a.toNat + 4 ≤ 2 ^ 32) :
    (s.store .dword a v).datum .dword a.toNat = v := by
  have h (k : Nat) (hk : k < 4) := byte_store_inside s .dword a v k hm (by simpa using ha) (by simpa using hk)
  have h0 := h 0 (by omega)
  have h1 := h 1 (by omega)
  have h2 := h 2 (by omega)
  have h3 := h 3 (by omega)
  simp only [State.datum, store_cfg]
  simp only [Nat.add_zero] at h0
  rw [h0, h1, h2, h3]
  refine dwordOf_of_dwordBytes s.cfg.byteOrder v _ _ _ _ ?_
  cases s.cfg.byteOrder <;> rfl

/-- What a stored datum of each width reads back as: the low bits, zero-extended. -/
def Width.low (w : Width) (v : DWord) : DWord :=
  match w with
  | .byte => (v.extractLsb' 0 8).setWidth 32
  | .word => (v.setWidth 16).setWidth 32
  | .dword => v

/-- A stored datum reads back (rules R36, R37). -/
theorem datum_store (s : State) (w : Width) (a v : DWord) (hm : memWf s.mem) (ha : a.toNat + w.bytes ≤ 2 ^ 32) :
    (s.store w a v).datum w a.toNat = w.low v := by
  cases w with
  | byte =>
    have h0 := byte_store_inside s .byte a v 0 hm ha (by decide)
    simp only [Nat.add_zero] at h0
    rw [State.datum, h0]; rfl
  | word =>
    have h0 := byte_store_inside s .word a v 0 hm ha (by decide)
    have h1 := byte_store_inside s .word a v 1 hm ha (by decide)
    simp only [Nat.add_zero] at h0
    rw [State.datum, h0, h1]
    refine congrArg (BitVec.setWidth 32) (wordOf_of_wordBytes s.cfg.byteOrder _ _ _ ?_)
    show _ = [_, _]
    cases s.cfg.byteOrder <;> rfl
  | dword => exact datum_store_dword s a v hm ha

/-- A datum no byte of which is stored to is unchanged. -/
theorem datum_store_outside (s : State) (w u : Width) (a v : DWord) (x : Nat)
    (h : x + u.bytes ≤ a.toNat ∨ a.toNat + w.bytes ≤ x) : (s.store w a v).datum u x = s.datum u x := by
  have hb (k : Nat) (hk : k < u.bytes) : (s.store w a v).byte (x + k) = s.byte (x + k) :=
    byte_store_outside s w a v (x + k) (by omega)
  cases u with
  | byte => have := hb 0 (by simp); simp only [Nat.add_zero] at this; simp only [State.datum, this]
  | word =>
    have h0 := hb 0 (by simp); have h1 := hb 1 (by simp)
    simp only [Nat.add_zero] at h0; simp only [State.datum, h0, h1, store_cfg]
  | dword =>
    have h0 := hb 0 (by simp); have h1 := hb 1 (by simp); have h2 := hb 2 (by simp); have h3 := hb 3 (by simp)
    simp only [Nat.add_zero] at h0; simp only [State.datum, h0, h1, h2, h3, store_cfg]

/-! ## Data read after an update that touches no memory -/

@[simp] theorem setReg_datum (s : State) (r : Reg) (v : DWord) (w : Width) (x : Nat) :
    (s.setReg r v).datum w x = s.datum w x := rfl
@[simp] theorem advance_datum (s : State) (n : Nat) (w : Width) (x : Nat) :
    (s.advance n).datum w x = s.datum w x := rfl
@[simp] theorem aluFlags_datum (s : State) (v : DWord) (k : CVRule) (w : Width) (x : Nat) :
    (s.aluFlags v k).datum w x = s.datum w x := rfl
@[simp] theorem compareFlags_datum (s : State) (v : DWord) (f : CV) (w : Width) (x : Nat) :
    (s.compareFlags v f).datum w x = s.datum w x := rfl
@[simp] theorem writeSr_datum (s : State) (v : DWord) (w : Width) (x : Nat) :
    (s.writeSr v).datum w x = s.datum w x := rfl
@[simp] theorem withSr_datum (s : State) (n : Nat) (r : Sr) (w : Width) (x : Nat) :
    (s.withSr n r).datum w x = s.datum w x := rfl
@[simp] theorem afterAnswer_datum (s : State) (w : Width) (x : Nat) :
    s.afterAnswer.datum w x = s.datum w x := rfl
@[simp] theorem drawDWord_snd_datum (s : State) (w : Width) (x : Nat) :
    s.drawDWord.2.datum w x = s.datum w x := rfl
@[simp] theorem drawBit_snd_datum (s : State) (w : Width) (x : Nat) :
    s.drawBit.2.datum w x = s.datum w x := rfl

end Sys2Proof.Machine
end

