-- ==== Sys2Proof/Laws/Frame.lean ====
section
/-! SUPPORT. The laws of frames: identity, composition, weakening, and the frame of each named operation. -/

namespace Sys2Proof.Machine

theorem outside_append (l m : List (Nat × Nat)) (a : Nat) : Outside (l ++ m) a ↔ Outside l a ∧ Outside m a := by
  simp [Outside, or_imp, forall_and]

@[simp] theorem outside_nil (a : Nat) : Outside [] a := by simp [Outside]

theorem outside_singleton (b n a : Nat) : Outside [(b, n)] a ↔ a < b ∨ b + n ≤ a := by simp [Outside]

theorem Frame.refl (regs : List Reg) (parts : List Part) (stored : List (Nat × Nat)) (s : State) :
    Frame regs parts stored s s := by
  constructor <;> intros <;> rfl

/-- A frame may be widened. -/
theorem Frame.mono {regs regs' : List Reg} {parts parts' : List Part} {stored stored' : List (Nat × Nat)}
    {s t : State} (h : Frame regs parts stored s t) (hr : regs ⊆ regs') (hp : parts ⊆ parts')
    (hs : ∀ a, Outside stored' a → Outside stored a) : Frame regs' parts' stored' s t where
  regs r hr' := h.regs r (fun hm => hr' (hr hm))
  sp hq := h.sp (fun hm => hq (hp hm))
  fp hq := h.fp (fun hm => hq (hp hm))
  lr hq := h.lr (fun hm => hq (hp hm))
  n hq := h.n (fun hm => hq (hp hm))
  z hq := h.z (fun hm => hq (hp hm))
  c hq := h.c (fun hm => hq (hp hm))
  v hq := h.v (fun hm => hq (hp hm))
  i hq := h.i (fun hm => hq (hp hm))
  seed hq := h.seed (fun hm => hq (hp hm))
  halted hq := h.halted (fun hm => hq (hp hm))
  waiting hq := h.waiting (fun hm => hq (hp hm))
  draws hq := h.draws (fun hm => hq (hp hm))
  byte a ha := h.byte a (hs a ha)
  written a ha := h.written a (hs a ha)
  cfg := h.cfg
  oracle := h.oracle

/-- Two changes inside one frame are inside it together. -/
theorem Frame.trans {regs : List Reg} {parts : List Part} {stored : List (Nat × Nat)} {s t u : State}
    (h : Frame regs parts stored s t) (k : Frame regs parts stored t u) : Frame regs parts stored s u where
  regs r hr := (k.regs r hr).trans (h.regs r hr)
  sp hq := (k.sp hq).trans (h.sp hq)
  fp hq := (k.fp hq).trans (h.fp hq)
  lr hq := (k.lr hq).trans (h.lr hq)
  n hq := (k.n hq).trans (h.n hq)
  z hq := (k.z hq).trans (h.z hq)
  c hq := (k.c hq).trans (h.c hq)
  v hq := (k.v hq).trans (h.v hq)
  i hq := (k.i hq).trans (h.i hq)
  seed hq := (k.seed hq).trans (h.seed hq)
  halted hq := (k.halted hq).trans (h.halted hq)
  waiting hq := (k.waiting hq).trans (h.waiting hq)
  draws hq := (k.draws hq).trans (h.draws hq)
  byte a ha := (k.byte a ha).trans (h.byte a ha)
  written a ha := (k.written a ha).trans (h.written a ha)
  cfg := k.cfg.trans h.cfg
  oracle := k.oracle.trans h.oracle

/-! ## The frame of each operation, inside any frame that admits what it changes -/

variable {regs : List Reg} {parts : List Part} {stored : List (Nat × Nat)} {s t : State}

theorem Frame.setReg (h : Frame regs parts stored s t) (d : Reg) (v : DWord) (hd : d ∈ regs) :
    Frame regs parts stored s (t.setReg d v) :=
  h.trans { Frame.refl regs parts stored t with
    regs := fun r hr => reg_setReg_ne t d r v (fun e => hr (e ▸ hd)) }

theorem Frame.advance (h : Frame regs parts stored s t) (n : Nat) : Frame regs parts stored s (t.advance n) :=
  h.trans { Frame.refl regs parts stored t with }

theorem Frame.setPc (h : Frame regs parts stored s t) (v : DWord) : Frame regs parts stored s { t with pc := v } :=
  h.trans { Frame.refl regs parts stored t with }

theorem Frame.setSp (h : Frame regs parts stored s t) (v : DWord) (hp : Part.sp ∈ parts) :
    Frame regs parts stored s { t with sp := v } :=
  h.trans { Frame.refl regs parts stored t with sp := fun hq => absurd hp hq }

theorem Frame.drawDWord (h : Frame regs parts stored s t) (hp : Part.draws ∈ parts) :
    Frame regs parts stored s t.drawDWord.2 :=
  h.trans { Frame.refl regs parts stored t with draws := fun hq => absurd hp hq }

theorem Frame.drawBit (h : Frame regs parts stored s t) (hp : Part.draws ∈ parts) :
    Frame regs parts stored s t.drawBit.2 :=
  h.trans { Frame.refl regs parts stored t with draws := fun hq => absurd hp hq }

theorem Frame.aluFlags (h : Frame regs parts stored s t) (v : DWord) (k : CVRule) (hp : aluParts ⊆ parts) :
    Frame regs parts stored s (t.aluFlags v k) :=
  h.trans { Frame.refl regs parts stored t with
    n := fun hq => absurd (hp (by simp [aluParts])) hq
    z := fun hq => absurd (hp (by simp [aluParts])) hq
    c := fun hq => absurd (hp (by simp [aluParts])) hq
    v := fun hq => absurd (hp (by simp [aluParts])) hq
    draws := fun hq => absurd (hp (by simp [aluParts])) hq
    i := fun _ => aluFlags_sr_i t v k }

theorem Frame.compareFlags (h : Frame regs parts stored s t) (v : DWord) (f : CV)
    (hp : [Part.n, .z, .c, .v] ⊆ parts) : Frame regs parts stored s (t.compareFlags v f) :=
  h.trans { Frame.refl regs parts stored t with
    n := fun hq => absurd (hp (by simp)) hq
    z := fun hq => absurd (hp (by simp)) hq
    c := fun hq => absurd (hp (by simp)) hq
    v := fun hq => absurd (hp (by simp)) hq }

theorem Frame.writeSr (h : Frame regs parts stored s t) (v : DWord) (hp : [Part.n, .z, .c, .v, .i] ⊆ parts) :
    Frame regs parts stored s (t.writeSr v) :=
  h.trans { Frame.refl regs parts stored t with
    n := fun hq => absurd (hp (by simp)) hq
    z := fun hq => absurd (hp (by simp)) hq
    c := fun hq => absurd (hp (by simp)) hq
    v := fun hq => absurd (hp (by simp)) hq
    i := fun hq => absurd (hp (by simp)) hq }

theorem Frame.store (h : Frame regs parts stored s t) (w : Width) (a v : DWord) (hs : (a.toNat, w.bytes) ∈ stored) :
    Frame regs parts stored s (t.store w a v) :=
  h.trans { Frame.refl regs parts stored t with
    byte := fun x hx => byte_store_outside t w a v x (hx _ hs)
    written := fun x hx => by
      rw [mem_written_store]
      have := hx _ hs
      constructor
      · rintro (h | h)
        · omega
        · exact h
      · exact .inr }

end Sys2Proof.Machine
end

