-- ==== Sys2Proof/Laws/Ops.lean ====
section
/-! SUPPORT. The laws of the shared operations: what each can answer, said once, so that no later proof unfolds it. -/

namespace Sys2Proof.Machine

/-! ## Outcomes -/

@[simp] theorem finish_ok (s : State) : finish (.ok s) = .next s := rfl
@[simp] theorem finish_error (f : Fault) : finish (.error f) = .fault f := rfl

theorem finish_next (e : Except Fault State) (t : State) : finish e = .next t ↔ e = .ok t := by
  cases e <;> simp [finish]

theorem bind_ok {α β : Type} (x : Except Fault α) (f : α → Except Fault β) (b : β) :
    (x >>= f) = .ok b ↔ ∃ a, x = .ok a ∧ f a = .ok b := by
  cases x <;> simp [bind, Except.bind]

@[simp] theorem ok_bind {α β : Type} (a : α) (f : α → Except Fault β) : ((Except.ok a : Except Fault α) >>= f) = f a := rfl
@[simp] theorem error_bind {α β : Type} (e : Fault) (f : α → Except Fault β) :
    ((Except.error e : Except Fault α) >>= f) = .error e := rfl

/-! ## Moving past an instruction -/

/-- An instruction that ends with the advance of `pc` moves past itself (rule R14). -/
theorem movesOn {i : Instr} {s t : State} (h : t.pc = s.nextPc (s.lenOf i)) : MovesOn i s t := h

/-- The same with its length under the encoding of section 3. -/
theorem movesBy {i : Instr} {n : Nat} {s t : State} (h : t.pc = s.nextPc (s.lenOf i)) (hn : i.len = n) :
    MovesBy n i s t :=
  ⟨h, fun he => by rw [h, lenOf_section3 he, hn]; rfl⟩

/-! ## Accesses -/

theorem accessible_iff (s : State) (w : Width) (a : DWord) :
    checkAccess s.cfg w a = .ok () ↔ Accessible s w a := by
  rw [checkAccess_ok, Accessible]
  refine and_congr_right fun _ => and_congr_right fun _ => ⟨fun h k hk => h _ (by omega) (by omega), ?_⟩
  intro h x h1 h2
  have := h (x - a.toNat) (by omega)
  rwa [Nat.add_sub_cancel' h1] at this

theorem Accessible.check {s : State} {w : Width} {a : DWord} (h : Accessible s w a) :
    checkAccess s.cfg w a = .ok () := (accessible_iff s w a).2 h

theorem Accessible.read {s : State} {w : Width} {a : DWord} (h : Accessible s w a) :
    memRead s w a = .ok (s.datum w a.toNat) := (memRead_ok _ _ _ _).2 ⟨h.check, rfl⟩

theorem Accessible.write {s : State} {w : Width} {a : DWord} (h : Accessible s w a) (v : DWord) :
    memWrite s w a v = .ok (s.store w a v) := (memWrite_ok _ _ _ _ _).2 ⟨h.check, rfl⟩

theorem Accessible.congr {s t : State} {w : Width} {a : DWord} (h : Accessible s w a) (hc : t.cfg = s.cfg) :
    Accessible t w a := by
  rw [Accessible, hc]; exact h

theorem memRead_error (s : State) (w : Width) (a : DWord) (f : Fault) :
    memRead s w a = .error f ↔ checkAccess s.cfg w a = .error f := by
  rw [memRead]
  cases checkAccess s.cfg w a <;> simp

theorem memWrite_error (s : State) (w : Width) (a v : DWord) (f : Fault) :
    memWrite s w a v = .error f ↔ checkAccess s.cfg w a = .error f := by
  rw [memWrite]
  cases checkAccess s.cfg w a <;> simp

/-! ## The stack -/

/-- The state after a push whose store is admitted (rule R44). -/
def State.pushed (s : State) (v : DWord) : State := { s with sp := s.sp - 4 }.store .dword (s.sp - 4) v

@[simp] theorem pushed_regs (s : State) (v : DWord) : (s.pushed v).regs = s.regs := rfl
@[simp] theorem pushed_pc (s : State) (v : DWord) : (s.pushed v).pc = s.pc := rfl
@[simp] theorem pushed_sp (s : State) (v : DWord) : (s.pushed v).sp = s.sp - 4 := rfl
@[simp] theorem pushed_fp (s : State) (v : DWord) : (s.pushed v).fp = s.fp := rfl
@[simp] theorem pushed_lr (s : State) (v : DWord) : (s.pushed v).lr = s.lr := rfl
@[simp] theorem pushed_sr (s : State) (v : DWord) : (s.pushed v).sr = s.sr := rfl
@[simp] theorem pushed_seed (s : State) (v : DWord) : (s.pushed v).seed = s.seed := rfl
@[simp] theorem pushed_halted (s : State) (v : DWord) : (s.pushed v).halted = s.halted := rfl
@[simp] theorem pushed_waiting (s : State) (v : DWord) : (s.pushed v).waiting = s.waiting := rfl
@[simp] theorem pushed_cfg (s : State) (v : DWord) : (s.pushed v).cfg = s.cfg := rfl
@[simp] theorem pushed_oracle (s : State) (v : DWord) : (s.pushed v).oracle = s.oracle := rfl
@[simp] theorem pushed_draws (s : State) (v : DWord) : (s.pushed v).draws = s.draws := rfl
@[simp] theorem pushed_reg (s : State) (v : DWord) (k : Reg) : (s.pushed v).reg k = s.reg k := rfl

theorem push_ok (s t : State) (v : DWord) :
    push s v = .ok t ↔ Accessible s .dword (s.sp - 4) ∧ t = s.pushed v := by
  rw [push, memWrite_ok]
  exact and_congr_left fun _ => accessible_iff s .dword (s.sp - 4)

theorem push_error (s : State) (v : DWord) (f : Fault) :
    push s v = .error f ↔ checkAccess s.cfg .dword (s.sp - 4) = .error f := by
  rw [push, memWrite_error]

theorem Accessible.push {s : State} (h : Accessible s .dword (s.sp - 4)) (v : DWord) :
    push s v = .ok (s.pushed v) := (push_ok _ _ _).2 ⟨h, rfl⟩

theorem pop_ok (s t : State) (v : DWord) :
    pop s = .ok (v, t) ↔
      Accessible s .dword s.sp ∧ v = s.datum .dword s.sp.toNat ∧ t = { s with sp := s.sp + 4 } := by
  rw [pop, bind_ok]
  constructor
  · rintro ⟨x, hx, h⟩
    obtain ⟨hc, rfl⟩ := (memRead_ok _ _ _ _).1 hx
    simp only [Except.ok.injEq, Prod.mk.injEq] at h
    exact ⟨(accessible_iff _ _ _).1 hc, h.1.symm, h.2.symm⟩
  · rintro ⟨h, rfl, rfl⟩
    exact ⟨_, h.read, rfl⟩

theorem pop_error (s : State) (f : Fault) : pop s = .error f ↔ checkAccess s.cfg .dword s.sp = .error f := by
  rw [pop, ← memRead_error]
  cases memRead s .dword s.sp <;> simp

theorem Accessible.pop {s : State} (h : Accessible s .dword s.sp) :
    pop s = .ok (s.datum .dword s.sp.toNat, { s with sp := s.sp + 4 }) := (pop_ok _ _ _).2 ⟨h, rfl, rfl⟩

theorem memWf_pushed {s : State} (hm : memWf s.mem) (h : Accessible s .dword (s.sp - 4)) (v : DWord) :
    memWf (s.pushed v).mem :=
  memWf_store { s with sp := s.sp - 4 } .dword (s.sp - 4) v hm h.1

/-- A pushed value is the Double Word at the new SP. -/
theorem datum_pushed {s : State} (hm : memWf s.mem) (h : Accessible s .dword (s.sp - 4)) (v : DWord) :
    (s.pushed v).datum .dword (s.sp - 4).toNat = v :=
  datum_store_dword { s with sp := s.sp - 4 } (s.sp - 4) v hm h.1

theorem datum_pushed_outside (s : State) (v : DWord) (u : Width) (x : Nat)
    (h : x + u.bytes ≤ (s.sp - 4).toNat ∨ (s.sp - 4).toNat + 4 ≤ x) : (s.pushed v).datum u x = s.datum u x :=
  datum_store_outside { s with sp := s.sp - 4 } .dword u (s.sp - 4) v x h

theorem Frame.pushed {regs : List Reg} {parts : List Part} {stored : List (Nat × Nat)} {s t : State}
    (h : Frame regs parts stored s t) (v : DWord) (hp : Part.sp ∈ parts) (hs : ((t.sp - 4).toNat, 4) ∈ stored) :
    Frame regs parts stored s (t.pushed v) :=
  (h.setSp (t.sp - 4) hp).store .dword (t.sp - 4) v hs

/-! ## Traps -/

/-- Two slots at a distance of 4 do not overlap. -/
theorem slots_apart (a : DWord) :
    (a - 4).toNat + 4 ≤ a.toNat ∨ a.toNat + 4 ≤ (a - 4).toNat := by
  have : (a - 4).toNat = (a.toNat + (2 ^ 32 - 4)) % 2 ^ 32 := by
    rw [BitVec.toNat_sub]
    simp [Nat.add_comm]
  omega

/-- What taking a trap can answer (rule R264). -/
theorem takeTrap_ok (s t : State) (kind : TrapKind) (ret : DWord) :
    takeTrap s kind ret = .ok t ↔ TrapRoom s ∧
      t = { (s.pushed s.srImage).pushed ret with
        sr := { s.sr with i := false }, waiting := false, pc := s.cfg.vec kind } := by
  have h8 : s.sp - 4 - 4 = s.sp - 8 := by bv_omega
  rw [takeTrap, bind_ok]
  constructor
  · rintro ⟨a, ha, hb⟩
    obtain ⟨h1, rfl⟩ := (push_ok _ _ _).1 ha
    obtain ⟨b, hb, hc⟩ := (bind_ok _ _ _).1 hb
    obtain ⟨h2, rfl⟩ := (push_ok _ _ _).1 hb
    rw [pushed_sp, h8] at h2
    exact ⟨⟨h1, h2.congr rfl⟩, by simpa using hc.symm⟩
  · rintro ⟨⟨h1, h2⟩, rfl⟩
    refine ⟨_, h1.push _, ?_⟩
    have h2' : Accessible (s.pushed s.srImage) .dword ((s.pushed s.srImage).sp - 4) := by
      rw [pushed_sp, h8]; exact h2.congr rfl
    rw [h2'.push]
    rfl

/-- A trap that is taken does what rule R264 says. -/
theorem takeTrap_taken (s t : State) (kind : TrapKind) (ret : DWord) (hm : memWf s.mem)
    (h : takeTrap s kind ret = .ok t) : TrapTaken s t (s.cfg.vec kind) ret := by
  obtain ⟨⟨h1, h2⟩, rfl⟩ := (takeTrap_ok _ _ _ _).1 h
  have h8 : s.sp - 4 - 4 = s.sp - 8 := by bv_omega
  have hm1 := memWf_pushed hm h1 s.srImage
  have h2' : Accessible (s.pushed s.srImage) .dword ((s.pushed s.srImage).sp - 4) := by
    rw [pushed_sp, h8]; exact h2.congr rfl
  have hap := slots_apart (s.sp - 4)
  have hs (x : State) (m : List Host.Cell) (c : Cfg) (hx : x.mem = m) (hc : x.cfg = c) (u : Width) (a : Nat) (y : State)
      (hy : y.mem = m) (hyc : y.cfg = c) : x.datum u a = y.datum u a := by
    simp only [State.datum, State.byte, hx, hc, hy, hyc]
  refine ⟨rfl, ?_, rfl, rfl, ?_, ?_, ?_⟩
  · simp only [pushed_sp]; exact h8
  · have h := datum_pushed_outside (s.pushed s.srImage) ret .dword (s.sp - 4).toNat (by
      simp only [pushed_sp, width_bytes_dword]; tauto)
    exact (hs _ _ _ rfl rfl _ _ _ rfl rfl).trans (h.trans (datum_pushed hm h1 _))
  · have h := datum_pushed hm1 h2' ret
    rw [pushed_sp, h8] at h
    exact (hs _ _ _ rfl rfl _ _ _ rfl rfl).trans h
  · have hf := ((Frame.refl [] [.sp, .i, .waiting] [((s.sp - 4).toNat, 4), ((s.sp - 8).toNat, 4)] s).pushed
      s.srImage (by simp) (by simp)).pushed ret (by simp)
      (by rw [pushed_sp, h8]; exact .tail _ (.head _))
    exact { hf with
      i := fun hq => absurd (by simp) hq
      waiting := fun hq => absurd (by simp) hq }

theorem TrapRoom.take {s : State} (h : TrapRoom s) (kind : TrapKind) (ret : DWord) :
    ∃ t, takeTrap s kind ret = .ok t := ⟨_, (takeTrap_ok _ _ _ _).2 ⟨h, rfl⟩⟩

theorem takeTrap_error (s : State) (kind : TrapKind) (ret : DWord) (f : Fault)
    (h : checkAccess s.cfg .dword (s.sp - 4) = .error f) : takeTrap s kind ret = .error f := by
  rw [takeTrap, (push_error s s.srImage f).2 h]; rfl

theorem takeTrap_error_second (s : State) (kind : TrapKind) (ret : DWord) (f : Fault)
    (h1 : Accessible s .dword (s.sp - 4)) (h2 : checkAccess s.cfg .dword (s.sp - 8) = .error f) :
    takeTrap s kind ret = .error f := by
  have h8 : s.sp - 4 - 4 = s.sp - 8 := by bv_omega
  rw [takeTrap, h1.push, ok_bind, (push_error (s.pushed s.srImage) ret f).2 (by rw [pushed_sp, h8]; exact h2)]
  rfl

theorem takeSwi_ok (s t : State) (n : Fin 32) (ret : DWord) :
    takeSwi s n ret = .ok t ↔ Accessible s .dword (s.sp - 4) ∧ t = { s.pushed ret with pc := s.cfg.vec (.swi n) } := by
  rw [takeSwi, bind_ok]
  constructor
  · rintro ⟨a, ha, hb⟩
    obtain ⟨h1, rfl⟩ := (push_ok _ _ _).1 ha
    exact ⟨h1, by simpa using hb.symm⟩
  · rintro ⟨h1, rfl⟩
    exact ⟨_, h1.push _, rfl⟩

theorem returnFromTrap_error (s : State) (f : Fault) (h : checkAccess s.cfg .dword s.sp = .error f) :
    returnFromTrap s = .error f := by
  rw [returnFromTrap, (pop_error s f).2 h]; rfl

theorem returnFromTrap_error_second (s : State) (f : Fault) (h1 : Accessible s .dword s.sp)
    (h2 : checkAccess s.cfg .dword (s.sp + 4) = .error f) : returnFromTrap s = .error f := by
  rw [returnFromTrap, h1.pop, ok_bind]
  simp only [(pop_error { s with sp := s.sp + 4 } f).2 h2]
  rfl

theorem returnFromTrap_ok (s t : State) :
    returnFromTrap s = .ok t ↔ Accessible s .dword s.sp ∧ Accessible s .dword (s.sp + 4) ∧
      t = { s with
        sp := s.sp + 8, pc := s.datum .dword s.sp.toNat,
        sr := Sr.ofImage s.cfg.srLayout (s.datum .dword (s.sp + 4).toNat) } := by
  have h8 : s.sp + 4 + 4 = s.sp + 8 := by bv_omega
  rw [returnFromTrap, bind_ok]
  constructor
  · rintro ⟨⟨v, a⟩, ha, hb⟩
    obtain ⟨h1, rfl, rfl⟩ := (pop_ok _ _ _).1 ha
    obtain ⟨⟨u, b⟩, hb, hc⟩ := (bind_ok _ _ _).1 hb
    obtain ⟨h2, rfl, rfl⟩ := (pop_ok _ _ _).1 hb
    refine ⟨h1, h2, ?_⟩
    simp only [h8, Except.ok.injEq] at hc
    exact hc.symm
  · rintro ⟨h1, h2, rfl⟩
    refine ⟨_, h1.pop, ?_⟩
    have h2' : Accessible { s with sp := s.sp + 4 } .dword ({ s with sp := s.sp + 4 } : State).sp := h2
    simp only [h2'.pop, ok_bind, h8]
    rfl

end Sys2Proof.Machine
end

