-- ==== Sys2Proof/Laws/Alu.lean ====
section
/-! SUPPORT. How a data-processing instruction ends, and what the shared operations of the bitwise and arithmetic
families answer (`10_state.md` rule R23; `43_bitwise.md` rule R147; `44_arithmetic.md` rules R176 to R181). -/

namespace Sys2Proof.Machine

/-! ## The flags of class FA -/

/-- With known carry and overflow. -/
theorem flagsFA_known {s t : State} (hc : t.cfg = s.cfg) (hs : t.sr = s.sr) (v : DWord) (f : CV) :
    FlagsFA v (some f) s (t.aluFlags v (.known f)) := by
  simp only [FlagsFA, State.aluFlags, hc]
  cases s.cfg.aluFlags <;> simp [hs, BitVec.msb_eq_getLsbD_last]

/-- With arbitrary carry and overflow. -/
theorem flagsFA_drawn {s t : State} (hc : t.cfg = s.cfg) (hs : t.sr = s.sr) (v : DWord) :
    FlagsFA v none s (t.aluFlags v .drawn) := by
  simp only [FlagsFA, State.aluFlags, hc]
  cases s.cfg.aluFlags <;> simp [hs, BitVec.msb_eq_getLsbD_last]

/-! ## The ends of a data-processing instruction, on a state `t` that differs from `s` in the drawn values at most -/

theorem dataResult_known {i : Instr} {s t : State} {d : Reg} {v : DWord} {f : CV} {n : Nat} (hc : t.cfg = s.cfg)
    (hs : t.sr = s.sr) (hpc : t.pc = s.pc) (hf : Frame [d] aluParts [] s t) (hl : n = s.lenOf i)
    (he : exec i s = .next (((t.setReg d v).aluFlags v (.known f)).advance n)) : DataResult i s d v (some f) := by
  refine ⟨_, he, by simp, ?_, by simp [MovesOn, State.nextPc, hl, hpc],
    ((hf.setReg d v (by simp)).aluFlags v _ (List.Subset.refl _)).advance _⟩
  exact flagsFA_known (s := s) (t := t.setReg d v) hc hs v f

theorem dataResult_drawn {i : Instr} {s t : State} {d : Reg} {v : DWord} {n : Nat} (hc : t.cfg = s.cfg)
    (hs : t.sr = s.sr) (hpc : t.pc = s.pc) (hf : Frame [d] aluParts [] s t) (hl : n = s.lenOf i)
    (he : exec i s = .next (((t.setReg d v).aluFlags v .drawn).advance n)) : DataResult i s d v none := by
  refine ⟨_, he, by simp, ?_, by simp [MovesOn, State.nextPc, hl, hpc],
    ((hf.setReg d v (by simp)).aluFlags v _ (List.Subset.refl _)).advance _⟩
  exact flagsFA_drawn (s := s) (t := t.setReg d v) hc hs v

/-- The same after one draw. -/
theorem dataResult_free {i : Instr} {s : State} {d : Reg} {n : Nat} (hl : n = s.lenOf i)
    (he : exec i s = .next (((s.drawDWord.2.setReg d s.drawDWord.1).aluFlags s.drawDWord.1 .drawn).advance n)) :
    ∃ v, DataResult i s d v none :=
  ⟨_, dataResult_drawn (t := s.drawDWord.2) rfl rfl rfl
    ((Frame.refl _ _ _ s).drawDWord (by simp [aluParts])) hl he⟩

/-! ## Results that no source states (log entry 4) -/

theorem unstated_stop {s : State} (h : s.cfg.unstated = .stop) (f : Fault) : s.unstatedResult f = .error f := by
  simp [State.unstatedResult, h]

theorem unstated_free {s : State} (h : s.cfg.unstated = .free) (f : Fault) :
    s.unstatedResult f = .ok s.drawDWord := by
  simp [State.unstatedResult, h]

/-! ## Shifts and rotates -/

theorem shift_ok {s : State} {n : Nat} {d r : Reg} {o : Opt} {i : Instr} (f : DWord → Nat → DWord)
    (he : exec i s = shift s n f d r o) (hl : n = s.lenOf i) (hn : (s.opt o).toNat ≤ 32) :
    DataResult i s d (f (s.reg r) (s.opt o).toNat) none := by
  refine dataResult_drawn rfl rfl rfl (Frame.refl _ _ _ _) hl ?_
  rw [he]
  simp only [shift, if_neg (show ¬ (s.opt o).toNat > 32 by omega), ok_bind]
  rfl

theorem shift_stop {s : State} {n : Nat} {d r : Reg} {o : Opt} (f : DWord → Nat → DWord) (h : s.cfg.unstated = .stop)
    (hn : 32 < (s.opt o).toNat) : shift s n f d r o = .fault .shiftRange := by
  simp only [shift, if_pos hn, unstated_stop h, error_bind, finish_error]

theorem shift_free {s : State} {n : Nat} {d r : Reg} {o : Opt} {i : Instr} (f : DWord → Nat → DWord)
    (he : exec i s = shift s n f d r o) (hl : n = s.lenOf i) (h : s.cfg.unstated = .free) :
    ∃ v, DataResult i s d v none := by
  by_cases hn : (s.opt o).toNat ≤ 32
  · exact ⟨_, shift_ok f he hl hn⟩
  · refine dataResult_free hl ?_
    rw [he]
    simp only [shift, if_pos (show (s.opt o).toNat > 32 by omega), unstated_free h, ok_bind]
    rfl

/-! ## Divisions and remainders -/

theorem divide_ok {s : State} {n : Nat} {d r : Reg} {o : Opt} {i : Instr} {corner : DWord → DWord → Option Fault}
    (f : DWord → DWord → DWord) (he : exec i s = divide s n corner f d r o) (hl : n = s.lenOf i)
    (hn : corner (s.reg r) (s.opt o) = none) : DataResult i s d (f (s.reg r) (s.opt o)) none := by
  refine dataResult_drawn rfl rfl rfl (Frame.refl _ _ _ _) hl ?_
  rw [he]
  simp only [divide, hn, ok_bind]
  rfl

theorem divide_stop {s : State} {n : Nat} {d r : Reg} {o : Opt} {corner : DWord → DWord → Option Fault} {e : Fault}
    (f : DWord → DWord → DWord) (h : s.cfg.unstated = .stop) (hn : corner (s.reg r) (s.opt o) = some e) :
    divide s n corner f d r o = .fault e := by
  simp only [divide, hn, unstated_stop h, error_bind, finish_error]

theorem divide_free {s : State} {n : Nat} {d r : Reg} {o : Opt} {i : Instr} {corner : DWord → DWord → Option Fault}
    (f : DWord → DWord → DWord) (he : exec i s = divide s n corner f d r o) (hl : n = s.lenOf i)
    (h : s.cfg.unstated = .free) : ∃ v, DataResult i s d v none := by
  cases hn : corner (s.reg r) (s.opt o) with
  | none => exact ⟨_, divide_ok f he hl hn⟩
  | some e =>
    refine dataResult_free hl ?_
    rw [he]
    simp only [divide, hn, unstated_free h, ok_bind]
    rfl

/-! ## Multiplications -/

theorem multiply_ok {s : State} {n : Nat} {d : Reg} {i : Instr} {fits : Bool} {v : DWord}
    (he : exec i s = multiply s n fits v d) (hl : n = s.lenOf i) (h : fits = true ∨ s.cfg.mulOverflow = .wrap) :
    DataResult i s d v none := by
  refine dataResult_drawn rfl rfl rfl (Frame.refl _ _ _ _) hl ?_
  rw [he, multiply, if_pos (by rcases h with h | h <;> simp [h])]
  rfl

theorem multiply_some {s : State} {n : Nat} {d : Reg} {i : Instr} {fits : Bool} {v : DWord}
    (he : exec i s = multiply s n fits v d) (hl : n = s.lenOf i) : ∃ v, DataResult i s d v none := by
  by_cases h : (fits || s.cfg.mulOverflow == .wrap) = true
  · exact ⟨v, multiply_ok he hl (by simpa using h)⟩
  · refine dataResult_free hl ?_
    rw [he, multiply, if_neg h]
    rfl

end Sys2Proof.Machine
end

