-- ==== Sys2Proof/Laws/Decode.lean ====
section
/-! SUPPORT. The laws of the decoder's parts: each field's reading of what the encoder writes, and how many bytes a
reading takes (rule R53). -/

namespace Sys2Proof

/-! ## Chaining -/

@[simp] theorem decode_ok_bind {α β : Type} (a : α) (f : α → Except DecodeError β) :
    ((Except.ok a : Except DecodeError α) >>= f) = f a := rfl
@[simp] theorem decode_error_bind {α β : Type} (e : DecodeError) (f : α → Except DecodeError β) :
    ((Except.error e : Except DecodeError α) >>= f) = .error e := rfl

theorem decode_bind_ok {α β : Type} (x : Except DecodeError α) (f : α → Except DecodeError β) (b : β) :
    (x >>= f) = .ok b ↔ ∃ a, x = .ok a ∧ f a = .ok b := by
  cases x <;> simp

@[simp] theorem mustBeZero_true : mustBeZero true = .ok () := rfl
@[simp] theorem mustBeZero_false : mustBeZero false = .error .unassigned := rfl

theorem mustBeZero_ok (b : Bool) (u : Unit) : mustBeZero b = .ok u ↔ b = true := by cases b <;> simp

/-! ## Fields -/

@[simp] theorem anyRegOf_anyRegByte (r : AnyReg) : anyRegOf (anyRegByte r) = .ok r := by
  cases r with
  | r n => revert n; decide
  | _ => rfl

theorem anyRegByte_anyRegOf (b : Byte) (r : AnyReg) (h : anyRegOf b = .ok r) : anyRegByte r = b := by
  revert b r
  have : ∀ b : Byte, (anyRegOf b).toOption.all (fun r => anyRegByte r == b) = true := by decide
  intro b r h
  simpa [h, Except.toOption] using this b

@[simp] theorem condOf_condNumber (c : Cond) : condOf (condNumber c) = .ok c := by cases c <;> rfl

theorem condNumber_condOf (n : Reg) (c : Cond) (h : condOf n = .ok c) : condNumber c = n := by
  revert n c
  have : ∀ n : Reg, (condOf n).toOption.all (fun c => condNumber c == n) = true := by decide
  intro n c h
  simpa [h, Except.toOption] using this n

@[simp] theorem takeWord_wordBytes (bo : ByteOrder) (v : Word) (rest : List Byte) :
    takeWord bo (wordBytes bo v ++ rest) = .ok (v, rest) := by
  cases bo <;> simp [wordBytes, takeWord, wordOf, append_extract_word]

@[simp] theorem takeDWord_dwordBytes (bo : ByteOrder) (v : DWord) (rest : List Byte) :
    takeDWord bo (dwordBytes bo v ++ rest) = .ok (v, rest) := by
  cases bo <;> simp [dwordBytes, takeDWord, dwordOf, append_extract_dword]

theorem wordBytes_wordOf (bo : ByteOrder) (b0 b1 : Byte) : wordBytes bo (wordOf bo b0 b1) = [b0, b1] := by
  cases bo <;> simp only [wordBytes, wordOf, List.cons.injEq, and_true] <;> constructor <;>
    · apply BitVec.eq_of_getLsbD_eq
      intro i hi
      simp only [BitVec.getLsbD_extractLsb', BitVec.getLsbD_append, hi]
      simp
      try omega

theorem dwordBytes_dwordOf (bo : ByteOrder) (b0 b1 b2 b3 : Byte) :
    dwordBytes bo (dwordOf bo b0 b1 b2 b3) = [b0, b1, b2, b3] := by
  have h (x : DWord) (k : Nat) (b : Byte) (hb : ∀ i, i < 8 → x.getLsbD (k + i) = b.getLsbD i) :
      x.extractLsb' k 8 = b := by
    apply BitVec.eq_of_getLsbD_eq
    intro i hi
    simp [hi, hb i hi]
  cases bo <;> simp only [dwordBytes, dwordOf, List.cons.injEq, and_true] <;> refine ⟨h _ _ _ ?_, h _ _ _ ?_, h _ _ _ ?_, h _ _ _ ?_⟩ <;>
    · intro i hi
      simp only [BitVec.getLsbD_append]
      repeat' split
      all_goals first
        | omega
        | (congr 1; omega)

/-- A 16-bit field takes two bytes. -/
theorem takeWord_ok (bo : ByteOrder) (bs rest : List Byte) (v : Word) :
    takeWord bo bs = .ok (v, rest) ↔ bs = wordBytes bo v ++ rest := by
  constructor
  · intro h
    match bs with
    | b0 :: b1 :: t =>
      simp only [takeWord, Except.ok.injEq, Prod.mk.injEq] at h
      obtain ⟨rfl, rfl⟩ := h
      simp [wordBytes_wordOf]
    | [] => simp [takeWord] at h
    | [_] => simp [takeWord] at h
  · rintro rfl; simp

/-- A 32-bit field takes four bytes. -/
theorem takeDWord_ok (bo : ByteOrder) (bs rest : List Byte) (v : DWord) :
    takeDWord bo bs = .ok (v, rest) ↔ bs = dwordBytes bo v ++ rest := by
  constructor
  · intro h
    match bs with
    | b0 :: b1 :: b2 :: b3 :: t =>
      simp only [takeDWord, Except.ok.injEq, Prod.mk.injEq] at h
      obtain ⟨rfl, rfl⟩ := h
      simp [dwordBytes_dwordOf]
    | [] => simp [takeDWord] at h
    | [_] => simp [takeDWord] at h
    | [_, _] => simp [takeDWord] at h
    | [_, _, _] => simp [takeDWord] at h
  · rintro rfl; simp

theorem takeTwo_ok (bs rest : List Byte) (b2 b3 : Byte) :
    takeTwo bs = .ok ((b2, b3), rest) ↔ bs = b2 :: b3 :: rest := by
  match bs with
  | [] => simp [takeTwo]
  | [_] => simp [takeTwo]
  | x :: y :: t => simp [takeTwo, and_assoc]

theorem nibbles_zero_lo (b : Byte) (h : hiNibble b = 0) : nibbles 0 (loNibble b) = b := by
  rw [← h]; exact nibbles_hi_lo b

theorem nibbles_hi_zero (b : Byte) (h : loNibble b = 0) : nibbles (hiNibble b) 0 = b := by
  rw [← h]; exact nibbles_hi_lo b

/-! ## The three ways an operand's bytes end -/

theorem zero_ok {α : Type} (c : Bool) (a b : α) (r rest : List Byte)
    (h : (do mustBeZero c; .ok (a, r) : Except DecodeError (α × List Byte)) = .ok (b, rest)) :
    c = true ∧ b = a ∧ rest = r := by
  cases c <;> simp_all

theorem zero_word_ok {α : Type} (bo : ByteOrder) (c : Bool) (f : Word → α) (b : α) (r rest : List Byte)
    (h : (do mustBeZero c; let (w, rest) ← takeWord bo r; .ok (f w, rest) : Except DecodeError (α × List Byte)) =
      .ok (b, rest)) : c = true ∧ ∃ w, b = f w ∧ r = wordBytes bo w ++ rest := by
  cases c with
  | false => simp at h
  | true =>
    obtain ⟨⟨w, r3⟩, hw, h'⟩ := (decode_bind_ok _ _ _).1 (show (takeWord bo r >>= fun x => _) = _ from h)
    clear h
    simp only [Except.ok.injEq, Prod.mk.injEq] at h'
    obtain ⟨rfl, rfl⟩ := h'
    exact ⟨rfl, w, rfl, (takeWord_ok _ _ _ _).1 hw⟩

theorem zero_word_ok' {α : Type} (bo : ByteOrder) (c : Bool) (f : Word → α) (b : α) (r rest : List Byte)
    (h : (do mustBeZero c; let x ← takeWord bo r; .ok (f x.1, x.2) : Except DecodeError (α × List Byte)) =
      .ok (b, rest)) : c = true ∧ ∃ w, b = f w ∧ r = wordBytes bo w ++ rest :=
  zero_word_ok bo c f b r rest h

theorem zero_dword_ok {α : Type} (bo : ByteOrder) (c : Bool) (f : DWord → α) (b : α) (r rest : List Byte)
    (h : (do mustBeZero c; let (w, rest) ← takeDWord bo r; .ok (f w, rest) : Except DecodeError (α × List Byte)) =
      .ok (b, rest)) : c = true ∧ ∃ w, b = f w ∧ r = dwordBytes bo w ++ rest := by
  cases c with
  | false => simp at h
  | true =>
    obtain ⟨⟨w, r3⟩, hw, h'⟩ := (decode_bind_ok _ _ _).1 (show (takeDWord bo r >>= fun x => _) = _ from h)
    clear h
    simp only [Except.ok.injEq, Prod.mk.injEq] at h'
    obtain ⟨rfl, rfl⟩ := h'
    exact ⟨rfl, w, rfl, (takeDWord_ok _ _ _ _).1 hw⟩

theorem byte_eq_of_toNat {b : Byte} {n : Nat} (h : b.toNat = n) : b = BitVec.ofNat 8 n := by
  apply BitVec.eq_of_toNat_eq
  have := b.isLt
  simp [h]; omega

/-! ## Operands -/

/-- The specifier and immediate bytes of a third operand (rule R55). -/
def optBytes (bo : ByteOrder) : Opt → List Byte
  | .reg o => [0x00, nibbles 0 o]
  | .imm8 v => [0x01, v]
  | .imm16 v => [0x02, 0x00] ++ wordBytes bo v
  | .imm32 v => [0x03, 0x00] ++ dwordBytes bo v

theorem encodeRC_eq (bo : ByteOrder) (op : Byte) (d r : Reg) (o : Opt) :
    encodeRC bo op d r o = op :: nibbles d r :: optBytes bo o := by cases o <;> rfl

@[simp] theorem readOpt_optBytes (bo : ByteOrder) (o : Opt) (rest : List Byte) :
    readOpt bo (optBytes bo o ++ rest) = .ok (o, rest) := by
  cases o <;> simp [readOpt, optBytes, takeTwo]

theorem readOpt_ok (bo : ByteOrder) (bs rest : List Byte) (o : Opt) (h0 : readOpt bo bs = .ok (o, rest)) :
    bs = optBytes bo o ++ rest := by
  obtain ⟨⟨⟨k, v⟩, r2⟩, h2, h⟩ := (decode_bind_ok _ _ _).1 h0
  obtain rfl := (takeTwo_ok _ _ _ _).1 h2
  clear h0 h2
  simp only at h
  split at h
  · rename_i hk
    obtain ⟨hu, rfl, rfl⟩ := zero_ok _ _ _ _ _ h
    simp [optBytes, nibbles_zero_lo v (by simpa using hu), byte_eq_of_toNat hk]
  · rename_i hk
    simp only [Except.ok.injEq, Prod.mk.injEq] at h
    obtain ⟨rfl, rfl⟩ := h
    simp [optBytes, byte_eq_of_toNat hk]
  · rename_i hk
    obtain ⟨hu, w, rfl, rfl⟩ := zero_word_ok _ _ _ _ _ _ h
    simp [optBytes, byte_eq_of_toNat hk, show v = 0 by simpa using hu]
  · rename_i hk
    obtain ⟨hu, w, rfl, rfl⟩ := zero_dword_ok _ _ _ _ _ _ h
    simp [optBytes, byte_eq_of_toNat hk, show v = 0 by simpa using hu]
  · simp at h

@[simp] theorem readOptLimited_optBytes (bo : ByteOrder) (limit : Nat) (o : Opt) (rest : List Byte)
    (h : o.within limit = true) : readOptLimited bo limit (optBytes bo o ++ rest) = .ok (o, rest) := by
  cases o <;> simp_all [readOptLimited, Opt.within]

theorem readOptLimited_ok (bo : ByteOrder) (limit : Nat) (bs rest : List Byte) (o : Opt)
    (h : readOptLimited bo limit bs = .ok (o, rest)) : bs = optBytes bo o ++ rest ∧ o.within limit = true := by
  obtain ⟨⟨o', r'⟩, h1, h⟩ := (decode_bind_ok _ _ _).1 h
  have hb := readOpt_ok _ _ _ _ h1
  cases o' with
  | reg o =>
    simp only [Except.ok.injEq, Prod.mk.injEq] at h
    obtain ⟨rfl, rfl⟩ := h
    exact ⟨hb, rfl⟩
  | imm8 v =>
    simp only at h
    split at h
    · simp only [Except.ok.injEq, Prod.mk.injEq] at h
      obtain ⟨rfl, rfl⟩ := h
      exact ⟨hb, by simpa [Opt.within]⟩
    · simp at h
  | imm16 v => simp at h
  | imm32 v => simp at h

/-- The base register's nibble of a mode (rule R57). -/
def Mode.baseNibble : Mode → Reg
  | .base b => b
  | .indexed _ b _ => b
  | .rel16 _ | .rel32 _ | .absolute _ | .indirect _ => 0

/-- The specifier and immediate bytes of a mode (rule R57). -/
def modeBytes (bo : ByteOrder) : Mode → List Byte
  | .rel16 off => [0x00, 0x00] ++ wordBytes bo off
  | .rel32 off => [0x01, 0x00] ++ dwordBytes bo off
  | .absolute addr => [0x02, 0x00] ++ dwordBytes bo addr
  | .indirect addr => [0x03, 0x00] ++ dwordBytes bo addr
  | .base _ => [0x10, 0x00]
  | .indexed ix _ off => indexedModeByte ix off :: offsetBytes bo off

theorem encodeMA_eq (bo : ByteOrder) (op : Byte) (d : Reg) (m : Mode) :
    encodeMA bo op d m = op :: nibbles d m.baseNibble :: modeBytes bo m := by cases m <;> rfl

@[simp] theorem readMode_modeBytes (bo : ByteOrder) (m : Mode) (rest : List Byte) :
    readMode bo m.baseNibble (modeBytes bo m ++ rest) = .ok (m, rest) := by
  cases m with
  | indexed ix b off =>
    cases ix <;> cases off <;>
      simp [readMode, modeBytes, takeTwo, indexedModeByte, offsetBytes, Mode.baseNibble]
  | _ => simp [readMode, modeBytes, takeTwo, Mode.baseNibble]

@[simp] theorem readMode_modeBytes_base (bo : ByteOrder) (b : Reg) (rest : List Byte) :
    readMode bo b (0x10 :: 0x00 :: rest) = .ok (.base b, rest) :=
  readMode_modeBytes bo (.base b) rest

theorem readMode_ok (bo : ByteOrder) (b : Reg) (bs rest : List Byte) (m : Mode)
    (h0 : readMode bo b bs = .ok (m, rest)) : b = m.baseNibble ∧ bs = modeBytes bo m ++ rest := by
  obtain ⟨⟨⟨k, v⟩, r2⟩, h2, h⟩ := (decode_bind_ok _ _ _).1 h0
  obtain rfl := (takeTwo_ok _ _ _ _).1 h2
  clear h0 h2
  simp only at h
  split at h <;> rename_i hk
  iterate 1
    obtain ⟨hu, w, rfl, rfl⟩ := zero_word_ok _ _ _ _ _ _ h
    simp only [Bool.and_eq_true, beq_iff_eq] at hu
    simp [modeBytes, Mode.baseNibble, byte_eq_of_toNat hk, hu]
  iterate 3
    obtain ⟨hu, w, rfl, rfl⟩ := zero_dword_ok _ _ _ _ _ _ h
    simp only [Bool.and_eq_true, beq_iff_eq] at hu
    simp [modeBytes, Mode.baseNibble, byte_eq_of_toNat hk, hu]
  iterate 1
    obtain ⟨hu, rfl, rfl⟩ := zero_ok _ _ _ _ _ h
    simp [modeBytes, Mode.baseNibble, byte_eq_of_toNat hk, show v = 0 by simpa using hu]
  iterate 3
    obtain ⟨hu, rfl, rfl⟩ := zero_ok _ _ _ _ _ h
    simp [modeBytes, indexedModeByte, offsetBytes, Mode.baseNibble, byte_eq_of_toNat hk,
      nibbles_zero_lo v (by simpa using hu)]
  iterate 3
    simp only [Except.ok.injEq, Prod.mk.injEq] at h
    obtain ⟨rfl, rfl⟩ := h
    simp [modeBytes, indexedModeByte, offsetBytes, Mode.baseNibble, byte_eq_of_toNat hk]
  iterate 3
    obtain ⟨hu, w, rfl, rfl⟩ := zero_word_ok' bo (v == 0) (fun w => Mode.indexed _ b (.word w)) _ _ _ h
    simp [modeBytes, indexedModeByte, offsetBytes, Mode.baseNibble, byte_eq_of_toNat hk,
      show v = 0 by simpa using hu]
  simp at h

/-- The two nibbles and the bytes after them of a JMP (rule R58). -/
def jmpBytes (bo : ByteOrder) : JmpTarget → List Byte
  | .absolute addr => [0x00, 0x02, 0x00] ++ dwordBytes bo addr
  | .indirect addr => [0x00, 0x03, 0x00] ++ dwordBytes bo addr
  | .reg d => [nibbles d 0, 0x04, 0x00]

theorem encodeJmp_eq (bo : ByteOrder) (t : JmpTarget) : encodeJmp bo t = 0x2C :: jmpBytes bo t := by cases t <;> rfl

theorem readJmp_ok (bo : ByteOrder) (b1 : Byte) (bs rest : List Byte) (t : JmpTarget)
    (h0 : readJmp bo (hiNibble b1) (loNibble b1) bs = .ok (t, rest)) : b1 :: bs = jmpBytes bo t ++ rest := by
  obtain ⟨⟨⟨k, v⟩, r2⟩, h2, h⟩ := (decode_bind_ok _ _ _).1 h0
  obtain rfl := (takeTwo_ok _ _ _ _).1 h2
  clear h0 h2
  simp only at h
  split at h <;> rename_i hk
  iterate 2
    obtain ⟨hu, w, rfl, rfl⟩ := zero_dword_ok _ _ _ _ _ _ h
    simp only [Bool.and_eq_true, beq_iff_eq] at hu
    have hb := nibbles_hi_lo b1
    rw [hu.1.1, hu.1.2] at hb
    simp [jmpBytes, byte_eq_of_toNat hk, hu.2, ← hb]
    decide
  iterate 1
    obtain ⟨hu, rfl, rfl⟩ := zero_ok _ _ _ _ _ h
    simp only [Bool.and_eq_true, beq_iff_eq] at hu
    simp [jmpBytes, byte_eq_of_toNat hk, hu.2, nibbles_hi_zero b1 hu.1]
  simp at h

/-! ## How many bytes a reading takes -/

theorem kindTail_optBytes (bo : ByteOrder) (o : Opt) :
    ∃ k v t, optBytes bo o = k :: v :: t ∧ kindTail k = some t.length := by
  cases o <;> exact ⟨_, _, _, rfl, by cases bo <;> rfl⟩

theorem modeTail_modeBytes (bo : ByteOrder) (m : Mode) :
    ∃ k v t, modeBytes bo m = k :: v :: t ∧ modeTail k = some t.length := by
  cases m with
  | indexed ix b off => cases ix <;> cases off <;> exact ⟨_, _, _, rfl, by cases bo <;> rfl⟩
  | _ => exact ⟨_, _, _, rfl, by cases bo <;> rfl⟩

theorem modeTail_jmpBytes (bo : ByteOrder) (j : JmpTarget) :
    ∃ b1 k v t, jmpBytes bo j = b1 :: k :: v :: t ∧ modeTail k = some t.length := by
  cases j <;> exact ⟨_, _, _, _, rfl, by cases bo <;> rfl⟩

/-- The bytes after `b0 b1` are as many as the algorithm of rule R53 says. -/
def TailIs (sh : Shape) (bs : List Byte) : Prop :=
  match sh.tail with
  | .bytes n => bs.length = n
  | .specifier f => ∃ k v t, bs = k :: v :: t ∧ f k = some t.length

/-- What a format's reading takes is what the algorithm says. -/
theorem Shape.read_tail (bo : ByteOrder) (b1 : Byte) (bs rest : List Byte) (sh : Shape) (i : Instr)
    (h : sh.read bo b1 bs = .ok (i, rest)) : ∃ t, bs = t ++ rest ∧ TailIs sh t := by
  cases sh with
  | imp j =>
    obtain ⟨-, -, rfl⟩ := zero_ok _ _ _ _ _ h
    exact ⟨[], rfl, rfl⟩
  | impAny j =>
    simp only [Shape.read, Except.ok.injEq, Prod.mk.injEq] at h
    exact ⟨[], by simp [h.2], rfl⟩
  | reg5 f =>
    obtain ⟨r, -, h⟩ := (decode_bind_ok _ _ _).1 h
    simp only [Except.ok.injEq, Prod.mk.injEq] at h
    exact ⟨[], by simp [h.2], rfl⟩
  | r1 f =>
    obtain ⟨-, -, rfl⟩ := zero_ok _ _ _ _ _ h
    exact ⟨[], rfl, rfl⟩
  | rng f =>
    simp only [Shape.read] at h
    split at h
    · simp only [Except.ok.injEq, Prod.mk.injEq] at h
      exact ⟨[], by simp [h.2], rfl⟩
    · simp at h
  | rr f =>
    simp only [Shape.read, Except.ok.injEq, Prod.mk.injEq] at h
    exact ⟨[], by simp [h.2], rfl⟩
  | ri4 f =>
    simp only [Shape.read, Except.ok.injEq, Prod.mk.injEq] at h
    exact ⟨[], by simp [h.2], rfl⟩
  | ri16 f =>
    obtain ⟨-, w, -, rfl⟩ := zero_word_ok _ _ _ _ _ _ h
    exact ⟨_, rfl, wordBytes_length bo w⟩
  | ri32 f =>
    obtain ⟨-, w, -, rfl⟩ := zero_dword_ok _ _ _ _ _ _ h
    exact ⟨_, rfl, dwordBytes_length bo w⟩
  | xx f =>
    obtain ⟨-, -, h⟩ := (decode_bind_ok _ _ _).1 h
    obtain ⟨⟨⟨b2, b3⟩, r⟩, h2, h⟩ := (decode_bind_ok _ _ _).1 h
    have hb := (takeTwo_ok _ _ _ _).1 h2
    obtain ⟨x, -, h⟩ := (decode_bind_ok _ _ _).1 h
    obtain ⟨y, -, h⟩ := (decode_bind_ok _ _ _).1 h
    simp only [Except.ok.injEq, Prod.mk.injEq] at h
    exact ⟨[b2, b3], by simp [hb, h.2], rfl⟩
  | rc f =>
    obtain ⟨⟨o, r⟩, ho, h⟩ := (decode_bind_ok _ _ _).1 h
    simp only [Except.ok.injEq, Prod.mk.injEq] at h
    obtain ⟨-, rfl⟩ := h
    exact ⟨_, readOpt_ok _ _ _ _ ho, kindTail_optBytes bo o⟩
  | rcLimited limit f =>
    obtain ⟨⟨o, r⟩, ho, h⟩ := (decode_bind_ok _ _ _).1 h
    simp only [Except.ok.injEq, Prod.mk.injEq] at h
    obtain ⟨-, rfl⟩ := h
    exact ⟨_, (readOptLimited_ok _ _ _ _ _ ho).1, kindTail_optBytes bo o⟩
  | cp f =>
    obtain ⟨-, -, h⟩ := (decode_bind_ok _ _ _).1 h
    obtain ⟨⟨o, r⟩, ho, h⟩ := (decode_bind_ok _ _ _).1 h
    simp only [Except.ok.injEq, Prod.mk.injEq] at h
    obtain ⟨-, rfl⟩ := h
    exact ⟨_, readOpt_ok _ _ _ _ ho, kindTail_optBytes bo o⟩
  | ma f =>
    obtain ⟨⟨m, r⟩, hm, h⟩ := (decode_bind_ok _ _ _).1 h
    simp only [Except.ok.injEq, Prod.mk.injEq] at h
    obtain ⟨-, rfl⟩ := h
    exact ⟨_, (readMode_ok _ _ _ _ _ hm).2, modeTail_modeBytes bo m⟩
  | maJmp f =>
    obtain ⟨⟨j, r⟩, hj, h⟩ := (decode_bind_ok _ _ _).1 h
    simp only [Except.ok.injEq, Prod.mk.injEq] at h
    obtain ⟨-, rfl⟩ := h
    have hb := readJmp_ok _ _ _ _ _ hj
    obtain ⟨b, k, v, t, ht, hk⟩ := modeTail_jmpBytes bo j
    rw [ht] at hb
    simp only [List.cons_append, List.cons.injEq] at hb
    exact ⟨k :: v :: t, hb.2, k, v, t, rfl, hk⟩
  | br16 f =>
    obtain ⟨-, -, h⟩ := (decode_bind_ok _ _ _).1 h
    obtain ⟨c, -, h⟩ := (decode_bind_ok _ _ _).1 h
    obtain ⟨⟨w, r⟩, hw, h⟩ := (decode_bind_ok _ _ _).1 h
    simp only [Except.ok.injEq, Prod.mk.injEq] at h
    obtain ⟨-, rfl⟩ := h
    exact ⟨_, (takeWord_ok _ _ _ _).1 hw, wordBytes_length bo w⟩
  | br32 f =>
    obtain ⟨-, -, h⟩ := (decode_bind_ok _ _ _).1 h
    obtain ⟨c, -, h⟩ := (decode_bind_ok _ _ _).1 h
    obtain ⟨⟨w, r⟩, hw, h⟩ := (decode_bind_ok _ _ _).1 h
    simp only [Except.ok.injEq, Prod.mk.injEq] at h
    obtain ⟨-, rfl⟩ := h
    exact ⟨_, (takeDWord_ok _ _ _ _).1 hw, dwordBytes_length bo w⟩
  | t16 f =>
    obtain ⟨-, w, -, rfl⟩ := zero_word_ok _ _ _ _ _ _ h
    exact ⟨_, rfl, wordBytes_length bo w⟩
  | sw5 f =>
    simp only [Shape.read] at h
    split at h
    · simp only [Except.ok.injEq, Prod.mk.injEq] at h
      exact ⟨[], by simp [h.2], rfl⟩
    · simp at h

end Sys2Proof
end

