-- ==== Sys2Proof/Laws/Encoding.lean ====
section
/-! SUPPORT. The laws of the parameter `ENCODING` (`00_scope.md` rule R6): how many bytes of an instruction the bytes
read so far call for, under section 3 (`30_encoding.md` rule R53) and under a table. -/

namespace Sys2Proof

/-! ## Section 3 -/

/-- Every format is 2, 4, 6 or 8 bytes (rule R53). -/
theorem kindTail_le (k : Byte) : (kindTail k).getD 0 ≤ 4 := by
  unfold kindTail; split <;> simp

theorem modeTail_le (k : Byte) : (modeTail k).getD 0 ≤ 4 := by
  unfold modeTail; split <;> simp

theorem bytesNeeded_le (bs : List Byte) : bytesNeeded bs ≤ 8 := by
  unfold bytesNeeded
  split
  · rename_i b0 _ rest
    cases opcode b0.toNat with
    | none => simp
    | some sh =>
      cases sh <;> simp only [Shape.tail, Nat.reduceAdd, Nat.reduceLeDiff] <;> split <;>
        first
        | omega
        | (have := kindTail_le; grind)
        | (have := modeTail_le; grind)
  · omega

/-- Reading on never takes back what was called for: a part of bytes that call for more calls for more, and for no more
than they do. -/
theorem bytesNeeded_take (bs : List Byte) (j : Nat) (h : j < bytesNeeded bs) (hj : j ≤ bs.length) :
    j < bytesNeeded (bs.take j) ∧ bytesNeeded (bs.take j) ≤ bytesNeeded bs := by
  match bs, j with
  | [], 0 => simp [bytesNeeded]
  | [_], 0 => simp [bytesNeeded]
  | [_], 1 => simp [bytesNeeded]
  | b0 :: b1 :: rest, 0 =>
    refine ⟨by simp [bytesNeeded], ?_⟩
    simp only [bytesNeeded, List.take_zero]
    split
    · omega
    · split
      · omega
      · split <;> omega
  | b0 :: b1 :: rest, 1 =>
    refine ⟨by simp [bytesNeeded], ?_⟩
    simp only [bytesNeeded, List.take_succ_cons, List.take_zero]
    split
    · omega
    · split
      · omega
      · split <;> omega
  | b0 :: b1 :: rest, j + 2 =>
    simp only [bytesNeeded, List.take_succ_cons] at h ⊢
    cases ho : opcode b0.toNat with
    | none => simp [ho] at h
    | some sh =>
      simp only [ho] at h ⊢
      cases ht : sh.tail with
      | bytes n => simp only [ht] at h ⊢; exact ⟨h, Nat.le_refl _⟩
      | specifier f =>
        simp only [ht] at h ⊢
        match rest, j with
        | [], _ => simp at hj; subst hj; simp
        | [_], 0 => simp
        | [_], 1 => simp
        | [_], j + 2 => simp at hj
        | b2 :: b3 :: t, 0 => simp
        | b2 :: b3 :: t, 1 => simp
        | b2 :: b3 :: t, j + 2 => simp only [List.take_succ_cons] at h ⊢; exact ⟨h, Nat.le_refl _⟩

/-- Bytes that decode call for exactly the bytes of the instruction. -/
theorem bytesNeeded_decode (bo : ByteOrder) (bs rest : List Byte) (i : Instr)
    (h : decode bo (bs ++ rest) = .ok (i, rest)) : bytesNeeded bs = bs.length := by
  match bs with
  | [] =>
    have hr : decode bo rest = .ok (i, rest) := h
    match rest with
    | [] => simp [decode] at hr
    | [_] => simp [decode] at hr
    | b0 :: b1 :: t =>
      simp only [decode] at hr
      cases ho : opcode b0.toNat with
      | none => simp [ho] at hr
      | some sh =>
        simp only [ho] at hr
        obtain ⟨u, hu, -⟩ := Shape.read_tail _ _ _ _ _ _ hr
        have := congrArg List.length hu
        simp at this; omega
  | [x] =>
    match rest with
    | [] => simp [decode] at h
    | b1 :: t =>
      simp only [List.cons_append, List.nil_append, decode] at h
      cases ho : opcode x.toNat with
      | none => simp [ho] at h
      | some sh =>
        simp only [ho] at h
        obtain ⟨u, hu, -⟩ := Shape.read_tail _ _ _ _ _ _ h
        have := congrArg List.length hu
        simp at this; omega
  | b0 :: b1 :: t =>
    simp only [List.cons_append, decode] at h
    cases ho : opcode b0.toNat with
    | none => simp [ho] at h
    | some sh =>
      simp only [ho] at h
      obtain ⟨u, hu, hl⟩ := Shape.read_tail _ _ _ _ _ _ h
      obtain rfl := List.append_cancel_right hu
      simp only [bytesNeeded, ho]
      unfold TailIs at hl
      cases ht : sh.tail with
      | bytes n => simp only [ht] at hl ⊢; simp [hl]; omega
      | specifier f =>
        simp only [ht] at hl ⊢
        obtain ⟨k, v, w, rfl, hk⟩ := hl
        simp [hk]; omega

/-! ## Tables -/

theorem isHeader_iff {i : Instr} : i.isHeader = true ↔ i = .afh := by
  cases i <;> simp [Instr.isHeader]

theorem heads_iff {r : EncodingRow} {bs : List Byte} : r.heads bs = true ↔
    (r.instr = .afh ∧ bs.head? = some 0x41 ∧ r.bytes.length ≤ bs.length) ∨ (r.instr ≠ .afh ∧ r.bytes <+: bs) := by
  unfold EncodingRow.heads
  by_cases h : r.instr.isHeader = true
  · simp [isHeader_iff.1 h, Instr.isHeader]
  · have := mt isHeader_iff.2 h; simp [h, this]

theorem awaits_iff {r : EncodingRow} {bs : List Byte} : r.awaits bs = true ↔
    (r.instr = .afh ∧ bs.head? = some 0x41 ∧ bs.length < r.bytes.length) ∨ (r.instr ≠ .afh ∧ bs <+: r.bytes) := by
  unfold EncodingRow.awaits
  by_cases h : r.instr.isHeader = true
  · simp [isHeader_iff.1 h, Instr.isHeader]
  · have := mt isHeader_iff.2 h; simp [h, this]

theorem head?_prefix {bs cs : List Byte} (h : bs <+: cs) (hn : bs ≠ []) : cs.head? = bs.head? := by
  obtain ⟨t, rfl⟩ := h
  cases bs with
  | nil => exact absurd rfl hn
  | cons => rfl

theorem heads_length {r : EncodingRow} {bs : List Byte} (h : r.heads bs = true) : r.bytes.length ≤ bs.length := by
  rcases heads_iff.1 h with h | h
  · exact h.2.2
  · exact h.2.length_le

/-- What stands at the head of some bytes stands at the head of longer ones. -/
theorem heads_mono {r : EncodingRow} {bs cs : List Byte} (h : r.heads bs = true) (hp : bs <+: cs) :
    r.heads cs = true := by
  rw [heads_iff] at h ⊢
  rcases h with ⟨ha, hh, hl⟩ | ⟨ha, hb⟩
  · refine .inl ⟨ha, ?_, hl.trans hp.length_le⟩
    rw [head?_prefix hp (by rintro rfl; simp at hh), hh]
  · exact .inr ⟨ha, hb.trans hp⟩

/-- What awaits more after some bytes awaits more after a part of them. -/
theorem awaits_mono {r : EncodingRow} {bs cs : List Byte} (h : r.awaits cs = true) (hp : bs <+: cs) (hn : bs ≠ []) :
    r.awaits bs = true := by
  rw [awaits_iff] at h ⊢
  rcases h with ⟨ha, hh, hl⟩ | ⟨ha, hb⟩
  · exact .inl ⟨ha, by rw [← head?_prefix hp hn, hh], by have := hp.length_le; omega⟩
  · exact .inr ⟨ha, hp.trans hb⟩

/-- The bytes of an instruction and no more: a part of them awaits the rest. -/
theorem awaits_take {r : EncodingRow} {bs : List Byte} (h : r.heads bs = true) (hl : bs.length = r.bytes.length) {j : Nat}
    (hj : j < bs.length) (h0 : 0 < j) : r.awaits (bs.take j) = true := by
  have hn : bs.take j ≠ [] := by
    intro he; have := congrArg List.length he; rw [List.length_take, List.length_nil] at this; omega
  rw [awaits_iff]
  rcases heads_iff.1 h with ⟨ha, hh, -⟩ | ⟨ha, hb⟩
  · exact .inl ⟨ha, by rw [← head?_prefix (List.take_prefix j bs) hn, hh], by rw [List.length_take]; omega⟩
  · exact .inr ⟨ha, hb.eq_of_length hl.symm ▸ List.take_prefix j bs⟩

theorem rowOf_some {rows : List EncodingRow} {bs : List Byte} {r : EncodingRow} (h : rowOf rows bs = some r) :
    r ∈ rows ∧ r.heads bs = true :=
  ⟨List.mem_of_find?_eq_some h, by simpa using List.find?_some h⟩

theorem rowOf_none {rows : List EncodingRow} {bs : List Byte} (h : rowOf rows bs = none) :
    ∀ r ∈ rows, ¬ r.heads bs = true := by
  simpa [rowOf, List.find?_eq_none] using h

theorem mem_rowOf {rows : List EncodingRow} {bs : List Byte} {r : EncodingRow} (hr : r ∈ rows) (h : r.heads bs = true) :
    ∃ q, rowOf rows bs = some q := by
  cases hq : rowOf rows bs with
  | none => exact absurd h (rowOf_none hq r hr)
  | some q => exact ⟨q, rfl⟩

/-- What an admissible table gives of its entries. -/
theorem tableWf {rows : List EncodingRow} (h : (Encoding.table rows).wf = true) :
    (∀ r ∈ rows, r.wf = true) ∧ (∃ r ∈ rows, r.instr = .afh) ∧
    rows.Pairwise (fun r q => r.instr ≠ q.instr ∧ ¬ r.bytes <+: q.bytes ∧ ¬ q.bytes <+: r.bytes) := by
  simp only [Encoding.wf, Bool.and_eq_true, decide_eq_true_eq, List.all_eq_true, List.any_eq_true, isHeader_iff] at h
  refine ⟨h.1.1, h.1.2, h.2.imp ?_⟩
  intro r q hq
  refine ⟨hq.1, fun hp => ?_, fun hp => ?_⟩
  · have := hq.2.1; rw [← List.isPrefixOf_iff_prefix] at hp; simp [hp] at this
  · have := hq.2.2; rw [← List.isPrefixOf_iff_prefix] at hp; simp [hp] at this

theorem rowWf {r : EncodingRow} (h : r.wf = true) : r.instr.wellFormed = true ∧ 2 ≤ r.bytes.length ∧
    r.bytes.length ≤ 8 ∧ (r.bytes.head? = some 0x41 ↔ r.instr = .afh) := by
  simp only [EncodingRow.wf, Instr.admits, Bool.and_eq_true, List.contains_iff_mem] at h
  obtain ⟨⟨hi, hl⟩, ha, -⟩ := h
  have ha := Bool.eq_iff_iff.1 (by simpa using ha)
  rw [isHeader_iff] at ha
  refine ⟨hi, ?_, ?_, by simpa using ha⟩ <;> simp at hl <;> omega

/-- Two entries of which one begins with the other are one entry. -/
theorem row_unique {rows : List EncodingRow} (h : (Encoding.table rows).wf = true) {r q : EncodingRow} (hr : r ∈ rows)
    (hq : q ∈ rows) (hp : r.instr = q.instr ∨ r.bytes <+: q.bytes ∨ q.bytes <+: r.bytes) : r = q := by
  have hw := (tableWf h).2.2
  by_contra hne
  obtain ⟨i, hi, rfl⟩ := List.getElem_of_mem hr
  obtain ⟨j, hj, rfl⟩ := List.getElem_of_mem hq
  rw [List.pairwise_iff_getElem] at hw
  rcases Nat.lt_trichotomy i j with hij | hij | hij
  · have := hw i j hi hj hij
    tauto
  · subst hij; exact hne rfl
  · have := hw j i hj hi hij
    rw [eq_comm] at hp
    tauto

/-- Two entries at the head of the same bytes are one entry. -/
theorem heads_unique {rows : List EncodingRow} (h : (Encoding.table rows).wf = true) {r q : EncodingRow} (hr : r ∈ rows)
    (hq : q ∈ rows) {bs : List Byte} (h1 : r.heads bs = true) (h2 : q.heads bs = true) : r = q := by
  have notHeader {p : EncodingRow} (hp : p ∈ rows) (ha : p.instr ≠ .afh) (hb : p.bytes <+: bs) :
      bs.head? ≠ some 0x41 := by
    have hw := rowWf ((tableWf h).1 p hp)
    rw [head?_prefix hb (by intro he; simp [he] at hw)]
    exact mt hw.2.2.2.1 ha
  rcases heads_iff.1 h1 with ⟨a1, e1, -⟩ | ⟨a1, p1⟩ <;> rcases heads_iff.1 h2 with ⟨a2, e2, -⟩ | ⟨a2, p2⟩
  · exact row_unique h hr hq (.inl (a1.trans a2.symm))
  · exact absurd e1 (notHeader hq a2 p2)
  · exact absurd e2 (notHeader hr a1 p1)
  · exact row_unique h hr hq (.inr (List.prefix_or_prefix_of_prefix p1 p2))

/-- Bytes at whose head an entry stands are that entry's. -/
theorem rowOf_eq {rows : List EncodingRow} (h : (Encoding.table rows).wf = true) {r : EncodingRow} (hr : r ∈ rows)
    (bs : List Byte) (hp : r.heads bs = true) : rowOf rows bs = some r := by
  obtain ⟨q, hq⟩ := mem_rowOf hr hp
  obtain ⟨hm, hb⟩ := rowOf_some hq
  rw [hq, heads_unique h hr hm hp hb]

/-- An entry stands at the head of its own bytes. -/
theorem heads_self {r : EncodingRow} (h : r.wf = true) (rest : List Byte) : r.heads (r.bytes ++ rest) = true := by
  have hw := rowWf h
  refine heads_mono (bs := r.bytes) ?_ (List.prefix_append _ _)
  by_cases ha : r.instr = .afh
  · exact heads_iff.2 (.inl ⟨ha, hw.2.2.2.2 ha, Nat.le_refl _⟩)
  · exact heads_iff.2 (.inr ⟨ha, List.prefix_refl _⟩)

/-- The entry of an instruction. -/
theorem find_instr {rows : List EncodingRow} (h : (Encoding.table rows).wf = true) {r : EncodingRow} (hr : r ∈ rows) :
    rows.find? (fun q => q.instr = r.instr) = some r := by
  cases hq : rows.find? (fun q => q.instr = r.instr) with
  | none => simpa using List.find?_eq_none.1 hq r hr
  | some q =>
    have hm := List.mem_of_find?_eq_some hq
    have hi := List.find?_some hq
    rw [row_unique h hm hr (.inl (by simpa using hi))]

theorem rowsNeeded_take {rows : List EncodingRow} (bs : List Byte) (j : Nat) (h : bs.length < rowsNeeded rows bs)
    (hj : j ≤ bs.length) : j < rowsNeeded rows (bs.take j) ∧ rowsNeeded rows (bs.take j) ≤ rowsNeeded rows bs := by
  have hl : (bs.take j).length = j := by simp [hj]
  unfold rowsNeeded at h ⊢
  rw [hl]
  by_cases h2 : bs.length < 2
  · rw [if_pos h2, if_pos (by omega)]; omega
  · rw [if_neg h2] at h ⊢
    split at h
    · rename_i hc
      rw [if_pos hc]
      simp only [Bool.and_eq_true, Option.isNone_iff_eq_none, List.any_eq_true] at hc
      obtain ⟨hn, r, hr, hp⟩ := hc
      by_cases hj2 : j < 2
      · rw [if_pos hj2]; omega
      · rw [if_neg hj2, if_pos]
        · omega
        · simp only [Bool.and_eq_true, Option.isNone_iff_eq_none, List.any_eq_true]
          refine ⟨?_, r, hr, awaits_mono hp (List.take_prefix j bs) (by intro he; simp [he] at hl; omega)⟩
          cases hq : rowOf rows (bs.take j) with
          | none => rfl
          | some q =>
            obtain ⟨hm, hb⟩ := rowOf_some hq
            exact absurd (heads_mono hb (List.take_prefix j bs)) (rowOf_none hn q hm)
    · omega

theorem rowsNeeded_le {rows : List EncodingRow} (hw : (Encoding.table rows).wf = true) (bs : List Byte)
    (h : bs.length < rowsNeeded rows bs) : rowsNeeded rows bs ≤ 8 := by
  unfold rowsNeeded at h ⊢
  split at h
  · rw [if_pos (by assumption)]; omega
  · rename_i h2
    split at h
    · rename_i hc
      rw [if_neg h2, if_pos hc]
      simp only [Bool.and_eq_true, Option.isNone_iff_eq_none, List.any_eq_true] at hc
      obtain ⟨hn, r, hr, hp⟩ := hc
      have h8 := rowWf ((tableWf hw).1 r hr)
      have : bs.length < r.bytes.length := by
        rcases awaits_iff.1 hp with ⟨-, -, hl⟩ | ⟨ha, hb⟩
        · exact hl
        · refine Nat.lt_of_le_of_ne hb.length_le fun he => rowOf_none hn r hr (heads_iff.2 (.inr ⟨ha, ?_⟩))
          rw [hb.eq_of_length he]
      omega
    · omega

/-! ## Both -/

/-- A part of bytes that call for more calls for more, and for no more than they do. -/
theorem needed_take (e : Encoding) (bs : List Byte) (j : Nat) (h : bs.length < e.needed bs) (hj : j ≤ bs.length) :
    j < e.needed (bs.take j) ∧ e.needed (bs.take j) ≤ e.needed bs := by
  cases e with
  | section3 => exact bytesNeeded_take bs j (by simp only [Encoding.needed] at h; omega) hj
  | table rows => exact rowsNeeded_take bs j h hj

/-- An admissible encoding calls for at most 8 bytes (rule R50). -/
theorem needed_le (e : Encoding) (hw : e.wf = true) (bs : List Byte) (h : bs.length < e.needed bs) :
    e.needed bs ≤ 8 := by
  cases e with
  | section3 => exact bytesNeeded_le bs
  | table rows => exact rowsNeeded_le hw bs h

theorem rowsNeeded_row {rows : List EncodingRow} (hw : (Encoding.table rows).wf = true) {r : EncodingRow}
    (hr : r ∈ rows) {bs : List Byte} (h : r.heads bs = true) (hb : bs.length = r.bytes.length) (j : Nat)
    (hj : j < bs.length) : j < rowsNeeded rows (bs.take j) := by
  have hl : (bs.take j).length = j := by simp; omega
  unfold rowsNeeded
  rw [hl]
  split
  · omega
  · rw [if_pos]
    · omega
    · simp only [Bool.and_eq_true, Option.isNone_iff_eq_none, List.any_eq_true]
      refine ⟨?_, r, hr, awaits_take h hb hj (by omega)⟩
      cases hq : rowOf rows (bs.take j) with
      | none => rfl
      | some q =>
        obtain ⟨hm, hp⟩ := rowOf_some hq
        obtain rfl := heads_unique hw hr hm h (heads_mono hp (List.take_prefix j bs))
        have := heads_length hp
        omega

/-- The bytes of one instruction and no more call for exactly themselves, and every part of them for more. -/
theorem needed_read (e : Encoding) (hw : e.wf = true) (bo : ByteOrder) (bs : List Byte) (i : Instr)
    (h : e.read bo bs = .ok (i, [])) : e.needed bs = bs.length ∧ bs.length ≤ 8 ∧
      ∀ j, j < bs.length → j < e.needed (bs.take j) ∧ e.needed (bs.take j) ≤ bs.length := by
  cases e with
  | section3 =>
    have hn : bytesNeeded bs = bs.length := bytesNeeded_decode bo bs [] i (by simpa [Encoding.read] using h)
    refine ⟨hn, hn ▸ bytesNeeded_le bs, fun j hj => ?_⟩
    have := bytesNeeded_take bs j (by omega) (by omega)
    exact ⟨this.1, hn ▸ this.2⟩
  | table rows =>
    simp only [Encoding.read] at h
    cases hr : rowOf rows bs with
    | none => simp [hr] at h
    | some r =>
      simp only [hr, Except.ok.injEq, Prod.mk.injEq, List.drop_eq_nil_iff] at h
      obtain ⟨hm, hp⟩ := rowOf_some hr
      have hl : bs.length = r.bytes.length := Nat.le_antisymm h.2 (heads_length hp)
      have h8 := rowWf ((tableWf hw).1 r hm)
      refine ⟨?_, by omega, fun j hj => ?_⟩
      · simp only [Encoding.needed, rowsNeeded]
        rw [if_neg (by omega), if_neg (by simp [hr])]
      · refine ⟨rowsNeeded_row hw hm hp hl j hj, ?_⟩
        have hl : (bs.take j).length = j := by simp; omega
        simp only [Encoding.needed, rowsNeeded, hl]
        split
        · omega
        · split <;> omega

/-- Bytes that call for no more and are no instruction: every part of them that calls for no more is none either, and for
the same reason. -/
theorem read_error_take (e : Encoding) (bo : ByteOrder) (bs : List Byte) (why : DecodeError) (j : Nat)
    (hn : e.needed bs = bs.length) (h : e.read bo bs = .error why) (hj : j ≤ bs.length)
    (hs : e.needed (bs.take j) ≤ j) : e.read bo (bs.take j) = .error why := by
  by_cases he : j = bs.length
  · subst he; simpa using h
  cases e with
  | section3 =>
    have := bytesNeeded_take bs j (by simp only [Encoding.needed] at hn; omega) hj
    simp only [Encoding.needed] at hs
    omega
  | table rows =>
    simp only [Encoding.read] at h ⊢
    cases hr : rowOf rows bs with
    | some r => simp [hr] at h
    | none =>
      simp only [hr] at h
      cases hq : rowOf rows (bs.take j) with
      | none => exact h
      | some q =>
        obtain ⟨hm, hb⟩ := rowOf_some hq
        exact absurd (heads_mono hb (List.take_prefix j bs)) (rowOf_none hr q hm)

end Sys2Proof
end

