-- ==== Sys2Proof/Laws/Fetch.lean ====
section
/-! SUPPORT. What a fetch does: the bytes it reads, what stops it, and the instruction it answers
(`70_reset_and_hazards.md` rule R294 part (c)). -/

namespace Sys2Proof.Machine

@[simp] theorem State.bytesAt_length (s : State) (a n : Nat) : (s.bytesAt a n).length = n := by simp [State.bytesAt]

theorem State.bytesAt_succ (s : State) (a n : Nat) : s.bytesAt a (n + 1) = s.bytesAt a n ++ [s.byte (a + n)] := by
  simp [State.bytesAt, List.range_succ]

theorem State.bytesAt_take (s : State) (a n j : Nat) (h : j ≤ n) : (s.bytesAt a n).take j = s.bytesAt a j := by
  simp [State.bytesAt, ← List.map_take, List.take_range, Nat.min_eq_left h]

/-- A readable byte is the byte of memory. -/
theorem fetchByte_ok (s : State) (a n k : Nat) (h : CodeReadable s a n) (hk : k < n) :
    fetchByte s (a + k) = .ok (s.byte (a + k)) := by
  have h0 := h k hk
  rw [fetchByte, if_neg (by simp [h0.1]), if_neg]
  rcases h0.2 with h | h <;> simp [h]

/-- Readable bytes that call for more, up to `k`, are read. -/
theorem fetchBytes_read (s : State) (k : Nat) (hc : CodeReadable s s.pc.toNat k)
    (hn : ∀ j, j < k → j < s.cfg.encoding.needed (s.bytesAt s.pc.toNat j) ∧
      s.pc.toNat + s.cfg.encoding.needed (s.bytesAt s.pc.toNat j) < 2 ^ 32) (fuel : Nat) :
    ∀ m, m ≤ k → fetchBytes s (m + fuel) (s.bytesAt s.pc.toNat (k - m)) = fetchBytes s fuel (s.bytesAt s.pc.toNat k) := by
  intro m
  induction m with
  | zero => simp
  | succ m ih =>
    intro hm
    obtain ⟨h1, h2⟩ := hn (k - (m + 1)) (by omega)
    rw [← ih (by omega), show m + 1 + fuel = (m + fuel) + 1 by omega, fetchBytes]
    simp only [State.bytesAt_length]
    rw [if_neg (by omega), if_neg (by omega), fetchByte_ok s _ k _ hc (by omega), ok_bind, ← State.bytesAt_succ,
      show k - (m + 1) + 1 = k - m by omega]

/-- A fetch that has read `k` bytes. -/
theorem fetchBytes_from (s : State) (k : Nat) (hk : k ≤ maxInstrBytes) (hc : CodeReadable s s.pc.toNat k)
    (hn : ∀ j, j < k → j < s.cfg.encoding.needed (s.bytesAt s.pc.toNat j) ∧
      s.pc.toNat + s.cfg.encoding.needed (s.bytesAt s.pc.toNat j) < 2 ^ 32) :
    fetchBytes s maxInstrBytes [] = fetchBytes s (maxInstrBytes - k) (s.bytesAt s.pc.toNat k) := by
  have := fetchBytes_read s k hc hn (maxInstrBytes - k) k (Nat.le_refl _)
  rw [show k + (maxInstrBytes - k) = maxInstrBytes by omega, Nat.sub_self] at this
  exact this

/-- Bytes that call for no more are the end of the reading. -/
theorem fetchBytes_end (s : State) (fuel : Nat) (bs : List Byte) (h : s.cfg.encoding.needed bs ≤ bs.length) :
    fetchBytes s fuel bs = .ok bs := by
  cases fuel with
  | zero => rfl
  | succ n => rw [fetchBytes, if_pos h]

theorem even_pc {s : State} (hp : s.pc.toNat % 2 = 0) : s.pc.getLsbD 0 = false := by
  rw [BitVec.getLsbD]; simp [Nat.testBit_zero]; omega

theorem fetch_odd (s : State) (hp : s.pc.toNat % 2 = 1) : fetch s = .error .oddPc := by
  have h : s.pc.getLsbD 0 = true := by rw [BitVec.getLsbD]; simp [Nat.testBit_zero]; omega
  rw [fetch, h]; rfl

theorem fetch_error {s : State} {f : Fault} (hp : s.pc.toNat % 2 = 0) (h : fetchBytes s maxInstrBytes [] = .error f) :
    fetch s = .error f := by
  rw [fetch, even_pc hp]
  simp only [Bool.false_eq_true, if_false, h, error_bind]

/-- Where fetchable bytes at an even `pc` are one instruction and no more, the fetch answers that instruction. -/
theorem fetch_ok (s : State) (n : Nat) (i : Instr) (hp : s.pc.toNat % 2 = 0) (hw : s.cfg.encoding.wf = true)
    (hf : Fetchable s s.pc.toNat n)
    (hd : s.cfg.encoding.read s.cfg.byteOrder (s.bytesAt s.pc.toNat n) = .ok (i, [])) : fetch s = .ok i := by
  obtain ⟨h1, h2, h3⟩ := needed_read _ hw _ _ _ hd
  simp only [State.bytesAt_length] at h1 h2 h3
  have h : fetchBytes s maxInstrBytes [] = .ok (s.bytesAt s.pc.toNat n) := by
    rw [fetchBytes_from s n h2 hf.2 fun j hj => ?_, fetchBytes_end _ _ _ (by simp [h1])]
    have := h3 j hj
    rw [State.bytesAt_take _ _ _ _ (by omega)] at this
    exact ⟨this.1, by have := hf.1; omega⟩
  rw [fetch, even_pc hp]
  simp only [Bool.false_eq_true, if_false, h, ok_bind, hd]

/-! ## What stops a fetch, when the first `k` bytes are read and call for `n` in all -/

/-- The reading arrives at `k` bytes. -/
theorem fetchBytes_reaches {s : State} (hw : s.cfg.encoding.wf = true) {k : Nat}
    (hc : CodeReadable s s.pc.toNat k) (hk : k < s.cfg.encoding.needed (s.bytesAt s.pc.toNat k))
    (hn : s.pc.toNat + s.cfg.encoding.needed (s.bytesAt s.pc.toNat k) < 2 ^ 32) :
    k < maxInstrBytes ∧
      fetchBytes s maxInstrBytes [] = fetchBytes s (maxInstrBytes - k) (s.bytesAt s.pc.toNat k) := by
  have h8 := needed_le _ hw (s.bytesAt s.pc.toNat k) (by simpa using hk)
  refine ⟨by unfold maxInstrBytes; omega, fetchBytes_from s k (by unfold maxInstrBytes; omega) hc fun j hj => ?_⟩
  have := needed_take _ (s.bytesAt s.pc.toNat k) j (by simpa using hk) (by simp; omega)
  rw [State.bytesAt_take _ _ _ _ (by omega)] at this
  exact ⟨this.1, by omega⟩

theorem fetch_pcWrap {s : State} (hp : s.pc.toNat % 2 = 0) (hw : s.cfg.encoding.wf = true) {k : Nat}
    (hc : CodeReadable s s.pc.toNat k) (hk : k < s.cfg.encoding.needed (s.bytesAt s.pc.toNat k))
    (hn : 2 ^ 32 ≤ s.pc.toNat + s.cfg.encoding.needed (s.bytesAt s.pc.toNat k)) : fetch s = .error .pcWrap := by
  refine fetch_error hp ?_
  have h8 := needed_le _ hw (s.bytesAt s.pc.toNat k) (by simpa using hk)
  have ht (j : Nat) (hj : j ≤ k) := needed_take _ (s.bytesAt s.pc.toNat k) j (by simpa using hk) (by simpa using hj)
  -- the first part of the bytes whose length passes the top
  obtain ⟨m, hm, hmin⟩ := Nat.findX (p := fun j => j ≤ k ∧
    2 ^ 32 ≤ s.pc.toNat + s.cfg.encoding.needed (s.bytesAt s.pc.toNat j)) ⟨k, Nat.le_refl _, hn⟩
  have hr : fetchBytes s maxInstrBytes [] = fetchBytes s (maxInstrBytes - m) (s.bytesAt s.pc.toNat m) := by
    refine fetchBytes_from s m (by unfold maxInstrBytes; omega) (fun j hj => hc j (by omega)) fun j hj => ?_
    have := ht j (by omega)
    rw [State.bytesAt_take _ _ _ _ (by omega)] at this
    have := hmin j hj
    omega
  have hm2 := ht m hm.1
  rw [State.bytesAt_take _ _ _ _ hm.1] at hm2
  rw [hr, show maxInstrBytes - m = (maxInstrBytes - m - 1) + 1 by unfold maxInstrBytes; omega, fetchBytes]
  simp only [State.bytesAt_length]
  rw [if_neg (by omega), if_pos hm.2]

theorem fetch_byte {s : State} (hp : s.pc.toNat % 2 = 0) (hw : s.cfg.encoding.wf = true) {k : Nat} {f : Fault}
    (hc : CodeReadable s s.pc.toNat k) (hk : k < s.cfg.encoding.needed (s.bytesAt s.pc.toNat k))
    (hn : s.pc.toNat + s.cfg.encoding.needed (s.bytesAt s.pc.toNat k) < 2 ^ 32)
    (hf : fetchByte s (s.pc.toNat + k) = .error f) : fetch s = .error f := by
  refine fetch_error hp ?_
  obtain ⟨h1, h2⟩ := fetchBytes_reaches hw hc hk hn
  rw [h2, show maxInstrBytes - k = (maxInstrBytes - k - 1) + 1 by omega, fetchBytes]
  simp only [State.bytesAt_length]
  rw [if_neg (by omega), if_neg (by omega), hf, error_bind]

theorem fetch_illegal {s : State} (hp : s.pc.toNat % 2 = 0) (hw : s.cfg.encoding.wf = true) {k : Nat}
    {why : DecodeError} (hc : CodeReadable s s.pc.toNat k)
    (hn : s.cfg.encoding.needed (s.bytesAt s.pc.toNat k) = k) (htop : s.pc.toNat + k < 2 ^ 32)
    (he : s.cfg.encoding.read s.cfg.byteOrder (s.bytesAt s.pc.toNat k) = .error why) :
    fetch s = .error (.illegalEncoding why) := by
  obtain ⟨m, hm, hmin⟩ := Nat.findX (p := fun j => j ≤ k ∧ s.cfg.encoding.needed (s.bytesAt s.pc.toNat j) ≤ j)
    ⟨k, Nat.le_refl _, Nat.le_of_eq hn⟩
  have hlt (j : Nat) (hj : j < m) : j < s.cfg.encoding.needed (s.bytesAt s.pc.toNat j) := by
    have := hmin j hj; omega
  have hfit (j : Nat) (hj : j < m) : s.cfg.encoding.needed (s.bytesAt s.pc.toNat j) ≤ k := by
    cases hE : s.cfg.encoding with
    | section3 =>
      have := bytesNeeded_take (s.bytesAt s.pc.toNat k) j (by
        simp only [hE, Encoding.needed] at hn; omega) (by simp; omega)
      rw [State.bytesAt_take _ _ _ _ (by omega)] at this
      simp only [hE, Encoding.needed] at hn
      simp only [Encoding.needed]; omega
    | table rows =>
      simp only [hE, Encoding.needed] at hn ⊢
      have h2 : 2 ≤ k := by rw [← hn]; unfold rowsNeeded; split
                            · omega
                            · split <;> omega
      unfold rowsNeeded
      rw [State.bytesAt_length]
      split
      · omega
      · split <;> omega
  have h8 : m ≤ maxInstrBytes := by
    by_contra h
    have h8' := hlt 8 (by unfold maxInstrBytes at h; omega)
    have := needed_le _ hw (s.bytesAt s.pc.toNat 8) (by simpa using h8')
    omega
  have h : fetchBytes s maxInstrBytes [] = .ok (s.bytesAt s.pc.toNat m) := by
    rw [fetchBytes_from s m h8 (fun j hj => hc j (by omega)) fun j hj => ⟨hlt j hj, by have := hfit j hj; omega⟩,
      fetchBytes_end _ _ _ (by simpa using hm.2)]
  have hr := read_error_take _ _ (s.bytesAt s.pc.toNat k) why m (by simpa using hn) he (by simpa using hm.1) (by
    rw [State.bytesAt_take _ _ _ _ hm.1]; exact hm.2)
  rw [State.bytesAt_take _ _ _ _ hm.1] at hr
  rw [fetch, even_pc hp]
  simp only [Bool.false_eq_true, if_false, h, ok_bind, hr]

end Sys2Proof.Machine
end

