-- ==== Sys2Proof/Laws/Operands.lean ====
section
/-! SUPPORT. The laws of the operand forms: integers behind the address arithmetic, what an address operand can answer
(rules R120 to R132), and the register ranges. -/

namespace Sys2Proof.Machine

/-! ## Integers and 32-bit values -/

theorem ofInt_toNat_add (a b : DWord) : BitVec.ofInt 32 ((a.toNat : Int) + b.toNat) = a + b := by
  apply BitVec.eq_of_toNat_eq
  rw [BitVec.toNat_ofInt, BitVec.toNat_add]; omega

theorem ofInt_toNat_sub (a b : DWord) : BitVec.ofInt 32 ((a.toNat : Int) - b.toNat) = a - b := by
  apply BitVec.eq_of_toNat_eq
  rw [BitVec.toNat_ofInt, BitVec.toNat_sub]; omega

theorem ofInt_toNat (a : DWord) : BitVec.ofInt 32 (a.toNat : Int) = a := by
  apply BitVec.eq_of_toNat_eq
  rw [BitVec.toNat_ofInt]; omega

theorem ofInt_toNat_add_toInt {w : Nat} (a : DWord) (x : BitVec w) :
    BitVec.ofInt 32 ((a.toNat : Int) + x.toInt) = a + x.signExtend 32 := by
  rw [BitVec.ofInt_add, ofInt_toNat]; rfl

theorem ofInt_toNat_add_toInt32 (a x : DWord) : BitVec.ofInt 32 ((a.toNat : Int) + x.toInt) = a + x := by
  rw [ofInt_toNat_add_toInt, BitVec.signExtend_eq]

theorem offset_value (s : State) (a : DWord) (off : Offset) :
    BitVec.ofInt 32 ((a.toNat : Int) + offsetValue s off) = a + s.offset off := by
  cases off
  · exact ofInt_toNat_add _ _
  · exact ofInt_toNat_add_toInt _ _
  · exact ofInt_toNat_add_toInt _ _

/-- The target of a branch (rule R227). -/
theorem target_eq (s : State) (off : BrOff) :
    s.target off = BitVec.ofInt 32 (s.pc.toNat + (match off with | .short w => w.toInt | .far w => w.toInt)) := by
  cases off
  · exact (ofInt_toNat_add_toInt _ _).symm
  · exact (ofInt_toNat_add_toInt32 _ _).symm

/-! ## Address operands -/

/-- The state after `Pre`. -/
def preState (s : State) (m : Mode) : State :=
  match m with
  | .indexed .pre b off => s.setReg b (s.reg b + s.offset off)
  | _ => s

/-- The write still to be done by `Post`. -/
def postWrite (s : State) (m : Mode) : Option (Reg × DWord) :=
  match m with
  | .indexed .post b off => some (b, s.reg b + s.offset off)
  | _ => none

/-- The address operand in terms of rule R132's table. -/
theorem effective_ok (s : State) (clash : Bool) (m : Mode) (h : PointerReadable s m) :
    effective s clash m = .ok ⟨effectiveAddress s m, preState s m, postWrite s m, clash⟩ := by
  cases m with
  | rel16 off => simp [effective, effectiveAddress, ofInt_toNat_add_toInt, preState, postWrite]
  | rel32 off => simp [effective, effectiveAddress, ofInt_toNat_add_toInt32, preState, postWrite]
  | absolute a => rfl
  | indirect a =>
    simp only [effective, Accessible.read h]
    rfl
  | base b => rfl
  | indexed ix b off =>
    cases ix <;> simp [effective, effectiveAddress, offset_value, preState, postWrite]

theorem effective_error (s : State) (clash : Bool) (addr : DWord) (f : Fault)
    (h : checkAccess s.cfg .dword addr = .error f) : effective s clash (.indirect addr) = .error f := by
  simp only [effective, (memRead_error _ _ _ _).2 h]
  rfl

theorem writebackClash_iff (s : State) (d : Reg) (m : Mode) : writebackClash d m = true ↔ SameRegister s d m := by
  cases m with
  | indexed ix b off => cases ix <;> simp [writebackClash, SameRegister, writeBack, eq_comm]
  | _ => simp [writebackClash, SameRegister, writeBack]

theorem writebackClash_false {s : State} {d : Reg} {m : Mode} (h : ¬ SameRegister s d m) :
    writebackClash d m = false := by
  rw [← writebackClash_iff] at h; simpa using h

/-- An address operand that is no write-back of the data register (rules R120, R132). -/
theorem address_ok {s : State} {d : Reg} {m : Mode} (hp : PointerReadable s m) (hd : ¬ SameRegister s d m) :
    address s d m = .ok ⟨effectiveAddress s m, preState s m, postWrite s m, false⟩ := by
  rw [address, writebackClash_false hd]
  exact effective_ok s false m hp

theorem address_error {s : State} {d : Reg} (addr : DWord) (f : Fault)
    (h : checkAccess s.cfg .dword addr = .error f) : address s d (.indirect addr) = .error f := by
  rw [address, if_neg (by simp [writebackClash])]
  exact effective_error s _ addr f h

theorem pointerReadable_of_same {s : State} {d : Reg} {m : Mode} (hd : SameRegister s d m) : PointerReadable s m := by
  cases m <;> simp_all [SameRegister, writeBack, PointerReadable]

/-- A write-back of the data register under `stop` (rule R121). -/
theorem address_stop {s : State} {d : Reg} {m : Mode} (hd : SameRegister s d m) (h : s.cfg.unstated = .stop) :
    address s d m = .error .writebackSameRegister := by
  rw [address, (writebackClash_iff s d m).2 hd, h]; rfl

/-- A write-back of the data register under `free`. -/
theorem address_free {s : State} {d : Reg} {m : Mode} (hd : SameRegister s d m) (h : s.cfg.unstated = .free) :
    address s d m = .ok ⟨effectiveAddress s m, preState s m, postWrite s m, true⟩ := by
  rw [address, (writebackClash_iff s d m).2 hd, h, if_neg (by decide)]
  exact effective_ok s true m (pointerReadable_of_same hd)

@[simp] theorem preState_pc (s : State) (m : Mode) : (preState s m).pc = s.pc := by
  unfold preState; split <;> rfl
@[simp] theorem preState_sp (s : State) (m : Mode) : (preState s m).sp = s.sp := by
  unfold preState; split <;> rfl
@[simp] theorem preState_sr (s : State) (m : Mode) : (preState s m).sr = s.sr := by
  unfold preState; split <;> rfl
@[simp] theorem preState_cfg (s : State) (m : Mode) : (preState s m).cfg = s.cfg := by
  unfold preState; split <;> rfl
@[simp] theorem preState_mem (s : State) (m : Mode) : (preState s m).mem = s.mem := by
  unfold preState; split <;> rfl
@[simp] theorem preState_draws (s : State) (m : Mode) : (preState s m).draws = s.draws := by
  unfold preState; split <;> rfl
@[simp] theorem preState_byte (s : State) (m : Mode) (a : Nat) : (preState s m).byte a = s.byte a := by
  unfold preState; split <;> rfl
@[simp] theorem preState_datum (s : State) (m : Mode) (w : Width) (a : Nat) :
    (preState s m).datum w a = s.datum w a := by
  unfold preState; split <;> rfl

theorem datum_congr {s t : State} (hm : t.mem = s.mem) (hc : t.cfg = s.cfg) (w : Width) (a : Nat) :
    t.datum w a = s.datum w a := by
  simp only [State.datum, State.byte, hm, hc]

theorem preState_reg {s : State} {d : Reg} {m : Mode} (hd : ¬ SameRegister s d m) :
    (preState s m).reg d = s.reg d := by
  cases m with
  | indexed ix b off =>
    cases ix
    · rfl
    · simp only [preState]
      refine reg_setReg_ne _ _ _ _ fun e => hd ?_
      simp [SameRegister, writeBack, e]
    · rfl
  | _ => rfl

theorem Frame.preState {parts : List Part} {regs : List Reg} {stored : List (Nat × Nat)} {s : State} {m : Mode}
    (hr : writtenBack s m ⊆ regs) : Frame regs parts stored s (preState s m) := by
  cases m with
  | indexed ix b off =>
    cases ix
    · exact Frame.refl _ _ _ _
    · exact (Frame.refl _ _ _ _).setReg b _ (hr (by simp [writtenBack, writeBack]))
    · exact Frame.refl _ _ _ _
  | _ => exact Frame.refl _ _ _ _

theorem Frame.afterPost {parts : List Part} {regs : List Reg} {stored : List (Nat × Nat)} {s t : State} {m : Mode}
    (h : Frame regs parts stored s t) (hr : writtenBack s m ⊆ regs) (ea : DWord) (st : State) (clash : Bool) :
    Frame regs parts stored s (Access.afterPost ⟨ea, st, postWrite s m, clash⟩ t) := by
  cases m with
  | indexed ix b off =>
    cases ix
    · exact h
    · exact h
    · exact h.setReg b _ (hr (by simp [writtenBack, writeBack]))
  | _ => exact h

/-- After `Post` the base register holds what the table says, if before it a Pre-Indexed base did. -/
theorem baseWritten_afterPost {s t u : State} {m : Mode} (ea : DWord) (st : State) (clash : Bool)
    (h : ∀ b off, m = .indexed .pre b off → t.reg b = s.reg b + s.offset off)
    (hu : u = Access.afterPost ⟨ea, st, postWrite s m, clash⟩ t) : BaseWritten s u m := by
  subst hu
  intro b v hb
  cases m with
  | indexed ix b' off =>
    cases ix
    · simp [writeBack] at hb
    · simp only [writeBack, offset_value, Option.some.injEq, Prod.mk.injEq] at hb
      obtain ⟨rfl, rfl⟩ := hb
      exact h _ _ rfl
    · simp only [writeBack, offset_value, Option.some.injEq, Prod.mk.injEq] at hb
      obtain ⟨rfl, rfl⟩ := hb
      simp [Access.afterPost, postWrite]
  | _ => simp [writeBack] at hb

theorem preState_reg_base {s : State} {m : Mode} (b : Reg) (off : Offset) (h : m = .indexed .pre b off) :
    (preState s m).reg b = s.reg b + s.offset off := by
  subst h; simp [preState]

@[simp] theorem afterPost_pc (a : Access) (s : State) : (a.afterPost s).pc = s.pc := by
  unfold Access.afterPost; split <;> rfl
@[simp] theorem afterPost_cfg (a : Access) (s : State) : (a.afterPost s).cfg = s.cfg := by
  unfold Access.afterPost; split <;> rfl
@[simp] theorem afterPost_mem (a : Access) (s : State) : (a.afterPost s).mem = s.mem := by
  unfold Access.afterPost; split <;> rfl
@[simp] theorem afterPost_draws (a : Access) (s : State) : (a.afterPost s).draws = s.draws := by
  unfold Access.afterPost; split <;> rfl

/-- `Post` does not write the data register when the two differ (rule R121). -/
theorem afterPost_reg {s t : State} {d : Reg} {m : Mode} (hd : ¬ SameRegister s d m) (ea : DWord) (st : State)
    (clash : Bool) : (Access.afterPost ⟨ea, st, postWrite s m, clash⟩ t).reg d = t.reg d := by
  cases m with
  | indexed ix b off =>
    cases ix
    · rfl
    · rfl
    · simp only [Access.afterPost, postWrite]
      refine reg_setReg_ne _ _ _ _ fun e => hd ?_
      simp [SameRegister, writeBack, e]
  | _ => rfl

/-! ## Register ranges -/

theorem mem_regRange (a b k : Reg) : k ∈ regRange a b ↔ a ≤ k ∧ k ≤ b := by
  have : ∀ k : Reg, k ∈ allRegs := by decide
  simp [regRange, this k]

theorem regRange_length (a b : Reg) (h : a ≤ b) : (regRange a b).length = b.val - a.val + 1 := by
  revert a b; decide

theorem regRange_get (a b : Reg) (i : Nat) (h : i < (regRange a b).length) : ((regRange a b)[i]).val = a.val + i := by
  have : ∀ a b : Reg, ∀ i : Fin 16, ∀ h : i.val < (regRange a b).length, ((regRange a b)[i.val]).val = a.val + i.val := by
    decide
  have hl : (regRange a b).length ≤ 16 := by clear h; revert a b; decide
  exact this a b ⟨i, by omega⟩ h

end Sys2Proof.Machine
end

