-- ==== Sys2Proof/Laws/PerInstr.lean ====
section
/-! SUPPORT. A statement made for every instruction as syntax, with one lemma per constructor of `Instr`: the number of
bytes of its encoding (`30_encoding.md` rules R53, R54). -/

namespace Sys2Proof.Laws.EncodingLength

/-- In either byte order the encoding has the instruction's length, which is 2, 4, 6 or 8 bytes. -/
def Statement (i : Instr) : Prop :=
  ∀ bo, (encode bo i).length = i.len ∧ (i.len = 2 ∨ i.len = 4 ∨ i.len = 6 ∨ i.len = 8)

theorem wordBytes_length (bo : ByteOrder) (v : Word) : (wordBytes bo v).length = 2 := by cases bo <;> rfl

theorem dwordBytes_length (bo : ByteOrder) (v : DWord) : (dwordBytes bo v).length = 4 := by cases bo <;> rfl

theorem encodeRC_length (bo : ByteOrder) (op : Byte) (d r : Reg) (o : Opt) :
    (encodeRC bo op d r o).length = o.len ∧ (o.len = 2 ∨ o.len = 4 ∨ o.len = 6 ∨ o.len = 8) := by
  cases o <;> simp [encodeRC, Opt.len, wordBytes_length, dwordBytes_length]

theorem encodeMA_length (bo : ByteOrder) (op : Byte) (d : Reg) (m : Mode) :
    (encodeMA bo op d m).length = m.len ∧ (m.len = 2 ∨ m.len = 4 ∨ m.len = 6 ∨ m.len = 8) := by
  rcases m with _ | _ | _ | _ | _ | ⟨_, _, _ | _ | _⟩ <;>
    simp [encodeMA, offsetBytes, Mode.len, wordBytes_length, dwordBytes_length]

theorem encodeBr_length (bo : ByteOrder) (op : Byte) (c : Cond) (off : BrOff) :
    (encodeBr bo op c off).length = off.len ∧ (off.len = 2 ∨ off.len = 4 ∨ off.len = 6 ∨ off.len = 8) := by
  cases off <;> simp [encodeBr, BrOff.len, wordBytes_length, dwordBytes_length]

theorem encodeJmp_length (bo : ByteOrder) (t : JmpTarget) :
    (encodeJmp bo t).length = (Instr.jmp t).len ∧
      ((Instr.jmp t).len = 2 ∨ (Instr.jmp t).len = 4 ∨ (Instr.jmp t).len = 6 ∨ (Instr.jmp t).len = 8) := by
  cases t <;> simp [encodeJmp, Instr.len, dwordBytes_length]

theorem nop : Statement .nop := fun _ => ⟨rfl, .inl rfl⟩

theorem afh : Statement .afh := fun _ => ⟨rfl, .inl rfl⟩

theorem halt : Statement .halt := fun _ => ⟨rfl, .inl rfl⟩

theorem wait : Statement .wait := fun _ => ⟨rfl, .inl rfl⟩

theorem ei : Statement .ei := fun _ => ⟨rfl, .inl rfl⟩

theorem di : Statement .di := fun _ => ⟨rfl, .inl rfl⟩

theorem sec : Statement .sec := fun _ => ⟨rfl, .inl rfl⟩

theorem clc : Statement .clc := fun _ => ⟨rfl, .inl rfl⟩

theorem nec : Statement .nec := fun _ => ⟨rfl, .inl rfl⟩

theorem sev : Statement .sev := fun _ => ⟨rfl, .inl rfl⟩

theorem clv : Statement .clv := fun _ => ⟨rfl, .inl rfl⟩

theorem nev : Statement .nev := fun _ => ⟨rfl, .inl rfl⟩

theorem rts : Statement .rts := fun _ => ⟨rfl, .inl rfl⟩

theorem rtl : Statement .rtl := fun _ => ⟨rfl, .inl rfl⟩

theorem rti : Statement .rti := fun _ => ⟨rfl, .inl rfl⟩

theorem pop (r : AnyReg) : Statement (.pop r) := fun _ => ⟨rfl, .inl rfl⟩

theorem popRange (a : Reg) (b : Reg) : Statement (.popRange a b) := fun _ => ⟨rfl, .inl rfl⟩

theorem push (r : AnyReg) : Statement (.push r) := fun _ => ⟨rfl, .inl rfl⟩

theorem pushRange (a : Reg) (b : Reg) : Statement (.pushRange a b) := fun _ => ⟨rfl, .inl rfl⟩

theorem clr (a : Reg) (b : Reg) : Statement (.clr a b) := fun _ => ⟨rfl, .inl rfl⟩

theorem movReg (d : Reg) (r : Reg) : Statement (.movReg d r) := fun _ => ⟨rfl, .inl rfl⟩

theorem movImm16 (d : Reg) (v : Word) : Statement (.movImm16 d v) :=
  fun bo => by cases bo <;> simp [encode, Instr.len, wordBytes]

theorem movImm32 (d : Reg) (v : DWord) : Statement (.movImm32 d v) :=
  fun bo => by cases bo <;> simp [encode, Instr.len, dwordBytes]

theorem movAny (x : AnyReg) (y : AnyReg) : Statement (.movAny x y) := fun _ => ⟨rfl, .inr (.inl rfl)⟩

theorem movb (d : Reg) (r : Reg) (o : Opt) : Statement (.movb d r o) := fun bo => encodeRC_length bo _ _ _ _

theorem movw (d : Reg) (r : Reg) (o : Opt) : Statement (.movw d r o) := fun bo => encodeRC_length bo _ _ _ _

theorem movtReg (d : Reg) (r : Reg) : Statement (.movtReg d r) := fun _ => ⟨rfl, .inl rfl⟩

theorem movtImm (d : Reg) (v : Word) : Statement (.movtImm d v) :=
  fun bo => by cases bo <;> simp [encode, Instr.len, wordBytes]

theorem swpReg (d : Reg) (r : Reg) : Statement (.swpReg d r) := fun _ => ⟨rfl, .inl rfl⟩

theorem ldr (d : Reg) (m : Mode) : Statement (.ldr d m) := fun bo => encodeMA_length bo _ _ _

theorem ldrb (d : Reg) (m : Mode) : Statement (.ldrb d m) := fun bo => encodeMA_length bo _ _ _

theorem ldrw (d : Reg) (m : Mode) : Statement (.ldrw d m) := fun bo => encodeMA_length bo _ _ _

theorem ldrbs (d : Reg) (m : Mode) : Statement (.ldrbs d m) := fun bo => encodeMA_length bo _ _ _

theorem ldrws (d : Reg) (m : Mode) : Statement (.ldrws d m) := fun bo => encodeMA_length bo _ _ _

theorem str (d : Reg) (m : Mode) : Statement (.str d m) := fun bo => encodeMA_length bo _ _ _

theorem strb (d : Reg) (m : Mode) : Statement (.strb d m) := fun bo => encodeMA_length bo _ _ _

theorem strw (d : Reg) (m : Mode) : Statement (.strw d m) := fun bo => encodeMA_length bo _ _ _

theorem strbs (d : Reg) (m : Mode) : Statement (.strbs d m) := fun bo => encodeMA_length bo _ _ _

theorem strws (d : Reg) (m : Mode) : Statement (.strws d m) := fun bo => encodeMA_length bo _ _ _

theorem adr (d : Reg) (m : Mode) : Statement (.adr d m) := fun bo => encodeMA_length bo _ _ _

theorem swpMem (d : Reg) (m : Mode) : Statement (.swpMem d m) := fun bo => encodeMA_length bo _ _ _

theorem jmp (t : JmpTarget) : Statement (.jmp t) := fun bo => encodeJmp_length bo _

theorem lsl (d : Reg) (r : Reg) (o : Opt) : Statement (.lsl d r o) := fun bo => encodeRC_length bo _ _ _ _

theorem lsr (d : Reg) (r : Reg) (o : Opt) : Statement (.lsr d r o) := fun bo => encodeRC_length bo _ _ _ _

theorem rol (d : Reg) (r : Reg) (o : Opt) : Statement (.rol d r o) := fun bo => encodeRC_length bo _ _ _ _

theorem ror (d : Reg) (r : Reg) (o : Opt) : Statement (.ror d r o) := fun bo => encodeRC_length bo _ _ _ _

theorem rcl (d : Reg) (r : Reg) (o : Opt) : Statement (.rcl d r o) := fun bo => encodeRC_length bo _ _ _ _

theorem rcr (d : Reg) (r : Reg) (o : Opt) : Statement (.rcr d r o) := fun bo => encodeRC_length bo _ _ _ _

theorem asr (d : Reg) (r : Reg) (o : Opt) : Statement (.asr d r o) := fun bo => encodeRC_length bo _ _ _ _

theorem and (d : Reg) (r : Reg) (o : Opt) : Statement (.and d r o) := fun bo => encodeRC_length bo _ _ _ _

theorem orr (d : Reg) (r : Reg) (o : Opt) : Statement (.orr d r o) := fun bo => encodeRC_length bo _ _ _ _

theorem eor (d : Reg) (r : Reg) (o : Opt) : Statement (.eor d r o) := fun bo => encodeRC_length bo _ _ _ _

theorem not (d : Reg) (r : Reg) : Statement (.not d r) := fun _ => ⟨rfl, .inl rfl⟩

theorem clz (d : Reg) (r : Reg) : Statement (.clz d r) := fun _ => ⟨rfl, .inl rfl⟩

theorem ctz (d : Reg) (r : Reg) : Statement (.ctz d r) := fun _ => ⟨rfl, .inl rfl⟩

theorem rbit (d : Reg) (r : Reg) : Statement (.rbit d r) := fun _ => ⟨rfl, .inl rfl⟩

theorem revb (d : Reg) (r : Reg) : Statement (.revb d r) := fun _ => ⟨rfl, .inl rfl⟩

theorem revv (d : Reg) (r : Reg) : Statement (.revv d r) := fun _ => ⟨rfl, .inl rfl⟩

theorem add (d : Reg) (r : Reg) (o : Opt) : Statement (.add d r o) := fun bo => encodeRC_length bo _ _ _ _

theorem adc (d : Reg) (r : Reg) (o : Opt) : Statement (.adc d r o) := fun bo => encodeRC_length bo _ _ _ _

theorem sub (d : Reg) (r : Reg) (o : Opt) : Statement (.sub d r o) := fun bo => encodeRC_length bo _ _ _ _

theorem sbc (d : Reg) (r : Reg) (o : Opt) : Statement (.sbc d r o) := fun bo => encodeRC_length bo _ _ _ _

theorem rsb (d : Reg) (r : Reg) (o : Opt) : Statement (.rsb d r o) := fun bo => encodeRC_length bo _ _ _ _

theorem rsc (d : Reg) (r : Reg) (o : Opt) : Statement (.rsc d r o) := fun bo => encodeRC_length bo _ _ _ _

theorem div (d : Reg) (r : Reg) (o : Opt) : Statement (.div d r o) := fun bo => encodeRC_length bo _ _ _ _

theorem divs (d : Reg) (r : Reg) (o : Opt) : Statement (.divs d r o) := fun bo => encodeRC_length bo _ _ _ _

theorem rem (d : Reg) (r : Reg) (o : Opt) : Statement (.rem d r o) := fun bo => encodeRC_length bo _ _ _ _

theorem rems (d : Reg) (r : Reg) (o : Opt) : Statement (.rems d r o) := fun bo => encodeRC_length bo _ _ _ _

theorem mul (d : Reg) (r : Reg) (o : Opt) : Statement (.mul d r o) := fun bo => encodeRC_length bo _ _ _ _

theorem muls (d : Reg) (r : Reg) (o : Opt) : Statement (.muls d r o) := fun bo => encodeRC_length bo _ _ _ _

theorem abs (d : Reg) (r : Reg) : Statement (.abs d r) := fun _ => ⟨rfl, .inl rfl⟩

theorem neg (d : Reg) (r : Reg) : Statement (.neg d r) := fun _ => ⟨rfl, .inl rfl⟩

theorem inc (d : Reg) (k : BitVec 4) : Statement (.inc d k) := fun _ => ⟨rfl, .inl rfl⟩

theorem dec (d : Reg) (k : BitVec 4) : Statement (.dec d k) := fun _ => ⟨rfl, .inl rfl⟩

theorem cfb (d : Reg) (r : Reg) : Statement (.cfb d r) := fun _ => ⟨rfl, .inl rfl⟩

theorem cfbs (d : Reg) (r : Reg) : Statement (.cfbs d r) := fun _ => ⟨rfl, .inl rfl⟩

theorem cfw (d : Reg) (r : Reg) : Statement (.cfw d r) := fun _ => ⟨rfl, .inl rfl⟩

theorem cfws (d : Reg) (r : Reg) : Statement (.cfws d r) := fun _ => ⟨rfl, .inl rfl⟩

theorem cfbcd (d : Reg) (r : Reg) : Statement (.cfbcd d r) := fun _ => ⟨rfl, .inl rfl⟩

theorem ctb (d : Reg) (r : Reg) : Statement (.ctb d r) := fun _ => ⟨rfl, .inl rfl⟩

theorem ctbs (d : Reg) (r : Reg) : Statement (.ctbs d r) := fun _ => ⟨rfl, .inl rfl⟩

theorem ctw (d : Reg) (r : Reg) : Statement (.ctw d r) := fun _ => ⟨rfl, .inl rfl⟩

theorem ctws (d : Reg) (r : Reg) : Statement (.ctws d r) := fun _ => ⟨rfl, .inl rfl⟩

theorem ctbcd (d : Reg) (r : Reg) : Statement (.ctbcd d r) := fun _ => ⟨rfl, .inl rfl⟩

theorem beq (off : BrOff) : Statement (.beq off) := fun bo => encodeBr_length bo _ _ _

theorem bne (off : BrOff) : Statement (.bne off) := fun bo => encodeBr_length bo _ _ _

theorem bcs (off : BrOff) : Statement (.bcs off) := fun bo => encodeBr_length bo _ _ _

theorem bcc (off : BrOff) : Statement (.bcc off) := fun bo => encodeBr_length bo _ _ _

theorem bmi (off : BrOff) : Statement (.bmi off) := fun bo => encodeBr_length bo _ _ _

theorem bpl (off : BrOff) : Statement (.bpl off) := fun bo => encodeBr_length bo _ _ _

theorem bvs (off : BrOff) : Statement (.bvs off) := fun bo => encodeBr_length bo _ _ _

theorem bvc (off : BrOff) : Statement (.bvc off) := fun bo => encodeBr_length bo _ _ _

theorem bhi (off : BrOff) : Statement (.bhi off) := fun bo => encodeBr_length bo _ _ _

theorem bls (off : BrOff) : Statement (.bls off) := fun bo => encodeBr_length bo _ _ _

theorem bge (off : BrOff) : Statement (.bge off) := fun bo => encodeBr_length bo _ _ _

theorem blt (off : BrOff) : Statement (.blt off) := fun bo => encodeBr_length bo _ _ _

theorem bgt (off : BrOff) : Statement (.bgt off) := fun bo => encodeBr_length bo _ _ _

theorem ble (off : BrOff) : Statement (.ble off) := fun bo => encodeBr_length bo _ _ _

theorem bra (off : BrOff) : Statement (.bra off) := fun bo => encodeBr_length bo _ _ _

theorem jeq (off : BrOff) : Statement (.jeq off) := fun bo => encodeBr_length bo _ _ _

theorem jne (off : BrOff) : Statement (.jne off) := fun bo => encodeBr_length bo _ _ _

theorem jcs (off : BrOff) : Statement (.jcs off) := fun bo => encodeBr_length bo _ _ _

theorem jcc (off : BrOff) : Statement (.jcc off) := fun bo => encodeBr_length bo _ _ _

theorem jmi (off : BrOff) : Statement (.jmi off) := fun bo => encodeBr_length bo _ _ _

theorem jpl (off : BrOff) : Statement (.jpl off) := fun bo => encodeBr_length bo _ _ _

theorem jvs (off : BrOff) : Statement (.jvs off) := fun bo => encodeBr_length bo _ _ _

theorem jvc (off : BrOff) : Statement (.jvc off) := fun bo => encodeBr_length bo _ _ _

theorem jhi (off : BrOff) : Statement (.jhi off) := fun bo => encodeBr_length bo _ _ _

theorem jls (off : BrOff) : Statement (.jls off) := fun bo => encodeBr_length bo _ _ _

theorem jge (off : BrOff) : Statement (.jge off) := fun bo => encodeBr_length bo _ _ _

theorem jlt (off : BrOff) : Statement (.jlt off) := fun bo => encodeBr_length bo _ _ _

theorem jgt (off : BrOff) : Statement (.jgt off) := fun bo => encodeBr_length bo _ _ _

theorem jle (off : BrOff) : Statement (.jle off) := fun bo => encodeBr_length bo _ _ _

theorem jsr (off : BrOff) : Statement (.jsr off) := fun bo => encodeBr_length bo _ _ _

theorem leq (off : BrOff) : Statement (.leq off) := fun bo => encodeBr_length bo _ _ _

theorem lne (off : BrOff) : Statement (.lne off) := fun bo => encodeBr_length bo _ _ _

theorem lcs (off : BrOff) : Statement (.lcs off) := fun bo => encodeBr_length bo _ _ _

theorem lcc (off : BrOff) : Statement (.lcc off) := fun bo => encodeBr_length bo _ _ _

theorem lmi (off : BrOff) : Statement (.lmi off) := fun bo => encodeBr_length bo _ _ _

theorem lpl (off : BrOff) : Statement (.lpl off) := fun bo => encodeBr_length bo _ _ _

theorem lvs (off : BrOff) : Statement (.lvs off) := fun bo => encodeBr_length bo _ _ _

theorem lvc (off : BrOff) : Statement (.lvc off) := fun bo => encodeBr_length bo _ _ _

theorem lhi (off : BrOff) : Statement (.lhi off) := fun bo => encodeBr_length bo _ _ _

theorem lls (off : BrOff) : Statement (.lls off) := fun bo => encodeBr_length bo _ _ _

theorem lge (off : BrOff) : Statement (.lge off) := fun bo => encodeBr_length bo _ _ _

theorem llt (off : BrOff) : Statement (.llt off) := fun bo => encodeBr_length bo _ _ _

theorem lgt (off : BrOff) : Statement (.lgt off) := fun bo => encodeBr_length bo _ _ _

theorem lle (off : BrOff) : Statement (.lle off) := fun bo => encodeBr_length bo _ _ _

theorem lnk (off : BrOff) : Statement (.lnk off) := fun bo => encodeBr_length bo _ _ _

theorem cmp (r : Reg) (o : Opt) : Statement (.cmp r o) := fun bo => encodeRC_length bo _ _ _ _

theorem cmn (r : Reg) (o : Opt) : Statement (.cmn r o) := fun bo => encodeRC_length bo _ _ _ _

theorem tst (r : Reg) (o : Opt) : Statement (.tst r o) := fun bo => encodeRC_length bo _ _ _ _

theorem teq (r : Reg) (o : Opt) : Statement (.teq r o) := fun bo => encodeRC_length bo _ _ _ _

theorem brk (v : Word) : Statement (.brk v) := fun bo => by cases bo <;> simp [encode, Instr.len, wordBytes]

theorem dbg (v : Word) : Statement (.dbg v) := fun bo => by cases bo <;> simp [encode, Instr.len, wordBytes]

theorem svc (v : Word) : Statement (.svc v) := fun bo => by cases bo <;> simp [encode, Instr.len, wordBytes]

theorem swi (n : BitVec 5) : Statement (.swi n) := fun _ => ⟨rfl, .inl rfl⟩

theorem rand (d : Reg) (r : Reg) : Statement (.rand d r) := fun _ => ⟨rfl, .inl rfl⟩

theorem seed (r : Reg) : Statement (.seed r) := fun _ => ⟨rfl, .inl rfl⟩

end Sys2Proof.Laws.EncodingLength
end

