-- ==== Sys2Proof/Laws/Storage.lean ====
section
/-! SUPPORT. The laws of the storage instructions' shared operations: the outcome of a load and of a store whose
address can be formed (rules R120, R137 to R146). -/

namespace Sys2Proof.Machine

/-- A load that completes. -/
theorem load_ok {s : State} {d : Reg} {m : Mode} {w : Width} {n : Nat} (extend : DWord → DWord) (hp : PointerReadable s m)
    (hd : ¬ SameRegister s d m) (h : Accessible s w (effectiveAddress s m)) :
    load s n w extend d m = .next ((Access.afterPost ⟨effectiveAddress s m, preState s m, postWrite s m, false⟩
      ((preState s m).setReg d (extend (s.datum w (effectiveAddress s m).toNat)))).advance n) := by
  have hr : memRead (preState s m) w (effectiveAddress s m) = .ok (s.datum w (effectiveAddress s m).toNat) := by
    rw [(h.congr (preState_cfg s m)).read, preState_datum]
  simp only [load, address_ok hp hd, ok_bind, hr, Access.intoReg, Bool.false_eq_true, if_false, finish_ok]

/-- A load whose access fails. -/
theorem load_error {s : State} {d : Reg} {m : Mode} {w : Width} {f : Fault} {n : Nat} (extend : DWord → DWord)
    (hp : PointerReadable s m) (hd : ¬ SameRegister s d m)
    (h : checkAccess s.cfg w (effectiveAddress s m) = .error f) : load s n w extend d m = .fault f := by
  have hr : memRead (preState s m) w (effectiveAddress s m) = .error f := by
    rw [memRead_error, preState_cfg]; exact h
  simp only [load, address_ok hp hd, ok_bind, hr, error_bind, finish_error]

/-- A store that completes. -/
theorem storeReg_ok {s : State} {d : Reg} {m : Mode} {w : Width} {n : Nat} (narrow : DWord → DWord) (hp : PointerReadable s m)
    (hd : ¬ SameRegister s d m) (h : Accessible s w (effectiveAddress s m)) :
    storeReg s n w narrow d m = .next ((Access.afterPost ⟨effectiveAddress s m, preState s m, postWrite s m, false⟩
      ((preState s m).store w (effectiveAddress s m) (narrow (s.reg d)))).advance n) := by
  have hw (v) : memWrite (preState s m) w (effectiveAddress s m) v =
      .ok ((preState s m).store w (effectiveAddress s m) v) := (h.congr (preState_cfg s m)).write v
  simp only [storeReg, address_ok hp hd, ok_bind, hw, Access.fromReg, Bool.false_eq_true, if_false, finish_ok,
    preState_reg hd]

/-- A store whose access fails. -/
theorem storeReg_error {s : State} {d : Reg} {m : Mode} {w : Width} {f : Fault} {n : Nat} (narrow : DWord → DWord)
    (hp : PointerReadable s m) (hd : ¬ SameRegister s d m)
    (h : checkAccess s.cfg w (effectiveAddress s m) = .error f) : storeReg s n w narrow d m = .fault f := by
  have hw (v) : memWrite (preState s m) w (effectiveAddress s m) v = .error f := by
    rw [memWrite_error, preState_cfg]; exact h
  simp only [storeReg, address_ok hp hd, ok_bind, hw, Access.fromReg, Bool.false_eq_true, if_false, error_bind,
    finish_error]

end Sys2Proof.Machine
end

