-- ==== Sys2Proof/Laws/Transfer.lean ====
section
/-! SUPPORT. What clearing, pushing and popping a list of registers does, said once (`41_transfer.md` rules R102, R104,
R105). -/

namespace Sys2Proof.Machine

/-- Clearing: the listed registers are 0, the others as before, and nothing else changes. -/
theorem clearRegs_spec (l : List Reg) : ∀ s : State, (∀ k, (clearRegs l s).reg k = if k ∈ l then 0 else s.reg k) ∧
    (clearRegs l s).pc = s.pc ∧ Frame l [] [] s (clearRegs l s) := by
  induction l with
  | nil => intro s; exact ⟨fun k => by simp [clearRegs], rfl, Frame.refl _ _ _ _⟩
  | cons a l ih =>
    intro s
    obtain ⟨h1, h2, h3⟩ := ih (s.setReg a 0)
    refine ⟨fun k => ?_, h2, ((Frame.refl _ _ _ s).setReg a 0 (by simp)).trans (h3.mono (by simp) (by simp) (by simp))⟩
    rw [clearRegs, h1, reg_setReg]
    by_cases hk : k = a <;> by_cases hl : k ∈ l <;> simp [hk, hl]

/-- After one push the slots are one further down. -/
theorem pushSlot_succ (s : State) (v : DWord) (k : Nat) : pushSlot (s.pushed v) k = pushSlot s (k + 1) := by
  have h4 : BitVec.toNat (4 : DWord) = 4 := rfl
  simp only [pushSlot, pushed_sp]
  apply BitVec.eq_of_toNat_eq
  simp only [BitVec.toNat_sub, BitVec.toNat_ofNat]
  omega

/-- The first slot. -/
theorem pushSlot_zero (s : State) : pushSlot s 0 = s.sp - 4 := rfl

/-- Pushing: register `k` of the list in slot `k`, SP at the last slot, and nothing outside the slots changes. -/
theorem pushRegs_spec (l : List Reg) : ∀ s : State, memWf s.mem → l.length ≤ 16 →
    (∀ k, k < l.length → Accessible s .dword (pushSlot s k)) →
    ∃ t, pushRegs l s = .ok t ∧ (∀ k, (h : k < l.length) → t.datum .dword (pushSlot s k).toNat = s.reg l[k]) ∧
      t.sp = s.sp - BitVec.ofNat 32 (4 * l.length) ∧ t.pc = s.pc ∧
      Frame [] [.sp] ((List.range l.length).map (fun k => ((pushSlot s k).toNat, 4))) s t ∧
      ∀ x, (∀ k, k < l.length → x + 4 ≤ (pushSlot s k).toNat ∨ (pushSlot s k).toNat + 4 ≤ x) →
        t.datum .dword x = s.datum .dword x := by
  induction l with
  | nil => intro s hm _ _; exact ⟨s, rfl, by simp, by simp, rfl, Frame.refl _ _ _ _, fun _ _ => rfl⟩
  | cons r l ih =>
    intro s hm hl ha
    have h0 := ha 0 (by simp)
    rw [pushSlot_zero] at h0
    have hm1 := memWf_pushed hm h0 (s.reg r)
    obtain ⟨t, ht, h1, h2, h3, h4, h5⟩ := ih (s.pushed (s.reg r)) hm1 (by simp at hl; omega) (fun k hk => by
      rw [pushSlot_succ]; exact (ha (k + 1) (by simp; omega)).congr rfl)
    simp only [pushSlot_succ, pushed_reg, pushed_sp, pushed_pc] at h1 h2 h3 h4 h5
    refine ⟨t, by simp only [pushRegs, h0.push, ok_bind, ht], ?_, ?_, h3, ?_, ?_⟩
    · intro k hk
      cases k with
      | zero =>
        rw [pushSlot_zero, h5, datum_pushed hm h0]; rfl
        intro k hk
        have hb := (ha (k + 1) (by simp; omega)).1
        have hb0 := h0.1
        have h4 : BitVec.toNat (4 : DWord) = 4 := rfl
        simp only [pushSlot, BitVec.toNat_sub, BitVec.toNat_ofNat, width_bytes_dword] at *
        simp only [List.length_cons] at hl
        omega
      | succ k => exact h1 k (by simpa using hk)
    · have h4 : BitVec.toNat (4 : DWord) = 4 := rfl
      rw [h2]; apply BitVec.eq_of_toNat_eq
      simp only [BitVec.toNat_sub, BitVec.toNat_ofNat, List.length_cons]
      omega
    · refine Frame.trans (t := s.pushed (s.reg r)) ?_ ?_
      · exact (Frame.refl _ _ _ s).pushed _ (by simp) (by simp; exact ⟨0, by simp, rfl⟩)
      · refine h4.mono (by simp) (by simp) ?_
        intro a h p hp
        simp at hp
        obtain ⟨k, hk, rfl⟩ := hp
        exact h _ (by simp; exact ⟨k+1, by omega, rfl⟩)
    · intro x hx
      rw [h5 x (fun k hk => hx (k + 1) (by simp; omega))]
      exact datum_pushed_outside s _ .dword x (by simpa [pushSlot_zero] using hx 0 (by simp))

/-- Pushing stops at the first slot whose access fails. -/
theorem pushRegs_error (l : List Reg) (f : Fault) : ∀ (s : State) (k : Nat), k < l.length →
    (∀ j, j < k → Accessible s .dword (pushSlot s j)) → checkAccess s.cfg .dword (pushSlot s k) = .error f →
    pushRegs l s = .error f := by
  induction l with
  | nil => intro s k hk; simp at hk
  | cons r l ih =>
    intro s k hk ha he
    cases k with
    | zero => rw [pushRegs, (push_error s (s.reg r) f).2 (by rwa [pushSlot_zero] at he), error_bind]
    | succ k =>
      have h0 := ha 0 (by omega)
      rw [pushSlot_zero] at h0
      rw [pushRegs, h0.push, ok_bind]
      exact ih (s.pushed (s.reg r)) k (by simpa using hk)
        (fun j hj => by rw [pushSlot_succ]; exact (ha (j + 1) (by omega)).congr rfl)
        (by rw [pushSlot_succ]; exact he)

/-- After one pop the slots are one further up. -/
theorem popSlot_succ {s t : State} (h : t.sp = s.sp + 4) (k : Nat) : popSlot t k = popSlot s (k + 1) := by
  have h4 : BitVec.toNat (4 : DWord) = 4 := rfl
  apply BitVec.eq_of_toNat_eq
  simp only [popSlot, h, BitVec.toNat_add, BitVec.toNat_ofNat]
  omega

/-- Popping stops at the first slot whose access fails. -/
theorem popRegs_error (l : List Reg) (f : Fault) : ∀ (s : State) (k : Nat), k < l.length →
    (∀ j, j < k → Accessible s .dword (popSlot s j)) → checkAccess s.cfg .dword (popSlot s k) = .error f →
    popRegs l s = .error f := by
  induction l with
  | nil => intro s k hk; simp at hk
  | cons r l ih =>
    intro s k hk ha he
    have e0 : popSlot s 0 = s.sp := by simp [popSlot]
    cases k with
    | zero => rw [popRegs, (pop_error s f).2 (by rwa [e0] at he), error_bind]
    | succ k =>
      have h0 := ha 0 (by omega)
      rw [e0] at h0
      rw [popRegs, h0.pop, ok_bind]
      exact ih _ k (by simpa using hk)
        (fun j hj => by rw [popSlot_succ (s := s) rfl]; exact (ha (j + 1) (by omega)).congr rfl)
        (by rw [popSlot_succ (s := s) rfl]; exact he)

/-- Popping: register `k` of the list is the Double Word in slot `k`, SP past the last slot, and no other register and
no memory changes. -/
theorem popRegs_spec (l : List Reg) : ∀ s : State, l.Nodup →
    (∀ k, k < l.length → Accessible s .dword (popSlot s k)) →
    ∃ t, popRegs l s = .ok t ∧ (∀ k, (h : k < l.length) → t.reg l[k] = s.datum .dword (popSlot s k).toNat) ∧
      t.sp = popSlot s l.length ∧ t.pc = s.pc ∧ (∀ k, k ∉ l → t.reg k = s.reg k) ∧ Frame l [.sp] [] s t := by
  induction l with
  | nil => intro s hn _; exact ⟨s, rfl, by simp, by simp [popSlot], rfl, fun _ _ => rfl, Frame.refl _ _ _ _⟩
  | cons r l ih =>
    intro s hn ha
    have h0 := ha 0 (by simp)
    have e0 : popSlot s 0 = s.sp := by simp [popSlot]
    rw [e0] at h0
    let s1 := ({ s with sp := s.sp + 4 } : State).setReg r (s.datum .dword s.sp.toNat)
    have h4 : BitVec.toNat (4 : DWord) = 4 := rfl
    have es (k) : popSlot s1 k = popSlot s (k + 1) := by
      show s.sp + 4 + _ = _
      apply BitVec.eq_of_toNat_eq
      simp only [popSlot, BitVec.toNat_add, BitVec.toNat_ofNat]
      omega
    obtain ⟨t, ht, h1, h2, h3, h4, h5⟩ := ih s1 (by simp at hn; exact hn.2) (fun k hk => by
      rw [es]; exact (ha (k + 1) (by simp; omega)).congr rfl)
    refine ⟨t, by simp only [popRegs, h0.pop, ok_bind]; exact ht, ?_, ?_, h3, ?_, ?_⟩
    · intro k hk
      cases k with
      | zero =>
        simp only [List.getElem_cons_zero]
        rw [h4 r (by simp at hn; exact hn.1), e0]
        simp [s1]
      | succ k =>
        have := h1 k (by simpa using hk)
        rw [es] at this
        exact this
    · rw [h2, es]; rfl
    · intro k hk
      rw [h4 k (by simp at hk; exact hk.2)]
      exact reg_setReg_ne _ _ _ _ (by simp at hk; exact hk.1)
    · exact (((Frame.refl _ _ _ s).setSp _ (by simp)).setReg r _ (by simp)).trans (h5.mono (by simp) (by simp) (by simp))

end Sys2Proof.Machine
end

