-- ==== Sys2Proof/Tests/Slice0.lean ====
section
/-! SUPPORT. Tests, each a named theorem. Expected words and results come from the spec, not from the model: words are
written from the encoding tables of `30_encoding.md`, results from the derived vectors of `96_derived_vectors.md`
(DEDUCED there from the rules). The last part shows for every obligation with hypotheses states and operands that meet
them, clause by clause and at the boundaries of the clauses. -/

namespace Sys2Proof.Tests

open Sys2Proof.Machine

/-! ## Well-formedness: for each check a term it refuses and its neighbour that passes -/

theorem test_wf_popRange : (Instr.popRange 3 2).wellFormed = false ∧ (Instr.popRange 3 3).wellFormed = true := by decide
theorem test_wf_pushRange : (Instr.pushRange 15 0).wellFormed = false ∧ (Instr.pushRange 0 15).wellFormed = true := by
  decide
theorem test_wf_clr : (Instr.clr 9 4).wellFormed = false ∧ (Instr.clr 4 9).wellFormed = true := by decide
theorem test_wf_movb : (Instr.movb 0 2 (.imm8 4)).wellFormed = false ∧ (Instr.movb 0 2 (.imm8 3)).wellFormed = true ∧
    (Instr.movb 0 2 (.imm16 0)).wellFormed = false := by decide
theorem test_wf_movw : (Instr.movw 0 2 (.imm8 2)).wellFormed = false ∧ (Instr.movw 0 2 (.imm8 1)).wellFormed = true ∧
    (Instr.movw 0 2 (.imm32 0)).wellFormed = false := by decide
theorem test_wf_lsl : (Instr.lsl 0 2 (.imm8 32)).wellFormed = false ∧ (Instr.lsl 0 2 (.imm8 31)).wellFormed = true := by
  decide
theorem test_wf_lsr : (Instr.lsr 0 2 (.imm8 32)).wellFormed = false ∧ (Instr.lsr 0 2 (.imm8 31)).wellFormed = true := by
  decide
theorem test_wf_rol : (Instr.rol 0 2 (.imm16 1)).wellFormed = false ∧ (Instr.rol 0 2 (.reg 4)).wellFormed = true := by
  decide
theorem test_wf_ror : (Instr.ror 0 2 (.imm32 1)).wellFormed = false ∧ (Instr.ror 0 2 (.imm8 0)).wellFormed = true := by
  decide
theorem test_wf_rcl : (Instr.rcl 0 2 (.imm8 32)).wellFormed = false ∧ (Instr.rcl 0 2 (.imm8 31)).wellFormed = true := by
  decide
theorem test_wf_rcr : (Instr.rcr 0 2 (.imm8 255)).wellFormed = false ∧ (Instr.rcr 0 2 (.imm8 1)).wellFormed = true := by
  decide
theorem test_wf_asr : (Instr.asr 0 2 (.imm8 32)).wellFormed = false ∧ (Instr.asr 0 2 (.imm8 31)).wellFormed = true := by
  decide

/-! ## Decoding: words written out from rules R54 to R61 -/

/-- The instruction that bytes are, none left over. -/
def reads (bs : List Byte) : Option Instr :=
  match decode .little bs with
  | .ok (i, []) => some i
  | _ => none

/-- Each list of bytes is the instruction beside it. -/
def agree (l : List (List Byte × Instr)) : Bool := l.all (fun p => reads p.1 == some p.2)

theorem test_decode_implied : agree [([0x00, 0x00], .nop), ([0x01, 0x00], .halt), ([0x02, 0x00], .wait),
    ([0x03, 0x00], .ei), ([0x04, 0x00], .di), ([0x05, 0x00], .sec), ([0x06, 0x00], .clc), ([0x07, 0x00], .nec),
    ([0x08, 0x00], .sev), ([0x09, 0x00], .clv), ([0x0A, 0x00], .nev), ([0x0B, 0x00], .rts), ([0x0C, 0x00], .rtl),
    ([0x0D, 0x00], .rti), ([0x41, 0x46], .afh), ([0x41, 0x00], .afh)] := by decide

theorem test_decode_stack : agree [([0x10, 0x00], .pop (.r 0)), ([0x10, 0x0F], .pop (.r 15)), ([0x10, 0x10], .pop .pc),
    ([0x10, 0x11], .pop .sr), ([0x10, 0x12], .pop .sp), ([0x10, 0x13], .pop .fp), ([0x10, 0x14], .pop .lr),
    ([0x11, 0x13], .popRange 1 3), ([0x12, 0x13], .push .fp), ([0x13, 0x4F], .pushRange 4 15),
    ([0x14, 0x49], .clr 4 9)] := by decide

theorem test_decode_transfer : agree [([0x15, 0x02], .movReg 0 2), ([0x16, 0x20, 0x34, 0x12], .movImm16 2 0x1234),
    ([0x17, 0x00, 0x00, 0x00, 0x01, 0x00], .movImm32 0 0x10000), ([0x18, 0x00, 0x12, 0x02], .movAny .sp (.r 2)),
    ([0x18, 0x00, 0x10, 0x11], .movAny .pc .sr), ([0x19, 0x02, 0x01, 0x03], .movb 0 2 (.imm8 3)),
    ([0x1A, 0x02, 0x00, 0x04], .movw 0 2 (.reg 4)), ([0x1B, 0x02], .movtReg 0 2),
    ([0x1C, 0x00, 0xD2, 0x04], .movtImm 0 1234), ([0x1D, 0x02], .swpReg 0 2)] := by decide

theorem test_decode_storage : agree [([0x20, 0x01, 0x10, 0x00], .ldr 0 (.base 1)),
    ([0x21, 0x01, 0x21, 0x01], .ldrb 0 (.indexed .plain 1 (.byte 1))),
    ([0x22, 0x01, 0x23, 0xF4], .ldrw 0 (.indexed .post 1 (.byte (-12)))),
    ([0x23, 0x01, 0x22, 0x0C], .ldrbs 0 (.indexed .pre 1 (.byte 12))),
    ([0x24, 0x01, 0x31, 0x00, 0xD2, 0x04], .ldrws 0 (.indexed .plain 1 (.word 1234))),
    ([0x25, 0x01, 0x32, 0x00, 0x2E, 0xFB], .str 0 (.indexed .pre 1 (.word (-1234)))),
    ([0x26, 0x01, 0x33, 0x00, 0xD2, 0x04], .strb 0 (.indexed .post 1 (.word 1234))),
    ([0x27, 0x01, 0x11, 0x02], .strw 0 (.indexed .plain 1 (.reg 2))),
    ([0x28, 0x01, 0x12, 0x02], .strbs 0 (.indexed .pre 1 (.reg 2))),
    ([0x29, 0x01, 0x13, 0x02], .strws 0 (.indexed .post 1 (.reg 2)))] := by decide

theorem test_decode_address : agree [([0x2A, 0x30, 0x00, 0x00, 0xD2, 0x04], .adr 3 (.rel16 1234)),
    ([0x2A, 0x00, 0x01, 0x00, 0xC0, 0x1D, 0xFE, 0xFF], .adr 0 (.rel32 (-123456))),
    ([0x2B, 0x00, 0x02, 0x00, 0x78, 0x56, 0x34, 0x12], .swpMem 0 (.absolute 0x12345678)),
    ([0x2B, 0x00, 0x03, 0x00, 0x00, 0x20, 0x00, 0x00], .swpMem 0 (.indirect 0x2000)),
    ([0x2C, 0x00, 0x02, 0x00, 0x78, 0x56, 0x34, 0x12], .jmp (.absolute 0x12345678)),
    ([0x2C, 0x00, 0x03, 0x00, 0x00, 0x20, 0x00, 0x00], .jmp (.indirect 0x2000)),
    ([0x2C, 0x70, 0x04, 0x00], .jmp (.reg 7))] := by decide

theorem test_decode_bitwise : agree [([0x30, 0x02, 0x01, 0x12], .lsl 0 2 (.imm8 0x12)),
    ([0x31, 0x02, 0x01, 0x1F], .lsr 0 2 (.imm8 31)), ([0x32, 0x02, 0x00, 0x04], .rol 0 2 (.reg 4)),
    ([0x33, 0x02, 0x01, 0x01], .ror 0 2 (.imm8 1)), ([0x34, 0x02, 0x01, 0x01], .rcl 0 2 (.imm8 1)),
    ([0x35, 0x02, 0x01, 0x01], .rcr 0 2 (.imm8 1)), ([0x36, 0xF2, 0x00, 0x0F], .asr 15 2 (.reg 15)),
    ([0x37, 0x02, 0x02, 0x00, 0xCC, 0xED], .and 0 2 (.imm16 (-0x1234))),
    ([0x38, 0x02, 0x03, 0x00, 0x78, 0x56, 0x34, 0x12], .orr 0 2 (.imm32 0x12345678)),
    ([0x39, 0x02, 0x01, 0xFF], .eor 0 2 (.imm8 0xFF)), ([0x3A, 0x45], .not 4 5), ([0x3B, 0x02], .clz 0 2),
    ([0x3C, 0x02], .ctz 0 2), ([0x3D, 0x02], .rbit 0 2), ([0x3E, 0x02], .revb 0 2),
    ([0x3F, 0x02], .revv 0 2)] := by decide

theorem test_decode_arithmetic : agree [([0x50, 0x02, 0x00, 0x04], .add 0 2 (.reg 4)),
    ([0x51, 0x02, 0x01, 0x00], .adc 0 2 (.imm8 0)), ([0x52, 0x02, 0x02, 0x00, 0xFE, 0xFF], .sub 0 2 (.imm16 (-2))),
    ([0x53, 0x02, 0x03, 0x00, 0x01, 0x00, 0x00, 0x80], .sbc 0 2 (.imm32 0x80000001)),
    ([0x54, 0x02, 0x01, 0x00], .rsb 0 2 (.imm8 0)), ([0x55, 0x02, 0x00, 0x04], .rsc 0 2 (.reg 4)),
    ([0x56, 0x02, 0x01, 0x02], .div 0 2 (.imm8 2)), ([0x57, 0x02, 0x02, 0x00, 0xFF, 0xFF], .divs 0 2 (.imm16 (-1))),
    ([0x58, 0x02, 0x00, 0x04], .rem 0 2 (.reg 4)), ([0x59, 0x02, 0x00, 0x04], .rems 0 2 (.reg 4)),
    ([0x5A, 0x02, 0x00, 0x04], .mul 0 2 (.reg 4)), ([0x5B, 0x02, 0x00, 0x04], .muls 0 2 (.reg 4)),
    ([0x5C, 0x02], .abs 0 2), ([0x5D, 0x02], .neg 0 2), ([0x5E, 0x31], .inc 3 1), ([0x5F, 0x0F], .dec 0 15)] := by
  decide

theorem test_decode_conversion : agree [([0x60, 0x02], .cfb 0 2), ([0x61, 0x02], .cfbs 0 2), ([0x62, 0x02], .cfw 0 2),
    ([0x63, 0x02], .cfws 0 2), ([0x64, 0x02], .cfbcd 0 2), ([0x65, 0x02], .ctb 0 2), ([0x66, 0x02], .ctbs 0 2),
    ([0x67, 0x02], .ctw 0 2), ([0x68, 0x02], .ctws 0 2), ([0x69, 0x02], .ctbcd 0 2)] := by decide

theorem test_decode_branch : agree [
    ([0x70, 0x00, 0x20, 0x00], .beq (.short 32)), ([0x70, 0x01, 0xF0, 0xFF], .bne (.short (-16))),
    ([0x70, 0x02, 0x20, 0x00], .bcs (.short 32)), ([0x70, 0x03, 0x20, 0x00], .bcc (.short 32)),
    ([0x70, 0x04, 0x20, 0x00], .bmi (.short 32)), ([0x70, 0x05, 0x20, 0x00], .bpl (.short 32)),
    ([0x70, 0x06, 0x20, 0x00], .bvs (.short 32)), ([0x70, 0x07, 0x20, 0x00], .bvc (.short 32)),
    ([0x70, 0x08, 0x20, 0x00], .bhi (.short 32)), ([0x70, 0x09, 0x20, 0x00], .bls (.short 32)),
    ([0x70, 0x0A, 0x20, 0x00], .bge (.short 32)), ([0x70, 0x0B, 0x20, 0x00], .blt (.short 32)),
    ([0x70, 0x0C, 0x20, 0x00], .bgt (.short 32)), ([0x70, 0x0D, 0x20, 0x00], .ble (.short 32)),
    ([0x71, 0x0E, 0x44, 0x23, 0x01, 0x00], .bra (.far 0x12344))] := by decide

theorem test_decode_call : agree [
    ([0x72, 0x00, 0x20, 0x00], .jeq (.short 32)), ([0x72, 0x01, 0x20, 0x00], .jne (.short 32)),
    ([0x72, 0x02, 0x20, 0x00], .jcs (.short 32)), ([0x72, 0x03, 0x20, 0x00], .jcc (.short 32)),
    ([0x72, 0x04, 0x20, 0x00], .jmi (.short 32)), ([0x72, 0x05, 0x20, 0x00], .jpl (.short 32)),
    ([0x72, 0x06, 0x20, 0x00], .jvs (.short 32)), ([0x72, 0x07, 0x20, 0x00], .jvc (.short 32)),
    ([0x72, 0x08, 0x20, 0x00], .jhi (.short 32)), ([0x72, 0x09, 0x20, 0x00], .jls (.short 32)),
    ([0x72, 0x0A, 0x20, 0x00], .jge (.short 32)), ([0x72, 0x0B, 0x20, 0x00], .jlt (.short 32)),
    ([0x72, 0x0C, 0x20, 0x00], .jgt (.short 32)), ([0x72, 0x0D, 0x20, 0x00], .jle (.short 32)),
    ([0x73, 0x0E, 0x20, 0x00, 0x00, 0x00], .jsr (.far 32))] := by decide

theorem test_decode_link : agree [
    ([0x74, 0x00, 0x20, 0x00], .leq (.short 32)), ([0x74, 0x01, 0x20, 0x00], .lne (.short 32)),
    ([0x74, 0x02, 0x20, 0x00], .lcs (.short 32)), ([0x74, 0x03, 0x20, 0x00], .lcc (.short 32)),
    ([0x74, 0x04, 0x20, 0x00], .lmi (.short 32)), ([0x74, 0x05, 0x20, 0x00], .lpl (.short 32)),
    ([0x74, 0x06, 0x20, 0x00], .lvs (.short 32)), ([0x74, 0x07, 0x20, 0x00], .lvc (.short 32)),
    ([0x74, 0x08, 0x20, 0x00], .lhi (.short 32)), ([0x74, 0x09, 0x20, 0x00], .lls (.short 32)),
    ([0x74, 0x0A, 0x20, 0x00], .lge (.short 32)), ([0x74, 0x0B, 0x20, 0x00], .llt (.short 32)),
    ([0x74, 0x0C, 0x20, 0x00], .lgt (.short 32)), ([0x74, 0x0D, 0x20, 0x00], .lle (.short 32)),
    ([0x75, 0x0E, 0xF0, 0xFF, 0xFF, 0xFF], .lnk (.far (-16)))] := by decide

theorem test_decode_compare : agree [([0x80, 0x00, 0x00, 0x02], .cmp 0 (.reg 2)),
    ([0x80, 0x02, 0x02, 0x00, 0x34, 0x12], .cmp 2 (.imm16 0x1234)), ([0x81, 0x00, 0x00, 0x02], .cmn 0 (.reg 2)),
    ([0x82, 0x00, 0x01, 0x0F], .tst 0 (.imm8 15)),
    ([0x83, 0x00, 0x03, 0x00, 0x4E, 0x61, 0xBC, 0x00], .teq 0 (.imm32 12345678))] := by decide

theorem test_decode_interrupt_misc : agree [
    ([0x90, 0x00, 0xD2, 0x04], .brk 1234), ([0x91, 0x00, 0xD2, 0x04], .dbg 1234),
    ([0x92, 0x00, 0x01, 0x00], .svc 1), ([0x93, 0x00], .swi 0), ([0x93, 0x1F], .swi 31), ([0xA0, 0x02], .rand 0 2),
    ([0xA1, 0x07], .seed 7)] := by decide

/-- Rule R56 with `BYTE_ORDER = big`: `16 20 12 34` is `MOV R2, #$1234`. -/
theorem test_decode_big : decode .big [0x16, 0x20, 0x12, 0x34] = .ok (.movImm16 2 0x1234, []) := rfl

/-- The table's numbering: `MOV R2, #$1234` is the 32-bit word `$16203412`, and the second word of
`ADR R0, $12345678` is `$78563412`. -/
theorem test_decode_table_word : decodeTableWord 32 0x16203412 = some (.movImm16 2 0x1234) ∧
    decodeTableWord 64 0x785634122A000200 = some (.adr 0 (.absolute 0x12345678)) ∧
    decodeTableWord 16 0x1502 = some (.movReg 0 2) := by decide

/-- Why the decoder rejects bytes. -/
def rejects (bs : List Byte) : Option DecodeError :=
  match decode .little bs with
  | .ok _ => none
  | .error e => some e

/-- The rows of `96_derived_vectors.md` that end in `IllegalEncoding`, and the other cases of rule R63. -/
theorem test_decode_rejects :
    [rejects [0x0E, 0x00], rejects [0x00, 0x01], rejects [0x10, 0x15], rejects [0x14, 0x94],
      rejects [0x50, 0x02, 0x04, 0x00], rejects [0x30, 0x02, 0x02, 0x00, 0x01, 0x00],
      rejects [0x16, 0x21, 0x34, 0x12], rejects [0x19, 0x02, 0x01, 0x04],
      rejects [0x30, 0x02, 0x01, 0x20], rejects [0x20, 0x00, 0x04, 0x00], rejects [0x2C, 0x01, 0x10, 0x00],
      rejects [0x70, 0x0F, 0x20, 0x00], rejects [0x93, 0x20], rejects [0x2A, 0x01, 0x02, 0x00, 0x00, 0x00, 0x00, 0x00],
      rejects [0x10], rejects [0x2C, 0x10, 0x02, 0x00, 0x00, 0x00, 0x00, 0x00]] =
    [some .opcode, some .unassigned, some .register, some .range, some .kind, some .kind, some .unassigned,
      some .immediate, some .immediate, some .mode, some .mode, some .condition, some .swiNumber, some .unassigned,
      some .truncated, some .unassigned] := by decide

/-! ## Steps: one instruction each, from `pc = $1000` -/

/-- The reset state with the bytes of one instruction at `pc`. -/
def boot (bs : List Byte) : State := placeAtPc State.reset bs

def flags (n z c v i : Bool) (s : State) : State := { s with sr := { n := n, z := z, c := c, v := v, i := i } }
def stack (a : DWord) (s : State) : State := { s with sp := a }
def link (a : DWord) (s : State) : State := { s with lr := a }
def set (r : Reg) (v : DWord) (s : State) : State := s.setReg r v
def put (a v : DWord) (s : State) : State := s.store .dword a v
def put2 (a v : DWord) (s : State) : State := s.store .word a v
def put1 (a v : DWord) (s : State) : State := s.store .byte a v
def setting (f : AluFlags) (s : State) : State := { s with cfg := { s.cfg with aluFlags := f } }
def going (s : State) : State := { s with cfg := { s.cfg with unstated := .free } }
def nzcvi (s : State) : Bool × Bool × Bool × Bool × Bool := (s.sr.n, s.sr.z, s.sr.c, s.sr.v, s.sr.i)

/-- What is seen of the state after a step. -/
def after {α : Type} (f : State → α) (s : State) : Option α :=
  match step s with
  | .next t => some (f t)
  | _ => none

theorem test_step_nop : after (fun t => t.pc) (boot [0x00, 0x00]) = some 0x1002 := by decide
theorem test_step_afh : after (fun t => t.pc) (boot [0x41, 0x46]) = some 0x1002 := by decide
theorem test_step_halt : after (fun t => (t.halted, t.pc)) (boot [0x01, 0x00]) = some (true, 0x1000) := by decide
theorem test_step_wait : after (fun t => (t.waiting, t.pc)) (boot [0x02, 0x00]) = some (true, 0x1002) := by decide
theorem test_step_ei :
    after nzcvi
      (boot [0x03, 0x00] |> flags false false false false false) =
      some (false, false, false, false, true) := by decide
theorem test_step_di :
    after nzcvi
      (boot [0x04, 0x00] |> flags true true true true true) =
      some (true, true, true, true, false) := by decide
theorem test_step_sec :
    after nzcvi
      (boot [0x05, 0x00] |> flags false false false false false) =
      some (false, false, true, false, false) := by decide
theorem test_step_clc :
    after nzcvi
      (boot [0x06, 0x00] |> flags true true true true true) =
      some (true, true, false, true, true) := by decide
theorem test_step_nec :
    after nzcvi
      (boot [0x07, 0x00] |> flags false false true false false) =
      some (false, false, false, false, false) := by decide
theorem test_step_sev :
    after nzcvi
      (boot [0x08, 0x00] |> flags false false false false false) =
      some (false, false, false, true, false) := by decide
theorem test_step_clv :
    after nzcvi
      (boot [0x09, 0x00] |> flags true true true true true) =
      some (true, true, true, false, true) := by decide
theorem test_step_nev :
    after nzcvi
      (boot [0x0A, 0x00] |> flags false false false false false) =
      some (false, false, false, true, false) := by decide
theorem test_step_rts :
    after (fun t => (t.sp, t.pc))
      (boot [0x0B, 0x00] |> put 0x8FFC 0x1008 |> stack 0x8FFC) =
      some (0x9000, 0x1008) := by decide
theorem test_step_rtl : after (fun t => t.pc) (boot [0x0C, 0x00] |> link 0x1008) = some 0x1008 := by decide
theorem test_step_rti :
    after (fun t => (t.pc, nzcvi t))
      (boot [0x0D, 0x00] |> put 0x8FF8 0x1004 |> put 0x8FFC 0x60000001 |> stack 0x8FF8) =
      some (0x1004, false, true, true, false, true) := by decide
theorem test_step_rti_ignores_other_bits :
    after (fun t => (t.sp, nzcvi t))
      (boot [0x0D, 0x00] |> put 0x8FF8 0x1004 |> put 0x8FFC 0x9FFFFFFE |> stack 0x8FF8) =
      some (0x9000, true, false, false, true, false) := by decide
theorem test_step_pop :
    after (fun t => (t.reg 0, t.sp))
      (boot [0x10, 0x00] |> put 0x8FFC 0xDEADBEEF |> stack 0x8FFC) =
      some (0xDEADBEEF, 0x9000) := by decide
theorem test_step_pop_sp :
    after (fun t => (t.sp, t.pc))
      (boot [0x10, 0x12] |> put 0x8FFC 0x8F80 |> stack 0x8FFC) =
      some (0x8F80, 0x1002) := by decide
theorem test_step_popRange :
    after (fun t => (t.reg 1, t.reg 2, t.reg 3, t.sp))
      (boot [0x11, 0x13] |> put 0x8FF4 0x33 |> put 0x8FF8 0x22 |> put 0x8FFC 0x11 |> stack 0x8FF4) =
      some (0x11, 0x22, 0x33, 0x9000) := by decide
theorem test_step_push_sp :
    after (fun t => (t.sp, t.datum .dword 0x8FFC))
      (boot [0x12, 0x12] |> stack 0x9000) =
      some (0x8FFC, 0x9000) := by decide
theorem test_step_push_sr :
    after (fun t => t.datum .dword 0x8FFC)
      (boot [0x12, 0x11] |> flags true false true false true |> stack 0x9000) =
      some 0xA0000001 := by decide
theorem test_step_pushRange :
    after (fun t => (t.sp, t.datum .dword 0x8FF4, t.datum .dword 0x8FFC))
      (boot [0x13, 0x13] |> set 1 0x11 |> set 2 0x22 |> set 3 0x33 |> stack 0x9000) =
      some (0x8FF4, 0x33, 0x11) := by decide
theorem test_step_clr :
    after (fun t => (t.reg 3, t.reg 4, t.reg 9, t.reg 10))
      (boot [0x14, 0x49] |> set 3 0x3 |> set 4 0x4 |> set 9 0x9 |> set 10 0xA) =
      some (3, 0, 0, 10) := by decide
theorem test_step_movReg :
    after (fun t => (t.reg 0, t.pc)) (boot [0x15, 0x02] |> set 2 0x1234) = some (0x1234, 0x1002) := by decide
theorem test_step_movImm16 :
    after (fun t => (t.reg 0, t.pc)) (boot [0x16, 0x00, 0xFF, 0xFF]) = some (0xFFFF, 0x1004) := by decide
theorem test_step_movImm32 :
    after (fun t => (t.reg 0, t.pc))
      (boot [0x17, 0x00, 0xFF, 0xFF, 0xFF, 0xFF]) =
      some (0xFFFFFFFF, 0x1006) := by decide
theorem test_step_movAny_reads_pc :
    after (fun t => (t.reg 0, t.pc)) (boot [0x18, 0x00, 0x00, 0x10]) = some (0x1000, 0x1004) := by decide
theorem test_step_movAny_writes_sr :
    after (fun t => (t.pc, nzcvi t))
      (boot [0x18, 0x00, 0x11, 0x02] |> set 2 0x90000000) =
      some (0x1004, true, false, false, true, false) := by decide
theorem test_step_movb :
    after (fun t => (t.reg 0, t.pc))
      (boot [0x19, 0x02, 0x01, 0x03] |> set 2 0x11223344) =
      some (0x11, 0x1004) := by decide
theorem test_step_movb_register :
    after (fun t => (t.reg 0, t.pc))
      (boot [0x19, 0x02, 0x00, 0x04] |> set 2 0x11223344 |> set 4 0x2) =
      some (0x22, 0x1004) := by decide
theorem test_step_movw :
    after (fun t => (t.reg 0, t.pc))
      (boot [0x1A, 0x02, 0x01, 0x01] |> set 2 0x11223344) =
      some (0x1122, 0x1004) := by decide
theorem test_step_movtReg :
    after (fun t => (t.reg 0, t.pc))
      (boot [0x1B, 0x02] |> set 0 0xAAAA5678 |> set 2 0x99991234) =
      some (0x12345678, 0x1002) := by decide
theorem test_step_movtImm :
    after (fun t => (t.reg 0, t.pc))
      (boot [0x1C, 0x00, 0xD2, 0x04] |> set 0 0xFFFFFFFF) =
      some (0x4D2FFFF, 0x1004) := by decide
theorem test_step_swpReg :
    after (fun t => (t.reg 0, t.reg 2)) (boot [0x1D, 0x02] |> set 0 0x1 |> set 2 0x2) = some (2, 1) := by decide
theorem test_step_swpReg_same :
    after (fun t => (t.reg 3, t.pc)) (boot [0x1D, 0x33] |> set 3 0x7) = some (7, 0x1002) := by decide
theorem test_step_adr_relative :
    after (fun t => (t.reg 0, t.pc)) (boot [0x2A, 0x00, 0x00, 0x00, 0x2E, 0xFB]) = some (0xB2E, 0x1006) := by decide
theorem test_step_adr_post :
    after (fun t => (t.reg 1, t.reg 2))
      (boot [0x2A, 0x21, 0x13, 0x02] |> set 1 0x2000 |> set 2 0x10) =
      some (0x2010, 0x2000) := by decide
theorem test_step_ldr :
    after (fun t => (t.reg 0, t.reg 1))
      (boot [0x20, 0x01, 0x23, 0x04] |> set 1 0x2000 |> put 0x2000 0x11223344) =
      some (0x11223344, 0x2004) := by decide
theorem test_step_ldrb :
    after (fun t => t.reg 0)
      (boot [0x21, 0x01, 0x21, 0x01] |> set 1 0x2000 |> put 0x2000 0x11223344) =
      some 0x33 := by decide
theorem test_step_ldrw :
    after (fun t => t.reg 0)
      (boot [0x22, 0x01, 0x21, 0x02] |> set 1 0x2000 |> put 0x2000 0x11223344) =
      some 0x1122 := by decide
theorem test_step_ldrbs :
    after (fun t => t.reg 0)
      (boot [0x23, 0x01, 0x10, 0x00] |> set 1 0x2000 |> put1 0x2000 0x80) =
      some 0xFFFFFF80 := by decide
theorem test_step_ldrws :
    after (fun t => t.reg 0)
      (boot [0x24, 0x01, 0x10, 0x00] |> set 1 0x2000 |> put2 0x2000 0x8001) =
      some 0xFFFF8001 := by decide
theorem test_step_str :
    after (fun t => (t.reg 1, t.datum .dword 0x2004))
      (boot [0x25, 0x01, 0x22, 0xFC] |> set 0 0xCAFEBABE |> set 1 0x2008) =
      some (0x2004, 0xCAFEBABE) := by decide
theorem test_step_str_bytes :
    after (fun t => (t.byte 0x2000, t.byte 0x2003))
      (boot [0x25, 0x01, 0x10, 0x00] |> set 0 0x11223344 |> set 1 0x2000) =
      some (0x44, 0x11) := by decide
theorem test_step_strb :
    after (fun t => (t.byte 0x2002, t.byte 0x2003, t.byte 0x2004))
      (boot [0x26, 0x01, 0x10, 0x00] |> set 0 0x12345678 |> set 1 0x2003) =
      some (0, 0x78, 0) := by decide
theorem test_step_strw :
    after (fun t => (t.datum .word 0x2002, t.byte 0x2004))
      (boot [0x27, 0x01, 0x10, 0x00] |> set 0 0x12345678 |> set 1 0x2002) =
      some (0x5678, 0) := by decide
theorem test_step_strbs :
    after (fun t => t.byte 0x2000)
      (boot [0x28, 0x01, 0x10, 0x00] |> set 0 0xFFFFFF7B |> set 1 0x2000) =
      some 0xFB := by decide
theorem test_step_strws :
    after (fun t => t.datum .word 0x2000)
      (boot [0x29, 0x01, 0x10, 0x00] |> set 0 0xFFFF7FFF |> set 1 0x2000) =
      some 0xFFFF := by decide
theorem test_step_swpMem :
    after (fun t => (t.reg 0, t.datum .dword 0x2000))
      (boot [0x2B, 0x01, 0x10, 0x00] |> set 0 0x11111111 |> set 1 0x2000 |> put 0x2000 0x22222222) =
      some (0x22222222, 0x11111111) := by decide
theorem test_step_lsl :
    after (fun t => (t.reg 0, t.pc))
      (boot [0x30, 0x02, 0x01, 0x12] |> set 2 0x80000001) =
      some (0x40000, 0x1004) := by decide
theorem test_step_lsl_by_32 :
    after (fun t => (t.reg 0, t.pc))
      (boot [0x30, 0x02, 0x00, 0x04] |> set 2 0x80000001 |> set 4 0x20) =
      some (0x0, 0x1004) := by decide
theorem test_step_lsr :
    after (fun t => (t.reg 0, t.pc))
      (boot [0x31, 0x02, 0x01, 0x12] |> set 2 0x80000001) =
      some (0x2000, 0x1004) := by decide
theorem test_step_lsr_by_32 :
    after (fun t => (t.reg 0, t.pc))
      (boot [0x31, 0x02, 0x00, 0x04] |> set 2 0x80000001 |> set 4 0x20) =
      some (0x0, 0x1004) := by decide
theorem test_step_rol :
    after (fun t => (t.reg 0, t.pc))
      (boot [0x32, 0x02, 0x01, 0x12] |> set 2 0x80000001) =
      some (0x60000, 0x1004) := by decide
theorem test_step_rol_by_32 :
    after (fun t => (t.reg 0, t.pc))
      (boot [0x32, 0x02, 0x00, 0x04] |> set 2 0x80000001 |> set 4 0x20) =
      some (0x80000001, 0x1004) := by decide
theorem test_step_ror :
    after (fun t => (t.reg 0, t.pc))
      (boot [0x33, 0x02, 0x01, 0x12] |> set 2 0x80000001) =
      some (0x6000, 0x1004) := by decide
theorem test_step_ror_by_32 :
    after (fun t => (t.reg 0, t.pc))
      (boot [0x33, 0x02, 0x00, 0x04] |> set 2 0x80000001 |> set 4 0x20) =
      some (0x80000001, 0x1004) := by decide
theorem test_step_asr :
    after (fun t => (t.reg 0, t.pc))
      (boot [0x36, 0x02, 0x01, 0x12] |> set 2 0x80000001) =
      some (0xFFFFE000, 0x1004) := by decide
theorem test_step_asr_by_32 :
    after (fun t => (t.reg 0, t.pc))
      (boot [0x36, 0x02, 0x00, 0x04] |> set 2 0x80000001 |> set 4 0x20) =
      some (0xFFFFFFFF, 0x1004) := by decide
theorem test_step_rcl :
    after (fun t => (t.reg 0, t.sr.c))
      (boot [0x34, 0x02, 0x01, 0x01] |> set 2 0x80000001 |> flags false false true false false) =
      some (3, true) := by decide
theorem test_step_rcl_by_32 :
    after (fun t => (t.reg 0, t.sr.c))
      (boot [0x34, 0x02, 0x00, 0x04] |> set 2 0x80000001 |> set 4 0x20) =
      some (0x40000000, true) := by decide
theorem test_step_rcr :
    after (fun t => (t.reg 0, t.sr.c))
      (boot [0x35, 0x02, 0x01, 0x01] |> set 2 0x80000001 |> flags false false true false false) =
      some (0xC0000000, true) := by decide
theorem test_step_rcr_by_32 :
    after (fun t => (t.reg 0, t.sr.c))
      (boot [0x35, 0x02, 0x00, 0x04] |> set 2 0x80000001 |> set 4 0x20) =
      some (2, true) := by decide
theorem test_step_and :
    after (fun t => (t.reg 0, t.pc))
      (boot [0x37, 0x02, 0x02, 0x00, 0xCC, 0xED] |> set 2 0xFFFFFFFF) =
      some (0xFFFFEDCC, 0x1006) := by decide
theorem test_step_orr :
    after (fun t => (t.reg 0, t.pc))
      (boot [0x38, 0x02, 0x03, 0x00, 0x78, 0x56, 0x34, 0x12] |> set 2 0xFFFF00FF) =
      some (0xFFFF56FF, 0x1008) := by decide
theorem test_step_eor :
    after (fun t => (t.reg 0, t.pc))
      (boot [0x39, 0x02, 0x00, 0x04] |> set 2 0xFFFF00FF |> set 4 0x12345678) =
      some (0xEDCB5687, 0x1004) := by decide
theorem test_step_not :
    after (fun t => (t.reg 4, t.pc)) (boot [0x3A, 0x45] |> set 5 0x12345678) = some (0xEDCBA987, 0x1002) := by decide
theorem test_step_clz :
    after (fun t => (t.reg 0, t.pc)) (boot [0x3B, 0x02] |> set 2 0x10000) = some (0xF, 0x1002) := by decide
theorem test_step_clz_of_0 :
    after (fun t => (t.reg 0, t.pc)) (boot [0x3B, 0x02] |> set 2 0x0) = some (0x20, 0x1002) := by decide
theorem test_step_ctz :
    after (fun t => (t.reg 0, t.pc)) (boot [0x3C, 0x02] |> set 2 0x10000) = some (0x10, 0x1002) := by decide
theorem test_step_ctz_of_0 :
    after (fun t => (t.reg 0, t.pc)) (boot [0x3C, 0x02] |> set 2 0x0) = some (0x20, 0x1002) := by decide
theorem test_step_rbit :
    after (fun t => (t.reg 0, t.pc))
      (boot [0x3D, 0x02] |> set 2 0x12345678) =
      some (0x1E6A2C48, 0x1002) := by decide +kernel
theorem test_step_revb :
    after (fun t => (t.reg 0, t.pc)) (boot [0x3E, 0x02] |> set 2 0x12345678) = some (0x78563412, 0x1002) := by decide
theorem test_step_revv :
    after (fun t => (t.reg 0, t.pc)) (boot [0x3F, 0x02] |> set 2 0x12345678) = some (0x56781234, 0x1002) := by decide
theorem test_step_add :
    after (fun t => (t.reg 0, nzcvi t))
      (boot [0x50, 0x02, 0x01, 0x01] |> set 2 0x7FFFFFFF |> setting .set) =
      some (0x80000000, true, false, false, true, false) := by decide
theorem test_step_adc :
    after (fun t => (t.reg 0, nzcvi t))
      (boot [0x51, 0x02, 0x01, 0x00] |> set 2 0xFFFFFFFF |> flags false false true false false |> setting .set) =
      some (0x0, false, true, true, false, false) := by decide
theorem test_step_sub :
    after (fun t => (t.reg 0, nzcvi t))
      (boot [0x52, 0x02, 0x01, 0x01] |> set 2 0x80000000 |> setting .set) =
      some (0x7FFFFFFF, false, false, true, true, false) := by decide
theorem test_step_sbc :
    after (fun t => (t.reg 0, nzcvi t))
      (boot [0x53, 0x02, 0x00, 0x04] |> set 2 0x5 |> set 4 0x5 |> setting .set) =
      some (0xFFFFFFFF, true, false, false, false, false) := by decide
theorem test_step_rsb :
    after (fun t => (t.reg 0, nzcvi t))
      (boot [0x54, 0x02, 0x01, 0x00] |> set 2 0x5 |> setting .set) =
      some (0xFFFFFFFB, true, false, false, false, false) := by decide
theorem test_step_rsc :
    after (fun t => (t.reg 0, t.pc))
      (boot [0x55, 0x02, 0x00, 0x04] |> set 2 0x5 |> set 4 0x7) =
      some (0x1, 0x1004) := by decide
theorem test_step_div :
    after (fun t => (t.reg 0, t.pc))
      (boot [0x56, 0x02, 0x01, 0x02] |> set 2 0xFFFFFFFF) =
      some (0x7FFFFFFF, 0x1004) := by decide
theorem test_step_divs :
    after (fun t => (t.reg 0, t.pc))
      (boot [0x57, 0x02, 0x00, 0x04] |> set 2 0xFFFFFF9C |> set 4 0x7) =
      some (0xFFFFFFF2, 0x1004) := by decide
theorem test_step_rem :
    after (fun t => (t.reg 0, t.pc))
      (boot [0x58, 0x02, 0x00, 0x04] |> set 2 0x64 |> set 4 0x7) =
      some (0x2, 0x1004) := by decide
theorem test_step_rems :
    after (fun t => (t.reg 0, t.pc))
      (boot [0x59, 0x02, 0x00, 0x04] |> set 2 0xFFFFFF9C |> set 4 0xFFFFFFF9) =
      some (0xFFFFFFFE, 0x1004) := by decide
theorem test_step_mul :
    after (fun t => (t.reg 0, t.pc))
      (boot [0x5A, 0x02, 0x00, 0x04] |> set 2 0x6 |> set 4 0x7) =
      some (0x2A, 0x1004) := by decide
theorem test_step_mul_wraps :
    after (fun t => (t.reg 0, t.pc))
      (boot [0x5A, 0x02, 0x00, 0x04] |> set 2 0x10000 |> set 4 0x10000) =
      some (0x0, 0x1004) := by decide
theorem test_step_muls :
    after (fun t => (t.reg 0, t.pc))
      (boot [0x5B, 0x02, 0x00, 0x04] |> set 2 0xFFFFFFFA |> set 4 0x7) =
      some (0xFFFFFFD6, 0x1004) := by decide
theorem test_step_abs :
    after (fun t => (t.reg 0, t.pc)) (boot [0x5C, 0x02] |> set 2 0xFFFFFFFB) = some (0x5, 0x1002) := by decide
theorem test_step_abs_wraps :
    after (fun t => (t.reg 0, t.pc)) (boot [0x5C, 0x02] |> set 2 0x80000000) = some (0x80000000, 0x1002) := by decide
theorem test_step_neg :
    after (fun t => (t.reg 0, nzcvi t))
      (boot [0x5D, 0x02] |> set 2 0x80000000 |> setting .set) =
      some (0x80000000, true, false, false, true, false) := by decide
theorem test_step_inc :
    after (fun t => (t.reg 0, nzcvi t))
      (boot [0x5E, 0x01] |> set 0 0xFFFFFFFF |> setting .set) =
      some (0x0, false, true, true, false, false) := by decide
theorem test_step_dec :
    after (fun t => (t.reg 0, nzcvi t))
      (boot [0x5F, 0x01] |> set 0 0x0 |> setting .set) =
      some (0xFFFFFFFF, true, false, false, false, false) := by decide
theorem test_step_cfb :
    after (fun t => (t.reg 0, t.pc)) (boot [0x60, 0x02] |> set 2 0x12345680) = some (0x80, 0x1002) := by decide
theorem test_step_cfbs :
    after (fun t => (t.reg 0, t.pc)) (boot [0x61, 0x02] |> set 2 0x12345680) = some (0xFFFFFF80, 0x1002) := by decide
theorem test_step_cfw :
    after (fun t => (t.reg 0, t.pc)) (boot [0x62, 0x02] |> set 2 0x12348001) = some (0x8001, 0x1002) := by decide
theorem test_step_cfws :
    after (fun t => (t.reg 0, t.pc)) (boot [0x63, 0x02] |> set 2 0x12348001) = some (0xFFFF8001, 0x1002) := by decide
theorem test_step_cfbcd :
    after (fun t => (t.reg 0, t.pc)) (boot [0x64, 0x02] |> set 2 0x99999999) = some (0x5F5E0FF, 0x1002) := by decide
theorem test_step_ctb :
    after (fun t => (t.reg 0, t.pc)) (boot [0x65, 0x02] |> set 2 0x12345680) = some (0x80, 0x1002) := by decide
theorem test_step_ctbs :
    after (fun t => (t.reg 0, t.pc)) (boot [0x66, 0x02] |> set 2 0xFFFFFF7B) = some (0xFB, 0x1002) := by decide
theorem test_step_ctw :
    after (fun t => (t.reg 0, t.pc)) (boot [0x67, 0x02] |> set 2 0x12348001) = some (0x8001, 0x1002) := by decide
theorem test_step_ctws :
    after (fun t => (t.reg 0, t.pc)) (boot [0x68, 0x02] |> set 2 0x18000) = some (0x0, 0x1002) := by decide
theorem test_step_ctbcd :
    after (fun t => (t.reg 0, t.pc)) (boot [0x69, 0x02] |> set 2 0x5F5E0FF) = some (0x99999999, 0x1002) := by decide
theorem test_step_bra : after (fun t => t.pc) (boot [0x71, 0x0E, 0x44, 0x23, 0x01, 0x00]) = some 0x13344 := by decide
theorem test_step_bne_taken : after (fun t => t.pc) (boot [0x70, 0x01, 0xF0, 0xFF]) = some 0xFF0 := by decide
theorem test_step_bne_not_taken :
    after (fun t => t.pc)
      (boot [0x70, 0x01, 0xF0, 0xFF] |> flags false true false false false) =
      some 0x1004 := by decide
theorem test_step_jsr :
    after (fun t => (t.sp, t.datum .dword 0x8FFC, t.pc))
      (boot [0x73, 0x0E, 0x20, 0x00, 0x00, 0x00] |> stack 0x9000) =
      some (0x8FFC, 0x1006, 0x1020) := by decide
theorem test_step_jeq_not_taken :
    after (fun t => (t.sp, t.pc)) (boot [0x72, 0x00, 0x20, 0x00] |> stack 0x9000) = some (0x9000, 0x1004) := by decide
theorem test_step_lnk :
    after (fun t => (t.lr, t.pc)) (boot [0x74, 0x0E, 0x20, 0x00]) = some (0x1004, 0x1020) := by decide
theorem test_step_lne_not_taken :
    after (fun t => (t.lr, t.pc))
      (boot [0x74, 0x01, 0x20, 0x00] |> flags false true false false false |> link 0x5555) =
      some (0x5555, 0x1004) := by decide
theorem test_step_jmp_indirect :
    after (fun t => t.pc)
      (boot [0x2C, 0x00, 0x03, 0x00, 0x00, 0x20, 0x00, 0x00] |> put 0x2000 0x3000) =
      some 0x3000 := by decide
theorem test_step_jmp_register :
    after (fun t => t.pc) (boot [0x2C, 0x00, 0x04, 0x00] |> set 0 0x4000) = some 0x4000 := by decide
theorem test_step_cmp_borrow :
    after nzcvi
      (boot [0x80, 0x00, 0x00, 0x02] |> set 0 0x5 |> set 2 0x7) =
      some (true, false, false, false, false) := by decide
theorem test_step_cmp_overflow :
    after nzcvi
      (boot [0x80, 0x00, 0x00, 0x02] |> set 0 0x80000000 |> set 2 0x1) =
      some (false, false, true, true, false) := by decide
theorem test_step_cmn :
    after nzcvi
      (boot [0x81, 0x00, 0x00, 0x02] |> set 0 0xFFFFFFFB |> set 2 0x5) =
      some (false, true, true, false, false) := by decide
theorem test_step_tst :
    after (fun t => (t.sr.n, t.sr.z))
      (boot [0x82, 0x00, 0x00, 0x02] |> set 0 0xF0 |> set 2 0xF) =
      some (false, true) := by decide
theorem test_step_teq :
    after (fun t => (t.sr.n, t.sr.z))
      (boot [0x83, 0x00, 0x00, 0x02] |> set 0 0x1 |> set 2 0xFFFFFFFF) =
      some (true, false) := by decide
theorem test_step_brk :
    after (fun t => (t.sp, t.datum .dword 0x8FF8, t.datum .dword 0x8FFC, t.sr.i, t.pc))
      (boot [0x90, 0x00, 0xD2, 0x04] |> flags false true true false true |> stack 0x9000) =
      some (0x8FF8, 0x1004, 0x60000001, false, 0x3000) := by decide
theorem test_step_dbg :
    after (fun t => (t.sp, t.datum .dword 0x8FF8, t.datum .dword 0x8FFC, t.sr.i, t.pc))
      (boot [0x91, 0x00, 0xD2, 0x04] |> flags false true true false true |> stack 0x9000) =
      some (0x8FF8, 0x1004, 0x60000001, false, 0x3100) := by decide
theorem test_step_svc :
    after (fun t => (t.sp, t.datum .dword 0x8FF8, t.datum .dword 0x8FFC, t.sr.i, t.pc))
      (boot [0x92, 0x00, 0xD2, 0x04] |> flags false true true false true |> stack 0x9000) =
      some (0x8FF8, 0x1004, 0x60000001, false, 0x3200) := by decide
theorem test_step_swi :
    after (fun t => (t.sp, t.datum .dword 0x8FFC, t.sr.i, t.pc))
      (boot [0x93, 0x1F] |> flags false true true false true |> stack 0x9000) =
      some (0x8FFC, 0x1002, true, 0x33F8) := by decide
theorem test_step_rand :
    after (fun t => (t.reg 2, t.pc)) (boot [0xA0, 0x02] |> set 2 0x5) = some (5, 0x1002) := by decide
theorem test_step_seed :
    after (fun t => (t.seed, t.pc)) (boot [0xA1, 0x00] |> set 0 0x1234) = some (0x1234, 0x1002) := by decide

/-! ## Steps that stop, and interrupts -/

/-- The fault of a step. -/
def faultOf (s : State) : Option Fault :=
  match step s with
  | .fault f => some f
  | _ => none

theorem test_fault_misaligned :
    faultOf (boot [0x20, 0x01, 0x10, 0x00] |> set 1 0x2002) = some (.misaligned 0x2002 4) := by decide
theorem test_fault_wrap : faultOf (boot [0x20, 0x01, 0x10, 0x00] |> set 1 0xFFFFFFFE) = some .addressWrap := by decide
theorem test_fault_odd_pc : faultOf (boot [] |> fun s => { s with pc := 0x1001 }) = some .oddPc := by decide
theorem test_fault_illegal : faultOf (boot [0x0E, 0x00]) = some (.illegalEncoding .opcode) := by decide
theorem test_fault_divide : faultOf (boot [0x56, 0x02, 0x01, 0x00]) = some .divideByZero := by decide
theorem test_fault_divide_overflow :
    faultOf (boot [0x57, 0x02, 0x02, 0x00, 0xFF, 0xFF] |> set 2 0x80000000) = some .divideOverflow := by decide
theorem test_fault_shift : faultOf (boot [0x30, 0x02, 0x00, 0x04] |> set 4 33) = some .shiftRange := by decide
theorem test_fault_selector : faultOf (boot [0x19, 0x02, 0x00, 0x04] |> set 4 4) = some .selectorRange := by decide
theorem test_fault_writeback : faultOf (boot [0x2A, 0x11, 0x22, 0x04]) = some .writebackSameRegister := by decide
theorem test_fault_bcd : faultOf (boot [0x64, 0x02] |> set 2 0xA) = some .invalidBcd := by decide
theorem test_fault_bcd_range : faultOf (boot [0x69, 0x02] |> set 2 100000000) = some .bcdRange := by decide

/-- The model's own setting under which the machine goes on where the spec names a model fault (log entry 4). -/
theorem test_free_divide : after (fun t => t.pc) (going (boot [0x56, 0x02, 0x01, 0x00])) = some 0x1004 := by decide

/-- The top of the address space (rule R14, decision D32): the last instruction that may be fetched, one whose successor
passes the top, one whose bytes do. -/
theorem test_fault_pc_wrap :
    let top (a : DWord) (bs : List Byte) : State := placeAtPc { State.reset with pc := a } bs
    after (fun t => t.pc) (top 0xFFFFFFFC [0x00, 0x00]) = some 0xFFFFFFFE ∧
    faultOf (top 0xFFFFFFFE [0x00, 0x00]) = some .pcWrap ∧
    faultOf (top 0xFFFFFFFC [0x16, 0x20]) = some .pcWrap := by decide

/-- Rule R43: the instruction stores to the bytes the next fetch reads. -/
theorem test_fault_self_modify :
    faultOf (boot [] |> put2 0x1000 0) = some .fetchOfWrittenByte := by decide

/-- Another `ENCODING` (rule R6): MOV of an immediate in 6 bytes, ADD in 2, SWI in 2 and AFH with `$41` as the source
says. -/
def otherRows : List EncodingRow :=
  [⟨.movImm16 2 0x1234, [0xC0, 0x02, 0x12, 0x34, 0x00, 0x00]⟩, ⟨.add 0 2 (.reg 4), [0xC1, 0x24]⟩,
    ⟨.swi 31, [0xC2, 0x1F]⟩, ⟨.afh, [0x41, 0x52, 0x49, 0x45]⟩]

/-- The reset state with another encoding and some bytes at `pc`. -/
def recoded (bs : List Byte) : State :=
  { boot bs with cfg := { defaultCfg with encoding := .table otherRows } }

theorem test_encoding_table : (Encoding.table otherRows).wf = true ∧
    after (fun t => (t.reg 2, t.pc)) (recoded [0xC0, 0x02, 0x12, 0x34, 0x00, 0x00]) = some (0x1234, 0x1006) ∧
    after (fun t => (t.reg 0, t.pc)) (recoded [0xC1, 0x24] |> set 2 5 |> set 4 6) = some (11, 0x1002) ∧
    after (fun t => t.pc) (recoded [0x41, 0x00, 0xFF, 0x17]) = some 0x1004 ∧
    faultOf (recoded [0x16, 0x20, 0x34, 0x12]) = some (.illegalEncoding .unlisted) := by decide

/-- The checks of an encoding, each with an entry for AFH beside it: 3 bytes, BRK in 2, an entry that begins with
another, an instruction twice, an ill-formed one, `$41` for another instruction (rule R50 point 2), AFH without `$41` or
without an entry. -/
theorem test_wf_encoding :
    [[⟨.nop, [1, 2, 3]⟩], [⟨.brk 0, [1, 2]⟩], [⟨.nop, [1, 2]⟩, ⟨.halt, [1, 2, 3, 4]⟩],
      [⟨.nop, [1, 2]⟩, ⟨.nop, [3, 4]⟩],
      [⟨.clr 2 1, [1, 2]⟩], [⟨.nop, [0x41, 1]⟩], [⟨.nop, [0x41, 1, 0, 0]⟩], [⟨.nop, [1, 2]⟩]].map
      (fun l => (Encoding.table (⟨.afh, [0x41, 0]⟩ :: l)).wf) =
    [false, false, false, false, false, false, false, true] ∧
    (Encoding.table [⟨.afh, [0x40, 0]⟩]).wf = false ∧ (Encoding.table [⟨.nop, [1, 2]⟩]).wf = false := by decide

/-- The start of a run under other parameters (rule R281). -/
theorem test_launch : (State.launch { defaultCfg with entry := 0x8000 } .never).pc = 0x8000 := rfl

/-- Three lines, of which 1 and 2 are selected (`96_derived_vectors.md` section 2.11). -/
def lines : List IrqLine := [⟨false, 0x3500⟩, ⟨true, 0x3510⟩, ⟨true, 0x3520⟩]

/-- `NOP` at `pc` with an answer of the environment at this boundary. -/
def interrupted (nmi : Bool) (irq : List Bool) (i : Bool) : State :=
  { boot [0x00, 0x00] with
    sp := 0x9000, sr := ⟨false, true, true, false, i⟩, oracle := ⟨[⟨nmi, irq⟩], .cycle []⟩,
    cfg := { defaultCfg with irqLines := lines } }

theorem test_interrupt_irq : after (fun t => (t.pc, t.sp, t.datum .dword 0x8FF8, t.datum .dword 0x8FFC, t.sr.i))
    (interrupted false [true, true, true] true) = some (0x3510, 0x8FF8, 0x1000, 0x60000001, false) := by decide
theorem test_interrupt_masked : after (fun t => t.pc) (interrupted false [false, true] false) = some 0x1002 := by decide
theorem test_interrupt_not_selected : after (fun t => t.pc) (interrupted false [true] true) = some 0x1002 := by decide
theorem test_interrupt_nmi : after (fun t => (t.pc, t.datum .dword 0x8FFC)) (interrupted true [false, true] false) =
    some (0x3400, 0x60000000) := by decide
theorem test_interrupt_wakes : after (fun t => (t.pc, t.waiting, t.datum .dword 0x8FF8))
    { interrupted false [false, false, true] true with waiting := true, pc := 0x1002 } =
    some (0x3520, false, 0x1002) := by decide

/-- NMI pending for ever (rule R261: the oracle may answer as it likes): it is taken again at the next boundary. -/
theorem test_interrupt_held :
    (let s := { interrupted false [] true with oracle := ⟨[], .cycle [⟨true, []⟩]⟩ };
      after (fun t => (t.pc, t.sp, t.pendingTrap)) s = some (0x3400, 0x8FF8, some .nmi)) := by decide

/-! ## Witnesses: what the hypotheses of the obligations ask can be met -/

/-- Does an outcome carry a next state? -/
def goesOn : Out → Bool
  | .next _ => true
  | _ => false

theorem goesOn_next (o : Out) (h : goesOn o = true) : ∃ t, o = .next t := by
  cases o with
  | next t => exact ⟨t, rfl⟩
  | fault _ => simp [goesOn] at h
  | refused _ => simp [goesOn] at h

/-- The reset state with a stack pointer. -/
def stacked (a : DWord) : State := stack a State.reset

/-- The reset state with one register. -/
def holding (r : Reg) (v : DWord) : State := set r v State.reset

/-- A machine in which only `n` bytes from address 0 are mapped. -/
def mappedOnly (n : Nat) (s : State) : State := { s with cfg := { s.cfg with mapped := [⟨0, n⟩] } }

theorem test_witness_DecodeOfEncode : (Instr.popRange 0 15).wellFormed = true ∧ (Instr.clr 7 7).wellFormed = true ∧
    (Instr.lsl 0 0 (.imm8 31)).wellFormed = true ∧ (Instr.movb 0 0 (.imm8 3)).wellFormed = true ∧
    (Instr.movw 0 0 (.imm8 1)).wellFormed = true ∧ (Instr.brk 0xFFFF).wellFormed = true ∧
    (Encoding.table otherRows).wf = true ∧ (Encoding.table otherRows).write .big (.swi 31) = some [0xC2, 0x1F] ∧
    Encoding.section3.wf = true ∧ Encoding.section3.write .big (.swi 31) = some [0x93, 0x1F] := by decide

theorem test_witness_EncodeOfDecode : decode .little [0x93, 0x1F, 0x07] = .ok (.swi 31, [0x07]) ∧
    decode .big [0x41, 0xFF] = .ok (.afh, []) ∧ (Encoding.table otherRows).wf = true ∧
    (Encoding.table otherRows).read .big [0xC2, 0x1F, 0x07] = .ok (.swi 31, [0x07]) ∧
    (Encoding.table otherRows).read .big [0x41, 0, 0, 0, 0x07] = .ok (.afh, [0x07]) :=
  ⟨rfl, rfl, by decide, rfl, rfl⟩

/-- `$41` before other bytes than those of AFH's entry, as many as the entry has and more, and section 3's two. -/
theorem test_witness_NoOperations : (Encoding.table otherRows).wf = true ∧
    (Encoding.table otherRows).len .afh = [(0x41 : Byte), 0, 0, 0].length ∧
    (Encoding.table otherRows).len .afh < [(0x41 : Byte), 0xC2, 0x1F, 0, 0].length ∧
    Encoding.section3.len .afh = [(0x41 : Byte), 0].length := by decide

/-- One quadruple of bytes for each clause, at the ends of the clause's ranges where it has one. -/
theorem test_witness_IllegalEncodings :
    let byte (b : Byte) : Nat := b.toNat
    (¬ (byte 0x0E ≤ 0x0D) ∧ ¬ (0x10 ≤ byte 0x0E)) ∧ (byte 0x0D ≤ 0x0D ∧ (1 : Byte) ≠ 0) ∧
    (21 ≤ byte 0x15 ∧ byte 0x15 ≤ 31) ∧ (21 ≤ byte 0x1F ∧ byte 0x1F ≤ 31) ∧ 32 ≤ byte 0x20 ∧
    (byte 0x14 ≤ 20 ∧ 21 ≤ byte 0x15 ∧ byte 0x1F ≤ 31) ∧ byte 0x10 % 16 < byte 0x10 / 16 ∧ 3 < byte 0x04 ∧
    (byte 0x0F < 16 ∧ 16 ≤ byte 0x10) ∧ (byte 0x30 = 0x30 ∧ 2 ≤ [(0 : Byte), 0].length) ∧
    4 ≤ [(0 : Byte), 0, 0, 0].length ∧ (0x30 ≤ byte 0x36 ∧ byte 0x36 ≤ 0x36 ∧ 31 < byte 0x20) ∧ 3 < byte 0x04 ∧
    1 < byte 0x02 ∧ (byte 0x04 ∉ [0x00, 0x01, 0x02, 0x03, 0x10, 0x11, 0x12, 0x13, 0x21, 0x22, 0x23, 0x31, 0x32, 0x33]) ∧
    (byte 0x03 ≤ 3 ∧ byte 0x01 % 16 ≠ 0) ∧ (byte 0x10 ∉ [0x02, 0x03, 0x04]) ∧ 31 < byte 0x20 ∧
    (byte 0x33 ∈ [0x10, 0x31, 0x32, 0x33] ∧ byte 0x13 ∈ [0x11, 0x12, 0x13] ∧ byte 0x03 ∈ [0x02, 0x03]) ∧
    (0x20 ≤ byte 0x2B ∧ byte 0x2B ≤ 0x2B ∧ 0x70 ≤ byte 0x75 ∧ byte 0x75 ≤ 0x75 ∧ 0x90 ≤ byte 0x92 ∧ byte 0x92 ≤ 0x92) ∧
    (0x80 ≤ byte 0x83 ∧ byte 0x83 ≤ 0x83 ∧ byte 0x17 = 0x17 ∧ byte 0xA1 = 0xA1) := by decide

/-- The outcome of each clause at those bytes. -/
theorem test_IllegalEncodings_ends :
    [rejects [0x0E, 0, 0, 0], rejects [0x0D, 1, 0, 0], rejects [0x10, 0x15, 0, 0], rejects [0x12, 0x1F, 0, 0],
      rejects [0x12, 0x20, 0, 0], rejects [0x18, 0, 0x15, 0], rejects [0x18, 0, 0x14, 0x1F], rejects [0x11, 0x10, 0, 0],
      rejects [0x5B, 0, 4, 0], rejects [0x80, 0x0F, 4, 0], rejects [0x50, 0, 0, 0x10], rejects [0x83, 0x0F, 3, 1],
      rejects [0x30, 0, 2, 0, 0, 0], rejects [0x1A, 0, 3, 0, 0, 0, 0, 0], rejects [0x36, 0, 1, 0x20],
      rejects [0x19, 0, 1, 4], rejects [0x1A, 0, 1, 2], rejects [0x2B, 0, 4, 0], rejects [0x20, 1, 3, 0],
      rejects [0x2C, 0, 0x10, 0], rejects [0x75, 0x0F, 0, 0], rejects [0x93, 0x20, 0, 0]] =
    [some .opcode, some .unassigned, some .register, some .register, some .unassigned, some .register, some .register,
      some .range, some .kind, some .kind, some .unassigned, some .unassigned, some .kind, some .kind, some .immediate,
      some .immediate, some .immediate, some .mode, some .unassigned, some .mode, some .condition,
      some .swiNumber] := by decide

/-- A non-zero unassigned bit in each format that has one (rule R52), at the first and the last value of the bits. -/
theorem test_IllegalEncodings_unassigned :
    [[0x16, 0x01, 0, 0], [0x17, 0xFF, 0, 0, 0, 0], [0x1C, 0x0F, 0, 0], [0x18, 1, 0, 0], [0x18, 0, 0x20, 0],
      [0x18, 0, 0x14, 0xFF], [0x80, 0x10, 0, 0], [0x83, 0xFF, 1, 0], [0x20, 0x01, 0, 0], [0x2B, 0, 3, 0xFF],
      [0x20, 0x01, 0x10, 1], [0x2B, 0x01, 0x33, 0xFF], [0x2A, 0x01, 0x11, 0x10], [0x20, 0x01, 0x13, 0xFF],
      [0x2C, 0x10, 2, 0], [0x2C, 0x00, 3, 1], [0x2C, 0x01, 4, 0], [0x2C, 0x70, 4, 0xFF], [0x70, 0x10, 0, 0],
      [0x75, 0xFF, 0, 0], [0x90, 1, 0, 0], [0x92, 0xFF, 0, 0], [0xA1, 0x10, 0, 0], [0xA1, 0xFF, 0, 0]].map rejects =
    List.replicate 24 (some .unassigned) := by decide

/-- An instruction at `$1000`, the last that may be fetched in the address space, and one of another encoding. -/
theorem test_witness_StepRunsDecodedInstruction :
    let s := boot [0x15, 0x02]
    let u := placeAtPc { State.reset with pc := 0xFFFFFFFC } [0x15, 0x02]
    let v := recoded [0xC1, 0x24]
    (Executes s ∧ s.pc.toNat % 2 = 0 ∧ s.cfg.encoding.wf = true ∧ Fetchable s s.pc.toNat 2 ∧
      s.cfg.encoding.read s.cfg.byteOrder (s.bytesAt s.pc.toNat 2) = .ok (.movReg 0 2, [])) ∧
    (Executes u ∧ u.pc.toNat % 2 = 0 ∧ u.cfg.encoding.wf = true ∧ Fetchable u u.pc.toNat 2 ∧
      u.cfg.encoding.read u.cfg.byteOrder (u.bytesAt u.pc.toNat 2) = .ok (.movReg 0 2, [])) ∧
    (Executes v ∧ v.pc.toNat % 2 = 0 ∧ v.cfg.encoding.wf = true ∧ Fetchable v v.pc.toNat 2 ∧
      v.cfg.encoding.read v.cfg.byteOrder (v.bytesAt v.pc.toNat 2) = .ok (.add 0 2 (.reg 4), [])) := by
  refine ⟨⟨⟨rfl, rfl, rfl⟩, by decide, by decide, ⟨by decide, ?_⟩, rfl⟩,
    ⟨⟨rfl, rfl, rfl⟩, by decide, by decide, ⟨by decide, ?_⟩, rfl⟩,
    ⟨⟨rfl, rfl, rfl⟩, by decide, by decide, ⟨by decide, ?_⟩, rfl⟩⟩ <;> unfold CodeReadable <;> decide

/-- What `FetchStops` asks of a state of which the first `k` bytes are read. -/
abbrev reading (s : State) (k : Nat) : Prop :=
  s.halted = false ∧ s.waiting = false ∧ s.pendingTrap = none ∧ s.cfg.encoding.wf = true ∧ s.pc.toNat % 2 = 0 ∧
    ∀ j, j < k → s.cfg.isMapped (s.pc.toNat + j) = true ∧
      (s.cfg.selfModify = .coherent ∨ s.pc.toNat + j ∉ s.written)

/-- How many bytes the first `k` bytes at `pc` call for. -/
abbrev calls (s : State) (k : Nat) : Nat := s.cfg.encoding.needed (s.bytesAt s.pc.toNat k)

/-- `ADD R0, R2, #imm32`, of 8 bytes. -/
def longAdd : List Byte := [0x50, 0x02, 0x03, 0x00, 0x78, 0x56, 0x34, 0x12]

/-- Each clause, with no byte read, with one, with the specifier to come, and with all but the last immediate byte. -/
theorem test_witness_FetchStops :
    (let s := { State.reset with pc := 0xFFFFFFFF };
      s.pendingTrap = none ∧ s.pc.toNat % 2 = 1 ∧ s.cfg.encoding.wf = true) ∧
    (∀ k ∈ [0, 1], let s := placeAtPc { State.reset with pc := 0xFFFFFFFE } [0x00, 0x00];
      reading s k ∧ k < calls s k ∧ s.pc.toNat + calls s k = 2 ^ 32) ∧
    (∀ k ∈ [4, 7], let s := placeAtPc { State.reset with pc := 0xFFFFFFF8 } longAdd;
      reading s k ∧ k < calls s k ∧ s.pc.toNat + calls s k = 2 ^ 32) ∧
    (∀ k ∈ [0, 1, 2, 7], let s := mappedOnly (0x1000 + k) (boot longAdd);
      reading s k ∧ k < calls s k ∧ s.pc.toNat + calls s k < 2 ^ 32 ∧ s.cfg.isMapped (0x1000 + k) = false) ∧
    (∀ k ∈ [0, 1, 2, 7], let s := put1 (BitVec.ofNat 32 (0x1000 + k)) 0 (boot longAdd);
      reading s k ∧ k < calls s k ∧ s.pc.toNat + calls s k < 2 ^ 32 ∧ s.cfg.isMapped (0x1000 + k) = true ∧
        s.cfg.selfModify = .refuse ∧ 0x1000 + k ∈ s.written) ∧
    (let s := placeAtPc { State.reset with pc := 0xFFFFFFFC } [0x0E, 0x00];
      reading s 2 ∧ calls s 2 = 2 ∧ s.pc.toNat + 2 < 2 ^ 32 ∧
        s.cfg.encoding.read s.cfg.byteOrder (s.bytesAt s.pc.toNat 2) = .error .opcode) ∧
    (let s := placeAtPc { State.reset with pc := 0xFFFFFFFA } [0x50, 0x02, 0x04, 0x00];
      reading s 4 ∧ calls s 4 = 4 ∧ s.pc.toNat + 4 < 2 ^ 32 ∧
        s.cfg.encoding.read s.cfg.byteOrder (s.bytesAt s.pc.toNat 4) = .error .kind) :=
  ⟨by decide, by decide, by decide, by decide, by decide, by decide, by decide⟩

/-- What those states' steps are. -/
theorem test_FetchStops_ends :
    [faultOf (placeAtPc { State.reset with pc := 0xFFFFFFF8 } longAdd),
      faultOf (mappedOnly 0x1001 (boot longAdd)), faultOf (mappedOnly 0x1002 (boot longAdd)),
      faultOf (mappedOnly 0x1007 (boot longAdd)), faultOf (put1 0x1001 0 (boot longAdd)),
      faultOf (put1 0x1007 0 (boot longAdd)),
      faultOf (placeAtPc { State.reset with pc := 0xFFFFFFFC } [0x0E, 0x00]),
      faultOf (placeAtPc { State.reset with pc := 0xFFFFFFFA } [0x50, 0x02, 0x04, 0x00])] =
    [some .pcWrap, some (.unmapped 0x1001), some (.unmapped 0x1002), some (.unmapped 0x1007),
      some .fetchOfWrittenByte, some .fetchOfWrittenByte, some (.illegalEncoding .opcode),
      some (.illegalEncoding .kind)] := by decide

theorem test_witness_HaltedAndWaitingStay : (∃ s : State, s.halted = true) ∧
    ∃ s : State, s.halted = false ∧ s.waiting = true ∧ s.pendingTrap = none ∧ s.oracle = .never :=
  ⟨⟨{ State.reset with halted := true }, rfl⟩, ⟨{ State.reset with waiting := true }, rfl, rfl, rfl, rfl⟩⟩

theorem test_witness_InterruptSelection : (interrupted true [] false).pendingTrap = some .nmi ∧
    (interrupted false [true, true, true] true).pendingTrap = some (.irq 1) ∧
    (interrupted false [true, true, true] false).pendingTrap = none ∧
    (interrupted true [] false).oracle = ⟨⟨true, []⟩ :: [], .cycle []⟩ ∧ State.reset.oracle = .never ∧
    (State.launch defaultCfg ⟨[], .free 0 []⟩).oracle = ⟨[], .free 0 []⟩ ∧
    (∃ t, State.reset.halted = false ∧ step State.reset = .next t) :=
  ⟨by decide, by decide, by decide, rfl, rfl, rfl, (goesOn_next _ (by decide)).imp fun _ h => ⟨rfl, h⟩⟩

/-- NMI held for ever, and a run of two steps under it. -/
theorem test_witness_InterruptSelection_held :
    let s := { stack 0x9000 (boot [0x00, 0x00]) with oracle := ⟨[], .cycle [⟨true, []⟩]⟩ }
    s.oracle = ⟨[], .cycle (⟨true, []⟩ :: [])⟩ ∧ ∃ t, Sys2Proof.core.run 2 s = .next t :=
  ⟨rfl, goesOn_next _ (by decide)⟩

/-- NMI with the slots at addresses 4 and 0, a line with the slots at the top of the address space. -/
theorem test_witness_InterruptTaken :
    (∃ s : State, s.halted = false ∧ s.pendingTrap = some .nmi ∧ TrapRoom s ∧ memWf s.mem ∧ s.sp = 8) ∧
    (∃ s : State, s.halted = false ∧ s.pendingTrap = some (.irq 1) ∧ TrapRoom s ∧ memWf s.mem ∧ s.sp = 0) :=
  ⟨⟨stack 8 (interrupted true [] false), rfl, by decide,
      ⟨⟨by decide, by decide, by decide⟩, ⟨by decide, by decide, by decide⟩⟩, by decide, rfl⟩,
    ⟨stack 0 (interrupted false [false, true] true), rfl, by decide,
      ⟨⟨by decide, by decide, by decide⟩, ⟨by decide, by decide, by decide⟩⟩, by decide, rfl⟩⟩

theorem test_witness_ResetValues : defaultCfg.wf = true ∧
    ({ defaultCfg with encoding := .table otherRows, entry := 0xFFFFFFFC } : Cfg).wf = true := by decide

theorem test_witness_OptionOperand : (State.reset).cfg.encoding = .section3 ∧
    (∃ d r o, Instr.lsl 0 2 (.imm8 31) = .lsl d r o) := ⟨rfl, _, _, _, rfl⟩

theorem test_witness_StepKeepsInv :
    let s := stack 0x9000 (boot [0x12, 0x12])
    Inv s ∧ ∃ t, step s = .next t :=
  ⟨⟨by decide, by decide, by decide, by decide, by decide⟩, goesOn_next _ (by decide)⟩

/-- An instruction of each flag class, one of class FA under `keep`, one that takes a trap. -/
theorem test_witness_FlagClasses :
    let s := setting .keep (stacked 8)
    (flagClass .nop = .f0 ∧ ∃ t, exec .nop s = .next t) ∧
    (flagClass .sec = .fx [.c] ∧ ∃ t, exec .sec s = .next t) ∧
    (flagClass (.add 0 1 (.reg 2)) = .fa ∧ s.cfg.aluFlags = .keep ∧ ∃ t, exec (.add 0 1 (.reg 2)) s = .next t) ∧
    ∃ t, exec (.brk 5) s = .next t :=
  ⟨⟨rfl, goesOn_next _ (by decide)⟩, ⟨rfl, goesOn_next _ (by decide)⟩, ⟨rfl, rfl, goesOn_next _ (by decide)⟩,
    goesOn_next _ (by decide)⟩

theorem test_witness_OnlyNamedInstructionsWrite :
    let s := stacked 8
    (∃ t, exec (.movAny .fp .sp) s = .next t) ∧ (∃ t, exec (.lnk (.short 4)) s = .next t) ∧
    (∃ t, exec (.seed 0) s = .next t) ∧ (∃ t, exec .halt s = .next t) ∧ ∃ t, exec .wait s = .next t :=
  ⟨goesOn_next _ (by decide), goesOn_next _ (by decide), goesOn_next _ (by decide), goesOn_next _ (by decide),
    goesOn_next _ (by decide)⟩

theorem test_witness_SrImage : State.reset.cfg.srLayout = defaultSrLayout ∧ defaultSrLayout.wf = true ∧
    (⟨4, 3, 2, 1, 0⟩ : SrLayout).wf = true ∧ 31 < 32 ∧ 0 < 32 := by decide

/-- The last Double Word of the address space, and RTI whose second Double Word is the first of it. -/
theorem test_witness_Returns :
    Accessible (stacked 0xFFFFFFFC) .dword 0xFFFFFFFC ∧
    (Accessible (stacked 0xFFFFFFFC) .dword (stacked 0xFFFFFFFC).sp ∧
      Accessible (stacked 0xFFFFFFFC) .dword ((stacked 0xFFFFFFFC).sp + 4)) :=
  ⟨⟨by decide, by decide, by decide⟩, ⟨by decide, by decide, by decide⟩, ⟨by decide, by decide, by decide⟩⟩

theorem test_witness_TrapEntry : (TrapRoom (stacked 8) ∧ memWf (stacked 8).mem) ∧
    (TrapRoom (stacked 0) ∧ memWf (stacked 0).mem) :=
  ⟨⟨⟨⟨by decide, by decide, by decide⟩, ⟨by decide, by decide, by decide⟩⟩, by decide⟩,
    ⟨⟨⟨by decide, by decide, by decide⟩, ⟨by decide, by decide, by decide⟩⟩, by decide⟩⟩

theorem test_witness_SoftwareInterrupt : (Accessible (stacked 4) .dword ((stacked 4).sp - 4) ∧ memWf (stacked 4).mem) ∧
    (Accessible (stacked 0) .dword ((stacked 0).sp - 4) ∧ memWf (stacked 0).mem) :=
  ⟨⟨⟨by decide, by decide, by decide⟩, by decide⟩, ⟨⟨by decide, by decide, by decide⟩, by decide⟩⟩

/-- A handler that changes nothing. -/
theorem test_witness_TrapThenReturn :
    let s := stacked 8
    memWf s.mem ∧ s.cfg.srLayout.wf = true ∧ TrapRoom s ∧ ∃ t u : State, exec (.brk 5) s = .next t ∧ u.sp = t.sp ∧
      u.cfg = t.cfg ∧ u.datum .dword (s.sp - 4).toNat = t.datum .dword (s.sp - 4).toNat ∧
      u.datum .dword (s.sp - 8).toNat = t.datum .dword (s.sp - 8).toNat := by
  refine ⟨by decide, by decide, ⟨⟨by decide, by decide, by decide⟩, ⟨by decide, by decide, by decide⟩⟩, ?_⟩
  obtain ⟨t, h⟩ := goesOn_next (exec (.brk 5) (stacked 8)) (by decide)
  exact ⟨t, t, h, rfl, rfl, rfl, rfl⟩

theorem test_witness_AccessFaults :
    checkAccess (stacked 2).cfg .dword ((stacked 2).sp - 4) = .error .addressWrap ∧
    checkAccess (stacked 5).cfg .dword ((stacked 5).sp - 4) = .error (.misaligned 1 4) ∧
    checkAccess (mappedOnly 4 (stacked 8)).cfg .dword ((mappedOnly 4 (stacked 8)).sp - 4) = .error (.unmapped 4) ∧
    (stacked 2).sr.holds .always = true ∧ (0 : Reg) ≤ 15 ∧ (15 : Reg) ≤ 15 ∧
    checkAccess (stacked 0xFFFFFFFD).cfg .dword (stacked 0xFFFFFFFD).sp = .error .addressWrap ∧
    checkAccess State.reset.cfg .dword 0xFFFFFFFD = .error .addressWrap ∧
    (¬ SameRegister State.reset 0 (.indirect 0xFFFFFFFD)) ∧ (¬ SameRegister (holding 1 0xFFFFFFFF) 0 (.base 1)) ∧
    PointerReadable (holding 1 0xFFFFFFFF) (.base 1) ∧
    checkAccess (holding 1 0xFFFFFFFF).cfg .dword (effectiveAddress (holding 1 0xFFFFFFFF) (.base 1)) =
      .error .addressWrap ∧
    checkAccess (holding 1 0xFFFFFFFF).cfg .word (effectiveAddress (holding 1 0xFFFFFFFF) (.base 1)) =
      .error .addressWrap ∧
    checkAccess (mappedOnly 4 (holding 1 4)).cfg .byte (effectiveAddress (mappedOnly 4 (holding 1 4)) (.base 1)) =
      .error (.unmapped 4) :=
  ⟨rfl, rfl, rfl, rfl, by decide, by decide, rfl, rfl, by simp [SameRegister, writeBack],
    by simp [SameRegister, writeBack], trivial, rfl, rfl, rfl⟩

/-- A machine in which only the Double Word at `a` is mapped. -/
def mappedAt (a : Nat) (s : State) : State := { s with cfg := { s.cfg with mapped := [⟨a, 4⟩] } }

/-- The later accesses: the second slot of a trap, of RTI and of an interrupt, the second and the last of sixteen. -/
theorem test_witness_AccessFaults_later :
    (let s := mappedAt 4 (stacked 8);
      Accessible s .dword (s.sp - 4) ∧ checkAccess s.cfg .dword (s.sp - 8) = .error (.unmapped 0)) ∧
    (let s := mappedAt 4 (stacked 4);
      Accessible s .dword s.sp ∧ checkAccess s.cfg .dword (s.sp + 4) = .error (.unmapped 8)) ∧
    (∀ k ∈ [1, 15], let s := { stacked 0x9000 with
        cfg := { defaultCfg with mapped := [⟨0x9000 - 4 * k, 4 * k⟩] } };
      k ≤ (15 : Reg).val - (0 : Reg).val ∧ (∀ j, j < k → Accessible s .dword (pushSlot s j)) ∧
        checkAccess s.cfg .dword (pushSlot s k) = .error (.unmapped (0x9000 - 4 * (k + 1)))) ∧
    (∀ k ∈ [1, 15], let s := mappedOnly (0x9000 + 4 * k) (stacked 0x9000);
      (∀ j, j < k → Accessible s .dword (popSlot s j)) ∧
        checkAccess s.cfg .dword (popSlot s k) = .error (.unmapped (0x9000 + 4 * k))) ∧
    (let s := mappedAt 4 (stack 8 (interrupted true [] false));
      s.halted = false ∧ s.pendingTrap = some .nmi ∧ Accessible s .dword (s.sp - 4) ∧
        checkAccess s.cfg .dword (s.sp - 8) = .error (.unmapped 0)) ∧
    (let s := stack 2 (interrupted true [] false);
      s.halted = false ∧ s.pendingTrap = some .nmi ∧ checkAccess s.cfg .dword (s.sp - 4) = .error .addressWrap) := by
  unfold Accessible; exact ⟨by decide, by decide, by decide, by decide, by decide, by decide⟩

theorem test_witness_MoveAny : ∃ (s : State) (y : AnyReg) (v : DWord), v = (match y with
    | .r k => s.reg k | .pc => s.pc | .sr => s.srImage | .sp => s.sp | .fp => s.fp | .lr => s.lr) :=
  ⟨stacked 8, .sp, 8, rfl⟩

theorem test_witness_ClearRange : (14 : Reg) < 15 ∧ ((0 : Reg) ≤ 0 ∧ (0 : Reg) ≤ 15) ∧
    ¬ ((1 : Reg) ≤ 0 ∧ (0 : Reg) ≤ 15) := by decide

theorem test_witness_ByteAndWordSelect :
    let s := State.reset
    (s.opt (.imm8 3)).toNat ≤ 3 ∧ (s.opt (.imm8 1)).toNat ≤ 1 ∧
    (3 < (s.opt (.imm8 4)).toNat ∧ s.cfg.unstated = .stop) ∧
    (1 < (s.opt (.imm8 2)).toNat ∧ s.cfg.unstated = .stop) ∧
    (3 < ((going s).opt (.imm8 4)).toNat ∧ (going s).cfg.unstated = .free) ∧
    (1 < ((going s).opt (.imm8 2)).toNat ∧ (going s).cfg.unstated = .free) := by
  decide

theorem test_witness_PushOne : (Accessible (stacked 4) .dword ((stacked 4).sp - 4) ∧ memWf (stacked 4).mem) ∧
    Accessible (stacked 0) .dword ((stacked 0).sp - 4) :=
  ⟨⟨⟨by decide, by decide, by decide⟩, by decide⟩, ⟨by decide, by decide, by decide⟩⟩

theorem test_witness_PopOne : Accessible (stacked 0xFFFFFFFC) .dword (stacked 0xFFFFFFFC).sp ∧
    Accessible (stacked 0) .dword (stacked 0).sp :=
  ⟨⟨by decide, by decide, by decide⟩, ⟨by decide, by decide, by decide⟩⟩

/-- All sixteen registers, ending at address 0; and one register, at the top of the address space. -/
theorem test_witness_PushRange :
    (∀ k, k ≤ (15 : Reg).val - (0 : Reg).val → Accessible (stacked 64) .dword (pushSlot (stacked 64) k)) ∧
    (∀ k, k ≤ (15 : Reg).val - (15 : Reg).val → Accessible (stacked 0) .dword (pushSlot (stacked 0) k)) ∧
    memWf (stacked 64).mem ∧ memWf (stacked 0).mem := by
  unfold Accessible; decide

theorem test_witness_PopRange :
    (∀ k, k ≤ (15 : Reg).val - (0 : Reg).val →
      Accessible (stacked 0xFFFFFFC0) .dword (popSlot (stacked 0xFFFFFFC0) k)) ∧
    ∀ k, k ≤ (3 : Reg).val - (3 : Reg).val → Accessible (stacked 0) .dword (popSlot (stacked 0) k) := by
  unfold Accessible; decide

theorem test_witness_MemoryRead :
    2 ^ 32 < (0xFFFFFFFF : DWord).toNat + Width.word.bytes ∧
    ((0xFFFFFFFA : DWord).toNat + Width.dword.bytes ≤ 2 ^ 32 ∧ State.reset.cfg.dataAlign = .fault ∧
      (0xFFFFFFFA : DWord).toNat % Width.dword.bytes ≠ 0) ∧
    (3 < Width.dword.bytes ∧ (0 : DWord).toNat % Width.dword.bytes = 0 ∧
      (∀ j, j < 3 → (mappedOnly 3 State.reset).cfg.isMapped (0 + j) = true) ∧
      (mappedOnly 3 State.reset).cfg.isMapped (0 + 3) = false) ∧
    Accessible State.reset .dword 0xFFFFFFFC ∧ Accessible State.reset .byte 0xFFFFFFFF := by
  unfold Accessible; decide

theorem test_witness_MemoryWrite : checkAccess State.reset.cfg .word 0xFFFFFFFF = .error .addressWrap ∧
    memRead State.reset .word 0xFFFFFFFF = .error .addressWrap ∧ memWf State.reset.mem ∧
    Accessible State.reset .dword 0xFFFFFFFC :=
  ⟨rfl, rfl, by decide, ⟨by decide, by decide, by decide⟩⟩

theorem test_witness_MixedWidths : ∃ t, memWf State.reset.mem ∧
    memWrite State.reset .dword 0xFFFFFFFC 0x11223344 = .ok t ∧ 3 < 4 ∧ 1 < 2 :=
  ⟨_, by decide, rfl, by decide, by decide⟩

/-- A post-indexed mode at the last Double Word, and the mode that reads a pointer. -/
theorem test_witness_Loads :
    let s := holding 1 0xFFFFFFFC
    let m : Mode := .indexed .post 1 (.byte 4)
    (PointerReadable s m ∧ ¬ SameRegister s 0 m ∧ Accessible s .dword (effectiveAddress s m) ∧
      Accessible s .word (effectiveAddress s m) ∧ Accessible s .byte (effectiveAddress s m)) ∧
    (PointerReadable s (.indirect 0xFFFFFFFC) ∧ ¬ SameRegister s 0 (.indirect 0xFFFFFFFC) ∧
      Accessible s .dword (effectiveAddress s (.indirect 0xFFFFFFFC))) :=
  ⟨⟨trivial, by simp [SameRegister, writeBack], ⟨by decide, by decide, by decide⟩, ⟨by decide, by decide, by decide⟩,
      ⟨by decide, by decide, by decide⟩⟩,
    ⟨⟨by decide, by decide, by decide⟩, by simp [SameRegister, writeBack], ⟨by decide, by decide, by decide⟩⟩⟩

/-- The same for stores, SWP and ADR, where memory is in its canonical form too. -/
theorem test_witness_Stores :
    let s := holding 1 0xFFFFFFFC
    let m : Mode := .indexed .pre 1 (.word (-4))
    PointerReadable s m ∧ ¬ SameRegister s 0 m ∧ memWf s.mem ∧ Accessible s .dword (effectiveAddress s m) ∧
      Accessible s .word (effectiveAddress s m) ∧ Accessible s .byte (effectiveAddress s m) :=
  ⟨trivial, by simp [SameRegister, writeBack], by decide, ⟨by decide, by decide, by decide⟩,
    ⟨by decide, by decide, by decide⟩, ⟨by decide, by decide, by decide⟩⟩

theorem test_witness_SwapAndAddress :
    let s := State.reset
    PointerReadable s (.absolute 0xFFFFFFFC) ∧ ¬ SameRegister s 0 (.absolute 0xFFFFFFFC) ∧ memWf s.mem ∧
      Accessible s .dword (effectiveAddress s (.absolute 0xFFFFFFFC)) :=
  ⟨trivial, by simp [SameRegister, writeBack], by decide, ⟨by decide, by decide, by decide⟩⟩

theorem test_witness_WriteBackSameRegister :
    let s := holding 1 0xFFFFFFFC
    let m : Mode := .indexed .post 1 (.byte 4)
    SameRegister s 1 m ∧ SameRegister (going s) 1 m ∧ s.cfg.unstated = .stop ∧ (going s).cfg.unstated = .free ∧
      Accessible (going s) .dword (effectiveAddress (going s) m) ∧
      Accessible (going s) .word (effectiveAddress (going s) m) ∧
      Accessible (going s) .byte (effectiveAddress (going s) m) :=
  ⟨rfl, rfl, rfl, rfl, ⟨by decide, by decide, by decide⟩, ⟨by decide, by decide, by decide⟩,
    ⟨by decide, by decide, by decide⟩⟩

theorem test_witness_ShiftsAndRotates :
    (State.reset.opt (.imm8 32)).toNat ≤ 32 ∧ (State.reset.opt (.imm8 0)).toNat ≤ 32 ∧
    ((holding 4 32).opt (.reg 4)).toNat ≤ 32 ∧ (Instr.lsl 0 2 (.imm8 31)).wellFormed = true := by decide

theorem test_witness_RotatesThroughCarry : ((holding 4 32).opt (.reg 4)).toNat ≤ 32 ∧
    (setting .keep (holding 4 32)).cfg.aluFlags = .keep ∧ (setting .set (holding 4 32)).cfg.aluFlags = .set := by decide

theorem test_witness_Division :
    let s := holding 2 0x80000000
    s.opt (.imm8 1) ≠ 0 ∧ ¬ ((s.reg 2).toInt = -2 ^ 31 ∧ (s.opt (.imm8 1)).toInt = -1) ∧
    (s.opt (.imm16 (-1)) ≠ 0 ∧ ¬ ((s.reg 0).toInt = -2 ^ 31 ∧ (s.opt (.imm16 (-1))).toInt = -1)) := by decide

theorem test_witness_UnstatedResults :
    let s := holding 2 0x80000000
    s.cfg.unstated = .stop ∧ 32 < (s.opt (.imm8 33)).toNat ∧ s.opt (.imm8 0) = 0 ∧ (s.reg 2).toInt = -2 ^ 31 ∧
      (s.opt (.imm16 (-1))).toInt = -1 ∧ (going s).cfg.unstated = .free := by decide

theorem test_witness_MultiplyAndAbsolute :
    let s := holding 2 0xFFFFFFFF
    (s.reg 2).toNat * (s.opt (.imm8 1)).toNat < 2 ^ 32 ∧ s.cfg.mulOverflow = .wrap ∧
    ((holding 2 0x80000000).reg 2).toInt * ((holding 2 0x80000000).opt (.imm8 1)).toInt = -2 ^ 31 ∧
    ((holding 2 0x7FFFFFFF).reg 2).toInt * ((holding 2 0x7FFFFFFF).opt (.imm8 1)).toInt = 2 ^ 31 - 1 := by decide

theorem test_witness_Conversions : ((holding 2 0xFFFFFF80).reg 2).toInt = -128 ∧ ((holding 2 127).reg 2).toInt = 127 ∧
    ((holding 2 0xFFFF8000).reg 2).toInt = -32768 ∧ ((holding 2 32767).reg 2).toInt = 32767 := by decide

theorem test_witness_PackedDecimal :
    (∀ i, i < 8 → ((holding 2 0x99999999).reg 2).toNat / 16 ^ i % 16 ≤ 9) ∧
    ((holding 2 99999999).reg 2).toNat ≤ 99999999 ∧
    (7 < 8 ∧ 9 < ((holding 2 0xA0000000).reg 2).toNat / 16 ^ 7 % 16 ∧
      (holding 2 0xA0000000).cfg.unstated = .stop) ∧
    99999999 < ((holding 2 100000000).reg 2).toNat ∧ (going (holding 2 0)).cfg.unstated = .free := by decide

theorem test_witness_BranchesAndJumps : Accessible State.reset .dword 0xFFFFFFFC ∧
    checkAccess State.reset.cfg .dword 0xFFFFFFFD = .error .addressWrap ∧ State.reset.sr.holds .eq = false ∧
    State.reset.sr.holds .ne = true :=
  ⟨⟨by decide, by decide, by decide⟩, rfl, rfl, rfl⟩

theorem test_witness_Calls : ((stacked 4).sr.holds .ne = true ∧ Accessible (stacked 4) .dword ((stacked 4).sp - 4) ∧
    memWf (stacked 4).mem) ∧ Accessible (stacked 0) .dword ((stacked 0).sp - 4) ∧ (stacked 4).sr.holds .eq = false :=
  ⟨⟨rfl, ⟨by decide, by decide, by decide⟩, by decide⟩, ⟨by decide, by decide, by decide⟩, rfl⟩

theorem test_witness_Links : State.reset.sr.holds .always = true ∧ State.reset.sr.holds .eq = false := by decide

/-- Subroutines that change nothing, after JSR, SWI and LNK. -/
theorem test_witness_CallsReturn :
    let s := stacked 4
    memWf s.mem ∧ s.sr.holds .always = true ∧
    (∃ t u : State, exec (.jsr (.short 8)) s = .next t ∧ u.cfg = t.cfg ∧ u.sp = t.sp ∧
      u.datum .dword (s.sp - 4).toNat = t.datum .dword (s.sp - 4).toNat) ∧
    (∃ t u : State, exec (.swi 31) s = .next t ∧ u.cfg = t.cfg ∧ u.sp = t.sp ∧
      u.datum .dword (s.sp - 4).toNat = t.datum .dword (s.sp - 4).toNat) ∧
    ∃ t u : State, exec (.lnk (.short 8)) s = .next t ∧ u.cfg = t.cfg ∧ u.lr = t.lr := by
  refine ⟨by decide, by decide, ?_, ?_, ?_⟩
  · obtain ⟨t, h⟩ := goesOn_next (exec (.jsr (.short 8)) (stacked 4)) (by decide)
    exact ⟨t, t, h, rfl, rfl, rfl⟩
  · obtain ⟨t, h⟩ := goesOn_next (exec (.swi 31) (stacked 4)) (by decide)
    exact ⟨t, t, h, rfl, rfl, rfl⟩
  · obtain ⟨t, h⟩ := goesOn_next (exec (.lnk (.short 8)) (stacked 4)) (by decide)
    exact ⟨t, t, h, rfl, rfl⟩

theorem test_witness_ConditionsAfterCompare : (∃ t, exec (.cmp 0 (.imm8 1)) State.reset = .next t) ∧
    (∃ t, exec (.cmn 0 (.imm8 1)) State.reset = .next t) ∧ ∃ t, exec (.teq 0 (.imm8 1)) State.reset = .next t :=
  ⟨goesOn_next _ (by decide), goesOn_next _ (by decide), goesOn_next _ (by decide)⟩

/-- The well-formedness that `Encodes` asks, for one instruction of each statement that uses it. -/
theorem test_witness_Encodes : [Instr.brk 0xFFFF, .dbg 0, .svc 1, .swi 31, .movReg 15 0, .movImm16 0 0xFFFF,
    .movImm32 15 0xFFFFFFFF, .clr 0 15, .movtReg 0 0, .movtImm 15 0, .swpReg 3 3, .lsl 0 2 (.imm8 31), .lsr 0 2 (.reg 15),
    .rol 0 2 (.imm8 0), .ror 0 2 (.imm8 31), .asr 0 2 (.reg 0), .and 0 2 (.imm8 255), .orr 0 2 (.imm16 0x8000),
    .eor 0 2 (.imm32 0), .not 15 15, .clz 0 2, .ctz 0 2, .rbit 0 2, .revb 0 2, .revv 0 2, .cfb 0 2, .cfbs 0 2, .cfw 0 2,
    .cfws 0 2, .ctb 0 2, .ctbs 0 2, .ctw 0 2, .ctws 0 2, .cmp 0 (.imm32 1), .cmn 0 (.imm16 1), .tst 15 (.imm8 1),
    .teq 0 (.reg 15)].all (fun i => i.wellFormed) = true := by decide

end Sys2Proof.Tests
end

section
/-! The start of a run (`00_scope.md`): the values `State.launch` gives and the invariant it meets. -/

namespace Sys2Proof.Machine

/-! ## Parameters -/

theorem evenAddr_iff (a : DWord) : evenAddr a = true ↔ a.toNat % 2 = 0 := by
  have hbit : a.getLsbD 0 = decide (a.toNat % 2 = 1) := Nat.testBit_zero a.toNat
  rw [evenAddr, hbit, beq_iff_eq, decide_eq_false_iff_not]
  omega

/-- Admissible parameters have an even entry (rule R281). -/
theorem wf_entry_even {c : Cfg} (h : c.wf = true) : c.entry.toNat % 2 = 0 := by
  simp only [Cfg.wf, Bool.and_eq_true] at h
  obtain ⟨⟨⟨⟨⟨⟨⟨-, hentry⟩, -⟩, -⟩, -⟩, -⟩, -⟩, -⟩ := h
  exact (evenAddr_iff c.entry).1 hentry

theorem defaultCfg_wf : defaultCfg.wf = true := by decide

/-! ## The image of SR -/

@[simp] theorem fieldBit_false (k : Fin 32) : fieldBit false k = 0 := rfl

/-- With all five fields clear, every layout gives the image 0. -/
theorem image_clear (l : SrLayout) :
    Sr.image { n := false, z := false, c := false, v := false, i := false } l = 0 := by
  simp only [Sr.image, fieldBit_false, BitVec.or_self]

@[simp] theorem launch_srImage (c : Cfg) (o : IntOracle) : (State.launch c o).srImage = 0 := by
  rw [State.srImage, launch_sr, image_clear]

/-! ## The invariant -/

theorem memWf_nil : memWf [] := ⟨List.Pairwise.nil, by simp⟩

theorem addrsWf_nil : addrsWf [] := ⟨List.Pairwise.nil, by simp⟩

/-- A state that lists no byte, has written none and is not halted has the invariant, whatever `Mapped` is. -/
theorem Inv.of_untouched {s : State} (hmem : s.mem = []) (hwritten : s.written = []) (hhalted : s.halted = false) :
    Inv s where
  memory := hmem ▸ memWf_nil
  memoryMapped := by simp [hmem]
  written := hwritten ▸ addrsWf_nil
  writtenMapped := by simp [hwritten]
  haltedOrWaiting := by simp [hhalted]

theorem launch_inv (c : Cfg) (o : IntOracle) : Inv (State.launch c o) :=
  Inv.of_untouched (launch_mem c o) (launch_written c o) (launch_halted c o)

/-! ## The statements -/

/-- Settles O12: the launch touches no memory and runs; reset is the launch under the default parameters, whose record
is admissible by evaluation. -/
theorem resetInv : Obligations.ResetInv := by
  unfold Obligations.ResetInv
  refine ⟨launch_inv, ?_, ?_⟩
  · rw [reset_eq]
    exact launch_inv defaultCfg .never
  · rw [reset_eq, launch_cfg]
    exact defaultCfg_wf

/-- Settles O13, field by field from the laws of `State.launch`; that `pc` is even is the entry's evenness under
admissible parameters. -/
theorem resetValues : Obligations.ResetValues := by
  unfold Obligations.ResetValues
  refine ⟨fun c oracle => ?_, reset_eq⟩
  have heven (h : c.wf = true) : (State.launch c oracle).pc.toNat % 2 = 0 := by
    rw [launch_pc]
    exact wf_entry_even h
  exact ⟨launch_cfg c oracle, launch_oracle c oracle, launch_pc c oracle, heven, launch_halted c oracle,
    launch_waiting c oracle, launch_mem c oracle, launch_written c oracle, launch_reg c oracle, launch_sp c oracle,
    launch_fp c oracle, launch_lr c oracle, launch_srImage c oracle, launch_seed c oracle⟩

end Sys2Proof.Machine
end

section
/-! The image of SR (`10_state.md` rule R18): the bits of one field and of the whole image, and reading it back. -/

namespace Sys2Proof.Machine

/-- A field shows at its own bit and nowhere else. -/
theorem getLsbD_fieldBit (b : Bool) (k : Fin 32) (j : Nat) : (fieldBit b k).getLsbD j = (b && decide (j = k.val)) := by
  have hk := k.isLt
  cases b with
  | false => simp
  | true =>
    rw [fieldBit, if_pos rfl, ← BitVec.twoPow_eq, BitVec.getLsbD_twoPow, Bool.true_and]
    rcases eq_or_ne j k.val with rfl | hne
    · simp
    · simp [hne, hne.symm]

/-- A bit of the image is the field that the layout puts there, 0 where it puts none. -/
theorem getLsbD_image (r : Sr) (l : SrLayout) (j : Nat) :
    (r.image l).getLsbD j = (r.n && decide (j = l.n.val) || r.z && decide (j = l.z.val) ||
      r.c && decide (j = l.c.val) || r.v && decide (j = l.v.val) || r.i && decide (j = l.i.val)) := by
  simp only [Sr.image, BitVec.getLsbD_or, getLsbD_fieldBit]

/-- Under a layout of five different bits each field is read back from its bit. -/
theorem ofImage_image {l : SrLayout} (h : l.wf = true) (r : Sr) : Sr.ofImage l (r.image l) = r := by
  have hne : [l.n, l.z, l.c, l.v, l.i].Nodup := of_decide_eq_true h
  simp only [List.nodup_cons, List.mem_cons, List.not_mem_nil, or_false, not_or, ← ne_eq, Fin.ne_iff_vne] at hne
  obtain ⟨⟨hnz, hnc, hnv, hni⟩, ⟨hzc, hzv, hzi⟩, ⟨hcv, hci⟩, hvi, -⟩ := hne
  simp only [Sr.ofImage, getLsbD_image]
  cases r
  simp [*, Ne.symm]

/-- Settles O16: the bits of the image, with the default layout's numbers in place; a write by its definition; the round
trip by `ofImage_image`. -/
theorem srImage : Obligations.SrImage := by
  unfold Obligations.SrImage
  refine ⟨fun r k hk => ?_, fun s v hl => ?_, fun l r h => ofImage_image h r⟩
  · rw [getLsbD_image]
    simp only [defaultSrLayout]
    split_ifs <;> simp_all
  · rw [writeSr_sr, hl]
    exact ⟨rfl, rfl, rfl, rfl, rfl⟩

end Sys2Proof.Machine
end

section
/-! What stops a step that fetches (`70_reset_and_hazards.md` rule R294 part (c)). -/

namespace Sys2Proof.Machine

/-- A step that fetches stops as its fetch does. -/
theorem step_fetch_error {s : State} {f : Fault} (he : Executes s) (hf : fetch s.afterAnswer = .error f) :
    step s = .fault f := by
  obtain ⟨hhalted, hwaiting, htrap⟩ := he
  simp [step, hhalted, hwaiting, htrap, hf]

theorem fetchByte_unmapped {s : State} {a : Nat} (h : s.cfg.isMapped a = false) :
    fetchByte s a = .error (.unmapped a) := by
  simp [fetchByte, h]

theorem fetchByte_written {s : State} {a : Nat} (hm : s.cfg.isMapped a = true) (hs : s.cfg.selfModify = .refuse)
    (hw : a ∈ s.written) : fetchByte s a = .error .fetchOfWrittenByte := by
  simp [fetchByte, hm, hs, hw]

/-- Settles O7: each clause is one law of the fetch, on the state whose interrupt answer has been read, which has the
`pc`, the memory and the parameters of the state before. -/
theorem fetchStops : Obligations.FetchStops := by
  unfold Obligations.FetchStops
  intro s he hw
  refine ⟨fun hodd => step_fetch_error he (fetch_odd s.afterAnswer hodd), fun heven k hc => ?_⟩
  have hw' : s.afterAnswer.cfg.encoding.wf = true := hw
  have hc' : CodeReadable s.afterAnswer s.afterAnswer.pc.toNat k := hc
  refine ⟨fun hk htop => ?_, fun hk htop hm => ?_, fun hk htop hm hs hwr => ?_, fun e hk htop hr => ?_⟩
  · exact step_fetch_error he (fetch_pcWrap heven hw' hc' hk htop)
  · exact step_fetch_error he (fetch_byte heven hw' hc' hk htop (fetchByte_unmapped hm))
  · exact step_fetch_error he (fetch_byte heven hw' hc' hk htop (fetchByte_written hm hs hwr))
  · exact step_fetch_error he (fetch_illegal heven hw' hc' hk htop hr)

end Sys2Proof.Machine
end

section
/-! What an instruction may change beside the normal registers, `pc` and memory (`10_state.md` rules R15, R17, R21, R23):
for each shared operation the parts it changes, for each instruction the parts that `mayChange` lists, and from that one
frame (`exec_within`) the statements about the flags and about the other state. -/

namespace Sys2Proof.Machine

/-! ## Changes -/

/-- From `s` to `t` none but these parts change; the normal registers, `pc` and memory may. -/
def ChangesOnly (parts : List Part) (s t : State) : Prop := ∃ regs stored, Frame regs parts stored s t

variable {parts : List Part} {s t : State}

theorem ChangesOnly.refl : ChangesOnly parts s s := ⟨[], [], Frame.refl _ _ _ s⟩

theorem ChangesOnly.trans {u : State} (h : ChangesOnly parts s t) (k : ChangesOnly parts t u) :
    ChangesOnly parts s u := by
  obtain ⟨regs, stored, h⟩ := h
  obtain ⟨regs', stored', k⟩ := k
  refine ⟨regs ++ regs', stored ++ stored', Frame.trans (h.mono ?_ (List.Subset.refl _) ?_)
    (k.mono ?_ (List.Subset.refl _) ?_)⟩
  · exact List.subset_append_left _ _
  · exact fun a ha => ((outside_append _ _ a).1 ha).1
  · exact List.subset_append_right _ _
  · exact fun a ha => ((outside_append _ _ a).1 ha).2

theorem ChangesOnly.cfg (h : ChangesOnly parts s t) : t.cfg = s.cfg := by
  obtain ⟨_, _, h⟩ := h
  exact h.cfg

theorem ChangesOnly.setReg (h : ChangesOnly parts s t) (d : Reg) (v : DWord) : ChangesOnly parts s (t.setReg d v) :=
  h.trans ⟨[d], [], (Frame.refl _ _ _ t).setReg d v (List.mem_singleton_self d)⟩

theorem ChangesOnly.advance (h : ChangesOnly parts s t) (n : Nat) : ChangesOnly parts s (t.advance n) :=
  h.trans ⟨[], [], (Frame.refl _ _ _ t).advance n⟩

theorem ChangesOnly.setPc (h : ChangesOnly parts s t) (v : DWord) : ChangesOnly parts s { t with pc := v } :=
  h.trans ⟨[], [], (Frame.refl _ _ _ t).setPc v⟩

theorem ChangesOnly.setSp (h : ChangesOnly parts s t) (v : DWord) (hp : .sp ∈ parts) :
    ChangesOnly parts s { t with sp := v } :=
  h.trans ⟨[], [], (Frame.refl _ _ _ t).setSp v hp⟩

theorem ChangesOnly.setFp (h : ChangesOnly parts s t) (v : DWord) (hp : .fp ∈ parts) :
    ChangesOnly parts s { t with fp := v } :=
  h.trans ⟨[], [], { Frame.refl [] parts [] t with fp := fun hq => absurd hp hq }⟩

theorem ChangesOnly.setLr (h : ChangesOnly parts s t) (v : DWord) (hp : .lr ∈ parts) :
    ChangesOnly parts s { t with lr := v } :=
  h.trans ⟨[], [], { Frame.refl [] parts [] t with lr := fun hq => absurd hp hq }⟩

theorem ChangesOnly.setSeed (h : ChangesOnly parts s t) (v : DWord) (hp : .seed ∈ parts) :
    ChangesOnly parts s { t with seed := v } :=
  h.trans ⟨[], [], { Frame.refl [] parts [] t with seed := fun hq => absurd hp hq }⟩

theorem ChangesOnly.setHalted (h : ChangesOnly parts s t) (b : Bool) (hp : .halted ∈ parts) :
    ChangesOnly parts s { t with halted := b } :=
  h.trans ⟨[], [], { Frame.refl [] parts [] t with halted := fun hq => absurd hp hq }⟩

theorem ChangesOnly.setWaiting (h : ChangesOnly parts s t) (b : Bool) (hp : .waiting ∈ parts) :
    ChangesOnly parts s { t with waiting := b } :=
  h.trans ⟨[], [], { Frame.refl [] parts [] t with waiting := fun hq => absurd hp hq }⟩

theorem ChangesOnly.setC (h : ChangesOnly parts s t) (b : Bool) (hp : .c ∈ parts) :
    ChangesOnly parts s { t with sr := { t.sr with c := b } } :=
  h.trans ⟨[], [], { Frame.refl [] parts [] t with c := fun hq => absurd hp hq }⟩

theorem ChangesOnly.setV (h : ChangesOnly parts s t) (b : Bool) (hp : .v ∈ parts) :
    ChangesOnly parts s { t with sr := { t.sr with v := b } } :=
  h.trans ⟨[], [], { Frame.refl [] parts [] t with v := fun hq => absurd hp hq }⟩

theorem ChangesOnly.setI (h : ChangesOnly parts s t) (b : Bool) (hp : .i ∈ parts) :
    ChangesOnly parts s { t with sr := { t.sr with i := b } } :=
  h.trans ⟨[], [], { Frame.refl [] parts [] t with i := fun hq => absurd hp hq }⟩

theorem ChangesOnly.drawDWord (h : ChangesOnly parts s t) (hp : .draws ∈ parts) :
    ChangesOnly parts s t.drawDWord.2 :=
  h.trans ⟨[], [], (Frame.refl _ _ _ t).drawDWord hp⟩

theorem ChangesOnly.drawBit (h : ChangesOnly parts s t) (hp : .draws ∈ parts) : ChangesOnly parts s t.drawBit.2 :=
  h.trans ⟨[], [], (Frame.refl _ _ _ t).drawBit hp⟩

theorem ChangesOnly.compareFlags (h : ChangesOnly parts s t) (v : DWord) (f : CV)
    (hp : [Part.n, .z, .c, .v] ⊆ parts) : ChangesOnly parts s (t.compareFlags v f) :=
  h.trans ⟨[], [], (Frame.refl _ _ _ t).compareFlags v f hp⟩

theorem ChangesOnly.writeSr (h : ChangesOnly parts s t) (v : DWord) (hp : [Part.n, .z, .c, .v, .i] ⊆ parts) :
    ChangesOnly parts s (t.writeSr v) :=
  h.trans ⟨[], [], (Frame.refl _ _ _ t).writeSr v hp⟩

theorem ChangesOnly.store (h : ChangesOnly parts s t) (w : Width) (a v : DWord) :
    ChangesOnly parts s (t.store w a v) :=
  h.trans ⟨[], [(a.toNat, w.bytes)], (Frame.refl _ _ _ t).store w a v (List.mem_singleton_self _)⟩

theorem ChangesOnly.pushed (h : ChangesOnly parts s t) (v : DWord) (hp : .sp ∈ parts) :
    ChangesOnly parts s (t.pushed v) :=
  h.trans ⟨[], [((t.sp - 4).toNat, 4)], (Frame.refl _ _ _ t).pushed v hp (List.mem_singleton_self _)⟩

/-! ## The flags of class FA -/

/-- Admits what the flags of class FA need under a setting of `ALU_FLAGS`, RCL's and RCR's C apart (rule R23): the count
of free values, and unless the flags are kept the four flags. -/
def AdmitsAlu (a : AluFlags) (parts : List Part) : Prop :=
  .draws ∈ parts ∧ (a ≠ .keep → [Part.n, .z, .c, .v] ⊆ parts)

/-- Under `keep` the flags of class FA are as before, but for the bit that RCL and RCR rotate out. -/
theorem aluFlags_keep (h : s.cfg.aluFlags = .keep) (v : DWord) (rule : CVRule) :
    s.aluFlags v rule = { s with
      sr := match rule with
        | .carry c => { s.sr with c := c }
        | .known _ | .drawn => s.sr
      draws := s.draws + 4 } := by
  cases rule <;> simp only [State.aluFlags, h]

theorem ChangesOnly.aluFlags (h : ChangesOnly parts s t) (ha : AdmitsAlu s.cfg.aluFlags parts) (v : DWord)
    (rule : CVRule) (hc : ∀ c, rule = .carry c → .c ∈ parts) : ChangesOnly parts s (t.aluFlags v rule) := by
  refine h.trans ⟨[], [], ?_⟩
  rw [← h.cfg] at ha
  obtain ⟨hdraws, hflags⟩ := ha
  by_cases hk : t.cfg.aluFlags = .keep
  · rw [aluFlags_keep hk]
    have hd : Frame [] parts [] t { t with draws := t.draws + 4 } :=
      { Frame.refl [] parts [] t with draws := fun hq => absurd hdraws hq }
    cases rule with
    | carry c => exact { hd with c := fun hq => absurd (hc c rfl) hq }
    | known _ | drawn => exact hd
  · have h4 := hflags hk
    exact (Frame.refl _ _ _ t).aluFlags v rule (by simp_all [aluParts])

/-- The end of a data-processing instruction: the result, the flags, the advance. -/
theorem ChangesOnly.dataEnd (h : ChangesOnly parts s t) (ha : AdmitsAlu s.cfg.aluFlags parts) (rule : CVRule)
    (hc : ∀ c, rule = .carry c → .c ∈ parts) (d : Reg) (v : DWord) (n : Nat) :
    ChangesOnly parts s (((t.setReg d v).aluFlags v rule).advance n) :=
  ((h.setReg d v).aluFlags ha v rule hc).advance n

/-! ## Outcomes -/

/-- An outcome that is a state differs from `s` in these parts only. -/
def Within (parts : List Part) (s : State) (o : Out) : Prop := ∀ t, o = .next t → ChangesOnly parts s t

theorem within_next : Within parts s (.next t) ↔ ChangesOnly parts s t :=
  ⟨fun h => h t rfl, fun h _ e => Host.Outcome.next.inj e ▸ h⟩

theorem ChangesOnly.within (h : ChangesOnly parts s t) : Within parts s (.next t) := within_next.2 h

theorem within_finish (e : Except Fault State) :
    Within parts s (finish e) ↔ ∀ t, e = .ok t → ChangesOnly parts s t := by
  simp only [Within, finish_next]

/-- An operation that goes on from a result which no source states takes one draw for it, or stops. -/
theorem unstatedResult_within {f : Fault} {k : DWord × State → Except Fault State} (hd : .draws ∈ parts)
    (hk : ∀ v u, ChangesOnly parts s u → Within parts s (finish (k (v, u)))) :
    Within parts s (finish (s.unstatedResult f >>= k)) := by
  cases hu : s.cfg.unstated with
  | stop =>
    rw [unstated_stop hu, error_bind, finish_error]
    exact fun _ h => nomatch h
  | free =>
    rw [unstated_free hu, ok_bind]
    exact hk _ _ (ChangesOnly.refl.drawDWord hd)

/-! ## Data processing -/

/-- The common form of the data-processing instructions whose result is always stated, of whichever family. -/
theorem dataEnd_within (ha : AdmitsAlu s.cfg.aluFlags parts) (rule : CVRule) (hc : ∀ c, rule ≠ .carry c) {n : Nat}
    {d : Reg} {v : DWord} : Within parts s (.next (((s.setReg d v).aluFlags v rule).advance n)) :=
  (ChangesOnly.refl.dataEnd ha rule (fun c e => absurd e (hc c)) d v n).within

/-- The same with C and V arbitrary, from a state that differs from `s` in the drawn values. -/
theorem drawnEnd_within (ha : AdmitsAlu s.cfg.aluFlags parts) (d : Reg) (n : Nat) (v : DWord) (u : State)
    (hu : ChangesOnly parts s u) : Within parts s (.next (((u.setReg d v).aluFlags v .drawn).advance n)) :=
  (hu.dataEnd ha .drawn nofun d v n).within

theorem shift_within {n : Nat} {f : DWord → Nat → DWord} {d r : Reg} {o : Opt}
    (ha : AdmitsAlu s.cfg.aluFlags parts) : Within parts s (shift s n f d r o) := by
  dsimp only [shift]
  split
  · exact unstatedResult_within ha.1 (drawnEnd_within ha d n)
  · exact drawnEnd_within ha d n _ _ .refl

theorem rotateCarry_within {n : Nat} {f : BitVec 33 → Nat → BitVec 33} {d r : Reg} {o : Opt}
    (ha : AdmitsAlu s.cfg.aluFlags parts) (hc : .c ∈ parts) : Within parts s (rotateCarry s n f d r o) := by
  dsimp only [rotateCarry]
  split
  · exact unstatedResult_within ha.1 fun v u hu =>
      ((hu.drawBit ha.1).dataEnd ha (.carry _) (fun _ _ => hc) d v n).within
  · exact (ChangesOnly.refl.dataEnd ha (.carry _) (fun _ _ => hc) d _ n).within

theorem divide_within {n : Nat} {corner : DWord → DWord → Option Fault} {f : DWord → DWord → DWord} {d r : Reg}
    {o : Opt} (ha : AdmitsAlu s.cfg.aluFlags parts) : Within parts s (divide s n corner f d r o) := by
  dsimp only [divide]
  split
  · exact unstatedResult_within ha.1 (drawnEnd_within ha d n)
  · exact drawnEnd_within ha d n _ _ .refl

theorem multiply_within {n : Nat} {fits : Bool} {v : DWord} {d : Reg} (ha : AdmitsAlu s.cfg.aluFlags parts) :
    Within parts s (multiply s n fits v d) := by
  rw [multiply]
  split
  · exact drawnEnd_within ha d n _ _ .refl
  · exact drawnEnd_within ha d n _ _ (ChangesOnly.refl.drawDWord ha.1)

theorem execCfbcd_within {d r : Reg} (ha : AdmitsAlu s.cfg.aluFlags parts) : Within parts s (execCfbcd d r s) := by
  dsimp only [execCfbcd]
  split
  · exact drawnEnd_within ha d _ _ _ .refl
  · exact unstatedResult_within ha.1 (drawnEnd_within ha d _)

theorem execCtbcd_within {d r : Reg} (ha : AdmitsAlu s.cfg.aluFlags parts) : Within parts s (execCtbcd d r s) := by
  dsimp only [execCtbcd]
  split
  · exact drawnEnd_within ha d _ _ _ .refl
  · exact unstatedResult_within ha.1 (drawnEnd_within ha d _)

theorem testBits_within {v : DWord} {n : Nat} (hd : .draws ∈ parts) (hp : [Part.n, .z, .c, .v] ⊆ parts) :
    Within parts s (testBits s v n) :=
  ((((ChangesOnly.refl.drawBit hd).drawBit hd).compareFlags _ _ hp).advance _).within

/-! ## Storage -/

theorem effective_changes {clash : Bool} {m : Mode} {a : Access} (h : effective s clash m = .ok a) :
    ChangesOnly parts s a.st := by
  cases m with
  | rel16 | rel32 | absolute | base => cases h; exact .refl
  | indirect addr =>
    obtain ⟨ea, -, h⟩ := (bind_ok _ _ _).1 h
    cases h
    exact .refl
  | indexed ix b off =>
    cases ix with
    | plain | post => cases h; exact .refl
    | pre => cases h; exact ChangesOnly.refl.setReg _ _

/-- An address operand writes a base register at most (rules R120 to R130). -/
theorem address_changes {d : Reg} {m : Mode} {a : Access} (h : address s d m = .ok a) :
    ChangesOnly parts s a.st := by
  rw [address] at h
  split at h
  · cases h
  · exact effective_changes h

theorem ChangesOnly.afterPost (h : ChangesOnly parts s t) (a : Access) : ChangesOnly parts s (a.afterPost t) := by
  rw [Access.afterPost]
  split
  · exact h.setReg _ _
  · exact h

theorem ChangesOnly.intoReg (h : ChangesOnly parts s t) (hd : .draws ∈ parts) (a : Access) (d : Reg) (v : DWord) :
    ChangesOnly parts s (a.intoReg t d v) := by
  have hpost := (h.setReg d v).afterPost a
  rw [Access.intoReg]
  split
  · exact (hpost.drawDWord hd).setReg _ _
  · exact hpost

theorem ChangesOnly.fromReg {a : Access} (h : ChangesOnly parts s a.st) (hd : .draws ∈ parts) (d : Reg) :
    ChangesOnly parts s (a.fromReg d).2 := by
  rw [Access.fromReg]
  split
  · exact h.drawDWord hd
  · exact h

theorem ChangesOnly.memWrite {u : State} (h : ChangesOnly parts s t) {w : Width} {a v : DWord}
    (hw : memWrite t w a v = .ok u) : ChangesOnly parts s u := by
  obtain ⟨-, rfl⟩ := (memWrite_ok _ _ _ _ _).1 hw
  exact h.store w a v

theorem load_within {n : Nat} {w : Width} {extend : DWord → DWord} {d : Reg} {m : Mode} (hd : .draws ∈ parts) :
    Within parts s (load s n w extend d m) := by
  refine (within_finish _).2 fun t h => ?_
  obtain ⟨a, haddr, h⟩ := (bind_ok _ _ _).1 h
  obtain ⟨v, -, h⟩ := (bind_ok _ _ _).1 h
  cases h
  exact ((address_changes haddr).intoReg hd a d _).advance n

theorem storeReg_within {n : Nat} {w : Width} {narrow : DWord → DWord} {d : Reg} {m : Mode} (hd : .draws ∈ parts) :
    Within parts s (storeReg s n w narrow d m) := by
  refine (within_finish _).2 fun t h => ?_
  obtain ⟨a, haddr, h⟩ := (bind_ok _ _ _).1 h
  obtain ⟨u, hstore, h⟩ := (bind_ok _ _ _).1 h
  cases h
  exact ((((address_changes haddr).fromReg hd d).memWrite hstore).afterPost a).advance n

theorem execSwpMem_within {d : Reg} {m : Mode} (hd : .draws ∈ parts) : Within parts s (execSwpMem d m s) := by
  refine (within_finish _).2 fun t h => ?_
  obtain ⟨a, haddr, h⟩ := (bind_ok _ _ _).1 h
  obtain ⟨v, -, h⟩ := (bind_ok _ _ _).1 h
  obtain ⟨u, hstore, h⟩ := (bind_ok _ _ _).1 h
  cases h
  exact ((((address_changes haddr).fromReg hd d).memWrite hstore).intoReg hd a d v).advance _

theorem execAdr_within {d : Reg} {m : Mode} (hd : .draws ∈ parts) : Within parts s (execAdr d m s) := by
  refine (within_finish _).2 fun t h => ?_
  obtain ⟨a, haddr, h⟩ := (bind_ok _ _ _).1 h
  cases h
  exact ((address_changes haddr).intoReg hd a d _).advance _

/-! ## Transfers and the stack -/

theorem ChangesOnly.push {u : State} (h : ChangesOnly parts s t) (hp : .sp ∈ parts) {v : DWord}
    (hu : push t v = .ok u) : ChangesOnly parts s u := by
  obtain ⟨-, rfl⟩ := (push_ok _ _ _).1 hu
  exact h.pushed v hp

theorem ChangesOnly.pop {u : State} (h : ChangesOnly parts s t) (hp : .sp ∈ parts) {v : DWord}
    (hu : pop t = .ok (v, u)) : ChangesOnly parts s u := by
  obtain ⟨-, -, rfl⟩ := (pop_ok _ _ _).1 hu
  exact h.setSp _ hp

theorem pushRegs_changes (hp : .sp ∈ parts) (l : List Reg) :
    ∀ {s t : State}, pushRegs l s = .ok t → ChangesOnly parts s t := by
  induction l with
  | nil => intro s t h; cases h; exact .refl
  | cons k ks ih =>
    intro s t h
    obtain ⟨s1, hpush, h⟩ := (bind_ok _ _ _).1 h
    exact (ChangesOnly.refl.push hp hpush).trans (ih h)

theorem popRegs_changes (hp : .sp ∈ parts) (l : List Reg) :
    ∀ {s t : State}, popRegs l s = .ok t → ChangesOnly parts s t := by
  induction l with
  | nil => intro s t h; cases h; exact .refl
  | cons k ks ih =>
    intro s t h
    obtain ⟨⟨v, s1⟩, hpop, h⟩ := (bind_ok _ _ _).1 h
    exact ((ChangesOnly.refl.pop hp hpop).setReg k v).trans (ih h)

/-- The parts that a write of one of the 21 registers changes, SP apart (rule R100). -/
def AnyReg.writes : AnyReg → List Part
  | .sr => [.n, .z, .c, .v, .i]
  | .fp => [.fp]
  | .lr => [.lr]
  | .r _ | .pc | .sp => []

theorem ChangesOnly.writeAny (h : ChangesOnly parts s t) (hsp : .sp ∈ parts) {k : AnyReg} (hk : AnyReg.writes k ⊆ parts)
    (n : Nat) (v : DWord) : ChangesOnly parts s (t.writeAny n k v) := by
  cases k with
  | r d => exact (h.setReg d v).advance n
  | pc => exact h.setPc v
  | sr => exact (h.writeSr v hk).advance n
  | sp => exact (h.setSp v hsp).advance n
  | fp => exact (h.setFp v (hk (.head _))).advance n
  | lr => exact (h.setLr v (hk (.head _))).advance n

theorem execPop_within {r : AnyReg} (hsp : .sp ∈ parts) (hr : AnyReg.writes r ⊆ parts) :
    Within parts s (execPop r s) := by
  refine (within_finish _).2 fun t h => ?_
  obtain ⟨⟨v, s1⟩, hpop, h⟩ := (bind_ok _ _ _).1 h
  cases h
  exact (ChangesOnly.refl.pop hsp hpop).writeAny hsp hr _ _

theorem execPush_within {r : AnyReg} (hsp : .sp ∈ parts) : Within parts s (execPush r s) := by
  refine (within_finish _).2 fun t h => ?_
  obtain ⟨s1, hpush, h⟩ := (bind_ok _ _ _).1 h
  cases h
  exact (ChangesOnly.refl.push hsp hpush).advance _

theorem execPopRange_within {a b : Reg} (hsp : .sp ∈ parts) : Within parts s (execPopRange a b s) := by
  refine (within_finish _).2 fun t h => ?_
  obtain ⟨s1, hpop, h⟩ := (bind_ok _ _ _).1 h
  cases h
  exact (popRegs_changes hsp _ hpop).advance _

theorem execPushRange_within {a b : Reg} (hsp : .sp ∈ parts) : Within parts s (execPushRange a b s) := by
  refine (within_finish _).2 fun t h => ?_
  obtain ⟨s1, hpush, h⟩ := (bind_ok _ _ _).1 h
  cases h
  exact (pushRegs_changes hsp _ hpush).advance _

theorem execClr_within {a b : Reg} : Within parts s (execClr a b s) := by
  obtain ⟨-, -, hframe⟩ := clearRegs_spec (regRange a b) s
  exact ChangesOnly.within (.advance ⟨_, _, hframe.mono (List.Subset.refl _) (List.nil_subset _) fun _ => id⟩ _)

theorem execMovb_within {d r : Reg} {o : Opt} (hd : .draws ∈ parts) : Within parts s (execMovb d r o s) := by
  dsimp only [execMovb]
  split
  · exact unstatedResult_within hd fun v u hu => ((hu.setReg d v).advance _).within
  · exact ((ChangesOnly.refl.setReg d _).advance _).within

theorem execMovw_within {d r : Reg} {o : Opt} (hd : .draws ∈ parts) : Within parts s (execMovw d r o s) := by
  dsimp only [execMovw]
  split
  · exact unstatedResult_within hd fun v u hu => ((hu.setReg d v).advance _).within
  · exact ((ChangesOnly.refl.setReg d _).advance _).within

theorem execRand_within {d r : Reg} (hd : .draws ∈ parts) (hp : .seed ∈ parts) : Within parts s (execRand d r s) :=
  (((((ChangesOnly.refl.drawDWord hd).drawDWord hd).setReg d _).setSeed _ hp).advance _).within

/-! ## Transfers of control -/

theorem branchIf_within {c : Cond} {off : BrOff} {n : Nat} : Within parts s (branchIf c off n s) :=
  (ChangesOnly.refl.setPc _).within

theorem callIf_within {c : Cond} {off : BrOff} {n : Nat} (hsp : .sp ∈ parts) : Within parts s (callIf c off n s) := by
  rw [callIf]
  split
  · refine (within_finish _).2 fun t h => ?_
    obtain ⟨s1, hpush, h⟩ := (bind_ok _ _ _).1 h
    cases h
    exact (ChangesOnly.refl.push hsp hpush).setPc _
  · exact (ChangesOnly.refl.advance n).within

theorem linkIf_within {c : Cond} {off : BrOff} {n : Nat} (hp : .lr ∈ parts) : Within parts s (linkIf c off n s) := by
  rw [linkIf]
  split
  · exact ((ChangesOnly.refl.setLr (s.nextPc n) hp).setPc (s.target off)).within
  · exact (ChangesOnly.refl.advance n).within

theorem execJmp_within {t : JmpTarget} : Within parts s (execJmp t s) := by
  cases t with
  | absolute _ | reg _ => exact (ChangesOnly.refl.setPc _).within
  | indirect addr =>
    refine (within_finish _).2 fun t h => ?_
    obtain ⟨ea, -, h⟩ := (bind_ok _ _ _).1 h
    cases h
    exact ChangesOnly.refl.setPc _

theorem execRts_within (hsp : .sp ∈ parts) : Within parts s (execRts s) := by
  refine (within_finish _).2 fun t h => ?_
  obtain ⟨⟨v, s1⟩, hpop, h⟩ := (bind_ok _ _ _).1 h
  cases h
  exact (ChangesOnly.refl.pop hsp hpop).setPc _

theorem execRti_within (hsp : .sp ∈ parts) (hp : [Part.n, .z, .c, .v, .i] ⊆ parts) : Within parts s (execRti s) := by
  refine (within_finish _).2 fun t h => ?_
  obtain ⟨-, -, rfl⟩ := (returnFromTrap_ok _ _).1 h
  exact ((ChangesOnly.refl.setSp (s.sp + 8) hsp).setPc (s.datum .dword s.sp.toNat)).writeSr _ hp

theorem takeTrap_within {kind : TrapKind} {ret : DWord} (hsp : .sp ∈ parts) (hi : .i ∈ parts)
    (hw : .waiting ∈ parts) : Within parts s (finish (takeTrap s kind ret)) := by
  refine (within_finish _).2 fun t h => ?_
  obtain ⟨s1, hpush1, h⟩ := (bind_ok _ _ _).1 h
  obtain ⟨s2, hpush2, h⟩ := (bind_ok _ _ _).1 h
  cases h
  exact ((((ChangesOnly.refl.push hsp hpush1).push hsp hpush2).setI false hi).setWaiting false hw).setPc _

theorem takeSwi_within {n : Fin 32} {ret : DWord} (hsp : .sp ∈ parts) :
    Within parts s (finish (takeSwi s n ret)) := by
  refine (within_finish _).2 fun t h => ?_
  obtain ⟨-, rfl⟩ := (takeSwi_ok _ _ _ _).1 h
  exact (ChangesOnly.refl.pushed _ hsp).setPc _

/-! ## Every instruction -/

/-- The fields that an instruction of class FA changes under each setting of `ALU_FLAGS` (rule R23). -/
def faFields : AluFlags → Instr → List Part
  | .draw, _ | .set, _ => [.n, .z, .c, .v]
  | .keep, .rcl _ _ _ | .keep, .rcr _ _ _ => [.c]
  | .keep, _ => []

/-- The fields of SR that an instruction's class lets it change (rule R23). -/
def classFields (a : AluFlags) (i : Instr) : List Part :=
  match flagClass i with
  | .f0 => []
  | .fx fields => fields
  | .fc => [.n, .z, .c, .v]
  | .fa => faFields a i

/-- The parts that an instruction changes beside the flags of its class, SP and the count of free values: the other
special registers (rule R15), the hidden state (rule R21), and what a trap clears (rule R264). -/
def ownParts : Instr → List Part
  | .halt => [.halted]
  | .wait => [.waiting]
  | .brk _ | .dbg _ | .svc _ => [.i, .waiting]
  | .rand _ _ | .seed _ => [.seed]
  | .pop .fp | .movAny .fp _ => [.fp]
  | .pop .lr | .movAny .lr _ => [.lr]
  | .leq _ | .lne _ | .lcs _ | .lcc _ | .lmi _ | .lpl _ | .lvs _ | .lvc _ | .lhi _ | .lls _ | .lge _ | .llt _ | .lgt _
  | .lle _ | .lnk _ => [.lr]
  | _ => []

/-- The parts that an instruction may change under a setting of `ALU_FLAGS`. SP and the count of free values are left
open for every instruction. -/
def mayChange (a : AluFlags) (i : Instr) : List Part := .sp :: .draws :: (classFields a i ++ ownParts i)

section
variable (a : AluFlags) (i : Instr)

theorem sp_mem_mayChange : .sp ∈ mayChange a i := .head _

theorem draws_mem_mayChange : .draws ∈ mayChange a i := .tail _ (.head _)

theorem classFields_subset_mayChange : classFields a i ⊆ mayChange a i :=
  fun _ hp => .tail _ (.tail _ (List.mem_append_left _ hp))

theorem ownParts_subset_mayChange : ownParts i ⊆ mayChange a i :=
  fun _ hp => .tail _ (.tail _ (List.mem_append_right _ hp))

end

theorem mem_mayChange {a : AluFlags} {i : Instr} {p : Part} (hsp : p ≠ .sp) (hd : p ≠ .draws) :
    p ∈ mayChange a i ↔ p ∈ classFields a i ∨ p ∈ ownParts i := by
  simp [mayChange, hsp, hd]

theorem admitsAlu_mayChange {a : AluFlags} {i : Instr} (hi : flagClass i = .fa) : AdmitsAlu a (mayChange a i) := by
  refine ⟨draws_mem_mayChange a i, fun ha => ?_⟩
  have hfields : classFields a i = [.n, .z, .c, .v] := by
    rw [classFields, hi]
    cases a with
    | draw | set => rfl
    | keep => exact absurd rfl ha
  exact hfields ▸ classFields_subset_mayChange a i

theorem anyReg_writes_subset_pop (a : AluFlags) (x : AnyReg) : AnyReg.writes x ⊆ mayChange a (.pop x) := by
  cases x with
  | sr => exact classFields_subset_mayChange a (.pop .sr)
  | fp => exact ownParts_subset_mayChange a (.pop .fp)
  | lr => exact ownParts_subset_mayChange a (.pop .lr)
  | r _ | pc | sp => exact List.nil_subset _

theorem anyReg_writes_subset_movAny (a : AluFlags) (x y : AnyReg) : AnyReg.writes x ⊆ mayChange a (.movAny x y) := by
  cases x with
  | sr => exact classFields_subset_mayChange a (.movAny .sr y)
  | fp => exact ownParts_subset_mayChange a (.movAny .fp y)
  | lr => exact ownParts_subset_mayChange a (.movAny .lr y)
  | r _ | pc | sp => exact List.nil_subset _

/-- Every instruction changes no part but those `mayChange` lists: one case per family, by what its shared operation
changes. -/
theorem exec_within (i : Instr) (s : State) : Within (mayChange s.cfg.aluFlags i) s (exec i s) := by
  have hsp := sp_mem_mayChange s.cfg.aluFlags i
  have hd := draws_mem_mayChange s.cfg.aluFlags i
  have hclass := classFields_subset_mayChange s.cfg.aluFlags i
  have hown := ownParts_subset_mayChange s.cfg.aluFlags i
  have halu : flagClass i = .fa → AdmitsAlu s.cfg.aluFlags (mayChange s.cfg.aluFlags i) := admitsAlu_mayChange
  cases i with
  | nop | afh => exact (ChangesOnly.refl.advance _).within
  | halt => exact (ChangesOnly.refl.setHalted true (hown (.head _))).within
  | wait => exact ((ChangesOnly.refl.setWaiting true (hown (.head _))).advance _).within
  | ei | di => exact ((ChangesOnly.refl.setI _ (hclass (.head _))).advance _).within
  | sec | clc | nec => exact ((ChangesOnly.refl.setC _ (hclass (.head _))).advance _).within
  | sev | clv | nev => exact ((ChangesOnly.refl.setV _ (hclass (.head _))).advance _).within
  | rts => exact execRts_within hsp
  | rtl => exact (ChangesOnly.refl.setPc _).within
  | rti => exact execRti_within hsp hclass
  | pop r => exact execPop_within hsp (anyReg_writes_subset_pop _ r)
  | popRange a b => exact execPopRange_within hsp
  | push r => exact execPush_within hsp
  | pushRange a b => exact execPushRange_within hsp
  | clr a b => exact execClr_within
  | movReg | movImm16 | movImm32 | movtReg | movtImm => exact ((ChangesOnly.refl.setReg _ _).advance _).within
  | movAny x y => exact (ChangesOnly.refl.writeAny hsp (anyReg_writes_subset_movAny _ x y) _ _).within
  | movb => exact execMovb_within hd
  | movw => exact execMovw_within hd
  | swpReg => exact (((ChangesOnly.refl.setReg _ _).setReg _ _).advance _).within
  | ldr | ldrb | ldrw | ldrbs | ldrws => exact load_within hd
  | str | strb | strw => exact storeReg_within hd
  | strbs d m => exact show Within _ s (execStrbs d m s) from storeReg_within hd
  | strws d m => exact show Within _ s (execStrws d m s) from storeReg_within hd
  | adr => exact execAdr_within hd
  | swpMem => exact execSwpMem_within hd
  | jmp => exact execJmp_within
  | lsl | lsr | rol | ror | asr => exact shift_within (halu rfl)
  | rcl | rcr =>
    refine rotateCarry_within (halu rfl) (hclass ?_)
    show Part.c ∈ faFields s.cfg.aluFlags _
    cases s.cfg.aluFlags <;> simp [faFields]
  | and | orr | eor | not | clz | ctz | rbit | revb | revv => exact dataEnd_within (halu rfl) .drawn nofun
  | add | adc | sub | sbc | rsb | rsc | neg | inc | dec => exact dataEnd_within (halu rfl) (.known _) nofun
  | abs => exact dataEnd_within (halu rfl) .drawn nofun
  | div d r o => exact show Within _ s (execDiv d r o s) from divide_within (halu rfl)
  | divs d r o => exact show Within _ s (execDivs d r o s) from divide_within (halu rfl)
  | rem d r o => exact show Within _ s (execRem d r o s) from divide_within (halu rfl)
  | rems d r o => exact show Within _ s (execRems d r o s) from divide_within (halu rfl)
  | mul | muls => exact multiply_within (halu rfl)
  | cfb | cfbs | cfw | cfws | ctb | ctbs | ctw | ctws => exact dataEnd_within (halu rfl) .drawn nofun
  | cfbcd => exact execCfbcd_within (halu rfl)
  | ctbcd => exact execCtbcd_within (halu rfl)
  | beq | bne | bcs | bcc | bmi | bpl | bvs | bvc | bhi | bls | bge | blt | bgt | ble | bra => exact branchIf_within
  | jeq | jne | jcs | jcc | jmi | jpl | jvs | jvc | jhi | jls | jge | jlt | jgt | jle => exact callIf_within hsp
  | jsr off => exact show Within _ s (execJsr off s) from callIf_within hsp
  | leq | lne | lcs | lcc | lmi | lpl | lvs | lvc | lhi | lls | lge | llt | lgt | lle =>
    exact linkIf_within (hown (.head _))
  | lnk off => exact show Within _ s (execLnk off s) from linkIf_within (hown (.head _))
  | cmp | cmn => exact ((ChangesOnly.refl.compareFlags _ _ hclass).advance _).within
  | tst | teq => exact testBits_within hd hclass
  | brk | dbg | svc => exact takeTrap_within hsp (hown (.head _)) (hown (.tail _ (.head _)))
  | swi => exact takeSwi_within hsp
  | rand => exact execRand_within hd (hown (.head _))
  | seed => exact ((ChangesOnly.refl.setSeed _ (hown (.head _))).advance _).within

/-! ## Who changes which part -/

/-- The fields that FA writes are flags. -/
theorem faFields_subset (a : AluFlags) (i : Instr) : faFields a i ⊆ [.n, .z, .c, .v] := by
  fun_cases faFields a i <;> simp

theorem faFields_keep {i : Instr} {p : Part} (h : p ∈ faFields .keep i) :
    p = .c ∧ ∃ d r o, i = .rcl d r o ∨ i = .rcr d r o := by
  cases i with
  | rcl d r o => exact ⟨List.mem_singleton.1 h, d, r, o, .inl rfl⟩
  | rcr d r o => exact ⟨List.mem_singleton.1 h, d, r, o, .inr rfl⟩
  | _ => cases h

theorem anyReg_flagClass_fx {x : AnyReg} {fields : List Part} (h : AnyReg.flagClass x = .fx fields) :
    fields = [.n, .z, .c, .v, .i] := by
  cases x with
  | sr => exact (FlagClass.fx.inj h).symm
  | r _ | pc | sp | fp | lr => cases h

theorem flagClass_fx_subset {i : Instr} {fields : List Part} (h : flagClass i = .fx fields) :
    fields ⊆ [.n, .z, .c, .v, .i] := by
  cases i with
  | sec | clc | nec | sev | clv | nev | ei | di | rti => cases h; simp
  | pop x => exact (anyReg_flagClass_fx (x := x) h) ▸ List.Subset.refl _
  | movAny x y => exact (anyReg_flagClass_fx (x := x) h) ▸ List.Subset.refl _
  | _ => cases h

/-- A class lets an instruction change fields of SR only. -/
theorem classFields_subset (a : AluFlags) (i : Instr) : classFields a i ⊆ [.n, .z, .c, .v, .i] := by
  rw [classFields]
  cases hc : flagClass i with
  | f0 => exact List.nil_subset _
  | fx fields => exact flagClass_fx_subset hc
  | fc => simp
  | fa => exact List.Subset.trans (faFields_subset a i) (by simp)

/-- Only class FX has I among its fields. -/
theorem i_mem_classFields {a : AluFlags} {i : Instr} (h : .i ∈ classFields a i) :
    ∃ fields, flagClass i = .fx fields ∧ .i ∈ fields := by
  rw [classFields] at h
  cases hc : flagClass i with
  | fx fields => exact ⟨fields, rfl, by rwa [hc] at h⟩
  | f0 | fc => simp [hc] at h
  | fa =>
    rw [hc] at h
    exact absurd (faFields_subset a i h) (by simp)

/-- The instructions that change a part on their own account, part by part. -/
def Owner (i : Instr) : Part → Prop
  | .fp => i = .pop .fp ∨ ∃ y, i = .movAny .fp y
  | .lr => i = .pop .lr ∨ (∃ y, i = .movAny .lr y) ∨ ∃ c off, i = linkInstr c off
  | .seed => (∃ r, i = .seed r) ∨ ∃ d r, i = .rand d r
  | .halted => i = .halt
  | .waiting => i = .wait ∨ ∃ v, i = .brk v ∨ i = .dbg v ∨ i = .svc v
  | .i => ∃ v, i = .brk v ∨ i = .dbg v ∨ i = .svc v
  | .sp | .n | .z | .c | .v | .draws => False

/-- A trap changes I and ends a wait. -/
theorem owner_of_mem_trap {i : Instr} {p : Part} (hi : ∃ v, i = .brk v ∨ i = .dbg v ∨ i = .svc v)
    (h : p ∈ [Part.i, .waiting]) : Owner i p := by
  rcases List.mem_pair.1 h with rfl | rfl
  · exact hi
  · exact .inr hi

/-- A link changes LR and nothing else on its own account. -/
theorem owner_of_mem_link (c : Cond) {off : BrOff} {p : Part} (h : p ∈ [Part.lr]) : Owner (linkInstr c off) p := by
  obtain rfl := List.mem_singleton.1 h
  exact .inr (.inr ⟨c, off, rfl⟩)

theorem owner_of_mem_ownParts {i : Instr} {p : Part} (h : p ∈ ownParts i) : Owner i p := by
  cases i with
  | halt => obtain rfl := List.mem_singleton.1 h; exact rfl
  | wait => obtain rfl := List.mem_singleton.1 h; exact .inl rfl
  | brk v => exact owner_of_mem_trap ⟨v, .inl rfl⟩ h
  | dbg v => exact owner_of_mem_trap ⟨v, .inr (.inl rfl)⟩ h
  | svc v => exact owner_of_mem_trap ⟨v, .inr (.inr rfl)⟩ h
  | seed r => obtain rfl := List.mem_singleton.1 h; exact .inl ⟨r, rfl⟩
  | rand d r => obtain rfl := List.mem_singleton.1 h; exact .inr ⟨d, r, rfl⟩
  | pop x =>
    cases x with
    | fp => obtain rfl := List.mem_singleton.1 h; exact .inl rfl
    | lr => obtain rfl := List.mem_singleton.1 h; exact .inl rfl
    | r _ | pc | sr | sp => cases h
  | movAny x y =>
    cases x with
    | fp => obtain rfl := List.mem_singleton.1 h; exact .inr ⟨y, rfl⟩
    | lr => obtain rfl := List.mem_singleton.1 h; exact .inr (.inl ⟨y, rfl⟩)
    | r _ | pc | sr | sp => cases h
  | leq => exact owner_of_mem_link .eq h
  | lne => exact owner_of_mem_link .ne h
  | lcs => exact owner_of_mem_link .cs h
  | lcc => exact owner_of_mem_link .cc h
  | lmi => exact owner_of_mem_link .mi h
  | lpl => exact owner_of_mem_link .pl h
  | lvs => exact owner_of_mem_link .vs h
  | lvc => exact owner_of_mem_link .vc h
  | lhi => exact owner_of_mem_link .hi h
  | lls => exact owner_of_mem_link .ls h
  | lge => exact owner_of_mem_link .ge h
  | llt => exact owner_of_mem_link .lt h
  | lgt => exact owner_of_mem_link .gt h
  | lle => exact owner_of_mem_link .le h
  | lnk => exact owner_of_mem_link .always h
  | _ => cases h

/-- A part that an instruction has no business with is none it may change. -/
theorem not_mem_mayChange {a : AluFlags} {i : Instr} {p : Part} (hsp : p ≠ .sp) (hd : p ≠ .draws)
    (hclass : p ∉ classFields a i) (hown : ¬ Owner i p) : p ∉ mayChange a i := fun h =>
  ((mem_mayChange hsp hd).1 h).elim hclass fun h => hown (owner_of_mem_ownParts h)

/-- A flag of the four is none that an instruction changes, if its class does not let it. -/
theorem flag_not_mem_mayChange {a : AluFlags} {i : Instr} {p : Part} (hp : p ∈ [Part.n, .z, .c, .v])
    (hclass : p ∉ classFields a i) : p ∉ mayChange a i := by
  fin_cases hp <;> exact not_mem_mayChange nofun nofun hclass id

/-- A part outside SR is none that an instruction changes, unless it owns it. -/
theorem not_mem_mayChange_of_not_sr {a : AluFlags} {i : Instr} {p : Part}
    (hp : p ∈ [Part.fp, .lr, .seed, .halted, .waiting]) (hown : ¬ Owner i p) : p ∉ mayChange a i := by
  fin_cases hp <;> exact not_mem_mayChange nofun nofun (fun h => absurd (classFields_subset a i h) (by simp)) hown

/-- A field of SR that an instruction's class does not let it change is as before, I unless a trap clears it. -/
theorem exec_sr {i : Instr} (he : exec i s = .next t) :
    (.n ∈ classFields s.cfg.aluFlags i ∨ t.sr.n = s.sr.n) ∧ (.z ∈ classFields s.cfg.aluFlags i ∨ t.sr.z = s.sr.z) ∧
    (.c ∈ classFields s.cfg.aluFlags i ∨ t.sr.c = s.sr.c) ∧ (.v ∈ classFields s.cfg.aluFlags i ∨ t.sr.v = s.sr.v) ∧
    (.i ∈ classFields s.cfg.aluFlags i ∨ Owner i .i ∨ t.sr.i = s.sr.i) := by
  obtain ⟨_, _, h⟩ := exec_within i s t he
  refine ⟨?_, ?_, ?_, ?_, ?_⟩
  · exact or_iff_not_imp_left.2 fun hn => h.n (flag_not_mem_mayChange (by simp) hn)
  · exact or_iff_not_imp_left.2 fun hz => h.z (flag_not_mem_mayChange (by simp) hz)
  · exact or_iff_not_imp_left.2 fun hc => h.c (flag_not_mem_mayChange (by simp) hc)
  · exact or_iff_not_imp_left.2 fun hv => h.v (flag_not_mem_mayChange (by simp) hv)
  · exact or_iff_not_imp_left.2 fun hi => or_iff_not_imp_left.2 fun ho => h.i (not_mem_mayChange nofun nofun hi ho)

/-- Settles O14: each class, and `keep` in class FA, says which fields `exec_sr` leaves open. -/
theorem flagClasses : Obligations.FlagClasses := by
  unfold Obligations.FlagClasses
  intro i s t he
  obtain ⟨hn, hz, hc, hv, hi⟩ := exec_sr he
  refine ⟨fun hclass => ?_, fun fields hclass => ?_, fun hclass hkeep => ?_, ?_⟩
  · have hnone (p : Part) : p ∉ classFields s.cfg.aluFlags i := by simp [classFields, hclass]
    exact ⟨hn.resolve_left (hnone _), hz.resolve_left (hnone _), hc.resolve_left (hnone _), hv.resolve_left (hnone _)⟩
  · have hfields : classFields s.cfg.aluFlags i = fields := by rw [classFields, hclass]
    have htrap : ¬ Owner i .i := by rintro ⟨v, rfl | rfl | rfl⟩ <;> cases hclass
    rw [hfields] at hn hz hc hv hi
    exact ⟨hn, hz, hc, hv, hi.imp_right fun h => h.resolve_left htrap⟩
  · have hfields : classFields s.cfg.aluFlags i = faFields .keep i := by rw [classFields, hclass, hkeep]
    have hne {p : Part} (hp : p ≠ .c) : p ∉ classFields s.cfg.aluFlags i := fun h =>
      hp (faFields_keep (hfields ▸ h)).1
    exact ⟨hn.resolve_left (hne nofun), hz.resolve_left (hne nofun), hv.resolve_left (hne nofun),
      hc.imp_left fun h => (faFields_keep (hfields ▸ h)).2⟩
  · rcases hi with hfield | htrap | hsame
    · exact .inr (.inl (i_mem_classFields hfield))
    · exact .inr (.inr htrap)
    · exact .inl hsame

/-- Settles O15: a part that `t` does not share with `s` has the instruction among its owners. -/
theorem onlyNamedInstructionsWrite : Obligations.OnlyNamedInstructionsWrite := by
  unfold Obligations.OnlyNamedInstructionsWrite
  intro i s t he
  obtain ⟨_, _, h⟩ := exec_within i s t he
  refine ⟨?_, ?_, ?_, ?_, ?_, h.cfg, h.oracle⟩
  · exact or_iff_not_imp_right.2 fun ho => h.fp (not_mem_mayChange_of_not_sr (by simp) ho)
  · exact or_iff_not_imp_right.2 fun ho => h.lr (not_mem_mayChange_of_not_sr (by simp) ho)
  · exact or_iff_not_imp_right.2 fun ho => h.seed (not_mem_mayChange_of_not_sr (by simp) ho)
  · exact or_iff_not_imp_right.2 fun ho => h.halted (not_mem_mayChange_of_not_sr (by simp) ho)
  · exact or_iff_not_imp_right.2 fun ho => h.waiting (not_mem_mayChange_of_not_sr (by simp) ho)

end Sys2Proof.Machine
end

section
/-! Every step keeps the invariant (`20_memory.md` rules R31, R37; `40_implied.md` rules R82, R83). Its memory part is a
matter of the stores alone: a store whose checks passed keeps it, and every instruction changes memory by such stores
only. That a halted machine is not also waiting follows from who owns the two (`exec_within`). -/

namespace Sys2Proof.Machine

/-! ## The memory part -/

/-- The memory part of the invariant: the bytes and the marks are in canonical form and inside `Mapped`. -/
structure MemoryOk (c : Cfg) (m : List Host.Cell) (marks : List Nat) : Prop where
  memory : memWf m
  memoryMapped : ∀ p ∈ m, c.isMapped p.1 = true
  written : addrsWf marks
  writtenMapped : ∀ a ∈ marks, c.isMapped a = true

/-- The memory part of the invariant, of a state. It reads no other field, so an update of another one keeps it by
definition. -/
def MemoryInv (s : State) : Prop := MemoryOk s.cfg s.mem s.written

theorem inv_iff (s : State) : Inv s ↔ MemoryInv s ∧ ¬ (s.halted = true ∧ s.waiting = true) := by
  constructor
  · rintro ⟨hmem, hmapped, hwritten, hmarks, hflags⟩
    exact ⟨⟨hmem, hmapped, hwritten, hmarks⟩, hflags⟩
  · rintro ⟨⟨hmem, hmapped, hwritten, hmarks⟩, hflags⟩
    exact ⟨hmem, hmapped, hwritten, hmarks, hflags⟩

/-- A store lists no address but those it stores to and those listed before. -/
theorem mem_writeBytes {bs : List Byte} {p : Host.Cell} :
    ∀ {m : List Host.Cell} {a : Nat}, p ∈ writeBytes m a bs → p ∈ m ∨ (a ≤ p.1 ∧ p.1 < a + bs.length) := by
  induction bs with
  | nil => exact fun h => .inl h
  | cons b bs ih =>
    intro m a h
    rw [List.length_cons]
    rcases ih h with h | h
    · rcases writeByte_keys m a b p h with h | ⟨rfl, -⟩
      · exact .inl h
      · right; simp
    · right; omega

variable {s t : State}

/-- A store whose checks passed (rule R37). -/
theorem MemoryInv.store (hm : MemoryInv s) {w : Width} {a : DWord} (h : checkAccess s.cfg w a = .ok ()) (v : DWord) :
    MemoryInv (s.store w a v) := by
  obtain ⟨htop, -, hmapped⟩ := (checkAccess_ok _ _ _).1 h
  refine ⟨memWf_store s w a v hm.memory htop, fun p hp => ?_, addrsWf_store s w a v hm.written htop, fun x hx => ?_⟩
  · rcases mem_writeBytes hp with hp | ⟨hlo, hhi⟩
    · exact hm.memoryMapped p hp
    · rw [dataBytes_length] at hhi
      exact hmapped p.1 hlo hhi
  · rcases (mem_written_store s w a v x).1 hx with ⟨hlo, hhi⟩ | hx
    · exact hmapped x hlo hhi
    · exact hm.writtenMapped x hx

theorem MemoryInv.memWrite (hm : MemoryInv s) {w : Width} {a v : DWord} (h : memWrite s w a v = .ok t) :
    MemoryInv t := by
  obtain ⟨hc, rfl⟩ := (memWrite_ok _ _ _ _ _).1 h
  exact hm.store hc v

theorem MemoryInv.push (hm : MemoryInv s) {v : DWord} (h : push s v = .ok t) : MemoryInv t :=
  MemoryInv.memWrite (s := { s with sp := s.sp - 4 }) hm h

theorem MemoryInv.pop (hm : MemoryInv s) {v : DWord} (h : pop s = .ok (v, t)) : MemoryInv t := by
  obtain ⟨-, -, rfl⟩ := (pop_ok _ _ _).1 h
  exact hm

theorem MemoryInv.pushRegs (l : List Reg) :
    ∀ {s : State}, MemoryInv s → pushRegs l s = .ok t → MemoryInv t := by
  induction l with
  | nil => intro s hm h; cases h; exact hm
  | cons k ks ih =>
    intro s hm h
    obtain ⟨s1, hpush, h⟩ := (bind_ok _ _ _).1 h
    exact ih (hm.push hpush) h

theorem MemoryInv.popRegs (l : List Reg) :
    ∀ {s : State}, MemoryInv s → popRegs l s = .ok t → MemoryInv t := by
  induction l with
  | nil => intro s hm h; cases h; exact hm
  | cons k ks ih =>
    intro s hm h
    obtain ⟨⟨v, s1⟩, hpop, h⟩ := (bind_ok _ _ _).1 h
    have hm1 : MemoryInv s1 := hm.pop hpop
    exact ih (s := s1.setReg k v) hm1 h

theorem MemoryInv.clearRegs (l : List Reg) : ∀ {s : State}, MemoryInv s → MemoryInv (clearRegs l s) := by
  induction l with
  | nil => exact fun hm => hm
  | cons k ks ih => exact fun {s} hm => ih (s := s.setReg k 0) hm

theorem MemoryInv.writeAny (hm : MemoryInv s) (n : Nat) (k : AnyReg) (v : DWord) : MemoryInv (s.writeAny n k v) := by
  cases k <;> exact hm

theorem MemoryInv.takeTrap (hm : MemoryInv s) {kind : TrapKind} {ret : DWord} (h : takeTrap s kind ret = .ok t) :
    MemoryInv t := by
  obtain ⟨s1, hpush1, h⟩ := (bind_ok _ _ _).1 h
  obtain ⟨s2, hpush2, h⟩ := (bind_ok _ _ _).1 h
  have hm2 : MemoryInv s2 := (hm.push hpush1).push hpush2
  cases h
  exact hm2

/-! ## Address operands -/

theorem MemoryInv.effective (hm : MemoryInv s) {clash : Bool} {m : Mode} {a : Access}
    (h : effective s clash m = .ok a) : MemoryInv a.st := by
  cases m with
  | rel16 | rel32 | absolute | base => cases h; exact hm
  | indirect addr =>
    obtain ⟨ea, -, h⟩ := (bind_ok _ _ _).1 h
    cases h
    exact hm
  | indexed ix b off => cases ix <;> cases h <;> exact hm

theorem MemoryInv.address (hm : MemoryInv s) {d : Reg} {m : Mode} {a : Access} (h : address s d m = .ok a) :
    MemoryInv a.st := by
  rw [Machine.address] at h
  split at h
  · cases h
  · exact hm.effective h

theorem MemoryInv.afterPost (hm : MemoryInv s) (a : Access) : MemoryInv (a.afterPost s) := by
  rw [Access.afterPost]
  split <;> exact hm

theorem MemoryInv.intoReg (hm : MemoryInv s) (a : Access) (d : Reg) (v : DWord) : MemoryInv (a.intoReg s d v) := by
  have hpost : MemoryInv (a.afterPost (s.setReg d v)) := MemoryInv.afterPost (s := s.setReg d v) hm a
  rw [Access.intoReg]
  split <;> exact hpost

theorem MemoryInv.fromReg {a : Access} (hm : MemoryInv a.st) (d : Reg) : MemoryInv (a.fromReg d).2 := by
  rw [Access.fromReg]
  split <;> exact hm

/-! ## Outcomes -/

/-- An outcome that is a state has the memory part of the invariant. -/
def MemoryKept (o : Out) : Prop := ∀ t, o = .next t → MemoryInv t

theorem MemoryInv.kept (hm : MemoryInv t) : MemoryKept (.next t) := fun _ h => Host.Outcome.next.inj h ▸ hm

theorem memoryKept_finish {e : Except Fault State} (h : ∀ t, e = .ok t → MemoryInv t) : MemoryKept (finish e) :=
  fun t ht => h t ((finish_next e t).1 ht)

/-- A result that no source states is a stop or a draw, and neither is a matter of memory. -/
theorem MemoryInv.unstated (hm : MemoryInv s) {f : Fault} {k : DWord × State → Except Fault State}
    (hk : ∀ v u, MemoryInv u → MemoryKept (finish (k (v, u)))) :
    MemoryKept (finish (s.unstatedResult f >>= k)) := by
  cases hu : s.cfg.unstated with
  | stop =>
    rw [unstated_stop hu, error_bind, finish_error]
    exact fun _ h => nomatch h
  | free =>
    rw [unstated_free hu, ok_bind]
    exact hk _ _ hm

theorem MemoryInv.dataEnd (d : Reg) (rule : CVRule) (n : Nat) (v : DWord) (u : State) (hu : MemoryInv u) :
    MemoryKept (.next (((u.setReg d v).aluFlags v rule).advance n)) :=
  MemoryInv.kept (t := ((u.setReg d v).aluFlags v rule).advance n) hu

section
variable (hm : MemoryInv s)
include hm

theorem shift_memory {n : Nat} {f : DWord → Nat → DWord} {d r : Reg} {o : Opt} : MemoryKept (shift s n f d r o) := by
  dsimp only [shift]
  split
  · exact hm.unstated (MemoryInv.dataEnd d .drawn n)
  · exact MemoryInv.dataEnd d .drawn n _ s hm

theorem rotateCarry_memory {n : Nat} {f : BitVec 33 → Nat → BitVec 33} {d r : Reg} {o : Opt} :
    MemoryKept (rotateCarry s n f d r o) := by
  dsimp only [rotateCarry]
  split
  · exact hm.unstated fun v u hu => MemoryInv.dataEnd d (.carry _) n v u.drawBit.2 hu
  · exact MemoryInv.dataEnd d (.carry _) n _ s hm

theorem divide_memory {n : Nat} {corner : DWord → DWord → Option Fault} {f : DWord → DWord → DWord} {d r : Reg}
    {o : Opt} : MemoryKept (divide s n corner f d r o) := by
  dsimp only [divide]
  split
  · exact hm.unstated (MemoryInv.dataEnd d .drawn n)
  · exact MemoryInv.dataEnd d .drawn n _ s hm

theorem multiply_memory {n : Nat} {fits : Bool} {v : DWord} {d : Reg} : MemoryKept (multiply s n fits v d) := by
  rw [multiply]
  split
  · exact MemoryInv.dataEnd d .drawn n v s hm
  · exact MemoryInv.dataEnd d .drawn n _ s.drawDWord.2 hm

theorem execCfbcd_memory {d r : Reg} : MemoryKept (execCfbcd d r s) := by
  dsimp only [execCfbcd]
  split
  · exact MemoryInv.dataEnd d .drawn _ _ s hm
  · exact hm.unstated (MemoryInv.dataEnd d .drawn _)

theorem execCtbcd_memory {d r : Reg} : MemoryKept (execCtbcd d r s) := by
  dsimp only [execCtbcd]
  split
  · exact MemoryInv.dataEnd d .drawn _ _ s hm
  · exact hm.unstated (MemoryInv.dataEnd d .drawn _)

theorem execMovb_memory {d r : Reg} {o : Opt} : MemoryKept (execMovb d r o s) := by
  dsimp only [execMovb]
  split
  · exact hm.unstated fun v u hu => MemoryInv.kept (t := (u.setReg d v).advance _) hu
  · exact MemoryInv.kept hm

theorem execMovw_memory {d r : Reg} {o : Opt} : MemoryKept (execMovw d r o s) := by
  dsimp only [execMovw]
  split
  · exact hm.unstated fun v u hu => MemoryInv.kept (t := (u.setReg d v).advance _) hu
  · exact MemoryInv.kept hm

theorem load_memory {n : Nat} {w : Width} {extend : DWord → DWord} {d : Reg} {m : Mode} :
    MemoryKept (load s n w extend d m) := by
  refine memoryKept_finish fun t h => ?_
  obtain ⟨a, haddr, h⟩ := (bind_ok _ _ _).1 h
  obtain ⟨v, -, h⟩ := (bind_ok _ _ _).1 h
  cases h
  exact (hm.address haddr).intoReg a d (extend v)

theorem storeReg_memory {n : Nat} {w : Width} {narrow : DWord → DWord} {d : Reg} {m : Mode} :
    MemoryKept (storeReg s n w narrow d m) := by
  refine memoryKept_finish fun t h => ?_
  obtain ⟨a, haddr, h⟩ := (bind_ok _ _ _).1 h
  obtain ⟨u, hstore, h⟩ := (bind_ok _ _ _).1 h
  cases h
  exact (((hm.address haddr).fromReg d).memWrite hstore).afterPost a

theorem execSwpMem_memory {d : Reg} {m : Mode} : MemoryKept (execSwpMem d m s) := by
  refine memoryKept_finish fun t h => ?_
  obtain ⟨a, haddr, h⟩ := (bind_ok _ _ _).1 h
  obtain ⟨v, -, h⟩ := (bind_ok _ _ _).1 h
  obtain ⟨u, hstore, h⟩ := (bind_ok _ _ _).1 h
  cases h
  exact (((hm.address haddr).fromReg d).memWrite hstore).intoReg a d v

theorem execAdr_memory {d : Reg} {m : Mode} : MemoryKept (execAdr d m s) := by
  refine memoryKept_finish fun t h => ?_
  obtain ⟨a, haddr, h⟩ := (bind_ok _ _ _).1 h
  cases h
  exact (hm.address haddr).intoReg a d a.ea

theorem execPop_memory {r : AnyReg} : MemoryKept (execPop r s) := by
  refine memoryKept_finish fun t h => ?_
  obtain ⟨⟨v, s1⟩, hpop, h⟩ := (bind_ok _ _ _).1 h
  cases h
  exact (hm.pop hpop).writeAny _ r v

theorem execPush_memory {r : AnyReg} : MemoryKept (execPush r s) := by
  refine memoryKept_finish fun t h => ?_
  obtain ⟨s1, hpush, h⟩ := (bind_ok _ _ _).1 h
  have hm1 : MemoryInv s1 := hm.push hpush
  cases h
  exact hm1

theorem execPopRange_memory {a b : Reg} : MemoryKept (execPopRange a b s) := by
  refine memoryKept_finish fun t h => ?_
  obtain ⟨s1, hpop, h⟩ := (bind_ok _ _ _).1 h
  have hm1 : MemoryInv s1 := hm.popRegs _ hpop
  cases h
  exact hm1

theorem execPushRange_memory {a b : Reg} : MemoryKept (execPushRange a b s) := by
  refine memoryKept_finish fun t h => ?_
  obtain ⟨s1, hpush, h⟩ := (bind_ok _ _ _).1 h
  have hm1 : MemoryInv s1 := hm.pushRegs _ hpush
  cases h
  exact hm1

theorem callIf_memory {c : Cond} {off : BrOff} {n : Nat} : MemoryKept (callIf c off n s) := by
  rw [callIf]
  split
  · refine memoryKept_finish fun t h => ?_
    obtain ⟨s1, hpush, h⟩ := (bind_ok _ _ _).1 h
    have hm1 : MemoryInv s1 := hm.push hpush
    cases h
    exact hm1
  · exact MemoryInv.kept hm

theorem linkIf_memory {c : Cond} {off : BrOff} {n : Nat} : MemoryKept (linkIf c off n s) := by
  rw [linkIf]
  split <;> exact MemoryInv.kept hm

theorem execJmp_memory {t : JmpTarget} : MemoryKept (execJmp t s) := by
  cases t with
  | absolute _ | reg _ => exact MemoryInv.kept hm
  | indirect addr =>
    refine memoryKept_finish fun t h => ?_
    obtain ⟨ea, -, h⟩ := (bind_ok _ _ _).1 h
    cases h
    exact hm

theorem execRts_memory : MemoryKept (execRts s) := by
  refine memoryKept_finish fun t h => ?_
  obtain ⟨⟨v, s1⟩, hpop, h⟩ := (bind_ok _ _ _).1 h
  have hm1 : MemoryInv s1 := hm.pop hpop
  cases h
  exact hm1

theorem execRti_memory : MemoryKept (execRti s) := by
  refine memoryKept_finish fun t h => ?_
  obtain ⟨-, -, rfl⟩ := (returnFromTrap_ok _ _).1 h
  exact hm

theorem takeTrap_memory {kind : TrapKind} {ret : DWord} : MemoryKept (finish (takeTrap s kind ret)) :=
  memoryKept_finish fun _ h => hm.takeTrap h

theorem takeSwi_memory {n : Fin 32} {ret : DWord} : MemoryKept (finish (takeSwi s n ret)) := by
  refine memoryKept_finish fun t h => ?_
  obtain ⟨s1, hpush, h⟩ := (bind_ok _ _ _).1 h
  have hm1 : MemoryInv s1 := hm.push hpush
  cases h
  exact hm1

/-- Every instruction keeps the memory part: one case per family, by the stores of its shared operation. -/
theorem exec_memory (i : Instr) : MemoryKept (exec i s) := by
  cases i with
  | nop | afh | halt | wait | ei | di | sec | clc | nec | sev | clv | nev | rtl => exact MemoryInv.kept hm
  | rts => exact execRts_memory hm
  | rti => exact execRti_memory hm
  | pop => exact execPop_memory hm
  | popRange => exact execPopRange_memory hm
  | push => exact execPush_memory hm
  | pushRange => exact execPushRange_memory hm
  | clr a b => exact MemoryInv.kept (hm.clearRegs (regRange a b))
  | movReg | movImm16 | movImm32 | movtReg | movtImm | swpReg => exact MemoryInv.kept hm
  | movAny x y => exact MemoryInv.kept (hm.writeAny _ x _)
  | movb => exact execMovb_memory hm
  | movw => exact execMovw_memory hm
  | ldr | ldrb | ldrw | ldrbs | ldrws => exact load_memory hm
  | str | strb | strw => exact storeReg_memory hm
  | strbs d m => exact show MemoryKept (execStrbs d m s) from storeReg_memory hm
  | strws d m => exact show MemoryKept (execStrws d m s) from storeReg_memory hm
  | adr => exact execAdr_memory hm
  | swpMem => exact execSwpMem_memory hm
  | jmp => exact execJmp_memory hm
  | lsl | lsr | rol | ror | asr => exact shift_memory hm
  | rcl | rcr => exact rotateCarry_memory hm
  | and | orr | eor | not | clz | ctz | rbit | revb | revv => exact MemoryInv.kept hm
  | add | adc | sub | sbc | rsb | rsc | abs | neg | inc | dec => exact MemoryInv.kept hm
  | div d r o => exact show MemoryKept (execDiv d r o s) from divide_memory hm
  | divs d r o => exact show MemoryKept (execDivs d r o s) from divide_memory hm
  | rem d r o => exact show MemoryKept (execRem d r o s) from divide_memory hm
  | rems d r o => exact show MemoryKept (execRems d r o s) from divide_memory hm
  | mul | muls => exact multiply_memory hm
  | cfb | cfbs | cfw | cfws | ctb | ctbs | ctw | ctws => exact MemoryInv.kept hm
  | cfbcd => exact execCfbcd_memory hm
  | ctbcd => exact execCtbcd_memory hm
  | beq | bne | bcs | bcc | bmi | bpl | bvs | bvc | bhi | bls | bge | blt | bgt | ble | bra =>
    exact MemoryInv.kept hm
  | jeq | jne | jcs | jcc | jmi | jpl | jvs | jvc | jhi | jls | jge | jlt | jgt | jle => exact callIf_memory hm
  | jsr off => exact show MemoryKept (execJsr off s) from callIf_memory hm
  | leq | lne | lcs | lcc | lmi | lpl | lvs | lvc | lhi | lls | lge | llt | lgt | lle => exact linkIf_memory hm
  | lnk off => exact show MemoryKept (execLnk off s) from linkIf_memory hm
  | cmp | cmn | tst | teq => exact MemoryInv.kept hm
  | brk | dbg | svc => exact takeTrap_memory hm
  | swi => exact takeSwi_memory hm
  | rand | seed => exact MemoryInv.kept hm

end

/-! ## Halted or waiting -/

/-- HALT alone halts and leaves `waiting` alone, so no instruction does both (rules R82, R83). -/
theorem exec_not_halted_and_waiting {i : Instr} (he : exec i s = .next t) (hh : s.halted = false)
    (hw : s.waiting = false) : ¬ (t.halted = true ∧ t.waiting = true) := by
  rintro ⟨hth, htw⟩
  obtain ⟨-, -, -, hhalted, hwaiting, -, -⟩ := onlyNamedInstructionsWrite i s t he
  have hi : i = .halt := hhalted.resolve_left (by simp [hth, hh])
  have hown := hwaiting.resolve_left (by simp [htw, hw])
  subst hi
  simp at hown

/-! ## One step -/

/-- What a step that answers has done: nothing on a halted machine; else, once the environment's answer has been read,
an interrupt taken, a wait gone on with, or an instruction executed (rule R294). -/
theorem step_next (h : step s = .next t) :
    (s.halted = true ∧ t = s) ∨ s.halted = false ∧
      ((∃ kind, takeTrap s.afterAnswer kind s.pc = .ok t) ∨ (s.waiting = true ∧ t = s.afterAnswer) ∨
        (s.waiting = false ∧ ∃ i, exec i s.afterAnswer = .next t)) := by
  rw [step] at h
  split at h
  · next hh => exact .inl ⟨hh, (Host.Outcome.next.inj h).symm⟩
  next hh =>
  refine .inr ⟨by simpa using hh, ?_⟩
  split at h
  · exact .inl ⟨_, (finish_next _ _).1 h⟩
  split at h
  · next hw => exact .inr (.inl ⟨hw, (Host.Outcome.next.inj h).symm⟩)
  next hw =>
  split at h
  · cases h
  · exact .inr (.inr ⟨by simpa using hw, _, h⟩)

/-- Settles O11, by what a step can have done: the memory part by `exec_memory` or the two pushes of a trap, the other
part by `exec_not_halted_and_waiting` or because a trap ends a wait. -/
theorem stepKeepsInv : Obligations.StepKeepsInv := by
  unfold Obligations.StepKeepsInv
  intro s t hinv h
  obtain ⟨hm, -⟩ := (inv_iff s).1 hinv
  have hm' : MemoryInv s.afterAnswer := hm
  rcases step_next h with ⟨-, rfl⟩ | ⟨hh, ⟨kind, htrap⟩ | ⟨-, rfl⟩ | ⟨hw, i, he⟩⟩
  · exact hinv
  · refine (inv_iff t).2 ⟨hm'.takeTrap htrap, ?_⟩
    obtain ⟨-, rfl⟩ := (takeTrap_ok _ _ _ _).1 htrap
    simp
  · exact (inv_iff _).2 ⟨hm', by simp [hh]⟩
  · exact (inv_iff t).2 ⟨exec_memory hm' i t he, exec_not_halted_and_waiting he hh hw⟩

end Sys2Proof.Machine
end

section
/-! `MemRead` and `MemWrite` (`20_memory.md` rules R33 to R38): which check an access fails, the bytes of a datum in each
byte order, and the narrower data inside a stored Double Word. -/

namespace Sys2Proof.Machine

/-! ## The checks, in their order -/

theorem checkAccess_addressWrap (c : Cfg) (w : Width) (a : DWord) (h : 2 ^ 32 < a.toNat + w.bytes) :
    checkAccess c w a = .error .addressWrap := if_pos h

theorem checkAccess_misaligned {c : Cfg} {w : Width} {a : DWord} (htop : a.toNat + w.bytes ≤ 2 ^ 32)
    (hd : c.dataAlign = .fault) (ha : a.toNat % w.bytes ≠ 0) :
    checkAccess c w a = .error (.misaligned a.toNat w.bytes) := by
  rw [checkAccess, if_neg (Nat.not_lt.2 htop), if_pos ⟨hd, ha⟩]

/-- The first unmapped byte is the fault. -/
theorem mappedAll_error {c : Cfg} {n : Nat} : ∀ {a k : Nat}, k < n → (∀ j, j < k → c.isMapped (a + j) = true) →
    c.isMapped (a + k) = false → mappedAll c a n = .error (.unmapped (a + k)) := by
  induction n with
  | zero => exact fun hk => absurd hk (Nat.not_lt_zero _)
  | succ n ih =>
    intro a k hk hbefore hat
    cases k with
    | zero =>
      rw [mappedAll, if_neg (by rw [show c.isMapped a = false from hat]; exact Bool.false_ne_true)]
      rfl
    | succ k =>
      have hfirst : c.isMapped a = true := hbefore 0 k.succ_pos
      have hstep (j : Nat) : a + (j + 1) = a + 1 + j := by omega
      rw [mappedAll, if_pos hfirst, hstep k]
      exact ih (Nat.lt_of_succ_lt_succ hk) (fun j hj => hstep j ▸ hbefore (j + 1) (Nat.succ_lt_succ hj))
        (hstep k ▸ hat)

theorem checkAccess_unmapped {c : Cfg} {w : Width} {a : DWord} {k : Nat} (hk : k < w.bytes)
    (htop : a.toNat + w.bytes ≤ 2 ^ 32) (ha : c.dataAlign = .allow ∨ a.toNat % w.bytes = 0)
    (hbefore : ∀ j, j < k → c.isMapped (a.toNat + j) = true) (hat : c.isMapped (a.toNat + k) = false) :
    checkAccess c w a = .error (.unmapped (a.toNat + k)) := by
  have haligned : ¬ (c.dataAlign = .fault ∧ a.toNat % w.bytes ≠ 0) := by
    rintro ⟨hf, hne⟩
    rcases ha with ha | ha
    · rw [hf] at ha; cases ha
    · exact hne ha
  rw [checkAccess, if_neg (Nat.not_lt.2 htop), if_neg haligned]
  exact mappedAll_error hk hbefore hat

/-! ## The bytes of a datum -/

/-- Which byte of a datum of `n` bytes, counted from its lowest, stands `k`-th in address order (rule R35). -/
def bytePlace (bo : ByteOrder) (n k : Nat) : Nat :=
  match bo with
  | .little => k
  | .big => n - 1 - k

theorem dataBytes_getElem (bo : ByteOrder) (w : Width) (v : DWord) (k : Nat) (hk : k < (dataBytes bo w v).length) :
    (dataBytes bo w v)[k] = v.extractLsb' (8 * bytePlace bo w.bytes k) 8 := by
  have hw := dataBytes_length bo w v
  cases w with
  | byte =>
    obtain rfl : k = 0 := by simp at hw; omega
    cases bo <;> rfl
  | word =>
    have hlow (i : Nat) (hi : i + 8 ≤ 16) : (v.setWidth 16).extractLsb' i 8 = v.extractLsb' i 8 :=
      BitVec.extractLsb'_setWidth_of_le hi
    obtain rfl | rfl : k = 0 ∨ k = 1 := by simp at hw; omega
    all_goals cases bo <;> exact hlow _ (by decide)
  | dword =>
    obtain rfl | rfl | rfl | rfl : k = 0 ∨ k = 1 ∨ k = 2 ∨ k = 3 := by simp at hw; omega
    all_goals cases bo <;> rfl

theorem toNat_extract_byte (v : DWord) (i : Nat) : (v.extractLsb' (8 * i) 8).toNat = v.toNat / 256 ^ i % 256 := by
  rw [BitVec.extractLsb'_toNat, Nat.shiftRight_eq_div_pow, Nat.pow_mul]

/-- A datum is the sum of its bytes, each at its place. -/
theorem toNat_datum (s : State) (w : Width) (a : Nat) : (s.datum w a).toNat =
    ((List.range w.bytes).map fun k => (s.byte (a + k)).toNat * 256 ^ bytePlace s.cfg.byteOrder w.bytes k).sum := by
  cases w with
  | byte =>
    rw [State.datum, BitVec.toNat_setWidth_of_le (by decide), width_bytes_byte]
    cases s.cfg.byteOrder <;> simp [bytePlace]
  | word =>
    rw [State.datum, BitVec.toNat_setWidth_of_le (by decide), width_bytes_word]
    cases s.cfg.byteOrder with
    | little => rw [wordOf, toNat_append_word]; simp [bytePlace, List.sum_range_succ]
    | big => rw [wordOf, toNat_append_word, Nat.add_comm]; simp [bytePlace, List.sum_range_succ]
  | dword =>
    rw [State.datum, width_bytes_dword]
    cases s.cfg.byteOrder with
    | little => rw [dwordOf, toNat_append_dword]; simp [bytePlace, List.sum_range_succ]
    | big => rw [dwordOf, toNat_append_dword]; simp [bytePlace, List.sum_range_succ]; omega

/-- Settles O34: the checks one after the other, and `toNat_datum` in either byte order. -/
theorem memoryRead : Obligations.MemoryRead := by
  unfold Obligations.MemoryRead
  intro s w a
  refine ⟨fun htop => ?_, fun htop hd ha => ?_, fun k hk htop ha hbefore hat => ?_, fun h => ⟨_, h.read, ?_⟩⟩
  · exact (memRead_error _ _ _ _).2 (checkAccess_addressWrap _ _ _ htop)
  · exact (memRead_error _ _ _ _).2 (checkAccess_misaligned htop hd ha)
  · exact (memRead_error _ _ _ _).2 (checkAccess_unmapped hk htop ha hbefore hat)
  · rw [toNat_datum]
    cases s.cfg.byteOrder <;> rfl

/-- A stored byte. -/
theorem byte_store {s : State} {w : Width} {a : DWord} (hm : memWf s.mem) (ha : a.toNat + w.bytes ≤ 2 ^ 32) (v : DWord)
    {k : Nat} (hk : k < w.bytes) :
    (s.store w a v).byte (a.toNat + k) = v.extractLsb' (8 * bytePlace s.cfg.byteOrder w.bytes k) 8 := by
  rw [byte_store_inside s w a v k hm ha hk, dataBytes_getElem]

/-- Settles O35: the shared check decides both, and the laws of `State.store` say the rest. -/
theorem memoryWrite : Obligations.MemoryWrite := by
  unfold Obligations.MemoryWrite
  intro s w a v
  refine ⟨fun f => (memWrite_error s w a v f).2, fun f => memRead_error s w a f, fun h hm => ⟨_, h.write v, ?_⟩⟩
  refine ⟨fun k hk => ?_, fun k hk => ?_, rfl, (Frame.refl _ _ _ s).store w a v (List.mem_singleton_self _)⟩
  · rw [byte_store hm h.1 v hk, toNat_extract_byte]
    cases s.cfg.byteOrder <;> rfl
  · rw [mem_written_store]
    left; omega

/-! ## Narrower data inside a Double Word -/

/-- An address inside an accessible Double Word does not wrap. -/
theorem toNat_add_offset {a : DWord} {k : Nat} (ha : a.toNat + 4 ≤ 2 ^ 32) (hk : k < 4) :
    (a + BitVec.ofNat 32 k).toNat = a.toNat + k := by
  rw [BitVec.toNat_add, BitVec.toNat_ofNat]
  omega

/-- A Byte or an aligned Word of an accessible Double Word is accessible. -/
theorem Accessible.inside {s : State} {a : DWord} (h : Accessible s .dword a) {w : Width} {k : Nat}
    (hk : k + w.bytes ≤ 4) (hdvd : w.bytes ∣ k) : Accessible s w (a + BitVec.ofNat 32 k) := by
  obtain ⟨htop, halign, hmapped⟩ := h
  rw [width_bytes_dword] at htop halign hmapped
  have hw : 0 < w.bytes ∧ w.bytes ∣ 4 := by cases w <;> decide
  have hadd := toNat_add_offset (k := k) htop (by omega)
  refine ⟨by omega, halign.imp_right fun ha => ?_, fun j hj => ?_⟩
  · rw [hadd]
    exact Nat.mod_eq_zero_of_dvd (Nat.dvd_add (hw.2.trans (Nat.dvd_of_mod_eq_zero ha)) hdvd)
  · rw [hadd, Nat.add_assoc]
    exact hmapped _ (by omega)

/-- Two neighbouring Bytes of a Double Word, put together in the order in which they stand, are a Word of it. -/
theorem wordOf_extract (bo : ByteOrder) (v : DWord) (j : Nat) (hj : j < 2) :
    wordOf bo (v.extractLsb' (8 * bytePlace bo 4 (2 * j)) 8) (v.extractLsb' (8 * bytePlace bo 4 (2 * j + 1)) 8) =
      v.extractLsb' (match bo with | .little => 16 * j | .big => 16 - 16 * j) 16 := by
  have hjoin (i : Nat) : v.extractLsb' (i + 8) 8 ++ v.extractLsb' i 8 = v.extractLsb' i 16 :=
    BitVec.extractLsb'_append_extractLsb'_eq_extractLsb' rfl
  obtain rfl | rfl : j = 0 ∨ j = 1 := by omega
  all_goals cases bo <;> exact hjoin _

/-- Settles O36: each access lies inside the Double Word, and the bytes there are those of the value. -/
theorem mixedWidths : Obligations.MixedWidths := by
  unfold Obligations.MixedWidths
  intro s t a v hm hw
  obtain ⟨hc, rfl⟩ := (memWrite_ok _ _ _ _ _).1 hw
  have h : Accessible s .dword a := (accessible_iff _ _ _).1 hc
  have ht : Accessible (s.store .dword a v) .dword a := h.congr rfl
  have hbyte {k : Nat} (hk : k < 4) := byte_store (w := .dword) hm h.1 v hk
  rw [width_bytes_dword] at hbyte
  refine ⟨fun k hk => ?_, fun j hj => ?_, ?_⟩
  · rw [(ht.inside (w := .byte) (k := k) hk (one_dvd k)).read, toNat_add_offset h.1 hk, State.datum, hbyte hk]
    cases s.cfg.byteOrder with
    | little => rfl
    | big => rw [bytePlace, Nat.mul_sub]
  · rw [(ht.inside (w := .word) (k := 2 * j) (by simp; omega) (Nat.dvd_mul_right 2 j)).read,
      toNat_add_offset h.1 (by omega), State.datum, Nat.add_assoc, hbyte (by omega), hbyte (by omega), store_cfg,
      wordOf_extract _ v j hj]
    cases s.cfg.byteOrder <;> rfl
  · rw [ht.read, datum_store_dword s a v hm h.1]

end Sys2Proof.Machine
end

section
/-! PUSH and POP, of one register and of a range (`41_transfer.md` rules R100 to R104), where their slots are
accessible. -/

namespace Sys2Proof.Machine

/-! ## One register -/

theorem execPush_ok {s : State} {r : AnyReg} (h : Accessible s .dword (s.sp - 4)) :
    exec (.push r) s = .next ((s.pushed (s.readAny r)).advance (s.lenOf (.push r))) := by
  show execPush r s = _
  rw [execPush, h.push, ok_bind, finish_ok]

/-- Settles O30, from the laws of `State.pushed`; the register is read from the state before. -/
theorem pushOne : Obligations.PushOne := by
  unfold Obligations.PushOne
  intro s r h hm
  refine ⟨_, execPush_ok h, ?_, rfl, movesBy rfl rfl, ?_⟩
  · rw [advance_datum, datum_pushed hm h]
    cases r <;> rfl
  · exact ((Frame.refl _ _ _ s).pushed _ (List.mem_singleton_self _) (List.mem_singleton_self _)).advance _

theorem execPop_ok {s : State} {r : AnyReg} (h : Accessible s .dword s.sp) :
    exec (.pop r) s =
      .next ({ s with sp := s.sp + 4 }.writeAny (s.lenOf (.pop r)) r (s.datum .dword s.sp.toNat)) := by
  show execPop r s = _
  rw [execPop, h.pop, ok_bind, finish_ok]

section
variable {regs : List Reg} {parts : List Part} {stored : List (Nat × Nat)} {s t : State}

theorem Frame.setFp (h : Frame regs parts stored s t) (v : DWord) (hp : .fp ∈ parts) :
    Frame regs parts stored s { t with fp := v } :=
  h.trans { Frame.refl regs parts stored t with fp := fun hq => absurd hp hq }

theorem Frame.setLr (h : Frame regs parts stored s t) (v : DWord) (hp : .lr ∈ parts) :
    Frame regs parts stored s { t with lr := v } :=
  h.trans { Frame.refl regs parts stored t with lr := fun hq => absurd hp hq }

end

/-- Settles O31: SP is incremented first, in every frame that admits SP, and then the destination is written. -/
theorem popOne : Obligations.PopOne := by
  unfold Obligations.PopOne
  intro s h v
  have hsp {regs : List Reg} {parts : List Part} : Frame regs (.sp :: parts) [] s { s with sp := s.sp + 4 } :=
    (Frame.refl _ _ _ s).setSp _ (.head _)
  refine ⟨fun d => ?_, ?_, ?_, ?_, ?_, ?_⟩
  · exact ⟨_, execPop_ok h, reg_setReg_same _ d v, rfl, movesBy rfl rfl, (hsp.setReg d v (.head _)).advance _⟩
  · exact ⟨_, execPop_ok h, rfl, rfl, hsp.setPc v⟩
  · exact ⟨_, execPop_ok h, rfl, rfl, movesBy rfl rfl, (hsp.writeSr v (List.subset_cons_self _ _)).advance _⟩
  · exact ⟨_, execPop_ok h, rfl, movesBy rfl rfl, (hsp.setSp v (.head _)).advance _⟩
  · exact ⟨_, execPop_ok h, rfl, rfl, movesBy rfl rfl, (hsp.setFp v (.tail _ (.head _))).advance _⟩
  · exact ⟨_, execPop_ok h, rfl, rfl, movesBy rfl rfl, (hsp.setLr v (.tail _ (.head _))).advance _⟩

/-! ## A range -/

theorem regRange_length_le (a b : Reg) : (regRange a b).length ≤ 16 := by
  rw [regRange]
  exact List.length_filter_le _ allRegs

/-- A register stands in its range as far up as it is above the lowest. -/
theorem regRange_getElem_sub {a b k : Reg} (hak : a ≤ k) (hl : k.val - a.val < (regRange a b).length) :
    (regRange a b)[k.val - a.val] = k := by
  have hak' : a.val ≤ k.val := hak
  apply Fin.ext
  rw [regRange_get]
  omega

/-- The same from the top, in the order in which a range is popped. -/
theorem regRange_reverse_getElem_sub {a b k : Reg} (hak : a ≤ k) (hkb : k ≤ b)
    (hl : b.val - k.val < (regRange a b).reverse.length) : (regRange a b).reverse[b.val - k.val] = k := by
  have hlen := regRange_length a b (hak.trans hkb)
  have hak' : a.val ≤ k.val := hak
  have hkb' : k.val ≤ b.val := hkb
  apply Fin.ext
  rw [List.getElem_reverse, regRange_get]
  omega

theorem regRange_nodup (a b : Reg) : (regRange a b).Nodup :=
  List.Nodup.filter _ (by decide : allRegs.Nodup)

/-- Settles O32: `pushRegs_spec` on the range. -/
theorem pushRange : Obligations.PushRange := by
  unfold Obligations.PushRange
  intro s a b hab hm h
  have hlen := regRange_length a b hab
  obtain ⟨t, ht, hslots, hsp, hpc, hframe, -⟩ := pushRegs_spec (regRange a b) s hm (regRange_length_le a b)
    (fun k hk => h k (by omega))
  have he : exec (.pushRange a b) s = .next (t.advance (s.lenOf (.pushRange a b))) := by
    show execPushRange a b s = _
    rw [execPushRange, ht, ok_bind, finish_ok]
  rw [hlen] at hsp hframe
  refine ⟨_, he, fun k hak hkb => ?_, hsp, movesBy ?_ rfl, hframe.advance _⟩
  · have hkb' : k.val ≤ b.val := hkb
    have hk : k.val - a.val < (regRange a b).length := by omega
    rw [advance_datum, hslots _ hk, regRange_getElem_sub hak hk]
  · rw [advance_pc, State.nextPc, hpc, State.nextPc]

/-- Settles O33: `popRegs_spec` on the range from the top down. -/
theorem popRange : Obligations.PopRange := by
  unfold Obligations.PopRange
  intro s a b hab h
  have hlen : (regRange a b).reverse.length = b.val - a.val + 1 := by rw [List.length_reverse, regRange_length a b hab]
  obtain ⟨t, ht, hregs, hsp, hpc, -, hframe⟩ := popRegs_spec (regRange a b).reverse s
    (List.nodup_reverse.2 (regRange_nodup a b)) (fun k hk => h k (by omega))
  have he : exec (.popRange a b) s = .next (t.advance (s.lenOf (.popRange a b))) := by
    show execPopRange a b s = _
    rw [execPopRange, ht, ok_bind, finish_ok]
  rw [hlen] at hsp
  refine ⟨_, he, fun k hak hkb => ?_, hsp, movesBy ?_ rfl, ?_⟩
  · have hak' : a.val ≤ k.val := hak
    have hk : b.val - k.val < (regRange a b).reverse.length := by omega
    rw [advance_reg, ← hregs _ hk, regRange_reverse_getElem_sub hak hkb hk]
  · rw [advance_pc, State.nextPc, hpc, State.nextPc]
  · exact (hframe.mono (List.reverse_subset.2 (List.Subset.refl _)) (List.Subset.refl _) fun _ => id).advance _

end Sys2Proof.Machine
end

section
/-! An access that fails stops the instruction, or the entry of an interrupt, with its fault (`20_memory.md` rules R36,
R37, R44, R45; `60_exceptions.md` rule R264). -/

namespace Sys2Proof.Machine

variable {s : State} {f : Fault}

/-! ## The stack -/

/-- The instructions that take a trap as rule R264 says. -/
theorem exec_trap_error (h : ∀ kind ret, takeTrap s kind ret = .error f) (v : Word) :
    exec (.brk v) s = .fault f ∧ exec (.dbg v) s = .fault f ∧ exec (.svc v) s = .fault f := by
  have hfinish (kind : TrapKind) : finish (takeTrap s kind (s.nextPc 4)) = .fault f := by rw [h, finish_error]
  exact ⟨hfinish _, hfinish _, hfinish _⟩

theorem takeSwi_error (h : checkAccess s.cfg .dword (s.sp - 4) = .error f) (n : Fin 32) (ret : DWord) :
    takeSwi s n ret = .error f := by
  rw [takeSwi, (push_error s ret f).2 h, error_bind]

theorem exec_callInstr (c : Cond) (off : BrOff) (s : State) :
    exec (callInstr c off) s = callIf c off (s.lenOf (callInstr c off)) s := by
  cases c <;> rfl

theorem callIf_error {c : Cond} (hc : s.sr.holds c = true) (h : checkAccess s.cfg .dword (s.sp - 4) = .error f)
    (off : BrOff) (n : Nat) : callIf c off n s = .fault f := by
  rw [callIf, if_pos hc, (push_error s _ f).2 h, error_bind, finish_error]

theorem execPush_error (h : checkAccess s.cfg .dword (s.sp - 4) = .error f) (r : AnyReg) :
    exec (.push r) s = .fault f := by
  show execPush r s = _
  rw [execPush, (push_error s _ f).2 h, error_bind, finish_error]

theorem execPop_error (h : checkAccess s.cfg .dword s.sp = .error f) (r : AnyReg) : exec (.pop r) s = .fault f := by
  show execPop r s = _
  rw [execPop, (pop_error s f).2 h, error_bind, finish_error]

theorem execRts_error (h : checkAccess s.cfg .dword s.sp = .error f) : exec .rts s = .fault f := by
  show execRts s = _
  rw [execRts, (pop_error s f).2 h, error_bind, finish_error]

theorem execRti_error (h : returnFromTrap s = .error f) : exec .rti s = .fault f := by
  show finish (returnFromTrap s) = _
  rw [h, finish_error]

theorem execPushRange_error {a b : Reg} (hab : a ≤ b) {k : Nat} (hk : k ≤ b.val - a.val)
    (hbefore : ∀ j, j < k → Accessible s .dword (pushSlot s j))
    (h : checkAccess s.cfg .dword (pushSlot s k) = .error f) : exec (.pushRange a b) s = .fault f := by
  have hlen : k < (regRange a b).length := by rw [regRange_length a b hab]; omega
  show execPushRange a b s = _
  rw [execPushRange, pushRegs_error _ f s k hlen hbefore h, error_bind, finish_error]

theorem popSlot_zero (s : State) : popSlot s 0 = s.sp := by simp [popSlot]

theorem execPopRange_error {a b : Reg} (hab : a ≤ b) {k : Nat} (hk : k ≤ b.val - a.val)
    (hbefore : ∀ j, j < k → Accessible s .dword (popSlot s j))
    (h : checkAccess s.cfg .dword (popSlot s k) = .error f) : exec (.popRange a b) s = .fault f := by
  have hlen : k < (regRange a b).reverse.length := by rw [List.length_reverse, regRange_length a b hab]; omega
  show execPopRange a b s = _
  rw [execPopRange, popRegs_error _ f s k hlen hbefore h, error_bind, finish_error]

/-- The entry of an interrupt that fails (rule R265). -/
theorem step_trap_error {kind : TrapKind} (hh : s.halted = false) (hp : s.pendingTrap = some kind)
    (h : takeTrap s.afterAnswer kind s.pc = .error f) : step s = .fault f := by
  simp [step, hh, hp, h]

/-! ## Storage -/

section
variable {d : Reg} {m : Mode}

/-- All twelve storage instructions form their address first (rule R120). -/
theorem storage_address_error (h : address s d m = .error f) {i : Instr} (hi : i = .ldr d m ∨ i = .ldrb d m ∨
    i = .ldrw d m ∨ i = .ldrbs d m ∨ i = .ldrws d m ∨ i = .str d m ∨ i = .strb d m ∨ i = .strw d m ∨ i = .strbs d m ∨
    i = .strws d m ∨ i = .adr d m ∨ i = .swpMem d m) : exec i s = .fault f := by
  have hload (n : Nat) (w : Width) (extend : DWord → DWord) : load s n w extend d m = .fault f := by
    rw [load, h, error_bind, finish_error]
  have hstore (n : Nat) (w : Width) (narrow : DWord → DWord) : storeReg s n w narrow d m = .fault f := by
    rw [storeReg, h, error_bind, finish_error]
  rcases hi with rfl | rfl | rfl | rfl | rfl | rfl | rfl | rfl | rfl | rfl | rfl | rfl
  · exact hload _ .dword id
  · exact hload _ .byte id
  · exact hload _ .word id
  · exact hload _ .byte _
  · exact hload _ .word _
  · exact hstore _ .dword id
  · exact hstore _ .byte id
  · exact hstore _ .word id
  · exact show execStrbs d m s = _ from hstore _ .byte _
  · exact show execStrws d m s = _ from hstore _ .word _
  · show execAdr d m s = _
    rw [execAdr, h, error_bind, finish_error]
  · show execSwpMem d m s = _
    rw [execSwpMem, h, error_bind, finish_error]

/-- SWP stops at its read. -/
theorem execSwpMem_error (hp : PointerReadable s m) (hd : ¬ SameRegister s d m)
    (h : checkAccess s.cfg .dword (effectiveAddress s m) = .error f) : exec (.swpMem d m) s = .fault f := by
  have hr : memRead (preState s m) .dword (effectiveAddress s m) = .error f := by
    rw [memRead_error, preState_cfg]; exact h
  show execSwpMem d m s = _
  simp only [execSwpMem, address_ok hp hd, ok_bind, hr, error_bind, finish_error]

end

/-- Settles O24: each clause is the law of its shared operation, at the first slot or a later one, at the pointer or at
the effective address. -/
theorem accessFaults : Obligations.AccessFaults := by
  unfold Obligations.AccessFaults
  intro s f
  refine ⟨fun h => ?_, fun h => ?_, fun h1 h2 => ?_, fun h1 h2 => ?_, fun a b k hab hk => ?_, fun kind hh hp => ?_,
    fun d m hd => ?_⟩
  · refine ⟨exec_trap_error fun kind ret => takeTrap_error s kind ret f h, fun n => ?_, fun c off hc => ?_,
      execPush_error h, fun a b hab => ?_⟩
    · exact congrArg finish (takeSwi_error h n.toFin _)
    · rw [exec_callInstr, callIf_error hc h]
    · exact execPushRange_error hab (Nat.zero_le _) nofun (pushSlot_zero s ▸ h)
  · exact ⟨execRts_error h, execRti_error (returnFromTrap_error s f h), execPop_error h,
      fun a b hab => execPopRange_error hab (Nat.zero_le _) nofun (popSlot_zero s ▸ h)⟩
  · exact exec_trap_error fun kind ret => takeTrap_error_second s kind ret f h1 h2
  · exact execRti_error (returnFromTrap_error_second s f h1 h2)
  · exact ⟨execPushRange_error hab hk, execPopRange_error hab hk⟩
  · exact ⟨fun h => step_trap_error hh hp (takeTrap_error s.afterAnswer kind s.pc f h),
      fun h1 h2 => step_trap_error hh hp (takeTrap_error_second s.afterAnswer kind s.pc f (h1.congr rfl) h2)⟩
  · refine ⟨fun addr hm h i hi => ?_, fun hp => ⟨fun h => ?_, fun h => ?_, fun h => ?_⟩⟩
    · exact storage_address_error (hm ▸ address_error addr f h) hi
    · exact ⟨load_error id hp hd h, storeReg_error id hp hd h, execSwpMem_error hp hd h⟩
    · exact ⟨load_error id hp hd h, load_error _ hp hd h, storeReg_error id hp hd h,
        show execStrws d m s = _ from storeReg_error _ hp hd h⟩
    · exact ⟨load_error id hp hd h, load_error _ hp hd h, storeReg_error id hp hd h,
        show execStrbs d m s = _ from storeReg_error _ hp hd h⟩

end Sys2Proof.Machine
end

section
/-! The formats of `30_encoding.md` rule R54 as byte layouts, and which layout each instruction has: what the decoder
reads and what the encoder writes are both told from here. -/

namespace Sys2Proof

/-! ## The layout of a format -/

/-- The bytes after the opcode byte that stand for an instruction in a format (rule R54); AFH's second byte is any
(rule R81). -/
inductive Shape.Layout (bo : ByteOrder) : Shape → List Byte → Instr → Prop
  | imp (i : Instr) : Layout bo (.imp i) [0] i
  | impAny (i : Instr) (b : Byte) : Layout bo (.impAny i) [b] i
  | reg5 (f : AnyReg → Instr) (r : AnyReg) : Layout bo (.reg5 f) [anyRegByte r] (f r)
  | r1 (f : Reg → Instr) (r : Reg) : Layout bo (.r1 f) [nibbles 0 r] (f r)
  | rng (f : Reg → Reg → Instr) (a b : Reg) (h : rangeOk a b = true) : Layout bo (.rng f) [nibbles a b] (f a b)
  | rr (f : Reg → Reg → Instr) (d r : Reg) : Layout bo (.rr f) [nibbles d r] (f d r)
  | ri4 (f : Reg → BitVec 4 → Instr) (d : Reg) (k : BitVec 4) : Layout bo (.ri4 f) [nibbles d k.toFin] (f d k)
  | ri16 (f : Reg → Word → Instr) (d : Reg) (v : Word) : Layout bo (.ri16 f) (nibbles d 0 :: wordBytes bo v) (f d v)
  | ri32 (f : Reg → DWord → Instr) (d : Reg) (v : DWord) : Layout bo (.ri32 f) (nibbles d 0 :: dwordBytes bo v) (f d v)
  | xx (f : AnyReg → AnyReg → Instr) (x y : AnyReg) : Layout bo (.xx f) [0, anyRegByte x, anyRegByte y] (f x y)
  | rc (f : Reg → Reg → Opt → Instr) (d r : Reg) (o : Opt) :
      Layout bo (.rc f) (nibbles d r :: optBytes bo o) (f d r o)
  | rcLimited (limit : Nat) (f : Reg → Reg → Opt → Instr) (d r : Reg) (o : Opt) (h : o.within limit = true) :
      Layout bo (.rcLimited limit f) (nibbles d r :: optBytes bo o) (f d r o)
  | cp (f : Reg → Opt → Instr) (r : Reg) (o : Opt) : Layout bo (.cp f) (nibbles 0 r :: optBytes bo o) (f r o)
  | ma (f : Reg → Mode → Instr) (d : Reg) (m : Mode) :
      Layout bo (.ma f) (nibbles d m.baseNibble :: modeBytes bo m) (f d m)
  | maJmp (f : JmpTarget → Instr) (t : JmpTarget) : Layout bo (.maJmp f) (jmpBytes bo t) (f t)
  | br16 (f : Cond → BrOff → Instr) (c : Cond) (w : Word) :
      Layout bo (.br16 f) (nibbles 0 (condNumber c) :: wordBytes bo w) (f c (.short w))
  | br32 (f : Cond → BrOff → Instr) (c : Cond) (w : DWord) :
      Layout bo (.br32 f) (nibbles 0 (condNumber c) :: dwordBytes bo w) (f c (.far w))
  | t16 (f : Word → Instr) (v : Word) : Layout bo (.t16 f) (0 :: wordBytes bo v) (f v)
  | sw5 (f : BitVec 5 → Instr) (n : BitVec 5) : Layout bo (.sw5 f) [n.setWidth 8] (f n)

variable {bo : ByteOrder} {sh : Shape} {i : Instr} {b1 op : Byte} {bs t rest : List Byte}

theorem readJmp_jmpBytes (j : JmpTarget) (h : b1 :: bs = jmpBytes bo j) :
    readJmp bo (hiNibble b1) (loNibble b1) (bs ++ rest) = .ok (j, rest) := by
  cases j <;> obtain ⟨rfl, rfl⟩ := List.cons.inj h <;> simp [readJmp, takeTwo] <;> rfl

/-- A format reads back what it lays out. -/
theorem Shape.Layout.read (h : sh.Layout bo t i) (ht : t = b1 :: bs) (rest : List Byte) :
    sh.read bo b1 (bs ++ rest) = .ok (i, rest) := by
  cases h with
  | maJmp f j => simp [Shape.read, readJmp_jmpBytes j ht.symm]
  | sw5 f n =>
    obtain ⟨rfl, rfl⟩ := List.cons.inj ht
    have hn : n.toNat % 256 ≤ 31 := by omega
    simpa [Shape.read] using hn
  | _ =>
    obtain ⟨rfl, rfl⟩ := List.cons.inj ht
    simp_all [Shape.read, takeTwo]

/-- What a format reads is what it lays out. -/
theorem Shape.layout_of_read (h : sh.read bo b1 bs = .ok (i, rest)) :
    ∃ t, b1 :: bs = t ++ rest ∧ sh.Layout bo t i := by
  cases sh with
  | imp j =>
    obtain ⟨hz, rfl, rfl⟩ := zero_ok _ _ _ _ _ h
    obtain rfl : b1 = 0 := by simpa using hz
    exact ⟨_, rfl, .imp i⟩
  | impAny j =>
    obtain ⟨rfl, rfl⟩ := Prod.mk.inj (Except.ok.inj h)
    exact ⟨_, rfl, .impAny j b1⟩
  | reg5 f =>
    obtain ⟨r, hr, h⟩ := (decode_bind_ok _ _ _).1 h
    obtain ⟨rfl, rfl⟩ := Prod.mk.inj (Except.ok.inj h)
    obtain rfl := anyRegByte_anyRegOf _ _ hr
    exact ⟨_, rfl, .reg5 f r⟩
  | r1 f =>
    obtain ⟨hz, rfl, rfl⟩ := zero_ok _ _ _ _ _ h
    have hb := nibbles_zero_lo b1 (by simpa using hz)
    exact ⟨[b1], rfl, by simpa only [hb] using Layout.r1 (bo := bo) f (loNibble b1)⟩
  | rng f =>
    simp only [Shape.read] at h
    split at h
    case isTrue hab =>
      obtain ⟨rfl, rfl⟩ := Prod.mk.inj (Except.ok.inj h)
      exact ⟨[b1], rfl, by simpa using Layout.rng f _ _ hab⟩
    case isFalse => cases h
  | rr f =>
    obtain ⟨rfl, rfl⟩ := Prod.mk.inj (Except.ok.inj h)
    exact ⟨[b1], rfl, by simpa using Layout.rr f (hiNibble b1) (loNibble b1)⟩
  | ri4 f =>
    obtain ⟨rfl, rfl⟩ := Prod.mk.inj (Except.ok.inj h)
    exact ⟨[b1], rfl, by simpa using Layout.ri4 f (hiNibble b1) (BitVec.ofFin (loNibble b1))⟩
  | ri16 f =>
    obtain ⟨hz, w, rfl, rfl⟩ := zero_word_ok _ _ _ _ _ _ h
    have hb := nibbles_hi_zero b1 (by simpa using hz)
    exact ⟨b1 :: _, rfl, by simpa only [hb] using Layout.ri16 (bo := bo) f (hiNibble b1) w⟩
  | ri32 f =>
    obtain ⟨hz, w, rfl, rfl⟩ := zero_dword_ok _ _ _ _ _ _ h
    have hb := nibbles_hi_zero b1 (by simpa using hz)
    exact ⟨b1 :: _, rfl, by simpa only [hb] using Layout.ri32 (bo := bo) f (hiNibble b1) w⟩
  | xx f =>
    obtain ⟨u, hz, h⟩ := (decode_bind_ok _ _ _).1 h
    obtain ⟨⟨⟨b2, b3⟩, r⟩, htwo, h⟩ := (decode_bind_ok _ _ _).1 h
    obtain ⟨x, hx, h⟩ := (decode_bind_ok _ _ _).1 h
    obtain ⟨y, hy, h⟩ := (decode_bind_ok _ _ _).1 h
    obtain ⟨rfl, rfl⟩ := Prod.mk.inj (Except.ok.inj h)
    obtain rfl : b1 = 0 := by simpa [mustBeZero_ok] using hz
    obtain rfl := (takeTwo_ok _ _ _ _).1 htwo
    obtain rfl := anyRegByte_anyRegOf _ _ hx
    obtain rfl := anyRegByte_anyRegOf _ _ hy
    exact ⟨_, rfl, .xx f x y⟩
  | rc f =>
    obtain ⟨⟨o, r⟩, ho, h⟩ := (decode_bind_ok _ _ _).1 h
    obtain ⟨rfl, rfl⟩ := Prod.mk.inj (Except.ok.inj h)
    obtain rfl := readOpt_ok _ _ _ _ ho
    exact ⟨b1 :: _, rfl, by simpa using Layout.rc f (hiNibble b1) (loNibble b1) o⟩
  | rcLimited limit f =>
    obtain ⟨⟨o, r⟩, ho, h⟩ := (decode_bind_ok _ _ _).1 h
    obtain ⟨rfl, rfl⟩ := Prod.mk.inj (Except.ok.inj h)
    obtain ⟨rfl, hw⟩ := readOptLimited_ok _ _ _ _ _ ho
    exact ⟨b1 :: _, rfl, by simpa using Layout.rcLimited limit f (hiNibble b1) (loNibble b1) o hw⟩
  | cp f =>
    obtain ⟨u, hz, h⟩ := (decode_bind_ok _ _ _).1 h
    obtain ⟨⟨o, r⟩, ho, h⟩ := (decode_bind_ok _ _ _).1 h
    obtain ⟨rfl, rfl⟩ := Prod.mk.inj (Except.ok.inj h)
    obtain rfl := readOpt_ok _ _ _ _ ho
    have hb := nibbles_zero_lo b1 (by simpa [mustBeZero_ok] using hz)
    exact ⟨b1 :: _, rfl, by simpa only [hb] using Layout.cp (bo := bo) f (loNibble b1) o⟩
  | ma f =>
    obtain ⟨⟨m, r⟩, hm, h⟩ := (decode_bind_ok _ _ _).1 h
    obtain ⟨rfl, rfl⟩ := Prod.mk.inj (Except.ok.inj h)
    obtain ⟨hb, rfl⟩ := readMode_ok _ _ _ _ _ hm
    exact ⟨b1 :: _, rfl, by simpa [← hb] using Layout.ma f (hiNibble b1) m⟩
  | maJmp f =>
    obtain ⟨⟨j, r⟩, hj, h⟩ := (decode_bind_ok _ _ _).1 h
    obtain ⟨rfl, rfl⟩ := Prod.mk.inj (Except.ok.inj h)
    exact ⟨_, readJmp_ok _ _ _ _ _ hj, .maJmp f j⟩
  | br16 f =>
    obtain ⟨u, hz, h⟩ := (decode_bind_ok _ _ _).1 h
    obtain ⟨c, hc, h⟩ := (decode_bind_ok _ _ _).1 h
    obtain ⟨⟨w, r⟩, hw, h⟩ := (decode_bind_ok _ _ _).1 h
    obtain ⟨rfl, rfl⟩ := Prod.mk.inj (Except.ok.inj h)
    obtain rfl := (takeWord_ok _ _ _ _).1 hw
    have hb : nibbles 0 (condNumber c) = b1 := by
      rw [condNumber_condOf _ _ hc, nibbles_zero_lo b1 (by simpa [mustBeZero_ok] using hz)]
    exact ⟨b1 :: _, rfl, hb ▸ .br16 f c w⟩
  | br32 f =>
    obtain ⟨u, hz, h⟩ := (decode_bind_ok _ _ _).1 h
    obtain ⟨c, hc, h⟩ := (decode_bind_ok _ _ _).1 h
    obtain ⟨⟨w, r⟩, hw, h⟩ := (decode_bind_ok _ _ _).1 h
    obtain ⟨rfl, rfl⟩ := Prod.mk.inj (Except.ok.inj h)
    obtain rfl := (takeDWord_ok _ _ _ _).1 hw
    have hb : nibbles 0 (condNumber c) = b1 := by
      rw [condNumber_condOf _ _ hc, nibbles_zero_lo b1 (by simpa [mustBeZero_ok] using hz)]
    exact ⟨b1 :: _, rfl, hb ▸ .br32 f c w⟩
  | t16 f =>
    obtain ⟨hz, w, rfl, rfl⟩ := zero_word_ok _ _ _ _ _ _ h
    obtain rfl : b1 = 0 := by simpa using hz
    exact ⟨_, rfl, .t16 f w⟩
  | sw5 f =>
    simp only [Shape.read] at h
    split at h
    case isTrue hn =>
      obtain ⟨rfl, rfl⟩ := Prod.mk.inj (Except.ok.inj h)
      have hb : (b1.setWidth 5).setWidth 8 = b1 := by
        apply BitVec.eq_of_toNat_eq
        simp only [BitVec.toNat_setWidth]
        omega
      exact ⟨[b1], rfl, by simpa only [hb] using Layout.sw5 (bo := bo) f (b1.setWidth 5)⟩
    case isFalse => cases h

/-! ## The layout of an instruction -/

/-- The opcode map gives byte `op` a format, in which `t` is laid out as `i` (rules R54, R61). -/
def LaidOut (bo : ByteOrder) (op : Byte) (t : List Byte) (i : Instr) : Prop :=
  ∃ sh, opcode op.toNat = some sh ∧ sh.Layout bo t i

/-- What the decoder reads is what is laid out. -/
theorem decode_ok_iff : decode bo bs = .ok (i, rest) ↔ ∃ op t, bs = op :: t ++ rest ∧ LaidOut bo op t i := by
  constructor
  · intro h
    match bs with
    | [] => cases h
    | [_] => cases h
    | op :: b1 :: u =>
      cases ho : opcode op.toNat with
      | none => simp [decode, ho] at h
      | some sh =>
        obtain ⟨t, ht, hl⟩ := Shape.layout_of_read (by simpa [decode, ho] using h)
        exact ⟨op, t, by rw [ht]; rfl, sh, ho, hl⟩
  · rintro ⟨op, t, rfl, sh, ho, hl⟩
    obtain ⟨b1, u, rfl⟩ : ∃ b1 u, t = b1 :: u := by
      cases hl with
      | maJmp f j => cases j <;> exact ⟨_, _, rfl⟩
      | _ => exact ⟨_, _, rfl⟩
    simpa [decode, ho] using hl.read rfl rest

end Sys2Proof
end

section
/-! The two round trips between bytes and instructions (`30_encoding.md` section 3), and the same under every admissible
table. -/

namespace Sys2Proof

variable {bo : ByteOrder} {i : Instr} {op : Byte} {bs t rest : List Byte}

/-! ## From an instruction to its layout -/

/-- The encoding of an instruction is its layout after an opcode byte. -/
def EncodedInLayout (bo : ByteOrder) (i : Instr) : Prop := ∃ op t, encode bo i = op :: t ∧ LaidOut bo op t i

theorem encodedInLayout_br {f : Cond → BrOff → Instr} {c : Cond} {off : BrOff}
    (he : encode bo i = encodeBr bo op c off) (h16 : opcode op.toNat = some (.br16 f))
    (h32 : opcode (op + 1).toNat = some (.br32 f)) (hi : f c off = i) : EncodedInLayout bo i := by
  subst hi
  cases off with
  | short w => exact ⟨op, _, he, _, h16, .br16 f c w⟩
  | far w => exact ⟨op + 1, _, he, _, h32, .br32 f c w⟩

/-- Every well-formed instruction is encoded in the layout of its format. -/
theorem encode_inLayout (bo : ByteOrder) (h : i.wellFormed = true) : EncodedInLayout bo i := by
  cases i with
  | nop | halt | wait | ei | di | sec | clc | nec | sev | clv | nev | rts | rtl | rti =>
    exact ⟨_, _, rfl, _, rfl, .imp _⟩
  | afh => exact ⟨_, _, rfl, _, rfl, .impAny _ _⟩
  | pop r | push r => exact ⟨_, _, rfl, _, rfl, .reg5 _ r⟩
  | seed r => exact ⟨_, _, rfl, _, rfl, .r1 _ r⟩
  | popRange a b | pushRange a b | clr a b => exact ⟨_, _, rfl, _, rfl, .rng _ a b h⟩
  | movReg d r | movtReg d r | swpReg d r | not d r | clz d r | ctz d r | rbit d r | revb d r | revv d r | abs d r
  | neg d r | cfb d r | cfbs d r | cfw d r | cfws d r | cfbcd d r | ctb d r | ctbs d r | ctw d r | ctws d r
  | ctbcd d r | rand d r =>
    exact ⟨_, _, rfl, _, rfl, .rr _ d r⟩
  | inc d k | dec d k => exact ⟨_, _, rfl, _, rfl, .ri4 _ d k⟩
  | movImm16 d v | movtImm d v => exact ⟨_, _, rfl, _, rfl, .ri16 _ d v⟩
  | movImm32 d v => exact ⟨_, _, rfl, _, rfl, .ri32 _ d v⟩
  | movAny x y => exact ⟨_, _, rfl, _, rfl, .xx _ x y⟩
  | movb d r o | movw d r o | lsl d r o | lsr d r o | rol d r o | ror d r o | rcl d r o | rcr d r o | asr d r o =>
    exact ⟨_, _, encodeRC_eq bo _ d r o, _, rfl, .rcLimited _ _ d r o h⟩
  | and d r o | orr d r o | eor d r o | add d r o | adc d r o | sub d r o | sbc d r o | rsb d r o | rsc d r o
  | div d r o | divs d r o | rem d r o | rems d r o | mul d r o | muls d r o =>
    exact ⟨_, _, encodeRC_eq bo _ d r o, _, rfl, .rc _ d r o⟩
  | cmp r o | cmn r o | tst r o | teq r o => exact ⟨_, _, encodeRC_eq bo _ 0 r o, _, rfl, .cp _ r o⟩
  | ldr d m | ldrb d m | ldrw d m | ldrbs d m | ldrws d m | str d m | strb d m | strw d m | strbs d m | strws d m
  | adr d m | swpMem d m =>
    exact ⟨_, _, encodeMA_eq bo _ d m, _, rfl, .ma _ d m⟩
  | jmp j => exact ⟨_, _, encodeJmp_eq bo j, _, rfl, .maJmp _ j⟩
  | beq off | bne off | bcs off | bcc off | bmi off | bpl off | bvs off | bvc off | bhi off | bls off | bge off
  | blt off | bgt off | ble off | bra off
  | jeq off | jne off | jcs off | jcc off | jmi off | jpl off | jvs off | jvc off | jhi off | jls off | jge off
  | jlt off | jgt off | jle off | jsr off
  | leq off | lne off | lcs off | lcc off | lmi off | lpl off | lvs off | lvc off | lhi off | lls off | lge off
  | llt off | lgt off | lle off | lnk off =>
    exact encodedInLayout_br rfl rfl rfl rfl
  | brk v | dbg v | svc v => exact ⟨_, _, rfl, _, rfl, .t16 _ v⟩
  | swi n => exact ⟨_, _, rfl, _, rfl, .sw5 _ n⟩

theorem decode_encode (bo : ByteOrder) (h : i.wellFormed = true) (rest : List Byte) :
    decode bo (encode bo i ++ rest) = .ok (i, rest) := by
  obtain ⟨op, t, he, hl⟩ := encode_inLayout bo h
  exact decode_ok_iff.2 ⟨op, t, by rw [he], hl⟩

/-! ## From a layout to its instruction -/

theorem encode_branchInstr (bo : ByteOrder) (c : Cond) (off : BrOff) :
    encode bo (branchInstr c off) = encodeBr bo 0x70 c off := by cases c <;> rfl

theorem encode_callInstr (bo : ByteOrder) (c : Cond) (off : BrOff) :
    encode bo (callInstr c off) = encodeBr bo 0x72 c off := by cases c <;> rfl

theorem encode_linkInstr (bo : ByteOrder) (c : Cond) (off : BrOff) :
    encode bo (linkInstr c off) = encodeBr bo 0x74 c off := by cases c <;> rfl

theorem branch_wellFormed (c : Cond) (off : BrOff) : (branchInstr c off).wellFormed = true ∧
    (callInstr c off).wellFormed = true ∧ (linkInstr c off).wellFormed = true := by
  cases c <;> exact ⟨rfl, rfl, rfl⟩

/-- Row by row of the opcode map (rule R61): what is laid out at an opcode byte is well-formed, and the encoder writes
it there; only AFH has other bytes than its encoding. -/
theorem LaidOut.encode (h : LaidOut bo op t i) :
    i.wellFormed = true ∧ (encode bo i = op :: t ∨ i = .afh ∧ op = 0x41 ∧ ∃ b, t = [b]) := by
  obtain ⟨sh, ho, hl⟩ := h
  unfold opcode at ho
  split at ho <;> rename_i hop <;> try obtain rfl := byte_eq_of_toNat hop
  all_goals cases ho
  all_goals cases hl
  -- `$00` to `$0D`: IMP
  iterate 14 exact ⟨rfl, .inl rfl⟩
  -- `$10` to `$14`: REG5 and RNG by turns
  iterate 2
    · exact ⟨rfl, .inl rfl⟩
    · exact ⟨‹rangeOk _ _ = true›, .inl rfl⟩
  · exact ⟨‹rangeOk _ _ = true›, .inl rfl⟩
  -- `$15` to `$1D`: MOVB and MOVW among RR, RI16, RI32 and .inr ⟨rfl, rfl, _, rfl⟩
  iterate 4 exact ⟨rfl, .inl rfl⟩
  iterate 2 exact ⟨‹Opt.within _ _ = true›, .inl (encodeRC_eq ..)⟩
  iterate 3 exact ⟨rfl, .inl rfl⟩
  -- `$20` to `$2C`: MA
  iterate 12 exact ⟨rfl, .inl (encodeMA_eq ..)⟩
  · exact ⟨rfl, .inl (encodeJmp_eq ..)⟩
  -- `$30` to `$3F`: shifts, logic, RR
  iterate 7 exact ⟨‹Opt.within _ _ = true›, .inl (encodeRC_eq ..)⟩
  iterate 3 exact ⟨rfl, .inl (encodeRC_eq ..)⟩
  iterate 6 exact ⟨rfl, .inl rfl⟩
  -- `$41`: AFH
  · exact ⟨rfl, .inr ⟨rfl, rfl, _, rfl⟩⟩
  -- `$50` to `$69`: arithmetic and conversions
  iterate 12 exact ⟨rfl, .inl (encodeRC_eq ..)⟩
  iterate 14 exact ⟨rfl, .inl rfl⟩
  -- `$70` to `$75`: BR16 and BR32 of the three families
  iterate 2 exact ⟨(branch_wellFormed ..).1, .inl (encode_branchInstr ..)⟩
  iterate 2 exact ⟨(branch_wellFormed ..).2.1, .inl (encode_callInstr ..)⟩
  iterate 2 exact ⟨(branch_wellFormed ..).2.2, .inl (encode_linkInstr ..)⟩
  -- `$80` to `$A1`: comparers, then T16, SW5, RR and R1
  iterate 4 exact ⟨rfl, .inl (encodeRC_eq ..)⟩
  iterate 6 exact ⟨rfl, .inl rfl⟩

/-- AFH is laid out at `$41` only, with any second byte (rule R81). -/
theorem LaidOut.afh (h : LaidOut bo op t .afh) : op = 0x41 ∧ ∃ b, t = [b] := by
  rcases h.encode.2 with he | ⟨-, h41⟩
  · obtain ⟨rfl, rfl⟩ := List.cons.inj he
    exact ⟨rfl, _, rfl⟩
  · exact h41

theorem encode_decode (h : decode bo bs = .ok (i, rest)) : i.wellFormed = true ∧
    (i ≠ .afh → bs = encode bo i ++ rest) ∧ (i = .afh → ∃ b, bs = 0x41 :: b :: rest) := by
  obtain ⟨op, t, rfl, hl⟩ := decode_ok_iff.1 h
  obtain ⟨hwf, he⟩ := hl.encode
  refine ⟨hwf, fun hne => ?_, ?_⟩
  · rw [he.resolve_right fun hr => hne hr.1]
  · rintro rfl
    obtain ⟨rfl, b, rfl⟩ := hl.afh
    exact ⟨b, rfl⟩

/-! ## Lengths -/

/-- The encoding has the instruction's length (rule R53), format by format. -/
theorem encode_length (bo : ByteOrder) (i : Instr) : (encode bo i).length = i.len := by
  cases i with
  | movb d r o | movw d r o | lsl d r o | lsr d r o | rol d r o | ror d r o | rcl d r o | rcr d r o | asr d r o
  | and d r o | orr d r o | eor d r o | add d r o | adc d r o | sub d r o | sbc d r o | rsb d r o | rsc d r o
  | div d r o | divs d r o | rem d r o | rems d r o | mul d r o | muls d r o
  | cmp r o | cmn r o | tst r o | teq r o =>
    exact (Laws.EncodingLength.encodeRC_length bo _ _ _ o).1
  | ldr d m | ldrb d m | ldrw d m | ldrbs d m | ldrws d m | str d m | strb d m | strw d m | strbs d m | strws d m
  | adr d m | swpMem d m =>
    exact (Laws.EncodingLength.encodeMA_length bo _ d m).1
  | jmp j => exact (Laws.EncodingLength.encodeJmp_length bo j).1
  | beq off | bne off | bcs off | bcc off | bmi off | bpl off | bvs off | bvc off | bhi off | bls off | bge off
  | blt off | bgt off | ble off | bra off
  | jeq off | jne off | jcs off | jcc off | jmi off | jpl off | jvs off | jvc off | jhi off | jls off | jge off
  | jlt off | jgt off | jle off | jsr off
  | leq off | lne off | lcs off | lcc off | lmi off | lpl off | lvs off | lvc off | lhi off | lls off | lge off
  | llt off | lgt off | lle off | lnk off =>
    exact (Laws.EncodingLength.encodeBr_length bo _ _ off).1
  | movImm16 d v | movtImm d v | movImm32 d v | brk v | dbg v | svc v => cases bo <;> rfl
  | _ => rfl

/-! ## Tables -/

variable {rows : List EncodingRow} {r : EncodingRow}

/-- A table reads an entry's bytes as its instruction. -/
theorem table_read_row (hw : (Encoding.table rows).wf = true) (hr : r ∈ rows) (bo : ByteOrder) (rest : List Byte) :
    (Encoding.table rows).read bo (r.bytes ++ rest) = .ok (r.instr, rest) := by
  have hrow := rowOf_eq hw hr (r.bytes ++ rest) (heads_self ((tableWf hw).1 r hr) rest)
  simp only [Encoding.read, hrow, List.drop_left]

theorem table_write_ok_iff (hw : (Encoding.table rows).wf = true) {w : List Byte} :
    (Encoding.table rows).write bo i = some w ↔ ∃ r ∈ rows, r.instr = i ∧ r.bytes = w := by
  simp only [Encoding.write, Option.map_eq_some_iff]
  constructor
  · rintro ⟨r, hf, hb⟩
    exact ⟨r, List.mem_of_find?_eq_some hf, by simpa using List.find?_some hf, hb⟩
  · rintro ⟨r, hr, rfl, hb⟩
    exact ⟨r, find_instr hw hr, hb⟩

theorem table_len_row (hw : (Encoding.table rows).wf = true) (hr : r ∈ rows) :
    (Encoding.table rows).len r.instr = r.bytes.length := by
  simp only [Encoding.len, find_instr hw hr, Option.map_some, Option.getD_some]

/-- What a table reads is an entry and the bytes after its own. -/
theorem table_read_ok (h : (Encoding.table rows).read bo bs = .ok (i, rest)) :
    ∃ r ∈ rows, r.heads bs = true ∧ r.instr = i ∧ bs.drop r.bytes.length = rest := by
  simp only [Encoding.read] at h
  split at h
  case h_1 r hr =>
    obtain ⟨hi, hrest⟩ := Prod.mk.inj (Except.ok.inj h)
    obtain ⟨hmem, hhead⟩ := rowOf_some hr
    exact ⟨r, hmem, hhead, hi, hrest⟩
  case h_2 => cases h

/-- Bytes at whose head a listed entry stands are the entry's, AFH apart, which is `$41` and bytes to its length. -/
theorem heads_split (hw : r.wf = true) (h : r.heads bs = true) :
    (r.instr ≠ .afh → bs = r.bytes ++ bs.drop r.bytes.length) ∧
    (r.instr = .afh → ∃ v, bs = 0x41 :: v ++ bs.drop r.bytes.length ∧ v.length + 1 = r.bytes.length) := by
  rcases heads_iff.1 h with ⟨ha, hh, hl⟩ | ⟨ha, hp⟩
  · refine ⟨fun hne => absurd ha hne, fun _ => ?_⟩
    obtain ⟨-, h2, -, -⟩ := rowWf hw
    obtain ⟨u, rfl⟩ : ∃ u, bs = 0x41 :: u := by
      cases bs with
      | nil => cases hh
      | cons b u => exact ⟨u, by rw [Option.some.inj hh]⟩
    obtain ⟨n, hn⟩ : ∃ n, r.bytes.length = n + 1 := ⟨r.bytes.length - 1, by omega⟩
    rw [hn, List.length_cons] at hl
    refine ⟨u.take n, by rw [hn]; simp, ?_⟩
    rw [List.length_take, hn]
    omega
  · exact ⟨fun _ => (List.prefix_iff_eq_append.1 hp).symm, fun h => absurd h ha⟩

/-! ## Every admissible encoding -/

/-- Reading back what an admissible encoding writes. -/
theorem read_write {e : Encoding} (hw : e.wf = true) (h : e.write bo i = some bs) (rest : List Byte) :
    e.read bo (bs ++ rest) = .ok (i, rest) := by
  cases e with
  | section3 =>
    obtain ⟨hi, rfl⟩ : i.wellFormed = true ∧ encode bo i = bs := by simpa [Encoding.write] using h
    exact decode_encode bo hi rest
  | table rows =>
    obtain ⟨r, hr, rfl, rfl⟩ := (table_write_ok_iff hw).1 h
    exact table_read_row hw hr bo rest

theorem write_length {e : Encoding} (hw : e.wf = true) (h : e.write bo i = some bs) : bs.length = e.len i := by
  cases e with
  | section3 =>
    obtain ⟨-, rfl⟩ : i.wellFormed = true ∧ encode bo i = bs := by simpa [Encoding.write] using h
    exact encode_length bo i
  | table rows =>
    obtain ⟨r, hr, rfl, rfl⟩ := (table_write_ok_iff hw).1 h
    exact (table_len_row hw hr).symm

/-! ## The statements -/

/-- Settles O1: an instruction is encoded in its format's layout, which the decoder reads back; an entry of a table is
found again at the head of its bytes, since no other entry stands there. -/
theorem decodeOfEncode : Obligations.DecodeOfEncode := by
  unfold Obligations.DecodeOfEncode
  refine ⟨fun bo i rest h => decode_encode bo h rest, fun e bo i bs rest hw h => ?_⟩
  have hself : e.read bo bs = .ok (i, []) := by simpa using read_write hw h []
  exact ⟨read_write hw h rest, write_length hw h, (needed_read e hw bo bs i hself).1⟩

/-- Settles O2: what is read is laid out, and the encoder writes what is laid out, AFH apart; under a table what is read
is an entry. -/
theorem encodeOfDecode : Obligations.EncodeOfDecode := by
  unfold Obligations.EncodeOfDecode
  refine ⟨fun bo bs rest i h => encode_decode h, fun rows bo bs rest i hw h => ?_⟩
  obtain ⟨r, hr, hhead, rfl, rfl⟩ := table_read_ok h
  have hrow := (tableWf hw).1 r hr
  exact ⟨(rowWf hrow).1, r.bytes, (table_write_ok_iff hw).2 ⟨r, hr, rfl, rfl⟩, heads_split hrow hhead⟩

end Sys2Proof
end

section
/-! The illegal encodings (`30_encoding.md` rule R63): which opcodes have which format, what makes each field's reading
fail, and from both the outcome of the decoder. -/

namespace Sys2Proof

/-! ## The opcodes of each format (rule R61) -/

section
variable {n : Nat}

/-- An opcode that has a format is one of the listed ones. -/
theorem opcode_listed {sh : Shape} (h : opcode n = some sh) : n ≤ 0x0D ∨ (0x10 ≤ n ∧ n ≤ 0x1D) ∨
    (0x20 ≤ n ∧ n ≤ 0x2C) ∨ (0x30 ≤ n ∧ n ≤ 0x3F) ∨ n = 0x41 ∨ (0x50 ≤ n ∧ n ≤ 0x69) ∨ (0x70 ≤ n ∧ n ≤ 0x75) ∨
    (0x80 ≤ n ∧ n ≤ 0x83) ∨ (0x90 ≤ n ∧ n ≤ 0x93) ∨ (0xA0 ≤ n ∧ n ≤ 0xA1) := by
  unfold opcode at h
  split at h
  rotate_right
  · cases h
  all_goals omega

theorem opcode_imp (h : n ≤ 0x0D) : ∃ i, opcode n = some (.imp i) := by
  interval_cases n <;> exact ⟨_, rfl⟩

theorem opcode_reg5 (h : n = 0x10 ∨ n = 0x12) : ∃ f, opcode n = some (.reg5 f) := by
  rcases h with rfl | rfl <;> exact ⟨_, rfl⟩

theorem opcode_rng (h : n = 0x11 ∨ n = 0x13 ∨ n = 0x14) : ∃ f, opcode n = some (.rng f) := by
  rcases h with rfl | rfl | rfl <;> exact ⟨_, rfl⟩

theorem opcode_ri (h : n = 0x16 ∨ n = 0x17 ∨ n = 0x1C) :
    (∃ f, opcode n = some (.ri16 f)) ∨ ∃ f, opcode n = some (.ri32 f) := by
  rcases h with rfl | rfl | rfl
  · exact .inl ⟨_, rfl⟩
  · exact .inr ⟨_, rfl⟩
  · exact .inl ⟨_, rfl⟩

theorem opcode_shift (h : 0x30 ≤ n ∧ n ≤ 0x36) : ∃ f, opcode n = some (.rcLimited shiftLimit f) := by
  obtain ⟨hl, hu⟩ := h
  interval_cases n <;> exact ⟨_, rfl⟩

theorem opcode_limited (h : n = 0x19 ∨ n = 0x1A ∨ (0x30 ≤ n ∧ n ≤ 0x36)) :
    ∃ limit f, opcode n = some (.rcLimited limit f) := by
  rcases h with rfl | rfl | h
  · exact ⟨_, _, rfl⟩
  · exact ⟨_, _, rfl⟩
  · exact ⟨_, opcode_shift h⟩

theorem opcode_rc (h : (0x37 ≤ n ∧ n ≤ 0x39) ∨ (0x50 ≤ n ∧ n ≤ 0x5B)) : ∃ f, opcode n = some (.rc f) := by
  rcases h with ⟨hl, hu⟩ | ⟨hl, hu⟩ <;> interval_cases n <;> exact ⟨_, rfl⟩

theorem opcode_cp (h : 0x80 ≤ n ∧ n ≤ 0x83) : ∃ f, opcode n = some (.cp f) := by
  obtain ⟨hl, hu⟩ := h
  interval_cases n <;> exact ⟨_, rfl⟩

theorem opcode_ma (h : 0x20 ≤ n ∧ n ≤ 0x2B) : ∃ f, opcode n = some (.ma f) := by
  obtain ⟨hl, hu⟩ := h
  interval_cases n <;> exact ⟨_, rfl⟩

theorem opcode_br (h : 0x70 ≤ n ∧ n ≤ 0x75) :
    (∃ f, opcode n = some (.br16 f)) ∨ ∃ f, opcode n = some (.br32 f) := by
  obtain ⟨hl, hu⟩ := h
  interval_cases n
  iterate 3
    · exact .inl ⟨_, rfl⟩
    · exact .inr ⟨_, rfl⟩

theorem opcode_t16 (h : 0x90 ≤ n ∧ n ≤ 0x92) : ∃ f, opcode n = some (.t16 f) := by
  obtain ⟨hl, hu⟩ := h
  interval_cases n <;> exact ⟨_, rfl⟩

end

/-! ## Fields that cannot be read -/

section
variable {bo : ByteOrder} {b k v : Byte} {rest : List Byte} {limit : Nat} {e : DecodeError}

theorem hiNibble_val (b : Byte) : (hiNibble b).val = b.toNat / 16 := by
  have h : b.toNat / 16 < 16 := by omega
  simpa [hiNibble, Nat.shiftRight_eq_div_pow] using Nat.mod_eq_of_lt h

theorem loNibble_val (b : Byte) : (loNibble b).val = b.toNat % 16 := by
  simp [loNibble]

theorem hiNibble_eq_zero : hiNibble b = 0 ↔ b.toNat < 16 := by
  rw [Fin.ext_iff, hiNibble_val]
  exact Nat.div_eq_zero_iff_lt (by decide)

theorem hiNibble_ne_zero (h : 16 ≤ b.toNat) : hiNibble b ≠ 0 := by
  rw [Ne, hiNibble_eq_zero]
  omega

theorem loNibble_eq_zero : loNibble b = 0 ↔ b.toNat % 16 = 0 := by
  rw [Fin.ext_iff, loNibble_val]
  rfl

/-- A register number of 21 to 31 names no register (rule R12). -/
theorem anyRegOf_register (h : 21 ≤ b.toNat) (h' : b.toNat ≤ 31) : anyRegOf b = .error .register := by
  rw [anyRegOf, dif_neg (by omega)]
  split
  iterate 5 omega
  rw [if_pos (by omega)]

theorem anyRegOf_unassigned (h : 32 ≤ b.toNat) : anyRegOf b = .error .unassigned := by
  rw [anyRegOf, dif_neg (by omega)]
  split
  iterate 5 omega
  rw [if_neg (by omega)]

theorem anyRegOf_listed (h : b.toNat ≤ 20) : ∃ r, anyRegOf b = .ok r := by
  rw [anyRegOf]
  split
  · exact ⟨_, rfl⟩
  · split
    iterate 5 exact ⟨_, rfl⟩
    grind

theorem condOf_fifteen : condOf 15 = .error .condition := rfl

theorem readOpt_kind (h : 3 < k.toNat) : readOpt bo (k :: v :: rest) = .error .kind := by
  simp only [readOpt, takeTwo, decode_ok_bind]
  split
  iterate 4 omega
  rfl

theorem readOpt_reg_unassigned (h : 16 ≤ v.toNat) : readOpt bo (0 :: v :: rest) = .error .unassigned := by
  have hz : (hiNibble v == 0) = false := by simpa using hiNibble_ne_zero h
  simp only [readOpt, takeTwo, decode_ok_bind, hz]
  rfl

theorem readOpt_imm_unassigned (hk : k = 2 ∨ k = 3) (h : v ≠ 0) :
    readOpt bo (k :: v :: rest) = .error .unassigned := by
  have hz : (v == 0) = false := by simpa using h
  rcases hk with rfl | rfl <;> simp only [readOpt, takeTwo, decode_ok_bind, hz] <;> rfl

theorem readOptLimited_error (h : readOpt bo rest = .error e) : readOptLimited bo limit rest = .error e := by
  simp [readOptLimited, h]

/-- An imm16 is no limited operand (rule R55). -/
theorem readOptLimited_imm16 (h : 2 ≤ rest.length) : readOptLimited bo limit (2 :: 0 :: rest) = .error .kind := by
  match rest with
  | [] | [_] => simp at h
  | _ :: _ :: _ => rfl

/-- An imm32 is no limited operand (rule R55). -/
theorem readOptLimited_imm32 (h : 4 ≤ rest.length) : readOptLimited bo limit (3 :: 0 :: rest) = .error .kind := by
  match rest with
  | [] | [_] | [_, _] | [_, _, _] => simp at h
  | _ :: _ :: _ :: _ :: _ => rfl

theorem readOptLimited_immediate (h : limit < v.toNat) :
    readOptLimited bo limit (1 :: v :: rest) = .error .immediate := by
  have hv : ¬ v.toNat ≤ limit := by omega
  simp [readOptLimited, readOpt, takeTwo, hv]

variable {r : Reg}

theorem readMode_mode (h : k.toNat ∉ [0x00, 0x01, 0x02, 0x03, 0x10, 0x11, 0x12, 0x13, 0x21, 0x22, 0x23, 0x31, 0x32,
    0x33]) : readMode bo r (k :: v :: rest) = .error .mode := by
  simp only [readMode, takeTwo, decode_ok_bind]
  split
  iterate 14 simp_all
  rfl

theorem readMode_direct_unassigned (hk : k.toNat ≤ 3) (h : r ≠ 0 ∨ v ≠ 0) :
    readMode bo r (k :: v :: rest) = .error .unassigned := by
  have hz : (r == 0 && v == 0) = false := by simpa [Decidable.or_iff_not_imp_left] using h
  have hk : k.toNat = 0 ∨ k.toNat = 1 ∨ k.toNat = 2 ∨ k.toNat = 3 := by omega
  rcases hk with hk | hk | hk | hk <;> simp only [readMode, takeTwo, decode_ok_bind, hk, hz] <;> rfl

theorem readMode_zero_unassigned (hk : k.toNat ∈ [0x10, 0x31, 0x32, 0x33]) (h : v ≠ 0) :
    readMode bo r (k :: v :: rest) = .error .unassigned := by
  have hz : (v == 0) = false := by simpa using h
  simp only [List.mem_cons, List.not_mem_nil, or_false] at hk
  rcases hk with hk | hk | hk | hk <;> simp only [readMode, takeTwo, decode_ok_bind, hk, hz] <;> rfl

theorem readMode_reg_unassigned (hk : k.toNat ∈ [0x11, 0x12, 0x13]) (h : 16 ≤ v.toNat) :
    readMode bo r (k :: v :: rest) = .error .unassigned := by
  have hz : (hiNibble v == 0) = false := by simpa using hiNibble_ne_zero h
  simp only [List.mem_cons, List.not_mem_nil, or_false] at hk
  rcases hk with hk | hk | hk <;> simp only [readMode, takeTwo, decode_ok_bind, hk, hz] <;> rfl

theorem readJmp_mode {d : Reg} (h : k.toNat ∉ [0x02, 0x03, 0x04]) : readJmp bo d r (k :: v :: rest) = .error .mode := by
  simp only [readJmp, takeTwo, decode_ok_bind]
  split
  iterate 3 simp_all
  rfl

theorem readJmp_direct_unassigned {d : Reg} (hk : k.toNat ∈ [0x02, 0x03]) (h : d ≠ 0 ∨ r ≠ 0 ∨ v ≠ 0) :
    readJmp bo d r (k :: v :: rest) = .error .unassigned := by
  have hz : (d == 0 && r == 0 && v == 0) = false := by
    simpa [Decidable.or_iff_not_imp_left] using h
  simp only [List.mem_cons, List.not_mem_nil, or_false] at hk
  rcases hk with hk | hk <;> simp only [readJmp, takeTwo, decode_ok_bind, hk, hz] <;> rfl

theorem readJmp_reg_unassigned {d : Reg} (hk : k.toNat = 0x04) (h : r ≠ 0 ∨ v ≠ 0) :
    readJmp bo d r (k :: v :: rest) = .error .unassigned := by
  have hz : (r == 0 && v == 0) = false := by simpa [Decidable.or_iff_not_imp_left] using h
  simp only [readJmp, takeTwo, decode_ok_bind, hk, hz]
  rfl

end

/-! ## Encodings that the decoder rejects -/

section
variable {bo : ByteOrder} {b0 b1 b2 b3 : Byte} {bs rest : List Byte} {e : DecodeError}

theorem decode_of_opcode {sh : Shape} (h : opcode b0.toNat = some sh) :
    decode bo (b0 :: b1 :: bs) = sh.read bo b1 bs := by
  simp only [decode, h]

theorem decode_no_opcode (h : opcode b0.toNat = none) : decode bo (b0 :: b1 :: bs) = .error .opcode := by
  simp only [decode, h]

theorem decode_imp_unassigned (h : b0.toNat ≤ 0x0D) (h1 : b1 ≠ 0) :
    decode bo (b0 :: b1 :: bs) = .error .unassigned := by
  obtain ⟨i, ho⟩ := opcode_imp h
  have hz : (b1 == 0) = false := by simpa using h1
  simp only [decode_of_opcode ho, Shape.read, hz]
  rfl

theorem decode_reg5_error (h : b0.toNat = 0x10 ∨ b0.toNat = 0x12) (he : anyRegOf b1 = .error e) :
    decode bo (b0 :: b1 :: bs) = .error e := by
  obtain ⟨f, ho⟩ := opcode_reg5 h
  simp only [decode_of_opcode ho, Shape.read, he, decode_error_bind]

theorem decode_ri_unassigned (h : b0.toNat = 0x16 ∨ b0.toNat = 0x17 ∨ b0.toNat = 0x1C) (h1 : b1.toNat % 16 ≠ 0) :
    decode bo (b0 :: b1 :: bs) = .error .unassigned := by
  have hz : (loNibble b1 == 0) = false := by simpa using mt loNibble_eq_zero.1 h1
  rcases opcode_ri h with ⟨f, ho⟩ | ⟨f, ho⟩ <;> simp only [decode_of_opcode ho, Shape.read, hz] <;> rfl

theorem decode_rng_reversed (h : b0.toNat = 0x11 ∨ b0.toNat = 0x13 ∨ b0.toNat = 0x14)
    (h1 : b1.toNat % 16 < b1.toNat / 16) : decode bo (b0 :: b1 :: bs) = .error .range := by
  obtain ⟨f, ho⟩ := opcode_rng h
  have hr : ¬ rangeOk (hiNibble b1) (loNibble b1) = true := by
    rw [rangeOk, decide_eq_true_eq, Fin.le_def, hiNibble_val, loNibble_val]
    omega
  simp only [decode_of_opcode ho, Shape.read, if_neg hr]

/-- `MOV x, y` has the one opcode of format XX. -/
theorem decode_xx (h : b0.toNat = 0x18) :
    decode bo (b0 :: b1 :: bs) = (Shape.xx .movAny).read bo b1 bs :=
  decode_of_opcode (by rw [h]; rfl)

theorem decode_xx_unassigned (h : b0.toNat = 0x18) (h1 : b1 ≠ 0) :
    decode bo (b0 :: b1 :: bs) = .error .unassigned := by
  have hz : (b1 == 0) = false := by simpa using h1
  simp only [decode_xx h, Shape.read, hz]
  rfl

theorem decode_xx_first (h : b0.toNat = 0x18) (h1 : b1 = 0) (he : anyRegOf b2 = .error e) :
    decode bo (b0 :: b1 :: b2 :: b3 :: rest) = .error e := by
  subst h1
  simp [decode_xx h, Shape.read, takeTwo, he]

theorem decode_xx_second (h : b0.toNat = 0x18) (h1 : b1 = 0) (h2 : b2.toNat ≤ 20) (he : anyRegOf b3 = .error e) :
    decode bo (b0 :: b1 :: b2 :: b3 :: rest) = .error e := by
  subst h1
  obtain ⟨x, hx⟩ := anyRegOf_listed h2
  simp [decode_xx h, Shape.read, takeTwo, hx, he]

theorem decode_rcLimited_error {limit : Nat} {f : Reg → Reg → Opt → Instr}
    (ho : opcode b0.toNat = some (.rcLimited limit f)) (he : readOptLimited bo limit bs = .error e) :
    decode bo (b0 :: b1 :: bs) = .error e := by
  simp only [decode_of_opcode ho, Shape.read, he, decode_error_bind]

theorem decode_limited_error (h : b0.toNat = 0x19 ∨ b0.toNat = 0x1A ∨ (0x30 ≤ b0.toNat ∧ b0.toNat ≤ 0x36))
    (he : ∀ limit, readOptLimited bo limit bs = .error e) : decode bo (b0 :: b1 :: bs) = .error e := by
  obtain ⟨limit, f, ho⟩ := opcode_limited h
  exact decode_rcLimited_error ho (he limit)

/-- A third operand that cannot be read, in format RC. -/
theorem decode_rc_error (h : (b0.toNat = 0x19 ∨ b0.toNat = 0x1A ∨ (0x30 ≤ b0.toNat ∧ b0.toNat ≤ 0x36)) ∨
      (0x37 ≤ b0.toNat ∧ b0.toNat ≤ 0x39) ∨ (0x50 ≤ b0.toNat ∧ b0.toNat ≤ 0x5B))
    (he : readOpt bo bs = .error e) : decode bo (b0 :: b1 :: bs) = .error e := by
  rcases h with h | h
  · exact decode_limited_error h fun limit => readOptLimited_error he
  · obtain ⟨f, ho⟩ := opcode_rc h
    simp only [decode_of_opcode ho, Shape.read, he, decode_error_bind]

theorem decode_cp_unassigned (h : 0x80 ≤ b0.toNat ∧ b0.toNat ≤ 0x83) (h1 : 16 ≤ b1.toNat) :
    decode bo (b0 :: b1 :: bs) = .error .unassigned := by
  obtain ⟨f, ho⟩ := opcode_cp h
  have hz : (hiNibble b1 == 0) = false := by simpa using hiNibble_ne_zero h1
  simp only [decode_of_opcode ho, Shape.read, hz]
  rfl

/-- A third operand that cannot be read, in format CP. -/
theorem decode_cp_error (h : (0x80 ≤ b0.toNat ∧ b0.toNat ≤ 0x83) ∧ b1.toNat < 16) (he : readOpt bo bs = .error e) :
    decode bo (b0 :: b1 :: bs) = .error e := by
  obtain ⟨f, ho⟩ := opcode_cp h.1
  simp [decode_of_opcode ho, Shape.read, hiNibble_eq_zero.2 h.2, he]

theorem decode_ma_error (h : 0x20 ≤ b0.toNat ∧ b0.toNat ≤ 0x2B) (he : readMode bo (loNibble b1) bs = .error e) :
    decode bo (b0 :: b1 :: bs) = .error e := by
  obtain ⟨f, ho⟩ := opcode_ma h
  simp only [decode_of_opcode ho, Shape.read, he, decode_error_bind]

theorem decode_jmp_error (h : b0.toNat = 0x2C) (he : readJmp bo (hiNibble b1) (loNibble b1) bs = .error e) :
    decode bo (b0 :: b1 :: bs) = .error e := by
  have ho : opcode b0.toNat = some (.maJmp .jmp) := by rw [h]; rfl
  simp only [decode_of_opcode ho, Shape.read, he, decode_error_bind]

theorem decode_br_unassigned (h : 0x70 ≤ b0.toNat ∧ b0.toNat ≤ 0x75) (h1 : 16 ≤ b1.toNat) :
    decode bo (b0 :: b1 :: bs) = .error .unassigned := by
  have hz : (hiNibble b1 == 0) = false := by simpa using hiNibble_ne_zero h1
  rcases opcode_br h with ⟨f, ho⟩ | ⟨f, ho⟩ <;> simp only [decode_of_opcode ho, Shape.read, hz] <;> rfl

theorem decode_br_condition (h : 0x70 ≤ b0.toNat ∧ b0.toNat ≤ 0x75) :
    decode bo (b0 :: 0x0F :: bs) = .error .condition := by
  rcases opcode_br h with ⟨f, ho⟩ | ⟨f, ho⟩ <;> rw [decode_of_opcode ho] <;> rfl

theorem decode_t16_unassigned (h : 0x90 ≤ b0.toNat ∧ b0.toNat ≤ 0x92) (h1 : b1 ≠ 0) :
    decode bo (b0 :: b1 :: bs) = .error .unassigned := by
  obtain ⟨f, ho⟩ := opcode_t16 h
  have hz : (b1 == 0) = false := by simpa using h1
  simp only [decode_of_opcode ho, Shape.read, hz]
  rfl

theorem decode_seed_unassigned (h : b0.toNat = 0xA1) (h1 : 16 ≤ b1.toNat) :
    decode bo (b0 :: b1 :: bs) = .error .unassigned := by
  have ho : opcode b0.toNat = some (.r1 .seed) := by rw [h]; rfl
  have hz : (hiNibble b1 == 0) = false := by simpa using hiNibble_ne_zero h1
  simp only [decode_of_opcode ho, Shape.read, hz]
  rfl

theorem decode_swi_number (h : b0.toNat = 0x93) (h1 : 31 < b1.toNat) :
    decode bo (b0 :: b1 :: bs) = .error .swiNumber := by
  have ho : opcode b0.toNat = some (.sw5 .swi) := by rw [h]; rfl
  have hn : ¬ b1.toNat ≤ 31 := by omega
  simp only [decode_of_opcode ho, Shape.read, if_neg hn]

/-- A nibble or a byte that is to be 0 and is not, of a mode that leaves the Rs nibble 0. -/
theorem loNibble_ne_zero_or (h : b1.toNat % 16 ≠ 0 ∨ b3 ≠ 0) : loNibble b1 ≠ 0 ∨ b3 ≠ 0 :=
  h.imp_left (mt loNibble_eq_zero.1)

theorem nibbles_ne_zero_or (h : b1 ≠ 0 ∨ b3 ≠ 0) : hiNibble b1 ≠ 0 ∨ loNibble b1 ≠ 0 ∨ b3 ≠ 0 := by
  by_contra! hz
  obtain ⟨hhi, hlo, h3⟩ := hz
  have h1 : b1 = 0 := by
    rw [← nibbles_hi_lo b1, hhi, hlo]
    rfl
  exact h.elim (absurd h1) (absurd h3)

end

/-- Settles O3: each clause is the outcome of the decoder for one format of the clause's opcodes and one field that
cannot be read. -/
theorem illegalEncodings : Obligations.IllegalEncodings := by
  unfold Obligations.IllegalEncodings
  intro bo b0 b1 b2 b3 rest op listed limited rc cp ma result
  have hopt {e : DecodeError} (h : rc ∨ (cp ∧ b1.toNat < 16)) (he : readOpt bo (b2 :: b3 :: rest) = .error e) :
      result = .error e := h.elim (decode_rc_error · he) (decode_cp_error · he)
  refine ⟨fun h => ?_, decode_imp_unassigned, ?_, ?_, decode_ri_unassigned, decode_xx_unassigned, ?_, ?_, ?_, ?_,
    decode_rng_reversed, fun h hk => hopt (.inl h) (readOpt_kind hk), decode_cp_unassigned,
    fun h h1 hk => hopt (.inr ⟨h, h1⟩) (readOpt_kind hk), ?_, ?_, ?_, ?_, ?_, ?_, ?_, ?_, ?_, ?_, ?_, ?_, ?_, ?_,
    decode_br_unassigned, ?_, decode_t16_unassigned, decode_seed_unassigned, decode_swi_number⟩
  · cases ho : opcode b0.toNat with
    | none => exact decode_no_opcode ho
    | some sh => exact absurd (opcode_listed ho) h
  · exact fun h hl hu => decode_reg5_error h (anyRegOf_register hl hu)
  · exact fun h hl => decode_reg5_error h (anyRegOf_unassigned hl)
  · exact fun h h1 hl => decode_xx_first h h1 (anyRegOf_unassigned hl)
  · exact fun h h1 h2 hl => decode_xx_second h h1 h2 (anyRegOf_unassigned hl)
  · exact fun h h1 hl hu => decode_xx_first h h1 (anyRegOf_register hl hu)
  · exact fun h h1 h2 hl hu => decode_xx_second h h1 h2 (anyRegOf_register hl hu)
  · exact fun h h2 h3 => hopt h (h2 ▸ readOpt_reg_unassigned h3)
  · exact fun h h2 h3 => hopt h (readOpt_imm_unassigned h2 h3)
  · rintro h rfl rfl hl
    exact decode_limited_error h fun _ => readOptLimited_imm16 hl
  · rintro h rfl rfl hl
    exact decode_limited_error h fun _ => readOptLimited_imm32 hl
  · rintro h rfl h3
    obtain ⟨f, ho⟩ := opcode_shift h
    exact decode_rcLimited_error ho (readOptLimited_immediate h3)
  · rintro h rfl h3
    have ho : opcode op = some (.rcLimited byteSelLimit .movb) := by rw [h]; rfl
    exact decode_rcLimited_error ho (readOptLimited_immediate h3)
  · rintro h rfl h3
    have ho : opcode op = some (.rcLimited wordSelLimit .movw) := by rw [h]; rfl
    exact decode_rcLimited_error ho (readOptLimited_immediate h3)
  · exact fun h hk => decode_ma_error h (readMode_mode hk)
  · exact fun h hk hz => decode_ma_error h (readMode_direct_unassigned hk (loNibble_ne_zero_or hz))
  · exact fun h hk h3 => decode_ma_error h (readMode_zero_unassigned hk h3)
  · exact fun h hk h3 => decode_ma_error h (readMode_reg_unassigned hk h3)
  · exact fun h hk => decode_jmp_error h (readJmp_mode hk)
  · exact fun h hk hz => decode_jmp_error h (readJmp_direct_unassigned hk (nibbles_ne_zero_or hz))
  · exact fun h hk hz => decode_jmp_error h (readJmp_reg_unassigned hk (loNibble_ne_zero_or hz))
  · rintro h rfl
    exact decode_br_condition h

end Sys2Proof
end

section
/-! Words of the spec's examples, and the third operand (`30_encoding.md` rule R55). -/

namespace Sys2Proof.Machine

/-- Settles O4: the decoder evaluates on each of the words. -/
theorem decodeWrittenWords : Obligations.DecodeWrittenWords := by
  unfold Obligations.DecodeWrittenWords
  exact ⟨rfl, rfl, rfl, rfl, rfl, rfl, rfl, rfl, rfl, rfl, rfl, rfl, rfl, rfl, rfl⟩

/-- A limited third operand is a register or an imm8 up to the limit (rule R55). -/
theorem within_iff {limit : Nat} {o : Opt} :
    o.within limit = true ↔ (∃ k, o = .reg k) ∨ ∃ k, o = .imm8 k ∧ k.toNat ≤ limit := by
  cases o <;> simp [Opt.within]

theorem opt_imm8_toNat (s : State) (b : Byte) : (s.opt (.imm8 b)).toNat = b.toNat :=
  BitVec.toNat_setWidth_of_le (by decide)

theorem opt_imm16_toInt (s : State) (w : Word) : (s.opt (.imm16 w)).toInt = w.toInt :=
  BitVec.toInt_signExtend_of_le (by decide)

/-- Settles O5: the values by the definition of an operand's value, the limits by `within_iff`. -/
theorem optionOperand : Obligations.OptionOperand := by
  unfold Obligations.OptionOperand
  intro s d r ro b w v o
  refine ⟨rfl, opt_imm8_toNat s b, opt_imm16_toInt s w, rfl, rfl, rfl, rfl, rfl, fun h => lenOf_section3 h,
    fun i hi => ?_, within_iff, within_iff⟩
  rcases hi with rfl | rfl | rfl | rfl | rfl | rfl | rfl <;> exact within_iff

end Sys2Proof.Machine
end

section
/-! The implied instructions that write one field of the state or none (`40_implied.md` rules R80 to R91), and a machine
that is halted or waiting (R82, R83). -/

namespace Sys2Proof.Machine

/-! ## One field of the state -/

section
variable {regs : List Reg} {parts : List Part} {stored : List (Nat × Nat)} {s t : State}

theorem Frame.setC (h : Frame regs parts stored s t) (b : Bool) (hp : Part.c ∈ parts) :
    Frame regs parts stored s { t with sr := { t.sr with c := b } } :=
  h.trans { Frame.refl regs parts stored t with c := fun hq => absurd hp hq }

theorem Frame.setV (h : Frame regs parts stored s t) (b : Bool) (hp : Part.v ∈ parts) :
    Frame regs parts stored s { t with sr := { t.sr with v := b } } :=
  h.trans { Frame.refl regs parts stored t with v := fun hq => absurd hp hq }

theorem Frame.setI (h : Frame regs parts stored s t) (b : Bool) (hp : Part.i ∈ parts) :
    Frame regs parts stored s { t with sr := { t.sr with i := b } } :=
  h.trans { Frame.refl regs parts stored t with i := fun hq => absurd hp hq }

theorem Frame.setHalted (h : Frame regs parts stored s t) (b : Bool) (hp : Part.halted ∈ parts) :
    Frame regs parts stored s { t with halted := b } :=
  h.trans { Frame.refl regs parts stored t with halted := fun hq => absurd hp hq }

theorem Frame.setWaiting (h : Frame regs parts stored s t) (b : Bool) (hp : Part.waiting ∈ parts) :
    Frame regs parts stored s { t with waiting := b } :=
  h.trans { Frame.refl regs parts stored t with waiting := fun hq => absurd hp hq }

end

/-! ## Instructions that write one field of SR -/

section
variable {i : Instr} {s : State}

/-- The form of SEC, CLC and NEC. -/
theorem exec_writesC {b : Bool} (h : exec i s = .next (s.withSr (s.lenOf i) { s.sr with c := b })) (hlen : i.len = 2) :
    ∃ t, exec i s = .next t ∧ t.sr.c = b ∧ MovesBy 2 i s t ∧ Frame [] [.c] [] s t :=
  ⟨_, h, rfl, movesBy rfl hlen, ((Frame.refl _ _ _ s).setC b (.head _)).advance _⟩

/-- The form of SEV, CLV and NEV. -/
theorem exec_writesV {b : Bool} (h : exec i s = .next (s.withSr (s.lenOf i) { s.sr with v := b })) (hlen : i.len = 2) :
    ∃ t, exec i s = .next t ∧ t.sr.v = b ∧ MovesBy 2 i s t ∧ Frame [] [.v] [] s t :=
  ⟨_, h, rfl, movesBy rfl hlen, ((Frame.refl _ _ _ s).setV b (.head _)).advance _⟩

/-- The form of EI and DI. -/
theorem exec_writesI {b : Bool} (h : exec i s = .next (s.withSr (s.lenOf i) { s.sr with i := b })) (hlen : i.len = 2) :
    ∃ t, exec i s = .next t ∧ t.sr.i = b ∧ MovesBy 2 i s t ∧ Frame [] [.i] [] s t :=
  ⟨_, h, rfl, movesBy rfl hlen, ((Frame.refl _ _ _ s).setI b (.head _)).advance _⟩

end

/-! ## Encodings -/

/-- An implied instruction is its opcode byte and a byte 0 (rule R54). -/
theorem decode_imp {op : Byte} {i : Instr} (h : opcode op.toNat = some (.imp i)) (bo : ByteOrder) (rest : List Byte) :
    decode bo (op :: 0x00 :: rest) = .ok (i, rest) :=
  decode_ok_iff.2 ⟨op, [0x00], rfl, .imp i, h, .imp i⟩

theorem decode_afh (bo : ByteOrder) (b : Byte) (rest : List Byte) :
    decode bo (0x41 :: b :: rest) = .ok (.afh, rest) :=
  decode_ok_iff.2 ⟨0x41, [b], rfl, .impAny .afh, rfl, .impAny .afh b⟩

/-- Under an admissible encoding enough bytes that begin with `$41` are AFH (rule R50 point 2): in a table AFH's entry
is at their head, whatever follows. -/
theorem read_afh {e : Encoding} (hw : e.wf = true) (bo : ByteOrder) {bs : List Byte} (hhead : bs.head? = some 0x41)
    (hlen : e.len .afh ≤ bs.length) : e.read bo bs = .ok (.afh, bs.drop (e.len .afh)) := by
  cases e with
  | section3 =>
    match bs, hhead, hlen with
    | _ :: b :: rest, rfl, _ => exact decode_afh bo b rest
  | table rows =>
    obtain ⟨-, ⟨r, hr, hafh⟩, -⟩ := tableWf hw
    have hrlen : (Encoding.table rows).len .afh = r.bytes.length := hafh ▸ table_len_row hw hr
    rw [hrlen] at hlen ⊢
    have hrow : rowOf rows bs = some r := rowOf_eq hw hr bs (heads_iff.2 (.inl ⟨hafh, hhead, hlen⟩))
    simp only [Encoding.read, hrow, hafh]

/-! ## Halted or waiting -/

/-- A state that a step leaves as it is, is left so by any number of steps. -/
theorem run_of_step_self {M : Host.Core} {s : M.State} (h : M.step s = .next s) (n : Nat) : M.run n s = .next s := by
  induction n with
  | zero => rfl
  | succ n ih => simp only [Host.Core.run, h, ih]

theorem step_halted {s : State} (h : s.halted = true) : step s = .next s := by
  simp [step, h]

theorem step_waiting {s : State} (hh : s.halted = false) (hw : s.waiting = true) (hp : s.pendingTrap = none) :
    step s = .next s.afterAnswer := by
  simp [step, hh, hw, hp]

/-- The default `IntOracle` asks for no interrupt (rule R6). -/
theorem pendingTrap_never {s : State} (h : s.oracle = .never) : s.pendingTrap = none := by
  have hquiet : s.answer = quietAnswer := by rw [State.answer, h, never_answer]
  have hline (n : Nat) : lineWants s.cfg quietAnswer n = false := by
    rw [lineWants]
    split <;> simp [quietAnswer]
  have hnmi : quietAnswer.nmi = false := rfl
  simp [State.pendingTrap, hquiet, hnmi, hline]

/-- The default `IntOracle` is the same after every answer. -/
theorem afterAnswer_never {s : State} (h : s.oracle = .never) : s.afterAnswer = s := by
  rw [State.afterAnswer, h, never_after, ← h]

/-! ## The statements -/

/-- Settles O8: the branches of `step`, and under the default `IntOracle` an answer that asks for nothing and changes
nothing. -/
theorem haltedAndWaitingStay : Obligations.HaltedAndWaitingStay := by
  unfold Obligations.HaltedAndWaitingStay
  refine ⟨fun n s h => ?_, fun s => step_waiting, fun s hh hw ho => ?_⟩
  · exact run_of_step_self (M := Sys2Proof.core) (step_halted h) n
  · rw [step_waiting hh hw (pendingTrap_never ho), afterAnswer_never ho]

/-- Settles O17: `read_afh` for every encoding, and the advance of `pc` for both instructions. -/
theorem noOperations : Obligations.NoOperations := by
  unfold Obligations.NoOperations
  refine ⟨fun e bo bs hw => read_afh hw bo, fun bo b rest => ?_⟩
  refine ⟨decode_imp rfl bo rest, decode_afh bo b rest, fun s => ?_⟩
  have hframe (n : Nat) : Frame [] [] [] s (s.advance n) := (Frame.refl _ _ _ s).advance n
  exact ⟨⟨_, rfl, movesBy rfl rfl, hframe _⟩, ⟨_, rfl, movesBy rfl rfl, hframe _⟩⟩

/-- Settles O18: four implied encodings, and one write of C or V each. -/
theorem flagSetAndClear : Obligations.FlagSetAndClear := by
  unfold Obligations.FlagSetAndClear
  refine ⟨fun bo rest => ?_, fun s => ?_⟩
  · exact ⟨decode_imp rfl bo rest, decode_imp rfl bo rest, decode_imp rfl bo rest, decode_imp rfl bo rest⟩
  · exact ⟨exec_writesC rfl rfl, exec_writesC rfl rfl, exec_writesV rfl rfl, exec_writesV rfl rfl⟩

/-- Settles O19: one write of a field of SR each, and of `waiting` and `halted`. -/
theorem impliedControls : Obligations.ImpliedControls := by
  unfold Obligations.ImpliedControls
  intro s
  refine ⟨exec_writesC rfl rfl, exec_writesV rfl rfl, exec_writesI rfl rfl, exec_writesI rfl rfl, ?_, ?_⟩
  · exact ⟨_, rfl, rfl, movesBy rfl rfl, ((Frame.refl _ _ _ s).setWaiting true (.head _)).advance _⟩
  · exact ⟨_, rfl, rfl, rfl, (Frame.refl _ _ _ s).setHalted true (.head _)⟩

end Sys2Proof.Machine
end

section
/-! The returns (`40_implied.md` rules R92 to R94), and each of them after the entry it undoes: RTI after a trap
(`60_exceptions.md` rule R264), RTS after a call (`46_branch.md` rules R222, R223) or SWI
(`48_interrupt_instructions.md` rule R243), RTL after a link (`46_branch.md` rules R224, R225). -/

namespace Sys2Proof.Machine

variable {s t u : State}

/-! ## The returns -/

theorem execRts_ok (h : Accessible s .dword s.sp) :
    exec .rts s = .next { s with sp := s.sp + 4, pc := s.datum .dword s.sp.toNat } := by
  show execRts s = _
  rw [execRts, h.pop, ok_bind, finish_ok]

theorem execRti_ok (h1 : Accessible s .dword s.sp) (h2 : Accessible s .dword (s.sp + 4)) :
    exec .rti s = .next { s with
      sp := s.sp + 8, pc := s.datum .dword s.sp.toNat,
      sr := Sr.ofImage s.cfg.srLayout (s.datum .dword (s.sp + 4).toNat) } :=
  (finish_next _ _).2 ((returnFromTrap_ok s _).2 ⟨h1, h2, rfl⟩)

/-- Settles O20: the outcome of each return, inside the frame of the fields it sets. -/
theorem returns : Obligations.Returns := by
  unfold Obligations.Returns
  intro s
  refine ⟨fun h => ?_, ?_, fun h1 h2 => ?_⟩
  · exact ⟨_, execRts_ok h, rfl, rfl,
      ((Frame.refl _ _ _ s).setSp (s.sp + 4) (.head _)).setPc (s.datum .dword s.sp.toNat)⟩
  · exact ⟨_, rfl, rfl, (Frame.refl _ _ _ s).setPc s.lr⟩
  · exact ⟨_, execRti_ok h1 h2, rfl, rfl, rfl,
      (((Frame.refl _ _ _ s).setSp (s.sp + 8) (.head _)).setPc (s.datum .dword s.sp.toNat)).writeSr
        (s.datum .dword (s.sp + 4).toNat) (List.subset_cons_self _ _)⟩

/-! ## RTI after a trap -/

/-- BRK, DBG and SVC each take a trap with return address `pc + 4` (rules R240 to R242). -/
theorem exec_trap {i : Instr} {v : Word} (hi : i = .brk v ∨ i = .dbg v ∨ i = .svc v) (s : State) :
    ∃ kind, exec i s = finish (takeTrap s kind (s.pc + 4)) := by
  rcases hi with rfl | rfl | rfl
  · exact ⟨.abort, rfl⟩
  · exact ⟨.debug, rfl⟩
  · exact ⟨.svc, rfl⟩

/-- RTI undoes the entry of rule R264 where SP and the two stacked Double Words are as the entry left them. -/
theorem rti_after_trap {vector ret : DWord} (ht : TrapTaken s t vector ret) (hroom : TrapRoom s)
    (hl : s.cfg.srLayout.wf = true) (hsp : u.sp = t.sp) (hcfg : u.cfg = t.cfg)
    (hsr : u.datum .dword (s.sp - 4).toNat = t.datum .dword (s.sp - 4).toNat)
    (hpc : u.datum .dword (s.sp - 8).toNat = t.datum .dword (s.sp - 8).toNat) :
    ∃ w, exec .rti u = .next w ∧ w.pc = ret ∧ w.sr = s.sr ∧ w.sp = s.sp := by
  have hc : u.cfg = s.cfg := hcfg.trans ht.frame.cfg
  have hlow : u.sp = s.sp - 8 := hsp.trans ht.sp
  have hhigh : u.sp + 4 = s.sp - 4 := by rw [hlow]; bv_omega
  have hlowOk : Accessible u .dword u.sp := hlow ▸ hroom.2.congr hc
  have hhighOk : Accessible u .dword (u.sp + 4) := hhigh ▸ hroom.1.congr hc
  refine ⟨_, execRti_ok hlowOk hhighOk, ?_, ?_, ?_⟩
  · show u.datum .dword u.sp.toNat = ret
    rw [hlow, hpc, ht.savedPc]
  · show Sr.ofImage u.cfg.srLayout (u.datum .dword (u.sp + 4).toNat) = s.sr
    rw [hhigh, hsr, ht.savedSr, hc, State.srImage, ofImage_image hl]
  · show u.sp + 8 = s.sp
    rw [hlow, BitVec.sub_add_cancel]

/-- Settles O23: each of the three takes a trap as `takeTrap_taken` says, which `rti_after_trap` undoes. -/
theorem trapThenReturn : Obligations.TrapThenReturn := by
  unfold Obligations.TrapThenReturn
  intro s t u i v hi hm hl hroom he hsp hcfg hsr hpc
  obtain ⟨kind, hk⟩ := exec_trap hi s
  rw [hk, finish_next] at he
  exact rti_after_trap (takeTrap_taken s t kind _ hm he) hroom hl hsp hcfg hsr hpc

/-! ## RTS after a call -/

/-- What a taken call does (rules R222, R223). -/
theorem callIf_taken {c : Cond} (hc : s.sr.holds c = true) {off : BrOff} {n : Nat} :
    callIf c off n s = .next t ↔
      Accessible s .dword (s.sp - 4) ∧ t = { s.pushed (s.nextPc n) with pc := s.target off } := by
  rw [callIf, if_pos hc, finish_next, bind_ok]
  constructor
  · rintro ⟨s1, hpush, h⟩
    obtain ⟨hroom, rfl⟩ := (push_ok _ _ _).1 hpush
    exact ⟨hroom, (Except.ok.inj h).symm⟩
  · rintro ⟨hroom, rfl⟩
    exact ⟨_, hroom.push _, rfl⟩

/-- RTS undoes the push of a return address where SP and the stacked Double Word are as the push left them. -/
theorem rts_after_push {ret target : DWord} (hm : memWf s.mem) (hroom : Accessible s .dword (s.sp - 4))
    (ht : t = { s.pushed ret with pc := target }) (hcfg : u.cfg = t.cfg) (hsp : u.sp = t.sp)
    (hslot : u.datum .dword (s.sp - 4).toNat = t.datum .dword (s.sp - 4).toNat) :
    ∃ w, exec .rts u = .next w ∧ w.pc = ret ∧ w.sp = s.sp := by
  subst ht
  have hlow : u.sp = s.sp - 4 := hsp
  have hlowOk : Accessible u .dword u.sp := hlow ▸ hroom.congr hcfg
  refine ⟨_, execRts_ok hlowOk, ?_, ?_⟩
  · show u.datum .dword u.sp.toNat = ret
    rw [hlow, hslot]
    exact datum_pushed hm hroom ret
  · show u.sp + 4 = s.sp
    rw [hlow, BitVec.sub_add_cancel]

/-! ## RTL after a link -/

theorem exec_linkInstr (c : Cond) (off : BrOff) (s : State) :
    exec (linkInstr c off) s = linkIf c off (s.lenOf (linkInstr c off)) s := by
  cases c <;> rfl

/-- What a taken link does (rules R224, R225). -/
theorem linkIf_taken {c : Cond} (hc : s.sr.holds c = true) (off : BrOff) (n : Nat) :
    linkIf c off n s = .next { s with lr := s.nextPc n, pc := s.target off } := by
  rw [linkIf, if_pos hc]

/-- Settles O56: a taken call and SWI push the return address, which `rts_after_push` takes back; a taken link leaves it
in LR, where RTL finds it. -/
theorem callsReturn : Obligations.CallsReturn := by
  unfold Obligations.CallsReturn
  intro s t u i hcfg hm he
  refine ⟨?_, ?_, ?_⟩
  · rintro ⟨c, off, rfl, hc⟩ hsp hslot
    rw [exec_callInstr, callIf_taken hc] at he
    obtain ⟨hroom, ht⟩ := he
    exact rts_after_push hm hroom ht hcfg hsp hslot
  · rintro ⟨n, rfl⟩ hsp hslot
    obtain ⟨hroom, ht⟩ := (takeSwi_ok _ _ _ _).1 ((finish_next _ _).1 he)
    exact rts_after_push hm hroom ht hcfg hsp hslot
  · rintro ⟨c, off, rfl, hc⟩ hlr
    rw [exec_linkInstr, linkIf_taken hc] at he
    obtain rfl := Host.Outcome.next.inj he
    exact ⟨_, rfl, hlr⟩

end Sys2Proof.Machine
end

section
/-! The transfers between registers (`41_transfer.md` rules R105 to R114): MOV, CLR, the selected bytes and Words, MOVT
and the exchange of two registers. -/

namespace Sys2Proof.Machine

/-! ## What the transfers share -/

/-- The end of a transfer to a normal register: one write, then the advance of `pc`. -/
theorem frame_setReg_advance (s : State) (d : Reg) (v : DWord) (n : Nat) :
    Frame [d] [] [] s ((s.setReg d v).advance n) :=
  ((Frame.refl _ _ _ s).setReg d v (.head _)).advance n

/-- The encoder's own bytes encode an instruction; at an instruction of known form they compute. -/
theorem encodes_encode (i : Instr) : Encodes i (fun bo => encode bo i) :=
  fun h bo rest => ⟨rfl, decode_encode bo h rest⟩

/-- The second byte of a range shows that the range is reversed. -/
theorem nibbles_reversed {a b : Reg} (h : b < a) : (nibbles a b).toNat % 16 < (nibbles a b).toNat / 16 := by
  rw [← hiNibble_val, ← loNibble_val, hiNibble_nibbles, loNibble_nibbles]
  exact h

/-! ## Values -/

theorem toNat_lowWord (v : DWord) : (v.extractLsb' 0 16).toNat = v.toNat % 2 ^ 16 := by
  rw [BitVec.extractLsb'_toNat, Nat.shiftRight_zero]

/-- A high Word over a low half, as a number (rules R112, R113). -/
theorem toNat_withHighWord (hi : Word) (v : DWord) :
    (withHighWord hi v).toNat = hi.toNat * 2 ^ 16 + v.toNat % 2 ^ 16 := by
  rw [withHighWord, toNat_append, toNat_lowWord]

/-- Part `n` of the parts of `w` bits of a value, zero-extended (rules R110, R111). -/
theorem toNat_selectedPart (v : DWord) {w : Nat} (hw : w ≤ 32) (n : Nat) :
    ((v.extractLsb' (w * n) w).setWidth 32).toNat = v.toNat / 2 ^ (w * n) % 2 ^ w := by
  rw [BitVec.toNat_setWidth_of_le hw, BitVec.extractLsb'_toNat, Nat.shiftRight_eq_div_pow]

/-! ## MOVB and MOVW -/

/-- What MOVB and MOVW share: part `n` of the parts of `w` bits of Rs, for a selector `n` up to `limit`. -/
def selectPart (limit w len : Nat) (d r : Reg) (o : Opt) (s : State) : Out := finish do
  let n := (s.opt o).toNat
  let (v, s1) ← if n > limit then s.unstatedResult .selectorRange
    else .ok (((s.reg r).extractLsb' (w * n) w).setWidth 32, s)
  .ok ((s1.setReg d v).advance len)

section
variable {s : State} {d r : Reg} {o : Opt}

theorem exec_movb : exec (.movb d r o) s = selectPart 3 8 (s.lenOf (.movb d r o)) d r o s := rfl

theorem exec_movw : exec (.movw d r o) s = selectPart 1 16 (s.lenOf (.movw d r o)) d r o s := rfl

variable {i : Instr} {limit w : Nat}

theorem selectPart_admitted (he : exec i s = selectPart limit w (s.lenOf i) d r o s) (hw : w ≤ 32)
    (hn : (s.opt o).toNat ≤ limit) :
    ∃ t, exec i s = .next t ∧ (t.reg d).toNat = (s.reg r).toNat / 2 ^ (w * (s.opt o).toNat) % 2 ^ w ∧
      MovesOn i s t ∧ Frame [d] [] [] s t := by
  simp only [selectPart, if_neg (Nat.not_lt.2 hn), ok_bind, finish_ok] at he
  refine ⟨_, he, ?_, movesOn rfl, frame_setReg_advance s d _ _⟩
  rw [advance_reg, reg_setReg_same, toNat_selectedPart _ hw]

theorem selectPart_stop (he : exec i s = selectPart limit w (s.lenOf i) d r o s) (hn : limit < (s.opt o).toNat)
    (hu : s.cfg.unstated = .stop) : exec i s = .fault .selectorRange := by
  simp only [he, selectPart, if_pos hn, unstated_stop hu, error_bind, finish_error]

theorem selectPart_free (he : exec i s = selectPart limit w (s.lenOf i) d r o s) (hn : limit < (s.opt o).toNat)
    (hu : s.cfg.unstated = .free) :
    ∃ t, exec i s = .next t ∧ MovesOn i s t ∧ Frame [d] [.draws] [] s t := by
  simp only [selectPart, if_pos hn, unstated_free hu, ok_bind, finish_ok] at he
  have hdraw : Frame [d] [.draws] [] s s.drawDWord.2 := (Frame.refl _ _ _ s).drawDWord (.head _)
  exact ⟨_, he, movesOn rfl, (hdraw.setReg d _ (.head _)).advance _⟩

end

/-! ## SWP -/

/-- The two writes of an exchange, also where they write one register. -/
theorem reg_exchange (s : State) (d r : Reg) :
    ((s.setReg d (s.reg r)).setReg r (s.reg d)).reg d = s.reg r ∧
      ((s.setReg d (s.reg r)).setReg r (s.reg d)).reg r = s.reg d := by
  refine ⟨?_, reg_setReg_same _ r _⟩
  rcases eq_or_ne d r with rfl | hne
  · exact reg_setReg_same _ d _
  · rw [reg_setReg_ne _ r d _ hne, reg_setReg_same]

/-! ## The statements -/

/-- Settles O25: three encodings, and one write of Rd each. -/
theorem moveToRegister : Obligations.MoveToRegister := by
  unfold Obligations.MoveToRegister
  intro d r w v
  refine ⟨encodes_encode (.movReg d r), encodes_encode (.movImm16 d w), encodes_encode (.movImm32 d v), fun s => ?_⟩
  refine ⟨⟨_, rfl, reg_setReg_same s d _, movesBy rfl rfl, frame_setReg_advance s d _ _⟩,
    ⟨_, rfl, ?_, movesBy rfl rfl, frame_setReg_advance s d _ _⟩,
    ⟨_, rfl, reg_setReg_same s d _, movesBy rfl rfl, frame_setReg_advance s d _ _⟩⟩
  rw [advance_reg, reg_setReg_same, BitVec.toNat_setWidth_of_le (by decide)]

/-- Settles O26: the value is what `readAny` reads, and each destination is one case of `writeAny`. -/
theorem moveAny : Obligations.MoveAny := by
  unfold Obligations.MoveAny
  intro s y v hv
  have hread : s.readAny y = v := by
    rw [hv]
    cases y <;> rfl
  have hexec (x : AnyReg) : exec (.movAny x y) s = .next (s.writeAny (s.lenOf (.movAny x y)) x v) := by
    rw [← hread]
    rfl
  refine ⟨fun d => ?_, ?_, ?_, ?_, ?_, ?_⟩
  · exact ⟨_, hexec (.r d), reg_setReg_same s d v, movesBy rfl rfl, frame_setReg_advance s d v _⟩
  · exact ⟨_, hexec .pc, rfl, (Frame.refl _ _ _ s).setPc v⟩
  · exact ⟨_, hexec .sr, rfl, movesBy rfl rfl, ((Frame.refl _ _ _ s).writeSr v (List.Subset.refl _)).advance _⟩
  · exact ⟨_, hexec .sp, rfl, movesBy rfl rfl, ((Frame.refl _ _ _ s).setSp v (.head _)).advance _⟩
  · exact ⟨_, hexec .fp, rfl, movesBy rfl rfl, ((Frame.refl _ _ _ s).setFp v (.head _)).advance _⟩
  · exact ⟨_, hexec .lr, rfl, movesBy rfl rfl, ((Frame.refl _ _ _ s).setLr v (.head _)).advance _⟩

/-- Settles O27: `clearRegs_spec` on the registers of the range; a reversed range is rejected by its second byte. -/
theorem clearRange : Obligations.ClearRange := by
  unfold Obligations.ClearRange
  intro a b
  refine ⟨encodes_encode (.clr a b), fun h bo rest => ?_, fun s => ?_⟩
  · exact decode_rng_reversed (.inr (.inr rfl)) (nibbles_reversed h)
  obtain ⟨hreg, hpc, hframe⟩ := clearRegs_spec (regRange a b) s
  refine ⟨_, rfl, fun k hak hkb => ?_, fun k hk => ?_, movesBy ?_ rfl, hframe.advance _⟩
  · rw [advance_reg, hreg, if_pos ((mem_regRange a b k).2 ⟨hak, hkb⟩)]
  · rw [advance_reg, hreg, if_neg (mt (mem_regRange a b k).1 hk)]
  · rw [advance_pc, State.nextPc, hpc, State.nextPc]

/-- Settles O28: the three outcomes of `selectPart`, with bytes for MOVB and Words for MOVW. -/
theorem byteAndWordSelect : Obligations.ByteAndWordSelect := by
  unfold Obligations.ByteAndWordSelect
  intro s d r o
  exact ⟨selectPart_admitted exec_movb (by decide), selectPart_admitted exec_movw (by decide),
    selectPart_stop exec_movb, selectPart_stop exec_movw, selectPart_free exec_movb, selectPart_free exec_movw⟩

/-- Settles O29: the value of `withHighWord` as a number, and `reg_exchange`. -/
theorem moveTopAndSwap : Obligations.MoveTopAndSwap := by
  unfold Obligations.MoveTopAndSwap
  intro d r w
  refine ⟨encodes_encode (.movtReg d r), encodes_encode (.movtImm d w), encodes_encode (.swpReg d r), fun s => ?_⟩
  refine ⟨⟨_, rfl, ?_, movesBy rfl rfl, frame_setReg_advance s d _ _⟩,
    ⟨_, rfl, ?_, movesBy rfl rfl, frame_setReg_advance s d _ _⟩, ?_⟩
  · rw [advance_reg, reg_setReg_same, toNat_withHighWord, toNat_lowWord]
  · rw [advance_reg, reg_setReg_same, toNat_withHighWord]
  · obtain ⟨hd, hr⟩ := reg_exchange s d r
    have hframe : Frame [d, r] [] [] s ((s.setReg d (s.reg r)).setReg r (s.reg d)) :=
      ((Frame.refl _ _ _ s).setReg d _ (.head _)).setReg r _ (.tail _ (.head _))
    exact ⟨_, rfl, hd, hr, movesBy rfl rfl, hframe.advance _⟩

end Sys2Proof.Machine
end

section
/-! The storage instructions (`42_storage.md` rules R120 to R146): loads, stores, SWP and ADR in every mode, and the
write-back of the data register (rule R121). Each is `Pre`, an action and `Post`; `Acted` says what the state after the
action owes to the first two, and `Acted.ends` what `Post` and the advance of `pc` make of it. -/

namespace Sys2Proof.Machine

/-! ## Values -/

/-- A stored datum reads back as the value modulo its width (rules R35 to R37). -/
theorem toNat_low (w : Width) (v : DWord) : (w.low v).toNat = v.toNat % 2 ^ (8 * w.bytes) := by
  cases w with
  | byte => rw [Width.low, BitVec.toNat_setWidth_of_le (by decide), BitVec.extractLsb'_toNat]; rfl
  | word => rw [Width.low, BitVec.toNat_setWidth_of_le (by decide), BitVec.toNat_setWidth]; rfl
  | dword => exact (Nat.mod_eq_of_lt v.isLt).symm

/-- The sign bit over the low `n` bits, as a number (rules R145, R146). -/
theorem toNat_sign_append (v : DWord) (n : Nat) :
    (v.extractLsb' 31 1 ++ v.extractLsb' 0 n).toNat = v.toNat / 2 ^ 31 * 2 ^ n + v.toNat % 2 ^ n := by
  have hsign : v.toNat / 2 ^ 31 < 2 := by omega
  rw [toNat_append, BitVec.extractLsb'_toNat, BitVec.extractLsb'_toNat, Nat.shiftRight_zero,
    Nat.shiftRight_eq_div_pow, Nat.mod_eq_of_lt hsign]

theorem toNat_low_toSByte (v : DWord) :
    (Width.byte.low ((toSByte v).setWidth 32)).toNat = v.toNat / 2 ^ 31 * 2 ^ 7 + v.toNat % 2 ^ 7 := by
  rw [toNat_low, BitVec.toNat_setWidth_of_le (by decide), ← toNat_sign_append]
  exact Nat.mod_eq_of_lt (toSByte v).isLt

theorem toNat_low_toSWord (v : DWord) :
    (Width.word.low ((toSWord v).setWidth 32)).toNat = v.toNat / 2 ^ 31 * 2 ^ 15 + v.toNat % 2 ^ 15 := by
  rw [toNat_low, BitVec.toNat_setWidth_of_le (by decide), ← toNat_sign_append]
  exact Nat.mod_eq_of_lt (toSWord v).isLt

/-! ## `Pre`, the action, `Post` -/

/-- What the address operand answers, by the columns of rule R132's table: `address_ok` and `address_free`. -/
abbrev formed (s : State) (m : Mode) (clash : Bool) : Access :=
  ⟨effectiveAddress s m, preState s m, postWrite s m, clash⟩

/-- `u` is reached from `s` by `Pre` and an action inside a frame, which leaves `pc` and a Pre-Indexed base alone. -/
structure Acted (s : State) (m : Mode) (regs : List Reg) (parts : List Part) (stored : List (Nat × Nat)) (u : State) :
    Prop where
  pc : u.pc = s.pc
  base : ∀ b off, m = .indexed .pre b off → u.reg b = s.reg b + s.offset off
  frame : Frame regs parts stored s u

section
variable {s u : State} {d : Reg} {m : Mode} {i : Instr} {w : Width} {clash : Bool}
variable {regs : List Reg} {parts : List Part} {stored : List (Nat × Nat)}

theorem acted_preState (hr : writtenBack s m ⊆ regs) : Acted s m regs parts stored (preState s m) :=
  ⟨preState_pc s m, preState_reg_base, Frame.preState hr⟩

theorem Acted.store (h : Acted s m regs parts stored u) (w : Width) (a v : DWord) (hs : (a.toNat, w.bytes) ∈ stored) :
    Acted s m regs parts stored (u.store w a v) :=
  ⟨h.pc, h.base, h.frame.store w a v hs⟩

theorem Acted.drawDWord (h : Acted s m regs parts stored u) (hp : Part.draws ∈ parts) :
    Acted s m regs parts stored u.drawDWord.2 :=
  ⟨h.pc, h.base, h.frame.drawDWord hp⟩

/-- The write of a data register that is not the base written back. -/
theorem Acted.setReg (h : Acted s m regs parts stored u) (hd : ¬ SameRegister s d m) (v : DWord) (hr : d ∈ regs) :
    Acted s m regs parts stored (u.setReg d v) where
  pc := h.pc
  base b off hm := by
    have hne : b ≠ d := by
      rintro rfl
      subst hm
      exact hd rfl
    rw [reg_setReg_ne _ _ _ _ hne, h.base b off hm]
  frame := h.frame.setReg d v hr

/-- After `Post` and the advance of `pc` the instruction has written the base back and moved on. -/
theorem Acted.ends (h : Acted s m regs parts stored u) (hr : writtenBack s m ⊆ regs) (clash : Bool) (i : Instr) :
    let t := ((formed s m clash).afterPost u).advance (s.lenOf i)
    BaseWritten s t m ∧ MovesOn i s t ∧ Frame regs parts stored s t := by
  have hbase : BaseWritten s ((formed s m clash).afterPost u) m := baseWritten_afterPost _ _ _ h.base rfl
  refine ⟨hbase, movesOn ?_, (h.frame.afterPost hr _ _ _).advance _⟩
  simp only [advance_pc, State.nextPc, afterPost_pc, h.pc]

/-- `Post` stores nothing. -/
theorem datum_afterPost (a : Access) (u : State) (w : Width) (x : Nat) :
    (a.afterPost u).datum w x = u.datum w x :=
  datum_congr (afterPost_mem a u) (afterPost_cfg a u) w x

/-- Where the data register is the base written back, it is all that is written (rule R121). -/
theorem writtenBack_same (hd : SameRegister s d m) : writtenBack s m = [d] :=
  congrArg Option.toList hd

/-- A free value in the data register, after `Post` (rule R121 under `free`, log entry 4). -/
theorem Acted.ends_free (h : Acted s m regs parts stored u) (hr : writtenBack s m ⊆ regs) (hd : d ∈ regs)
    (hp : Part.draws ∈ parts) (v : DWord) (i : Instr) :
    let t := ((formed s m true).intoReg u d v).advance (s.lenOf i)
    MovesOn i s t ∧ Frame regs parts stored s t := by
  have hpost : Frame regs parts stored s ((formed s m true).afterPost (u.setReg d v)) :=
    (h.frame.setReg d v hd).afterPost hr _ _ _
  refine ⟨movesOn ?_, ((hpost.drawDWord hp).setReg d _ hd).advance _⟩
  simp only [advance_pc, State.nextPc, Access.intoReg, if_true, setReg_pc, drawDWord_snd_pc, afterPost_pc, h.pc]

/-! ## Outcomes -/

/-- A load under `free` whose data register is the base written back. -/
theorem load_free {n : Nat} {extend : DWord → DWord} (ha : address s d m = .ok (formed s m true))
    (h : Accessible s w (effectiveAddress s m)) :
    ∃ v, load s n w extend d m = .next (((formed s m true).intoReg (preState s m) d v).advance n) := by
  refine ⟨extend (s.datum w (effectiveAddress s m).toNat), ?_⟩
  simp only [load, ha, ok_bind, (h.congr (preState_cfg s m)).read, preState_datum, finish_ok]

/-- A store under `free` whose data register is the base written back. -/
theorem storeReg_free {n : Nat} {narrow : DWord → DWord} (ha : address s d m = .ok (formed s m true))
    (h : Accessible s w (effectiveAddress s m)) :
    ∃ v, storeReg s n w narrow d m = .next (((formed s m true).afterPost
      ((preState s m).drawDWord.2.store w (effectiveAddress s m) v)).advance n) := by
  refine ⟨narrow (preState s m).drawDWord.1, ?_⟩
  have hcfg : (preState s m).drawDWord.2.cfg = s.cfg := preState_cfg s m
  simp only [storeReg, ha, ok_bind, Access.fromReg, if_true, (h.congr hcfg).write, finish_ok]

theorem fromReg_cfg (s : State) (d : Reg) (m : Mode) (clash : Bool) :
    ((formed s m clash).fromReg d).2.cfg = s.cfg := by
  cases clash <;> exact preState_cfg s m

/-- SWP exchanges what `fromReg` puts in memory for the old Double Word (rule R135). -/
theorem exec_swpMem (ha : address s d m = .ok (formed s m clash))
    (h : Accessible s .dword (effectiveAddress s m)) :
    exec (.swpMem d m) s = .next (((formed s m clash).intoReg
      (((formed s m clash).fromReg d).2.store .dword (effectiveAddress s m) ((formed s m clash).fromReg d).1) d
      (s.datum .dword (effectiveAddress s m).toNat)).advance (s.lenOf (.swpMem d m))) := by
  show execSwpMem d m s = _
  simp only [execSwpMem, ha, ok_bind, (h.congr (preState_cfg s m)).read, preState_datum,
    (h.congr (fromReg_cfg s d m clash)).write, finish_ok]

/-- ADR makes no access (rule R136). -/
theorem exec_adr (ha : address s d m = .ok (formed s m clash)) :
    exec (.adr d m) s = .next (((formed s m clash).intoReg (preState s m) d (effectiveAddress s m)).advance
      (s.lenOf (.adr d m))) := by
  show execAdr d m s = _
  simp only [execAdr, ha, ok_bind, finish_ok]

/-- SWP whose base is not Rd. -/
theorem exec_swpMem_distinct (hp : PointerReadable s m) (hd : ¬ SameRegister s d m)
    (h : Accessible s .dword (effectiveAddress s m)) :
    exec (.swpMem d m) s = .next (((formed s m false).afterPost
      (((preState s m).store .dword (effectiveAddress s m) (s.reg d)).setReg d
        (s.datum .dword (effectiveAddress s m).toNat))).advance (s.lenOf (.swpMem d m))) := by
  rw [← preState_reg hd]
  exact exec_swpMem (address_ok hp hd) h

/-- ADR whose base is not Rd. -/
theorem exec_adr_distinct (hp : PointerReadable s m) (hd : ¬ SameRegister s d m) :
    exec (.adr d m) s = .next (((formed s m false).afterPost
      ((preState s m).setReg d (effectiveAddress s m))).advance (s.lenOf (.adr d m))) :=
  exec_adr (address_ok hp hd)

/-! ## Loads -/

/-- What every load does when its base is not Rd and its access is admitted (rules R137 to R141). -/
theorem exec_load {extend : DWord → DWord} (he : exec i s = load s (s.lenOf i) w extend d m) (hp : PointerReadable s m)
    (hd : ¬ SameRegister s d m) (h : Accessible s w (effectiveAddress s m)) :
    ∃ t, exec i s = .next t ∧ t.reg d = extend (s.datum w (effectiveAddress s m).toNat) ∧ BaseWritten s t m ∧
      MovesOn i s t ∧ Frame (d :: writtenBack s m) [] [] s t := by
  have hr : writtenBack s m ⊆ d :: writtenBack s m := List.subset_cons_self _ _
  refine ⟨_, he.trans (load_ok extend hp hd h), ?_, ((acted_preState hr).setReg hd _ (.head _)).ends hr false i⟩
  rw [advance_reg, afterPost_reg hd, reg_setReg_same]

/-- Each of the five loads is `load` at its width. -/
theorem exec_eq_load (hi : (i = .ldr d m ∧ w = .dword) ∨ (i = .ldrb d m ∧ w = .byte) ∨ (i = .ldrw d m ∧ w = .word) ∨
    (i = .ldrbs d m ∧ w = .byte) ∨ (i = .ldrws d m ∧ w = .word)) (s : State) :
    ∃ extend, exec i s = load s (s.lenOf i) w extend d m := by
  rcases hi with ⟨rfl, rfl⟩ | ⟨rfl, rfl⟩ | ⟨rfl, rfl⟩ | ⟨rfl, rfl⟩ | ⟨rfl, rfl⟩
  · exact ⟨id, rfl⟩
  · exact ⟨id, rfl⟩
  · exact ⟨id, rfl⟩
  · exact ⟨fun v => (v.setWidth 8).signExtend 32, rfl⟩
  · exact ⟨fun v => (v.setWidth 16).signExtend 32, rfl⟩

/-! ## Stores -/

/-- What every store does when its base is not Rd and its access is admitted (rules R142 to R146). -/
theorem exec_store {narrow : DWord → DWord} {v : Nat} (he : exec i s = storeReg s (s.lenOf i) w narrow d m)
    (hp : PointerReadable s m) (hd : ¬ SameRegister s d m) (hm : memWf s.mem)
    (hv : (w.low (narrow (s.reg d))).toNat = v) (h : Accessible s w (effectiveAddress s m)) :
    ∃ t, exec i s = .next t ∧ (t.datum w (effectiveAddress s m).toNat).toNat = v ∧ BaseWritten s t m ∧
      MovesOn i s t ∧ Frame (writtenBack s m) [] [((effectiveAddress s m).toNat, w.bytes)] s t := by
  have hr : writtenBack s m ⊆ writtenBack s m := List.Subset.refl _
  refine ⟨_, he.trans (storeReg_ok narrow hp hd h), ?_, ((acted_preState hr).store w _ _ (.head _)).ends hr false i⟩
  obtain ⟨hend, -⟩ := h
  rw [advance_datum, datum_afterPost, datum_store _ _ _ _ (by rwa [preState_mem]) hend, hv]

/-- Each of the five stores is `storeReg` at its width. -/
theorem exec_eq_storeReg (hi : (i = .str d m ∧ w = .dword) ∨ (i = .strb d m ∧ w = .byte) ∨
    (i = .strw d m ∧ w = .word) ∨ (i = .strbs d m ∧ w = .byte) ∨ (i = .strws d m ∧ w = .word)) (s : State) :
    ∃ narrow, exec i s = storeReg s (s.lenOf i) w narrow d m := by
  rcases hi with ⟨rfl, rfl⟩ | ⟨rfl, rfl⟩ | ⟨rfl, rfl⟩ | ⟨rfl, rfl⟩ | ⟨rfl, rfl⟩
  · exact ⟨id, rfl⟩
  · exact ⟨id, rfl⟩
  · exact ⟨id, rfl⟩
  · exact ⟨fun v => (toSByte v).setWidth 32, rfl⟩
  · exact ⟨fun v => (toSWord v).setWidth 32, rfl⟩

end

/-! ## The statements -/

/-- Settles O37: `exec_load` five times; the signed ones narrow the datum before they extend it. -/
theorem loads : Obligations.Loads := by
  unfold Obligations.Loads
  intro s d m hp hd
  have hword (v : DWord) : (v.extractLsb' 0 16).signExtend 32 = (v.setWidth 16).signExtend 32 := by
    rw [BitVec.setWidth_eq_extractLsb' (by decide)]
  have hbyte (b : Byte) : b.signExtend 32 = ((b.setWidth 32).setWidth 8).signExtend 32 := by
    rw [BitVec.setWidth_setWidth_of_le _ (by decide), BitVec.setWidth_eq]
  refine ⟨exec_load (extend := id) rfl hp hd, exec_load (extend := id) rfl hp hd, exec_load (extend := id) rfl hp hd,
    ?_, ?_⟩
  · rw [hbyte]
    exact exec_load (extend := fun v => (v.setWidth 8).signExtend 32) rfl hp hd
  · rw [hword]
    exact exec_load (extend := fun v => (v.setWidth 16).signExtend 32) rfl hp hd

/-- Settles O38: `exec_store` five times, with the number each narrowing gives. -/
theorem stores : Obligations.Stores := by
  unfold Obligations.Stores
  intro s d m hp hd hm
  refine ⟨exec_store (narrow := id) rfl hp hd hm rfl, exec_store (narrow := id) rfl hp hd hm (toNat_low .byte _),
    exec_store (narrow := id) rfl hp hd hm (toNat_low .word _), ?_, ?_⟩
  · exact exec_store (narrow := fun v => (toSByte v).setWidth 32) rfl hp hd hm (toNat_low_toSByte _)
  · exact exec_store (narrow := fun v => (toSWord v).setWidth 32) rfl hp hd hm (toNat_low_toSWord _)

/-- Settles O39: the register written last is Rd, and the Double Word stored reads back. -/
theorem swapAndAddress : Obligations.SwapAndAddress := by
  unfold Obligations.SwapAndAddress
  intro s d m hp hd
  have hr : writtenBack s m ⊆ d :: writtenBack s m := List.subset_cons_self _ _
  refine ⟨fun h hm => ⟨_, exec_swpMem_distinct hp hd h, ?_, ?_, ?_⟩, _, exec_adr_distinct hp hd, ?_, ?_⟩
  · rw [advance_reg, afterPost_reg hd, reg_setReg_same]
  · obtain ⟨hend, -⟩ := h
    rw [advance_datum, datum_afterPost, setReg_datum, datum_store_dword _ _ _ (by rwa [preState_mem]) hend]
  · exact (((acted_preState hr).store .dword _ _ (.head _)).setReg hd _ (.head _)).ends hr false (.swpMem d m)
  · rw [advance_reg, afterPost_reg hd, reg_setReg_same]
  · exact ((acted_preState hr).setReg hd _ (.head _)).ends hr false (.adr d m)

/-- Settles O40: under `stop` no address is formed; under `free` a drawn value takes the place of the one that is not
stated, after `Post` in the register and before the store in memory. -/
theorem writeBackSameRegister : Obligations.WriteBackSameRegister := by
  unfold Obligations.WriteBackSameRegister
  intro s d m hd
  have hr : writtenBack s m ⊆ [d] := by simp [writtenBack_same hd]
  refine ⟨fun hstop i => storage_address_error (address_stop hd hstop), fun hfree => ?_⟩
  have ha : address s d m = .ok (formed s m true) := address_free hd hfree
  refine ⟨fun i w hi h => ?_, fun i w hi h => ?_, fun h => ?_, ?_⟩
  · obtain ⟨extend, he⟩ := exec_eq_load hi s
    obtain ⟨v, hload⟩ := load_free (extend := extend) ha h
    exact ⟨_, he.trans hload, (acted_preState hr).ends_free hr (.head _) (.head _) v i⟩
  · obtain ⟨narrow, he⟩ := exec_eq_storeReg hi s
    obtain ⟨v, hstore⟩ := storeReg_free (narrow := narrow) ha h
    exact ⟨_, he.trans hstore, (((acted_preState hr).drawDWord (.head _)).store w _ v (.head _)).ends hr true i⟩
  · exact ⟨_, exec_swpMem ha h,
      (((acted_preState hr).drawDWord (.head _)).store .dword _ _ (.head _)).ends_free hr (.head _) (.head _) _ _⟩
  · exact ⟨_, exec_adr ha, (acted_preState hr).ends_free hr (.head _) (.head _) _ _⟩

end Sys2Proof.Machine
end

section
/-! The bitwise instructions (`43_bitwise.md` rules R147 to R165): shifts and rotates within a Double Word and through
Carry, the logical operations, the counts of zeros and the reversals, and the operands for which no source states a
result, those of the divisions among them (`44_arithmetic.md` rules R176 to R179). -/

namespace Sys2Proof.Machine

/-! ## Shifted and rotated values -/

theorem shiftLeft_eq_ofNat (v : DWord) (n : Nat) : v <<< n = BitVec.ofNat 32 (v.toNat * 2 ^ n) := by
  apply BitVec.eq_of_toNat_eq
  rw [BitVec.toNat_shiftLeft, BitVec.toNat_ofNat, Nat.shiftLeft_eq]

theorem ushiftRight_eq_ofNat (v : DWord) (n : Nat) : v >>> n = BitVec.ofNat 32 (v.toNat / 2 ^ n) := by
  apply BitVec.eq_of_toNat_eq
  have hlt : v.toNat / 2 ^ n < 2 ^ 32 := (Nat.div_le_self _ _).trans_lt v.isLt
  rw [BitVec.toNat_ushiftRight, BitVec.toNat_ofNat, Nat.shiftRight_eq_div_pow, Nat.mod_eq_of_lt hlt]

theorem sshiftRight_eq_ofInt (v : DWord) (n : Nat) : v.sshiftRight n = BitVec.ofInt 32 (v.toInt / 2 ^ n) := by
  rw [BitVec.sshiftRight_eq, Int.shiftRight_eq_div_pow, Nat.cast_pow, Nat.cast_ofNat]

theorem rotateLeft_zero {w : Nat} (x : BitVec w) : x.rotateLeft 0 = x := by
  rw [BitVec.rotateLeft_def, Nat.zero_mod, Nat.sub_zero, BitVec.shiftLeft_zero, BitVec.ushiftRight_eq_zero le_rfl,
    BitVec.or_zero]

theorem rotateRight_zero {w : Nat} (x : BitVec w) : x.rotateRight 0 = x := by
  rw [BitVec.rotateRight_def, Nat.zero_mod, Nat.sub_zero, BitVec.ushiftRight_zero, BitVec.shiftLeft_eq_zero le_rfl,
    BitVec.or_zero]

theorem rotateLeft_eq_or (v : DWord) (n : Nat) : v.rotateLeft n = if n % 32 = 0 then v else
    BitVec.ofNat 32 (v.toNat * 2 ^ (n % 32)) ||| BitVec.ofNat 32 (v.toNat / 2 ^ (32 - n % 32)) := by
  rw [← BitVec.rotateLeft_mod_eq_rotateLeft]
  split
  · next h => rw [h, rotateLeft_zero]
  · rw [BitVec.rotateLeft_def, Nat.mod_mod, shiftLeft_eq_ofNat, ushiftRight_eq_ofNat]

theorem rotateRight_eq_or (v : DWord) (n : Nat) : v.rotateRight n = if n % 32 = 0 then v else
    BitVec.ofNat 32 (v.toNat / 2 ^ (n % 32)) ||| BitVec.ofNat 32 (v.toNat * 2 ^ (32 - n % 32)) := by
  rw [← BitVec.rotateRight_mod_eq_rotateRight]
  split
  · next h => rw [h, rotateRight_zero]
  · rw [BitVec.rotateRight_def, Nat.mod_mod, shiftLeft_eq_ofNat, ushiftRight_eq_ofNat]

/-! ## The ring of Carry and Rs -/

/-- One place to the left in the 33-bit ring, as a number (rule R154). -/
def ringLeft (x : Nat) : Nat := x * 2 % 2 ^ 33 + x / 2 ^ 32

/-- One place to the right in the 33-bit ring, as a number (rule R155). -/
def ringRight (x : Nat) : Nat := x / 2 + x % 2 * 2 ^ 32

theorem toNat_rotateLeft_one (x : BitVec 33) : (x.rotateLeft 1).toNat = ringLeft x.toNat := by
  have hout : x.toNat / 2 ^ 32 < 2 ^ 1 := by omega
  have hlow : x.toNat * 2 % 2 ^ 33 = (x.toNat % 2 ^ 32) <<< 1 := by omega
  calc (x.rotateLeft 1).toNat
      = x.toNat * 2 % 2 ^ 33 ||| x.toNat / 2 ^ 32 := by
        rw [BitVec.toNat_rotateLeft, Nat.shiftLeft_eq, Nat.shiftRight_eq_div_pow]
    _ = ringLeft x.toNat := by
        rw [ringLeft, hlow, Nat.shiftLeft_add_eq_or_of_lt hout]

theorem toNat_rotateRight_one (x : BitVec 33) : (x.rotateRight 1).toNat = ringRight x.toNat := by
  have hrest : x.toNat / 2 < 2 ^ 32 := by omega
  have hout : x.toNat * 2 ^ 32 % 2 ^ 33 = (x.toNat % 2) <<< 32 := by omega
  calc (x.rotateRight 1).toNat
      = x.toNat / 2 ||| x.toNat * 2 ^ 32 % 2 ^ 33 := by
        rw [BitVec.toNat_rotateRight, Nat.shiftLeft_eq, Nat.shiftRight_eq_div_pow]
    _ = ringRight x.toNat := by
        rw [ringRight, hout, Nat.or_comm, ← Nat.shiftLeft_add_eq_or_of_lt hrest, Nat.shiftLeft_eq, Nat.add_comm]

theorem rotateLeft_succ {w : Nat} (x : BitVec w) (n : Nat) : x.rotateLeft (n + 1) = (x.rotateLeft n).rotateLeft 1 := by
  apply BitVec.eq_of_getMsbD_eq
  intro i hi
  have hlt : (1 + i) % w < w := Nat.mod_lt _ (Nat.zero_lt_of_lt hi)
  simp only [BitVec.getMsbD_rotateLeft, hi, hlt, decide_true, Bool.true_and, Nat.add_mod_mod, Nat.add_assoc]

theorem getLsbD_rotateRight_mod {w : Nat} (x : BitVec w) (n : Nat) {i : Nat} (hi : i < w) :
    (x.rotateRight n).getLsbD i = x.getLsbD ((n + i) % w) := by
  have hn : n % w < w := Nat.mod_lt _ (Nat.zero_lt_of_lt hi)
  have hplace : (n + i) % w = if i < w - n % w then n % w + i else i - (w - n % w) := by
    rw [← Nat.mod_add_mod]
    split
    · exact Nat.mod_eq_of_lt (by omega)
    · rw [Nat.mod_eq_sub_mod (by omega), Nat.mod_eq_of_lt (by omega)]
      omega
  rw [BitVec.getLsbD_rotateRight, hplace, decide_eq_true hi, Bool.true_and]
  split <;> simp [*]

theorem rotateRight_succ {w : Nat} (x : BitVec w) (n : Nat) :
    x.rotateRight (n + 1) = (x.rotateRight n).rotateRight 1 := by
  apply BitVec.eq_of_getLsbD_eq
  intro i hi
  have hlt : (1 + i) % w < w := Nat.mod_lt _ (Nat.zero_lt_of_lt hi)
  rw [getLsbD_rotateRight_mod _ _ hi, getLsbD_rotateRight_mod _ _ hi, getLsbD_rotateRight_mod _ _ hlt,
    Nat.add_mod_mod, Nat.add_assoc]

/-- A rotation by `n` places is `n` rotations by one place. -/
theorem toNat_rotateLeft_iterate (x : BitVec 33) (n : Nat) : (x.rotateLeft n).toNat = ringLeft^[n] x.toNat := by
  induction n with
  | zero => rw [rotateLeft_zero, Function.iterate_zero, id]
  | succ n ih => rw [rotateLeft_succ, toNat_rotateLeft_one, ih, Function.iterate_succ_apply']

theorem toNat_rotateRight_iterate (x : BitVec 33) (n : Nat) : (x.rotateRight n).toNat = ringRight^[n] x.toNat := by
  induction n with
  | zero => rw [rotateRight_zero, Function.iterate_zero, id]
  | succ n ih => rw [rotateRight_succ, toNat_rotateRight_one, ih, Function.iterate_succ_apply']

/-! ## Counts of zeros -/

/-- The first number below `n` that satisfies `p`, or `n` if there is none. -/
theorem findIdx_range_spec (p : Nat → Bool) (n : Nat) :
    (List.range n).findIdx p ≤ n ∧ (∀ j, j < (List.range n).findIdx p → p j = false) ∧
      ((List.range n).findIdx p < n → p ((List.range n).findIdx p) = true) := by
  have hlen : (List.range n).length = n := List.length_range
  refine ⟨List.findIdx_le_length.trans_eq hlen, fun j hj => ?_, fun h => ?_⟩
  · have hbefore := List.not_of_lt_findIdx hj
    rwa [List.getElem_range] at hbefore
  · have hfound := List.findIdx_getElem (p := p) (w := h.trans_eq hlen.symm)
    rwa [List.getElem_range] at hfound

/-! ## Reversed bytes and Words -/

theorem reverseBytes_byte (v : DWord) {j : Nat} (hj : j < 4) :
    (reverseBytes v).extractLsb' (8 * j) 8 = v.extractLsb' (8 * (3 - j)) 8 := by
  obtain rfl | rfl | rfl | rfl : j = 0 ∨ j = 1 ∨ j = 2 ∨ j = 3 := by omega
  · exact BitVec.extractLsb'_append_eq_right
  · exact (BitVec.extractLsb'_append_eq_of_le (by decide)).trans BitVec.extractLsb'_append_eq_right
  · exact (BitVec.extractLsb'_append_eq_of_le (by decide)).trans
      ((BitVec.extractLsb'_append_eq_of_le (by decide)).trans BitVec.extractLsb'_append_eq_right)
  · exact (BitVec.extractLsb'_append_eq_of_le (by decide)).trans
      ((BitVec.extractLsb'_append_eq_of_le (by decide)).trans BitVec.extractLsb'_append_eq_left)

theorem exchangeWords_word (v : DWord) {j : Nat} (hj : j < 2) :
    (exchangeWords v).extractLsb' (16 * j) 16 = v.extractLsb' (16 * (1 - j)) 16 := by
  obtain rfl | rfl : j = 0 ∨ j = 1 := by omega
  · exact BitVec.extractLsb'_append_eq_right
  · exact BitVec.extractLsb'_append_eq_left

/-! ## Outcomes -/

section
variable {s t : State} {d r : Reg} {o : Opt} {i : Instr} {v : DWord} {n : Nat}

/-- A bitwise instruction whose result is always stated. -/
theorem bitwise_result (he : exec i s = .next (bitwise s (s.lenOf i) d v .drawn)) : DataResult i s d v none :=
  dataResult_drawn rfl rfl rfl (Frame.refl _ _ _ s) rfl he

/-- RCL and RCR complete: Rd is the result, C the bit given, and nothing else of SR changes under `keep`; under `set` N
and Z follow the result (rules R23, R154, R155). -/
def CarryResult (i : Instr) (s : State) (d : Reg) (v : DWord) (c : Bool) : Prop :=
  ∃ t, exec i s = .next t ∧ t.reg d = v ∧ t.sr.c = c ∧ MovesOn i s t ∧ Frame [d] aluParts [] s t ∧
    (s.cfg.aluFlags = .keep → t.sr = { s.sr with c := c }) ∧
    (s.cfg.aluFlags = .set → t.sr.n = (t.reg d).getLsbD 31 ∧ (t.sr.z = true ↔ t.reg d = 0))

theorem aluFlags_carry_c (s : State) (v : DWord) (c : Bool) : (s.aluFlags v (.carry c)).sr.c = c := by
  simp only [State.aluFlags]
  cases s.cfg.aluFlags <;> rfl

theorem aluFlags_set_nz (h : s.cfg.aluFlags = .set) (v : DWord) (rule : CVRule) :
    (s.aluFlags v rule).sr.n = v.getLsbD 31 ∧ ((s.aluFlags v rule).sr.z = true ↔ v = 0) := by
  cases rule <;> simp [State.aluFlags, h, BitVec.msb_eq_getLsbD_last]

/-- The end of RCL and RCR, on a state `t` that differs from `s` in the drawn values at most. -/
theorem carryResult_of_exec {c : Bool} (hc : t.cfg = s.cfg) (hs : t.sr = s.sr) (hpc : t.pc = s.pc)
    (hf : Frame [d] aluParts [] s t) (he : exec i s = .next (bitwise t (s.lenOf i) d v (.carry c))) :
    CarryResult i s d v c := by
  have hreg : (bitwise t (s.lenOf i) d v (.carry c)).reg d = v := reg_setReg_same t d v
  refine ⟨_, he, hreg, aluFlags_carry_c _ v c, movesOn (congrArg (· + _) hpc),
    ((hf.setReg d v (.head _)).aluFlags v _ (List.Subset.refl _)).advance _, fun hk => ?_, fun hset => ?_⟩
  · rw [← hs, bitwise, advance_sr, aluFlags_keep (hc ▸ hk), setReg_sr]
  · rw [hreg]
    exact aluFlags_set_nz (s := t.setReg d v) (hc ▸ hset) v _

theorem rotateCarry_ok {f : BitVec 33 → Nat → BitVec 33} (he : exec i s = rotateCarry s (s.lenOf i) f d r o)
    (hn : (s.opt o).toNat ≤ 32) :
    let x := (f (BitVec.cons s.sr.c (s.reg r)) (s.opt o).toNat).toNat
    CarryResult i s d (BitVec.ofNat 32 x) (x.testBit 32) := by
  refine carryResult_of_exec rfl rfl rfl (Frame.refl _ _ _ s) ?_
  rw [he, rotateCarry, if_neg (Nat.not_lt.2 hn), finish_ok, BitVec.ofNat_toNat, BitVec.msb_eq_getLsbD_last]
  rfl

theorem rotateCarry_stop (f : BitVec 33 → Nat → BitVec 33) (h : s.cfg.unstated = .stop) (hn : 32 < (s.opt o).toNat) :
    rotateCarry s n f d r o = .fault .shiftRange := by
  simp only [rotateCarry, if_pos hn, unstated_stop h, error_bind, finish_error]

theorem rotateCarry_free {f : BitVec 33 → Nat → BitVec 33} (he : exec i s = rotateCarry s (s.lenOf i) f d r o)
    (h : s.cfg.unstated = .free) : ∃ v c, CarryResult i s d v c := by
  by_cases hn : 32 < (s.opt o).toNat
  · refine ⟨s.drawDWord.1, s.drawDWord.2.drawBit.1, carryResult_of_exec (t := s.drawDWord.2.drawBit.2) rfl rfl rfl
      (((Frame.refl _ _ _ s).drawDWord (by simp [aluParts])).drawBit (by simp [aluParts])) ?_⟩
    rw [he]
    simp only [rotateCarry, if_pos hn, unstated_free h, ok_bind]
    rfl
  · exact ⟨_, _, rotateCarry_ok he (Nat.not_lt.1 hn)⟩

/-! ## The instructions of each shared operation -/

theorem exec_eq_shift (hi : i = .lsl d r o ∨ i = .lsr d r o ∨ i = .rol d r o ∨ i = .ror d r o ∨ i = .asr d r o)
    (s : State) : ∃ f, exec i s = shift s (s.lenOf i) f d r o := by
  rcases hi with rfl | rfl | rfl | rfl | rfl
  · exact ⟨fun v n => v <<< n, rfl⟩
  · exact ⟨fun v n => v >>> n, rfl⟩
  · exact ⟨BitVec.rotateLeft, rfl⟩
  · exact ⟨BitVec.rotateRight, rfl⟩
  · exact ⟨BitVec.sshiftRight, rfl⟩

theorem exec_eq_rotateCarry (hi : i = .rcl d r o ∨ i = .rcr d r o) (s : State) :
    ∃ f, exec i s = rotateCarry s (s.lenOf i) f d r o := by
  rcases hi with rfl | rfl
  · exact ⟨BitVec.rotateLeft, rfl⟩
  · exact ⟨BitVec.rotateRight, rfl⟩

theorem exec_eq_divide_unsigned (hi : i = .div d r o ∨ i = .rem d r o) (s : State) :
    ∃ f, exec i s = divide s (s.lenOf i) unsignedCorner f d r o := by
  rcases hi with rfl | rfl
  · exact ⟨fun a b => BitVec.ofNat 32 (a.toNat / b.toNat), rfl⟩
  · exact ⟨fun a b => BitVec.ofNat 32 (a.toNat % b.toNat), rfl⟩

theorem exec_eq_divide_signed (hi : i = .divs d r o ∨ i = .rems d r o) (s : State) :
    ∃ f, exec i s = divide s (s.lenOf i) signedCorner f d r o := by
  rcases hi with rfl | rfl
  · exact ⟨fun a b => BitVec.ofInt 32 (a.toInt.tdiv b.toInt), rfl⟩
  · exact ⟨fun a b => BitVec.ofInt 32 (a.toInt - b.toInt * a.toInt.tdiv b.toInt), rfl⟩

theorem unsignedCorner_zero (a : DWord) : unsignedCorner a 0 = some .divideByZero := rfl

theorem signedCorner_zero (a : DWord) : signedCorner a 0 = some .divideByZero := rfl

theorem signedCorner_overflow {a b : DWord} (ha : a.toInt = -2 ^ 31) (hb : b.toInt = -1) :
    signedCorner a b = some .divideOverflow := by
  rw [signedCorner, if_neg (by omega), if_pos ⟨ha, hb⟩]

/-- The divisions and remainders; a divisor of 0 is a corner of each. -/
theorem exec_eq_divide (hi : i = .div d r o ∨ i = .divs d r o ∨ i = .rem d r o ∨ i = .rems d r o) (s : State) :
    ∃ corner f, exec i s = divide s (s.lenOf i) corner f d r o ∧ ∀ a, corner a 0 = some .divideByZero := by
  have hsplit : (i = .div d r o ∨ i = .rem d r o) ∨ (i = .divs d r o ∨ i = .rems d r o) := by tauto
  rcases hsplit with hi | hi
  · obtain ⟨f, he⟩ := exec_eq_divide_unsigned hi s
    exact ⟨_, f, he, unsignedCorner_zero⟩
  · obtain ⟨f, he⟩ := exec_eq_divide_signed hi s
    exact ⟨_, f, he, signedCorner_zero⟩

/-- -2^31 divided by -1 (rules R177, R179). -/
theorem divide_overflow (hi : i = .divs d r o ∨ i = .rems d r o) (hstop : s.cfg.unstated = .stop)
    (ha : (s.reg r).toInt = -2 ^ 31) (hb : (s.opt o).toInt = -1) : exec i s = .fault .divideOverflow := by
  obtain ⟨f, he⟩ := exec_eq_divide_signed hi s
  exact he.trans (divide_stop f hstop (signedCorner_overflow ha hb))

end

/-! ## The statements -/

/-- Settles O41: `shift_ok` five times, with each shifted or rotated value as a number. -/
theorem shiftsAndRotates : Obligations.ShiftsAndRotates := by
  unfold Obligations.ShiftsAndRotates
  intro d r o
  refine ⟨encodes_encode (.lsl d r o), encodes_encode (.lsr d r o), encodes_encode (.rol d r o),
    encodes_encode (.ror d r o), encodes_encode (.asr d r o), fun s => ?_⟩
  dsimp only
  rw [← shiftLeft_eq_ofNat, ← ushiftRight_eq_ofNat, ← sshiftRight_eq_ofInt, ← rotateLeft_eq_or, ← rotateRight_eq_or]
  exact fun hn => ⟨shift_ok (fun v n => v <<< n) rfl rfl hn, shift_ok (fun v n => v >>> n) rfl rfl hn,
    shift_ok BitVec.sshiftRight rfl rfl hn, shift_ok BitVec.rotateLeft rfl rfl hn,
    shift_ok BitVec.rotateRight rfl rfl hn⟩

/-- Settles O42: the ring as a number, rotated as `toNat_rotateLeft_iterate` and `toNat_rotateRight_iterate` say. -/
theorem rotatesThroughCarry : Obligations.RotatesThroughCarry := by
  unfold Obligations.RotatesThroughCarry
  intro s d r o n x0 left right rotated hn
  have hring : (BitVec.cons s.sr.c (s.reg r)).toNat = x0 := by
    rw [BitVec.toNat_cons', Nat.shiftLeft_eq]
  have hleft : ((BitVec.cons s.sr.c (s.reg r)).rotateLeft n).toNat = left := by
    rw [toNat_rotateLeft_iterate, hring]
    rfl
  have hright : ((BitVec.cons s.sr.c (s.reg r)).rotateRight n).toNat = right := by
    rw [toNat_rotateRight_iterate, hring]
    rfl
  rw [← hleft, ← hright]
  exact ⟨rotateCarry_ok (i := .rcl d r o) (f := BitVec.rotateLeft) rfl hn,
    rotateCarry_ok (i := .rcr d r o) (f := BitVec.rotateRight) rfl hn⟩

/-- Settles O43: `bitwise_result` four times, and the bits of each result. -/
theorem logicalOperations : Obligations.LogicalOperations := by
  unfold Obligations.LogicalOperations
  intro d r o
  refine ⟨encodes_encode (.and d r o), encodes_encode (.orr d r o), encodes_encode (.eor d r o),
    encodes_encode (.not d r), fun s => ?_⟩
  refine ⟨_, _, _, _, bitwise_result rfl, bitwise_result rfl, bitwise_result rfl, bitwise_result rfl, fun k hk => ?_⟩
  refine ⟨BitVec.getLsbD_and, BitVec.getLsbD_or, BitVec.getLsbD_xor, ?_⟩
  rw [BitVec.getLsbD_not, decide_eq_true hk, Bool.true_and]

/-- Settles O44: each count is the first place of a 1, from bit 31 down and from bit 0 up. -/
theorem countZeros : Obligations.CountZeros := by
  unfold Obligations.CountZeros
  intro d r
  refine ⟨encodes_encode (.clz d r), encodes_encode (.ctz d r), fun s => ?_⟩
  obtain ⟨hle, hzeros, hone⟩ := findIdx_range_spec (fun k => (s.reg r).getLsbD (31 - k)) 32
  exact ⟨leadingZeros (s.reg r), trailingZeros (s.reg r), bitwise_result rfl, bitwise_result rfl, hle, hzeros, hone,
    findIdx_range_spec (fun k => (s.reg r).getLsbD k) 32⟩

/-- Settles O45: `bitwise_result` three times, and the bits, bytes and Words of the results. -/
theorem reversals : Obligations.Reversals := by
  unfold Obligations.Reversals
  intro d r
  refine ⟨encodes_encode (.rbit d r), encodes_encode (.revb d r), encodes_encode (.revv d r), fun s => ?_⟩
  refine ⟨_, _, _, bitwise_result rfl, bitwise_result rfl, bitwise_result rfl, fun k hk => ?_,
    fun j => reverseBytes_byte _, fun j => exchangeWords_word _⟩
  rw [BitVec.getLsbD_reverse, BitVec.getMsbD, decide_eq_true hk, Bool.true_and]

/-- Settles O48: the fault of each shared operation under `stop`, and its end on a drawn result under `free`. -/
theorem unstatedResults : Obligations.UnstatedResults := by
  unfold Obligations.UnstatedResults
  intro s d r o a b rotates shifts divides
  refine ⟨fun hstop => ⟨fun hn i hi => ?_, fun hb i hi => ?_, fun ha hb => ?_⟩, fun hfree => ⟨fun i hi => ?_,
    fun i hi => ?_⟩⟩
  · rcases hi with hi | hi
    · obtain ⟨f, he⟩ := exec_eq_shift hi s
      exact he.trans (shift_stop f hstop hn)
    · obtain ⟨f, he⟩ := exec_eq_rotateCarry hi s
      exact he.trans (rotateCarry_stop f hstop hn)
  · obtain ⟨corner, f, he, hzero⟩ := exec_eq_divide hi s
    exact he.trans (divide_stop f hstop ((congrArg (corner a) hb).trans (hzero a)))
  · exact ⟨divide_overflow (.inl rfl) hstop ha hb, divide_overflow (.inr rfl) hstop ha hb⟩
  · rcases hi with hi | hi
    · obtain ⟨f, he⟩ := exec_eq_shift hi s
      exact shift_free f he rfl hfree
    · obtain ⟨corner, f, he, -⟩ := exec_eq_divide hi s
      exact divide_free f he rfl hfree
  · obtain ⟨f, he⟩ := exec_eq_rotateCarry hi s
    obtain ⟨v, c, t, hexec, -, hc, hmoves, hframe, hkeep, hset⟩ := rotateCarry_free he hfree
    refine ⟨t, hexec, hmoves, hframe, hset, fun hk => ?_⟩
    rw [hc]
    exact hkeep hk

end Sys2Proof.Machine
end

section
/-! The arithmetic instructions (`44_arithmetic.md` rules R166 to R185): sums and differences with Carry and borrow,
quotients and remainders where their rules give a result, products and absolute values. -/

namespace Sys2Proof.Machine

/-! ## Sums and differences as integers -/

theorem ofInt_toNat_add_carry (a b : DWord) (c : Bool) :
    BitVec.ofInt 32 ((a.toNat : Int) + b.toNat + c.toNat) = a + b + carryIn c := by
  rw [BitVec.ofInt_add, ofInt_toNat_add]
  cases c <;> rfl

theorem ofInt_toNat_sub_borrow (a b : DWord) (c : Bool) :
    BitVec.ofInt 32 ((a.toNat : Int) - b.toNat - (1 - c.toNat)) = a - b - borrow c := by
  have hborrow : (1 : Int) - c.toNat = (borrow c).toNat := by cases c <;> rfl
  rw [hborrow, Int.sub_eq_add_neg, BitVec.ofInt_add, ofInt_toNat_sub, BitVec.ofInt_neg, ofInt_toNat,
    ← BitVec.sub_eq_add_neg]

/-! ## Quotients and remainders -/

theorem unsignedCorner_none {b : DWord} (hb : b ≠ 0) (a : DWord) : unsignedCorner a b = none := if_neg hb

theorem signedCorner_none {a b : DWord} (hb : b.toInt ≠ 0) (hover : ¬ (a.toInt = -2 ^ 31 ∧ b.toInt = -1)) :
    signedCorner a b = none := by
  rw [signedCorner, if_neg hb, if_neg hover]

/-- A remainder of the division rounded toward zero has the sign of the dividend (rule R179). -/
theorem tmod_sign (a b : Int) : a.tmod b = 0 ∨ (a.tmod b < 0 ↔ a < 0) := by
  rcases lt_or_ge a 0 with ha | ha
  · have hm : 0 ≤ (-a).tmod b := Int.tmod_nonneg b (by omega)
    rw [Int.neg_tmod] at hm
    omega
  · have hm : 0 ≤ a.tmod b := Int.tmod_nonneg b ha
    omega

theorem abs_tmod_lt (a : Int) {b : Int} (hb : b ≠ 0) : |a.tmod b| < |b| := by
  rw [Int.abs_eq_natAbs, Int.abs_eq_natAbs, Int.natAbs_tmod, Nat.cast_lt]
  exact Nat.mod_lt _ (Int.natAbs_pos.2 hb)

/-- The quotient is rounded toward zero (rule R177). -/
theorem abs_tdiv_mul_le (a b : Int) : |a.tdiv b * b| ≤ |a| := by
  rw [Int.abs_eq_natAbs, Int.abs_eq_natAbs, Int.natAbs_mul, Int.natAbs_tdiv, Nat.cast_le]
  exact Nat.div_mul_le_self _ _

/-! ## Products and absolute values -/

theorem not_outsideSigned {x : Int} (hlow : -2 ^ 31 ≤ x) (hhigh : x < 2 ^ 31) : (!outsideSigned x) = true := by
  have hin : ¬ (x < -2 ^ 31 ∨ x > 2 ^ 31 - 1) := by omega
  simpa [outsideSigned] using hin

theorem ofInt_abs_toInt (a : DWord) :
    BitVec.ofInt 32 |a.toInt| = if a.toInt < 0 then BitVec.ofInt 32 (-a.toInt) else a := by
  split
  · next hneg => rw [abs_of_neg hneg]
  · next hpos => rw [abs_of_nonneg (not_lt.1 hpos), BitVec.ofInt_toInt]

/-! ## Outcomes -/

section
variable {s : State} {d : Reg} {i : Instr} {x v : DWord} {f : CV}

/-- An arithmetic instruction whose rule gives C and V. -/
theorem arith_known (he : exec i s = .next (arith s (s.lenOf i) d v (.known f))) (hv : x = v) :
    DataResult i s d x (some f) :=
  hv ▸ dataResult_known rfl rfl rfl (Frame.refl _ _ _ s) rfl he

/-- An arithmetic instruction whose result is always stated and whose rule leaves C and V arbitrary. -/
theorem arith_drawn (he : exec i s = .next (arith s (s.lenOf i) d v .drawn)) (hv : x = v) :
    DataResult i s d x none :=
  hv ▸ dataResult_drawn rfl rfl rfl (Frame.refl _ _ _ s) rfl he

end

/-! ## The statements -/

/-- Settles O46: `arith_known` nine times, each 32-bit result being the integer result modulo 2^32. -/
theorem additionAndSubtraction : Obligations.AdditionAndSubtraction := by
  unfold Obligations.AdditionAndSubtraction
  intro s d r o k a b e q c
  have hq : q = k.setWidth 32 := BitVec.ofNat_toNat 32 k
  have hk : k.toNat = q.toNat := by rw [hq, BitVec.toNat_setWidth_of_le (by decide)]
  rw [hk]
  exact ⟨arith_known rfl (ofInt_toNat_add a b), arith_known rfl (ofInt_toNat_add_carry a b s.sr.c),
    arith_known rfl (ofInt_toNat_sub a b), arith_known rfl (ofInt_toNat_sub_borrow a b s.sr.c),
    arith_known rfl (ofInt_toNat_sub b a), arith_known rfl (ofInt_toNat_sub_borrow b a s.sr.c),
    arith_known rfl (ofInt_toNat_sub 0 a), arith_known (hq ▸ rfl) (ofInt_toNat_add e q),
    arith_known (hq ▸ rfl) (ofInt_toNat_sub e q)⟩

/-- Settles O47: `divide_ok` off the corners, with the floor of the unsigned quotient and the signed quotient rounded
toward zero. -/
theorem division : Obligations.Division := by
  unfold Obligations.Division
  intro s d r o a b
  refine ⟨fun hb => ?_, fun hb hover => ?_⟩
  · have hpos : 0 < b.toNat := Nat.pos_of_ne_zero fun h => hb (BitVec.eq_of_toNat_eq h)
    have hcorner : unsignedCorner a b = none := unsignedCorner_none hb a
    exact ⟨a.toNat / b.toNat, a.toNat % b.toNat,
      divide_ok (fun a b => BitVec.ofNat 32 (a.toNat / b.toNat)) rfl rfl hcorner,
      divide_ok (fun a b => BitVec.ofNat 32 (a.toNat % b.toNat)) rfl rfl hcorner,
      (Nat.div_add_mod' a.toNat b.toNat).symm, Nat.mod_lt _ hpos⟩
  · have hne : b.toInt ≠ 0 := fun h => hb (BitVec.toInt_inj.1 h)
    have hcorner : signedCorner a b = none := signedCorner_none hne hover
    refine ⟨a.toInt.tdiv b.toInt, a.toInt.tmod b.toInt,
      divide_ok (fun a b => BitVec.ofInt 32 (a.toInt.tdiv b.toInt)) rfl rfl hcorner, ?_,
      (Int.mul_tdiv_add_tmod a.toInt b.toInt).symm, abs_tmod_lt a.toInt hne, tmod_sign a.toInt b.toInt,
      abs_tdiv_mul_le a.toInt b.toInt⟩
    rw [Int.tmod_def]
    exact divide_ok (fun a b => BitVec.ofInt 32 (a.toInt - b.toInt * a.toInt.tdiv b.toInt)) rfl rfl hcorner

/-- Settles O49: `multiply_ok` where the product fits or wraps, `multiply_some` for any product, and `arith_drawn` for
ABS. -/
theorem multiplyAndAbsolute : Obligations.MultiplyAndAbsolute := by
  unfold Obligations.MultiplyAndAbsolute
  intro s d r o a b p ps
  refine ⟨fun h => multiply_ok rfl rfl (h.imp_left fun hfits => decide_eq_true hfits),
    fun h => multiply_ok rfl rfl (h.imp_left fun ⟨hlow, hhigh⟩ => not_outsideSigned hlow hhigh),
    multiply_some rfl rfl, multiply_some rfl rfl, arith_drawn rfl (ofInt_abs_toInt a).symm⟩

end Sys2Proof.Machine
end

section
/-! The conversion instructions (`45_conversion.md` rules R190 to R199): bytes and Words cut from a Double Word, and
packed decimal, whose two directions are one fact about digits in a base. -/

namespace Sys2Proof.Machine

/-! ## Narrowed and widened values -/

theorem setWidth_low_eq_ofNat (v : DWord) (n : Nat) :
    (v.extractLsb' 0 n).setWidth 32 = BitVec.ofNat 32 (v.toNat % 2 ^ n) := by
  rw [← BitVec.ofNat_toNat, BitVec.extractLsb'_toNat, Nat.shiftRight_zero]

theorem signExtend_low_eq_ofInt (v : DWord) (n : Nat) :
    (v.extractLsb' 0 n).signExtend 32 = BitVec.ofInt 32 ((v.toNat : Int).bmod (2 ^ n)) := by
  rw [BitVec.signExtend, BitVec.toInt_eq_toNat_bmod, BitVec.extractLsb'_toNat, Nat.shiftRight_zero, Int.natCast_emod,
    Int.emod_bmod]

theorem setWidth_sign_append_eq_ofNat (v : DWord) (n : Nat) :
    (v.extractLsb' 31 1 ++ v.extractLsb' 0 n).setWidth 32 =
      BitVec.ofNat 32 (v.toNat / 2 ^ 31 * 2 ^ n + v.toNat % 2 ^ n) := by
  rw [← BitVec.ofNat_toNat, toNat_sign_append]

/-- Inside the range of a signed Byte the sign bit of a Double Word is bit 7 (rule R196). -/
theorem sign_append_eq_low_byte {v : DWord} (hlow : -128 ≤ v.toInt) (hhigh : v.toInt ≤ 127) :
    v.toNat / 2 ^ 31 * 2 ^ 7 + v.toNat % 2 ^ 7 = v.toNat % 2 ^ 8 := by
  rw [BitVec.toInt_eq_toNat_cond] at hlow hhigh
  split at hlow <;> omega

/-- Inside the range of a signed Word the sign bit of a Double Word is bit 15 (rule R198). -/
theorem sign_append_eq_low_word {v : DWord} (hlow : -32768 ≤ v.toInt) (hhigh : v.toInt ≤ 32767) :
    v.toNat / 2 ^ 31 * 2 ^ 15 + v.toNat % 2 ^ 15 = v.toNat % 2 ^ 16 := by
  rw [BitVec.toInt_eq_toNat_cond] at hlow hhigh
  split at hlow <;> omega

/-- A conversion whose result is always stated. -/
theorem convert_result {s : State} {d : Reg} {i : Instr} {x v : DWord} (he : exec i s = convert s (s.lenOf i) d v)
    (hv : v = x) : DataResult i s d x none :=
  hv ▸ dataResult_drawn rfl rfl rfl (Frame.refl _ _ _ s) rfl he

/-! ## Digits in a base -/

/-- The number whose digit at place `i`, for `i < n`, is `f i` in base `b`. -/
def ofPlaces (b : Nat) (f : Nat → Nat) (n : Nat) : Nat := ((List.range n).map fun i => f i * b ^ i).sum

theorem ofPlaces_succ (b : Nat) (f : Nat → Nat) (n : Nat) : ofPlaces b f (n + 1) = ofPlaces b f n + f n * b ^ n :=
  List.sum_range_succ _ n

theorem ofPlaces_congr (b : Nat) {f g : Nat → Nat} {n : Nat} (h : ∀ i, i < n → f i = g i) :
    ofPlaces b f n = ofPlaces b g n := by
  refine congrArg List.sum (List.map_congr_left fun i hi => ?_)
  rw [h i (List.mem_range.1 hi)]

theorem ofPlaces_lt {b : Nat} {f : Nat → Nat} {n : Nat} (h : ∀ i, i < n → f i < b) : ofPlaces b f n < b ^ n := by
  induction n with
  | zero => exact Nat.one_pos
  | succ n ih =>
    have hlow : ofPlaces b f n < b ^ n := ih fun i hi => h i (hi.trans n.lt_succ_self)
    calc ofPlaces b f (n + 1)
        < b ^ n + f n * b ^ n := by rw [ofPlaces_succ]; exact Nat.add_lt_add_right hlow _
      _ = (f n + 1) * b ^ n := by rw [Nat.succ_mul, Nat.add_comm]
      _ ≤ b * b ^ n := Nat.mul_le_mul_right _ (h n n.lt_succ_self)
      _ = b ^ (n + 1) := (Nat.pow_succ').symm

/-- A number is spelled by its own digits. -/
theorem ofPlaces_digits (b x n : Nat) : ofPlaces b (fun i => x / b ^ i % b) n = x % b ^ n := by
  induction n with
  | zero => exact (Nat.mod_one x).symm
  | succ n ih => rw [ofPlaces_succ, ih, Nat.mod_pow_succ, Nat.mul_comm]

/-- The digits of the number that digits spell are these digits. -/
theorem digit_ofPlaces {b : Nat} {f : Nat → Nat} {n j : Nat} (h : ∀ i, i < n → f i < b) (hj : j < n) :
    ofPlaces b f n / b ^ j % b = f j := by
  induction n with
  | zero => exact absurd hj j.not_lt_zero
  | succ n ih =>
    have hb : 0 < b := Nat.zero_lt_of_lt (h j hj)
    have hlow : ∀ i, i < n → f i < b := fun i hi => h i (hi.trans n.lt_succ_self)
    rw [ofPlaces_succ]
    rcases Nat.lt_succ_iff_lt_or_eq.1 hj with hlt | rfl
    · have hplace : f n * b ^ n = b ^ j * (b * (f n * b ^ (n - j - 1))) := by
        have hsplit : b ^ n = b ^ j * (b * b ^ (n - j - 1)) := by
          rw [← Nat.pow_succ', ← Nat.pow_add]
          congr 1
          omega
        rw [hsplit]
        ring
      rw [hplace, Nat.add_mul_div_left _ _ (Nat.pow_pos hb), Nat.add_mul_mod_self_left, ih hlow hlt]
    · rw [Nat.add_mul_div_right _ _ (Nat.pow_pos hb), Nat.div_eq_of_lt (ofPlaces_lt hlow), Nat.zero_add,
        Nat.mod_eq_of_lt (h j hj)]

/-! ## Packed decimal -/

theorem bcdDigit_eq (v : DWord) (i : Nat) : bcdDigit v i = v.toNat / 16 ^ i % 16 := by
  rw [bcdDigit, BitVec.extractLsb'_toNat, Nat.shiftRight_eq_div_pow, Nat.pow_mul]

theorem isBcd_iff (v : DWord) : isBcd v = true ↔ ∀ i, i < 8 → v.toNat / 16 ^ i % 16 ≤ 9 := by
  simp [isBcd, bcdDigit_eq]

theorem bcdValue_eq (v : DWord) : bcdValue v = ofPlaces 10 (fun i => v.toNat / 16 ^ i % 16) 8 :=
  ofPlaces_congr 10 fun i _ => bcdDigit_eq v i

theorem toNat_toBcd (n : Nat) : (toBcd n).toNat = ofPlaces 16 (fun i => n / 10 ^ i % 10) 8 := by
  have hlt : ofPlaces 16 (fun i => n / 10 ^ i % 10) 8 < 16 ^ 8 := ofPlaces_lt fun i _ => by omega
  exact (BitVec.toNat_ofNat _ _).trans (Nat.mod_eq_of_lt hlt)

/-- The packed digits of a number are its decimal digits (rule R199). -/
theorem digit_toBcd (n : Nat) {i : Nat} (hi : i < 8) : (toBcd n).toNat / 16 ^ i % 16 = n / 10 ^ i % 10 := by
  rw [toNat_toBcd]
  exact digit_ofPlaces (fun j _ => by omega) hi

/-- A number of eight decimal digits comes back from its packed form (rules R194, R199). -/
theorem number_toBcd {n : Nat} (hn : n ≤ 99999999) :
    ofPlaces 10 (fun i => (toBcd n).toNat / 16 ^ i % 16) 8 = n := by
  rw [ofPlaces_congr 10 fun i hi => digit_toBcd n hi, ofPlaces_digits]
  exact Nat.mod_eq_of_lt (Nat.lt_succ_of_le hn)

/-! ## CFBCD and CTBCD -/

/-- What CFBCD and CTBCD share: the result `v` on the domain `p`; outside it the rule states none. -/
def convertOn (p : Prop) [Decidable p] (f : Fault) (len : Nat) (d : Reg) (v : DWord) (s : State) : Out := finish do
  let (v, s1) ← if p then .ok (v, s) else s.unstatedResult f
  .ok (((s1.setReg d v).aluFlags v .drawn).advance len)

section
variable {s : State} {d r : Reg}

theorem exec_cfbcd : exec (.cfbcd d r) s = convertOn (isBcd (s.reg r) = true) .invalidBcd (s.lenOf (.cfbcd d r)) d
    (BitVec.ofNat 32 (bcdValue (s.reg r))) s := rfl

theorem exec_ctbcd : exec (.ctbcd d r) s = convertOn ((s.reg r).toNat ≤ 99999999) .bcdRange (s.lenOf (.ctbcd d r)) d
    (toBcd (s.reg r).toNat) s := rfl

variable {i : Instr} {p : Prop} [Decidable p] {f : Fault} {v : DWord}

theorem convertOn_ok (he : exec i s = convertOn p f (s.lenOf i) d v s) (hp : p) : DataResult i s d v none := by
  rw [convertOn, if_pos hp, ok_bind, finish_ok] at he
  exact dataResult_drawn rfl rfl rfl (Frame.refl _ _ _ s) rfl he

theorem convertOn_stop (he : exec i s = convertOn p f (s.lenOf i) d v s) (hp : ¬ p) (hu : s.cfg.unstated = .stop) :
    exec i s = .fault f := by
  rw [he, convertOn, if_neg hp, unstated_stop hu, error_bind, finish_error]

theorem convertOn_free (he : exec i s = convertOn p f (s.lenOf i) d v s) (hu : s.cfg.unstated = .free) :
    ∃ v, DataResult i s d v none := by
  by_cases hp : p
  · exact ⟨v, convertOn_ok he hp⟩
  · rw [convertOn, if_neg hp, unstated_free hu, ok_bind, finish_ok] at he
    exact dataResult_free rfl he

end

/-! ## The statements -/

/-- Settles O50: `convert_result` eight times, with each narrowed or widened value as a number. -/
theorem conversions : Obligations.Conversions := by
  unfold Obligations.Conversions
  intro d r
  refine ⟨encodes_encode (.cfb d r), encodes_encode (.cfbs d r), encodes_encode (.cfw d r), encodes_encode (.cfws d r),
    encodes_encode (.ctb d r), encodes_encode (.ctbs d r), encodes_encode (.ctw d r), encodes_encode (.ctws d r),
    fun s => ?_⟩
  exact ⟨convert_result rfl (setWidth_low_eq_ofNat _ 8), convert_result rfl (signExtend_low_eq_ofInt _ 8),
    convert_result rfl (setWidth_low_eq_ofNat _ 16), convert_result rfl (signExtend_low_eq_ofInt _ 16),
    convert_result rfl (setWidth_low_eq_ofNat _ 8), convert_result rfl (setWidth_sign_append_eq_ofNat _ 7),
    convert_result rfl (setWidth_low_eq_ofNat _ 16), convert_result rfl (setWidth_sign_append_eq_ofNat _ 15),
    sign_append_eq_low_byte, sign_append_eq_low_word⟩

/-- Settles O51: `convertOn` on and outside the two domains; `digit_toBcd` and `number_toBcd` for the digits. -/
theorem packedDecimal : Obligations.PackedDecimal := by
  unfold Obligations.PackedDecimal
  intro s d r x digit number
  refine ⟨fun hdigits => ⟨?_, ?_⟩, fun hx => ⟨toBcd x, convertOn_ok exec_ctbcd hx, fun i hi => digit_toBcd x hi,
    number_toBcd hx⟩, fun i hi hbad => convertOn_stop exec_cfbcd fun hbcd => ?_,
    fun hx => convertOn_stop exec_ctbcd (Nat.not_le.2 hx),
    fun hfree => ⟨convertOn_free exec_cfbcd hfree, convertOn_free exec_ctbcd hfree⟩⟩
  · have hnumber : bcdValue (s.reg r) = number x := bcdValue_eq (s.reg r)
    rw [← hnumber]
    exact convertOn_ok exec_cfbcd ((isBcd_iff _).2 hdigits)
  · have hlt : number x < 10 ^ 8 := ofPlaces_lt fun i hi => Nat.lt_succ_of_le (hdigits i hi)
    exact Nat.le_of_lt_succ hlt
  · exact absurd ((isBcd_iff _).1 hbcd i hi) (Nat.not_le.2 hbad)

end Sys2Proof.Machine
end

section
/-! Branches, calls, links and jumps (`46_branch.md` rules R205 to R227): the conditions, what each family does where
its condition holds and where it does not, and the meanings of the conditions after a comparer (`47_compare.md` rules
R232 to R235). -/

namespace Sys2Proof.Machine

variable {s t : State}

/-! ## Outcomes -/

theorem exec_branchInstr (c : Cond) (off : BrOff) (s : State) :
    exec (branchInstr c off) s = branchIf c off (s.lenOf (branchInstr c off)) s := by
  cases c <;> rfl

theorem callIf_untaken {c : Cond} (hc : s.sr.holds c = false) (off : BrOff) (n : Nat) :
    callIf c off n s = .next (s.advance n) := by
  rw [callIf, hc, if_neg Bool.false_ne_true]

theorem linkIf_untaken {c : Cond} (hc : s.sr.holds c = false) (off : BrOff) (n : Nat) :
    linkIf c off n s = .next (s.advance n) := by
  rw [linkIf, hc, if_neg Bool.false_ne_true]

/-- The indirect form of JMP where its pointer is readable (rule R125). -/
theorem exec_jmp_indirect {addr : DWord} (h : Accessible s .dword addr) :
    exec (.jmp (.indirect addr)) s = .next { s with pc := s.datum .dword addr.toNat } := by
  show execJmp (.indirect addr) s = _
  rw [execJmp, h.read, ok_bind, finish_ok]

theorem exec_jmp_indirect_error {addr : DWord} {f : Fault} (h : checkAccess s.cfg .dword addr = .error f) :
    exec (.jmp (.indirect addr)) s = .fault f := by
  show execJmp (.indirect addr) s = _
  rw [execJmp, (memRead_error s .dword addr f).2 h, error_bind, finish_error]

/-! ## Conditions after a comparer -/

theorem sr_of_exec_cmp {r : Reg} {o : Opt} (he : exec (.cmp r o) s = .next t) :
    t.sr = (s.compareFlags (s.reg r - s.opt o) (subFlags (s.reg r) (s.opt o) true)).sr := by
  obtain rfl := Host.Outcome.next.inj he
  rfl

theorem sr_of_exec_cmn {r : Reg} {o : Opt} (he : exec (.cmn r o) s = .next t) :
    t.sr = (s.compareFlags (s.reg r + s.opt o) (addFlags (s.reg r) (s.opt o) false)).sr := by
  obtain rfl := Host.Outcome.next.inj he
  rfl

theorem sr_of_exec_teq {r : Reg} {o : Opt} (he : exec (.teq r o) s = .next t) :
    ∃ f, t.sr = (s.compareFlags (s.reg r ^^^ s.opt o) f).sr := by
  obtain rfl := Host.Outcome.next.inj he
  exact ⟨_, rfl⟩

/-- A comparer's Z says that its result is 0. -/
theorem compareFlags_z (s : State) (v : DWord) (f : CV) : (s.compareFlags v f).sr.z = true ↔ v = 0 := by
  rw [compareFlags_sr, beq_iff_eq]

/-- "No borrow" is unsigned `≥` (rule R231). -/
theorem subFlags_c_true (a b : DWord) : (subFlags a b true).c = true ↔ b.toNat ≤ a.toNat := by
  simp only [subFlags, Bool.toNat_true, decide_eq_true_eq]
  omega

/-- The sign of a difference agrees with its overflow exactly where the true difference is not negative: without
overflow the sign is that of the true difference, with overflow it is the other one. -/
theorem msb_sub_eq_overflow (a b : DWord) : (a - b).msb = (subFlags a b true).v ↔ b.toInt ≤ a.toInt := by
  have ha := a.toInt_lt
  have ha' := a.le_toInt
  have hb := b.toInt_lt
  have hb' := b.le_toInt
  rw [BitVec.msb_eq_toInt, BitVec.toInt_sub, Bool.eq_iff_iff, Int.bmod_def]
  simp only [subFlags, outsideSigned, Bool.toNat_true, Bool.or_eq_true, decide_eq_true_eq]
  omega

/-! ## The statements -/

/-- Settles O52: each condition is the connective of its flags, and the numbers compute. -/
theorem conditions : Obligations.Conditions := by
  unfold Obligations.Conditions
  intro r
  have hnot (x : Bool) : (!x) = true ↔ x = false := iff_of_eq (Bool.not_eq_true' x)
  refine ⟨.rfl, hnot r.z, .rfl, hnot r.c, .rfl, hnot r.n, .rfl, hnot r.v, ?_, ?_, beq_iff_eq, bne_iff_ne, ?_, ?_, rfl,
    rfl⟩
  · rw [Sr.holds, Bool.and_eq_true, hnot]
  · rw [Sr.holds, Bool.or_eq_true, hnot]
  · rw [Sr.holds, Bool.and_eq_true, hnot, beq_iff_eq]
  · rw [Sr.holds, Bool.or_eq_true, bne_iff_ne]

/-- Settles O53: `branchIf` chooses between the target and the next instruction; each form of JMP sets `pc` only. -/
theorem branchesAndJumps : Obligations.BranchesAndJumps := by
  unfold Obligations.BranchesAndJumps
  intro s
  have hframe (v : DWord) : Frame [] [] [] s { s with pc := v } := (Frame.refl _ _ _ s).setPc v
  refine ⟨fun c off => ⟨_, exec_branchInstr c off s, ?_, hframe _⟩, fun addr => ⟨_, rfl, rfl, hframe addr⟩,
    fun addr h => ⟨_, exec_jmp_indirect h, rfl, hframe _⟩, fun addr f h => exec_jmp_indirect_error h,
    fun d => ⟨_, rfl, rfl, hframe _⟩⟩
  exact congrArg (ite (s.sr.holds c = true) · _) (target_eq s off)

/-- Settles O54: a taken call is a push and a write of `pc`. -/
theorem calls : Obligations.Calls := by
  unfold Obligations.Calls
  intro s c off offset next
  refine ⟨fun hc hroom hm => ?_, fun hc => ?_⟩
  · refine ⟨_, (exec_callInstr c off s).trans ((callIf_taken hc).2 ⟨hroom, rfl⟩), target_eq s off, rfl,
      datum_pushed hm hroom next, ?_⟩
    exact ((Frame.refl _ _ _ s).pushed next (.head _) (.head _)).setPc _
  · exact ⟨_, (exec_callInstr c off s).trans (callIf_untaken hc _ _), rfl, (Frame.refl _ _ _ s).advance _⟩

/-- Settles O55: a taken link is a write of LR and of `pc`. -/
theorem links : Obligations.Links := by
  unfold Obligations.Links
  intro s c off offset next
  refine ⟨fun hc => ?_, fun hc => ?_⟩
  · exact ⟨_, (exec_linkInstr c off s).trans (linkIf_taken hc _ _), target_eq s off, rfl,
      ((Frame.refl _ _ _ s).setLr next (.head _)).setPc (s.target off)⟩
  · exact ⟨_, (exec_linkInstr c off s).trans (linkIf_untaken hc _ _), rfl, (Frame.refl _ _ _ s).advance _⟩

/-- Settles O59: the flags that CMP, CMN and TEQ leave, read through the condition table of `conditions`. -/
theorem conditionsAfterCompare : Obligations.ConditionsAfterCompare := by
  unfold Obligations.ConditionsAfterCompare
  intro s t r o a b
  obtain ⟨heq, hne, hcs, hcc, hmi, -, -, -, hhi, hls, hge, hlt, hgt, hle, -⟩ := conditions t.sr
  refine ⟨fun he => ?_, fun he => ?_, fun he => ?_⟩
  · have hsr := sr_of_exec_cmp he
    have hz : t.sr.z = true ↔ a = b := by rw [hsr, compareFlags_z, sub_eq_zero]
    have hc : t.sr.c = true ↔ b.toNat ≤ a.toNat := by rw [hsr]; exact subFlags_c_true a b
    have hnv : t.sr.n = t.sr.v ↔ b.toInt ≤ a.toInt := by rw [hsr]; exact msb_sub_eq_overflow a b
    have hz' : t.sr.z = false ↔ a ≠ b := by rw [← Bool.not_eq_true, hz]
    have hc' : t.sr.c = false ↔ a.toNat < b.toNat := by rw [← Bool.not_eq_true, hc, Nat.not_le]
    have hnv' : t.sr.n ≠ t.sr.v ↔ a.toInt < b.toInt := hnv.not.trans Int.not_le
    refine ⟨heq.trans hz, hne.trans hz', hcs.trans hc, hcc.trans hc', ?_, ?_, hge.trans hnv, hlt.trans hnv', ?_, ?_⟩
    · rw [hhi, hc, hz', ← BitVec.toNat_ne_iff_ne]
      omega
    · rw [hls, hc', hz, ← BitVec.toNat_inj]
      omega
    · rw [hgt, hz', hnv, Ne, ← BitVec.toInt_inj]
      omega
    · rw [hle, hz, hnv', ← BitVec.toInt_inj]
      omega
  · rw [heq, sr_of_exec_cmn he, compareFlags_z, add_eq_zero_iff_eq_neg, zero_sub]
  · obtain ⟨f, hsr⟩ := sr_of_exec_teq he
    have hn : t.sr.n = (a ^^^ b).msb := by rw [hsr]; rfl
    refine ⟨?_, ?_⟩
    · rw [heq, hsr, compareFlags_z]
      exact BitVec.xor_eq_zero_iff
    · rw [hmi, hn, BitVec.msb_xor, Bool.xor_iff_ne, BitVec.msb_eq_getLsbD_last, BitVec.msb_eq_getLsbD_last]

end Sys2Proof.Machine
end

section
/-! A step that fetches (`70_reset_and_hazards.md` rule R294 part (c)): the bytes of one instruction are as many as its
length, and the step is the meaning of that instruction. -/

namespace Sys2Proof.Machine

/-- Bytes that are one instruction and no more are as many as its length (rule R14): AFH, whose second byte is free, as
well as those the encoder writes; in a table they are those of the instruction's entry. -/
theorem read_length {e : Encoding} (hw : e.wf = true) {bo : ByteOrder} {bs : List Byte} {i : Instr}
    (h : e.read bo bs = .ok (i, [])) : bs.length = e.len i := by
  cases e with
  | section3 =>
    obtain ⟨-, hother, hafh⟩ := encode_decode (show decode bo bs = .ok (i, []) from h)
    by_cases hi : i = .afh
    · obtain ⟨b, rfl⟩ := hafh hi
      rw [hi]
      rfl
    · rw [hother hi, List.append_nil, encode_length]
      rfl
  | table rows =>
    obtain ⟨r, hr, hhead, rfl, hrest⟩ := table_read_ok h
    rw [table_len_row hw hr]
    exact Nat.le_antisymm (List.drop_eq_nil_iff.1 hrest) (heads_length hhead)

/-- A step that fetches executes what it fetched. -/
theorem step_fetch_ok {s : State} {i : Instr} (he : Executes s) (hf : fetch s.afterAnswer = .ok i) :
    step s = exec i s.afterAnswer := by
  obtain ⟨hhalted, hwaiting, htrap⟩ := he
  simp [step, hhalted, hwaiting, htrap, hf]

/-- Settles O6: `fetch_ok` on the state whose interrupt answer has been read, which has the `pc`, the memory and the
parameters of the state before; the length is `read_length`. -/
theorem stepRunsDecodedInstruction : Obligations.StepRunsDecodedInstruction := by
  unfold Obligations.StepRunsDecodedInstruction
  intro s n i he heven hw hfetch hread
  refine ⟨step_fetch_ok he (fetch_ok s.afterAnswer n i heven hw hfetch hread), ?_⟩
  rw [← s.bytesAt_length s.pc.toNat n]
  exact read_length hw hread

end Sys2Proof.Machine
end

section
/-! Interrupts at a boundary (`60_exceptions.md` rules R261, R262, R264, R265): which one is taken, what the oracle
answers there and after, and the entry of the one that is taken. -/

namespace Sys2Proof.Machine

/-! ## Which interrupt is taken (rule R262) -/

section
variable {s : State}

theorem lineWants_iff (s : State) (n : Nat) : lineWants s.cfg s.answer n = true ↔ LinePending s n := by
  rw [lineWants, LinePending]
  cases s.cfg.irqLines[n]? with
  | none => simp
  | some l => simp [List.getD_eq_getElem?_getD, Option.getD_eq_iff]

theorem LinePending.lt_length {n : Nat} (h : LinePending s n) : n < s.cfg.irqLines.length := by
  obtain ⟨l, hl, -⟩ := h
  exact (List.getElem?_eq_some_iff.1 hl).1

/-- The lowest-numbered line that is selected and pending. -/
def State.firstLine (s : State) : Option Nat :=
  (List.range s.cfg.irqLines.length).find? (lineWants s.cfg s.answer)

theorem firstLine_eq_some {n : Nat} :
    s.firstLine = some n ↔ LinePending s n ∧ ∀ m, m < n → ¬ LinePending s m := by
  simp only [State.firstLine, List.find?_range_eq_some, List.mem_range, Bool.not_eq_true', ← Bool.not_eq_true,
    lineWants_iff]
  exact ⟨fun ⟨h, _, hlow⟩ => ⟨h, hlow⟩, fun ⟨h, hlow⟩ => ⟨h, h.lt_length, hlow⟩⟩

theorem firstLine_eq_none : s.firstLine = none ↔ ∀ n, ¬ LinePending s n := by
  simp only [State.firstLine, List.find?_eq_none, List.mem_range, lineWants_iff]
  exact ⟨fun h n hn => h n hn.lt_length hn, fun h n _ => h n⟩

/-- The three cases of a boundary: NMI comes before every line, with `I = 0` no line is taken, with `I = 1` the first
one. -/
theorem pendingTrap_cases (s : State) :
    (s.answer.nmi = true ∧ s.pendingTrap = some .nmi) ∨
    (s.answer.nmi = false ∧ s.sr.i = false ∧ s.pendingTrap = none) ∨
    (s.answer.nmi = false ∧ s.sr.i = true ∧ s.pendingTrap = s.firstLine.map TrapKind.irq) := by
  cases hn : s.answer.nmi with
  | true => exact .inl ⟨rfl, if_pos hn⟩
  | false =>
    cases hi : s.sr.i with
    | false => exact .inr (.inl ⟨rfl, rfl, by simp [State.pendingTrap, hn, hi]⟩)
    | true => exact .inr (.inr ⟨rfl, rfl, by simp [State.pendingTrap, State.firstLine, hn, hi]⟩)

theorem pendingTrap_eq_nmi : s.pendingTrap = some .nmi ↔ s.answer.nmi = true := by
  rcases pendingTrap_cases s with ⟨hn, hp⟩ | ⟨hn, -, hp⟩ | ⟨hn, -, hp⟩ <;> simp [hn, hp]

theorem pendingTrap_eq_irq {n : Nat} : s.pendingTrap = some (.irq n) ↔
    s.answer.nmi = false ∧ s.sr.i = true ∧ LinePending s n ∧ ∀ m, m < n → ¬ LinePending s m := by
  rw [← firstLine_eq_some]
  rcases pendingTrap_cases s with ⟨hn, hp⟩ | ⟨hn, hi, hp⟩ | ⟨hn, hi, hp⟩
  · simp [hn, hp]
  · simp [hi, hp]
  · simp [hn, hi, hp]

theorem pendingTrap_eq_none :
    s.pendingTrap = none ↔ s.answer.nmi = false ∧ (s.sr.i = false ∨ ∀ n, ¬ LinePending s n) := by
  rw [← firstLine_eq_none]
  rcases pendingTrap_cases s with ⟨hn, hp⟩ | ⟨hn, hi, hp⟩ | ⟨hn, hi, hp⟩
  · simp [hn, hp]
  · simp [hn, hi, hp]
  · simp [hn, hi, hp]

/-- Only NMI and the lines are ever taken at a boundary. -/
theorem pendingTrap_kind {k : TrapKind} (h : s.pendingTrap = some k) : k = .nmi ∨ ∃ n, k = .irq n := by
  rcases pendingTrap_cases s with ⟨-, hp⟩ | ⟨-, -, hp⟩ | ⟨-, -, hp⟩ <;> rw [hp] at h
  · exact .inl (Option.some.inj h).symm
  · cases h
  · obtain ⟨n, -, hk⟩ := Option.map_eq_some_iff.1 h
    exact .inr ⟨n, hk.symm⟩

/-! ## Who answers (rule R261) -/

/-- A listed answer is taken off the list. -/
theorem cons_after_next (a : IntAnswer) (l : List IntAnswer) (o : IntSource) (k : Option TrapKind) :
    ((IntOracle.mk (a :: l) o).after k).next = l := rfl

/-- A step of a machine that is not halted reads one answer. -/
theorem step_oracle {t : State} (hh : s.halted = false) (h : step s = .next t) : t.oracle = s.afterAnswer.oracle := by
  rcases step_next h with ⟨hh', -⟩ | ⟨-, ⟨kind, htrap⟩ | ⟨-, rfl⟩ | ⟨-, i, he⟩⟩
  · rw [hh] at hh'
    cases hh'
  · obtain ⟨-, rfl⟩ := (takeTrap_ok _ _ _ _).1 htrap
    rfl
  · rfl
  · obtain ⟨-, -, -, -, -, -, horacle⟩ := onlyNamedInstructionsWrite i s.afterAnswer t he
    exact horacle

/-- An answer that is held stays. -/
theorem step_held {t : State} {a : IntAnswer} (ho : s.oracle = ⟨[], .cycle [a]⟩) (h : step s = .next t) :
    t.oracle = ⟨[], .cycle [a]⟩ := by
  cases hh : s.halted with
  | true =>
    obtain rfl := Host.Outcome.next.inj ((step_halted hh).symm.trans h)
    exact ho
  | false => rw [step_oracle hh h, afterAnswer_oracle, ho, held_after]

end

/-- What every step keeps, every run keeps. -/
theorem run_keeps {M : Host.Core} {P : M.State → Prop} (hstep : ∀ s t, P s → M.step s = .next t → P t) {n : Nat} :
    ∀ {s t : M.State}, P s → M.run n s = .next t → P t := by
  induction n with
  | zero => exact fun hs h => Host.Outcome.next.inj h ▸ hs
  | succ n ih =>
    intro s t hs h
    rw [Host.Core.run] at h
    split at h
    case h_1 s' hs' => exact ih (hstep s s' hs hs') h
    case h_2 => cases h
    case h_3 => cases h

/-! ## The entry of a trap -/

/-- Where there is room for the two pushes a trap is taken, and does what rule R264 says. -/
theorem TrapRoom.trapTaken {s : State} (h : TrapRoom s) (hm : memWf s.mem) (kind : TrapKind) (ret : DWord) :
    ∃ t, finish (takeTrap s kind ret) = .next t ∧ TrapTaken s t (s.cfg.vec kind) ret := by
  obtain ⟨t, ht⟩ := h.take kind ret
  exact ⟨t, (finish_next _ _).2 ht, takeTrap_taken s t kind ret hm ht⟩

/-- A machine that is not halted takes the interrupt there is to take, waiting or not (rules R83, R265). -/
theorem step_takes {s : State} {kind : TrapKind} (hh : s.halted = false) (hp : s.pendingTrap = some kind) :
    step s = finish (takeTrap s.afterAnswer kind s.pc) := by
  simp [step, hh, hp]

/-! ## The statements -/

/-- Settles O9: the three branches of `pendingTrap`, the laws of the oracle, and one answer read at each boundary. -/
theorem interruptSelection : Obligations.InterruptSelection := by
  unfold Obligations.InterruptSelection
  intro s
  refine ⟨pendingTrap_eq_nmi, fun n => pendingTrap_eq_irq, pendingTrap_eq_none, fun k => pendingTrap_kind,
    fun a next source ho => ?_, fun a again ho => ?_, fun n taken ho => ?_, fun ho => ?_, fun t => step_oracle,
    fun a n t ho h => ?_⟩
  · rw [State.answer, afterAnswer_oracle, ho]
    exact ⟨cons_answer a next source, cons_after_next a next source _⟩
  · rw [State.answer, afterAnswer_oracle, ho]
    exact cycle_after a again _
  · rw [State.answer, afterAnswer_oracle, ho]
    exact ⟨free_answer n taken, free_after [] n taken _⟩
  · rw [afterAnswer_oracle, ho]
    exact ⟨pendingTrap_never ho, never_after _⟩
  · have hheld : t.oracle = ⟨[], .cycle [a]⟩ :=
      run_keeps (M := Sys2Proof.core) (P := fun u => u.oracle = ⟨[], .cycle [a]⟩) (fun _ _ => step_held) ho h
    show t.oracle.answer = a
    rw [hheld]
    exact (cycle_after a [] none).1

/-- Settles O10: the step is the entry of rule R264 from the state whose interrupt answer has been read, and that entry
leaves the oracle alone. -/
theorem interruptTaken : Obligations.InterruptTaken := by
  unfold Obligations.InterruptTaken
  intro s k hh hp hroom hm
  have hroom' : TrapRoom s.afterAnswer := hroom
  obtain ⟨t, ht, htaken⟩ := hroom'.trapTaken hm k s.pc
  refine ⟨t, (step_takes hh hp).trans ht, htaken, ?_⟩
  rw [htaken.frame.oracle, afterAnswer_oracle, hp]

end Sys2Proof.Machine
end

section
/-! The interrupt instructions (`48_interrupt_instructions.md` rules R240 to R243; `60_exceptions.md` rules R263 to
R266): a trap for BRK, DBG and SVC, one push and a jump for SWI. -/

namespace Sys2Proof.Machine

/-- Where there is room for its push SWI is entered (rule R266). -/
theorem exec_swi_ok {s : State} (n : BitVec 5) (h : Accessible s .dword (s.sp - 4)) :
    exec (.swi n) s = .next { s.pushed (s.pc + 2) with pc := s.cfg.vectors.swi.get n.toFin } :=
  (finish_next _ _).2 ((takeSwi_ok _ _ _ _).2 ⟨h, rfl⟩)

/-- Settles O21: three encodings, and the entry of rule R264 with the vector of each instruction. -/
theorem trapEntry : Obligations.TrapEntry := by
  unfold Obligations.TrapEntry
  intro v
  refine ⟨encodes_encode (.brk v), encodes_encode (.dbg v), encodes_encode (.svc v), fun s hroom hm => ?_⟩
  exact ⟨hroom.trapTaken hm .abort (s.pc + 4), hroom.trapTaken hm .debug (s.pc + 4),
    hroom.trapTaken hm .svc (s.pc + 4)⟩

/-- Settles O22: the encoding, and the laws of the one push. -/
theorem softwareInterrupt : Obligations.SoftwareInterrupt := by
  unfold Obligations.SoftwareInterrupt
  intro n
  refine ⟨encodes_encode (.swi n), fun s hroom hm => ?_⟩
  exact ⟨_, exec_swi_ok n hroom, rfl, rfl, datum_pushed hm hroom (s.pc + 2),
    ((Frame.refl _ _ _ s).pushed (s.pc + 2) (.head _) (.head _)).setPc _⟩

end Sys2Proof.Machine
end

section
/-! The flag functions (`47_compare.md` rules R230, R231), the comparers (R232 to R235), and RAND and SEED (`49_misc.md`
rules R250, R251). -/

namespace Sys2Proof.Machine

/-! ## Signs and overflow -/

theorem outsideSigned_iff (x : Int) : outsideSigned x = true ↔ x < -2 ^ 31 ∨ 2 ^ 31 - 1 < x := by
  rw [outsideSigned, Bool.or_eq_true, decide_eq_true_iff, decide_eq_true_iff, gt_iff_lt]

/-- The sign of a 32-bit result is the sign of the true result where that is in range, and the other sign where it is
not. -/
theorem msb_ofInt_iff {x : Int} (hlow : -2 ^ 32 ≤ x) (hhigh : x < 2 ^ 32) :
    (BitVec.ofInt 32 x).msb = true ↔ (-2 ^ 31 ≤ x ∧ x < 0) ∨ 2 ^ 31 ≤ x := by
  rw [BitVec.msb_eq_toInt, BitVec.toInt_ofInt, Int.bmod_def, decide_eq_true_iff]
  omega

/-- The 32-bit sum of two Double Words and a carry is that of their signed values. -/
theorem ofNat_toNat_add_carry_eq_ofInt (a b : DWord) (c : Bool) :
    BitVec.ofNat 32 (a.toNat + b.toNat + c.toNat) = BitVec.ofInt 32 (a.toInt + b.toInt + c.toNat) := by
  simp only [BitVec.ofInt_add, BitVec.ofInt_toInt, BitVec.ofInt_natCast, BitVec.ofNat_add, BitVec.ofNat_toNat,
    BitVec.setWidth_eq]

theorem toInt_complement (b : DWord) : (~~~b).toInt = -b.toInt - 1 := by
  have hb := b.isLt
  rw [BitVec.toInt_not, BitVec.toInt_eq_toNat_bmod, Int.bmod_def, Int.bmod_def]
  omega

/-! ## The flag functions -/

theorem addFlags_c (a b : DWord) (c : Bool) :
    (addFlags a b c).c = true ↔ 2 ^ 32 ≤ a.toNat + b.toNat + c.toNat := decide_eq_true_iff

theorem subFlags_c (a b : DWord) (c : Bool) :
    (subFlags a b c).c = true ↔ 0 ≤ (a.toNat : Int) - b.toNat - (1 - (c.toNat : Int)) := decide_eq_true_iff

/-- Overflow of a sum by signs (rule R230): operands of one sign, and a result of the other. -/
theorem addFlags_v_iff_msb (a b : DWord) (c : Bool) : (addFlags a b c).v = true ↔
    a.msb = b.msb ∧ (BitVec.ofNat 32 (a.toNat + b.toNat + c.toNat)).msb ≠ a.msb := by
  have ha := a.toInt_lt
  have ha' := a.le_toInt
  have hb := b.toInt_lt
  have hb' := b.le_toInt
  have hc := c.toNat_le
  have hsign := msb_ofInt_iff (x := a.toInt + b.toInt + c.toNat) (by omega) (by omega)
  refine (outsideSigned_iff _).trans ?_
  rw [ofNat_toNat_add_carry_eq_ofInt, ne_eq, Bool.eq_iff_iff (a := a.msb) (b := b.msb),
    Bool.eq_iff_iff (b := a.msb), hsign, BitVec.msb_eq_toInt, BitVec.msb_eq_toInt, decide_eq_true_iff,
    decide_eq_true_iff]
  omega

/-- A subtraction is the addition of the complement (rule R231). -/
theorem subFlags_eq_addFlags_not (a b : DWord) (c : Bool) : subFlags a b c = addFlags a (~~~b) c := by
  have hb := b.isLt
  rw [subFlags, addFlags, toInt_complement, BitVec.toNat_not, CV.mk.injEq]
  refine ⟨decide_eq_decide.2 ?_, congrArg outsideSigned ?_⟩
  · omega
  · omega

/-- Overflow of a difference by signs (rule R231): operands of two signs, and a result without the sign of the first. -/
theorem subFlags_v_iff_msb (a b : DWord) :
    (subFlags a b true).v = true ↔ a.msb ≠ b.msb ∧ (a - b).msb ≠ a.msb := by
  have hdiff : BitVec.ofNat 32 (a.toNat + (~~~b).toNat + true.toNat) = a - b := by
    rw [BitVec.ofNat_add, BitVec.ofNat_add, BitVec.ofNat_toNat, BitVec.ofNat_toNat, BitVec.setWidth_eq,
      BitVec.setWidth_eq, BitVec.sub_eq_add_neg, BitVec.neg_eq_not_add, BitVec.add_assoc]
    rfl
  have hmsb : (~~~b).msb = !b.msb := BitVec.msb_not
  rw [subFlags_eq_addFlags_not, addFlags_v_iff_msb, hdiff, hmsb, Bool.eq_not]

/-- Settles O57: the definitions for C, and overflow by signs for the sum, of which the difference is a case. -/
theorem flagFunctions : Obligations.FlagFunctions := by
  unfold Obligations.FlagFunctions
  intro a b cin sum diff rs rd
  have hrd : rd = a - b := ofInt_toNat_sub a b
  refine ⟨addFlags_c a b cin, outsideSigned_iff sum, addFlags_v_iff_msb a b cin, subFlags_c a b cin,
    outsideSigned_iff diff, subFlags_eq_addFlags_not a b cin, subFlags_c_true a b, ?_⟩
  rw [hrd]
  exact subFlags_v_iff_msb a b

/-! ## The comparers -/

section
variable {i : Instr} {s : State} {v : DWord}

/-- N and Z say the sign of a comparer's result and whether it is 0. -/
theorem compareFlags_nz (s : State) (v : DWord) (f : CV) :
    (s.compareFlags v f).sr.n = v.getLsbD 31 ∧ ((s.compareFlags v f).sr.z = true ↔ v = 0) :=
  ⟨BitVec.msb_eq_getLsbD_last v, compareFlags_z s v f⟩

/-- The form of CMP and CMN. -/
theorem exec_compares {f : CV} (h : exec i s = .next ((s.compareFlags v f).advance (s.lenOf i))) :
    ∃ t, exec i s = .next t ∧ (t.sr.n = v.getLsbD 31 ∧ (t.sr.z = true ↔ v = 0)) ∧ t.sr.c = f.c ∧ t.sr.v = f.v ∧
      MovesOn i s t ∧ Frame [] [.n, .z, .c, .v] [] s t :=
  ⟨_, h, compareFlags_nz s v f, rfl, rfl, movesOn rfl,
    ((Frame.refl _ _ _ s).compareFlags v f (List.Subset.refl _)).advance _⟩

/-- The form of TST and TEQ, which draw C and V. -/
theorem exec_tests (h : exec i s = testBits s v (s.lenOf i)) :
    ∃ t, exec i s = .next t ∧ (t.sr.n = v.getLsbD 31 ∧ (t.sr.z = true ↔ v = 0)) ∧ MovesOn i s t ∧
      Frame [] [.n, .z, .c, .v, .draws] [] s t :=
  ⟨_, h, compareFlags_nz _ v _, movesOn rfl,
    ((((Frame.refl _ _ _ s).drawBit (by simp)).drawBit (by simp)).compareFlags v _ (by simp)).advance _⟩

end

/-- Settles O58: four encodings; the difference and the sum of CMP and CMN are those of the integers modulo 2^32. -/
theorem comparers : Obligations.Comparers := by
  unfold Obligations.Comparers
  intro r o
  refine ⟨encodes_encode (.cmp r o), encodes_encode (.cmn r o), encodes_encode (.tst r o), encodes_encode (.teq r o),
    fun s => ?_⟩
  intro a b nz
  have hsub : BitVec.ofInt 32 (a.toNat - b.toNat) = a - b := ofInt_toNat_sub a b
  have hadd : BitVec.ofNat 32 (a.toNat + b.toNat) = a + b := (BitVec.add_def a b).symm
  rw [hsub, hadd]
  exact ⟨exec_compares rfl, exec_compares rfl, exec_tests rfl, exec_tests rfl⟩

/-! ## RAND and SEED -/

theorem Frame.setSeed {regs : List Reg} {parts : List Part} {stored : List (Nat × Nat)} {s t : State}
    (h : Frame regs parts stored s t) (v : DWord) (hp : .seed ∈ parts) :
    Frame regs parts stored s { t with seed := v } :=
  h.trans { Frame.refl regs parts stored t with seed := fun hq => absurd hp hq }

/-- Settles O60: two draws, one for Rd and one for `seed`, and one write of `seed`. -/
theorem randomAndSeed : Obligations.RandomAndSeed := by
  unfold Obligations.RandomAndSeed
  intro s d r
  have hdraws : Frame [d] [.seed, .draws] [] s s.drawDWord.2.drawDWord.2 :=
    ((Frame.refl _ _ _ s).drawDWord (.tail _ (.head _))).drawDWord (.tail _ (.head _))
  refine ⟨⟨_, rfl, movesBy rfl rfl, ?_⟩, ⟨_, rfl, rfl, movesBy rfl rfl, ?_⟩⟩
  · exact ((hdraws.setReg d _ (.head _)).setSeed _ (.head _)).advance _
  · exact ((Frame.refl _ _ _ s).setSeed (s.reg r) (.head _)).advance _

end Sys2Proof.Machine
end
